-- ==== Sys2Proof/Config.lean ====
section
/-! DEFINITION. The free values of the model: constants without a body, which no proof can see. -/

namespace Sys2Proof

/-- FREE VALUE (log 11, DESIGN CHOICE): what a field of `size` bytes carries when its value does not fit
them. The spec states no such encoding. -/
opaque Config.unfit : (size value : Nat) → Nat

/-- FREE VALUE (log 12, DESIGN CHOICE): the wound length held when the formula of R17 exceeds the range
0 to 4,294,967,295 of a length. The spec states no result there. -/
opaque Config.unfitLength : (exact : Nat) → Nat

/-- FREE VALUE (log 35, DESIGN CHOICE): the length of a lay span whose last out end lies below its run start, as
backing can leave it. The spec states no such length. -/
opaque Config.unfitSpan : (start stop : Nat) → Nat

end Sys2Proof
end

