-- ==== Sys2Proof/Word.lean ====
section
/-! DEFINITION. The words the manual treats as bits, and the one bound that many quantities share. -/

namespace Sys2Proof

/-- A byte of the serial line or of the store. -/
abbrev Byte := BitVec 8

/-- A set of stop causes, the member of code n in bit n - 1 (R194). -/
abbrev CauseSet := BitVec 16

/-- A set of mark kinds, the member of code n in bit n - 1 (R194). -/
abbrev KindSet := BitVec 16

/-- A set of hooks, hook h in bit h (the knotting machine, R107, R111). -/
abbrev HookSet := BitVec 64

/-- The top of lengths, positions, spans and 32-bit counts (00_scope.md, Conventions, Units). -/
abbrev top32 : Nat := 4294967295

end Sys2Proof
end

