-- ==== Sys2Proof/Syntax.lean ====
section
/-! DEFINITION. The commands: one constructor for each row of spec/opcode_table.json, with its operands.
Request fields are the numbers their bytes spell, in or out of range: the range checks are the machine's. -/

namespace Sys2Proof

/-- The 20 pulse inputs (01_count_inputs.md, "Pulse inputs and their classes"). -/
inductive PulseInput where
  | sp (i : Fin 8)
  | dl (i : Fin 8)
  | lh
  | mw
  | nw
  | ks
  deriving DecidableEq, Repr

/-- The 11 level inputs (01_count_inputs.md, "Level inputs"). -/
inductive LevelInput where
  | sd (i : Fin 8)
  | rev
  | cdr
  | cdn
  deriving DecidableEq, Repr

/-- The two lines: the rope line (machine 8) and the net line (machine 9). -/
inductive LineId where
  | rope
  | net
  deriving DecidableEq, Repr

/-- The blocks that act on a rise of a line's position (R68). -/
inductive RiseBlock where
  | packageTable
  | twistMonitor
  | lineActions
  | packPlanner
  | storeController
  deriving DecidableEq, Repr

/-- What one programming or erase left other than intended: (offset in its page, byte) (R152, log 5). -/
abbrev StepFault := List (Nat × Byte)

/-- The fields of a TWIST recipe, in field order (09_recipes_and_the_plant_record.md). -/
structure TwistRecipe where
  nominal : Nat
  tolLow : Nat
  tolHigh : Nat
  window : Nat
  shift : Nat
  outRun : Nat
  target : Nat
  bSpanLimit : Nat
  bSpliceLimit : Nat
  deriving DecidableEq, Repr

/-- The fields of a ROPE recipe, in field order (09_recipes_and_the_plant_record.md). -/
structure RopeRecipe where
  strands : Nat
  diameter : Nat
  stretch : Nat
  layFactor : Nat
  nominal : Nat
  tolLow : Nat
  tolHigh : Nat
  window : Nat
  shift : Nat
  outRun : Nat
  /-- the code of the minimum package grade: 1 A, 2 B, 3 C -/
  minGrade : Nat
  runoutWarning : Nat
  spray : KindSet
  bKinds : KindSet
  bLimit : Nat
  guard : Nat
  deriving DecidableEq, Repr

/-- One step of a taper pattern: a range of hooks and a number of rows (R109). -/
structure PatternStep where
  first : Nat
  last : Nat
  rows : Nat
  deriving DecidableEq, Repr

/-- The fields of a NET recipe, in field order (09_recipes_and_the_plant_record.md). -/
structure NetRecipe where
  pattern : List PatternStep
  nominal : Nat
  tolLow : Nat
  tolHigh : Nat
  rowsPerCheck : Nat
  outRun : Nat
  hookLimit : Nat
  stretch : Nat
  spray : KindSet
  bKinds : KindSet
  bLimit : Nat
  guard : Nat
  panelTail : Nat
  deriving DecidableEq, Repr

/-- A recipe as STORE_RECIPE carries it (R169); `other` is a kind code that names no recipe kind. -/
inductive RecipeBody where
  | twist (r : TwistRecipe)
  | rope (r : RopeRecipe)
  | net (r : NetRecipe)
  | other (code : Nat)
  deriving DecidableEq, Repr

/-- The fields of the plant record, in field order (09_recipes_and_the_plant_record.md, "The plant record").
The classes of `filterWidth` and `stallTime` are spindle, delivery, head, line wheel, shaft (R1). -/
structure PlantRecord where
  ns : Vector Nat 8
  nd : Vector Nat 8
  cd : Vector Nat 8
  nm : Nat
  cm : Nat
  nlh : Nat
  nn : Nat
  cn : Nat
  feedOffset : Nat
  ropeMarker : Nat
  netMarker : Nat
  ropeCutter : Nat
  netCutter : Nat
  filterWidth : Vector Nat 5
  stallTime : Vector Nat 5
  jamTime : Nat
  detectorTime : Nat
  cutTimeout : Nat
  driveLines : Nat
  settleTime : Nat
  serviceLimit : Vector Nat 10
  deriving DecidableEq, Repr

/-- A span entry of ADD_PACKAGE: start, end and kind code (R195). -/
structure SpanEntry where
  start : Nat
  stop : Nat
  kind : Nat
  deriving DecidableEq, Repr

/-- The fields of ADD_PACKAGE (R42). -/
structure PackageEntry where
  number : Nat
  wound : Nat
  grade : Nat
  spans : List SpanEntry
  splices : List Nat
  deriving DecidableEq, Repr

/-- The fields of ADD_ORDER (R132). -/
structure OrderEntry where
  number : Nat
  line : Nat
  slot : Nat
  rule : Nat
  target : Nat
  low : Nat
  high : Nat
  count : Nat
  minGrade : Nat
  deriving DecidableEq, Repr

/-- The commands of the part: the rows of spec/opcode_table.json, in its order. -/
inductive Instr where
  | powerOnReset (br1 br0 : Bool) (steps : Nat) (faults : List StepFault)
  | startSequenceEnd
  | pulsePinChange (i : PulseInput)
  | pulseFilterSettled (i : PulseInput) (order : List RiseBlock)
  | levelPinChange (i : LevelInput)
  | levelFilterSettled (i : LevelInput)
  | stallDeadline (i : PulseInput)
  | intervalEnd
  | motionTimerDeadline (p : Fin 8)
  | detectorTimerDeadline (p : Fin 8)
  | scanSettleElapsed (samples : Byte)
  | cutTimerDeadline (l : LineId)
  | coilWriteAttempt (faults : List StepFault)
  | logTakeOperation (faults : List StepFault)
  | logVoidOperation (faults : List StepFault)
  | storeRecipeOperation (faults : List StepFault)
  | eraseRecipeOperation (faults : List StepFault)
  | storePlantOperation (faults : List StepFault)
  | tallyStep (faults : List StepFault)
  | byteReceived (b : Byte) (stopBit : Bool)
  | gapTimeout
  | replySent
  | unknownRequest (tag kind : Byte) (rest : List Byte)
  | status (tag : Byte)
  | restart (tag : Byte)
  | restartReset (br1 br0 : Bool)
  | reports (tag : Byte) (n : Nat)
  | setReports (tag : Byte) (kind queued call urgent : Nat)
  | callMask (tag : Byte) (setting : Nat)
  | readPlant (tag : Byte)
  | storePlant (tag : Byte) (plant : PlantRecord)
  | readRecipe (tag : Byte) (slot : Nat)
  | storeRecipe (tag : Byte) (slot : Nat) (body : RecipeBody)
  | eraseRecipe (tag : Byte) (slot : Nat)
  | readTally (tag : Byte) (tally : Nat)
  | startPackage (tag : Byte) (position package slot : Nat)
  | resumePosition (tag : Byte) (position : Nat)
  | doffPackage (tag : Byte) (position : Nat)
  | positionStatus (tag : Byte) (position : Nat)
  | addPackage (tag : Byte) (entry : PackageEntry)
  | readPackage (tag : Byte) (package : Nat)
  | removePackage (tag : Byte) (package : Nat)
  | placePackage (tag : Byte) (package place : Nat)
  | unplacePackage (tag : Byte) (package : Nat)
  | spliceFeed (tag : Byte) (place : Nat)
  | creelStatus (tag : Byte)
  | loadLineRecipe (tag : Byte) (machine slot : Nat)
  | setPosition (tag : Byte) (machine value : Nat)
  | lineStatus (tag : Byte) (machine : Nat)
  | stopMachine (tag : Byte) (machine : Nat)
  | release (tag : Byte) (machine cause : Nat)
  | setWatch (tag : Byte) (machine position : Nat)
  | clearWatch (tag : Byte) (machine watch : Nat)
  | readMarks (tag : Byte) (machine start skip count : Nat)
  | addMark (tag : Byte) (machine position span : Nat)
  | knotStatus (tag : Byte)
  | readRows (tag : Byte) (back count : Nat)
  | addOrder (tag : Byte) (order : OrderEntry)
  | cancelOrder (tag : Byte) (order : Nat)
  | readOrders (tag : Byte) (skip count : Nat)
  | endCoil (tag : Byte) (machine : Nat)
  | cutManual (tag : Byte) (machine : Nat)
  | packStatus (tag : Byte) (machine : Nat)
  | logRead (tag : Byte) (first count : Nat)
  | logTake (tag : Byte) (upTo : Nat)
  | logVoid (tag : Byte) (coil : Nat)
  deriving DecidableEq, Repr

end Sys2Proof
end

