-- ==== Sys2Proof/Decode.lean ====
section
/-! DEFINITION. The bytes of numbers, the check word, the fields of recipes and of the plant record with their
sizes and ranges, and the reading of a request body as a command (R183, R194 to R196, R198). The opcode table
gives its rows no bits, so `decodeTableWord` reads no word as a command. -/

namespace Sys2Proof

/-- The last `k` base-256 digits of `n`, most significant first. -/
def digits : Nat → Nat → List Byte
  | 0, _ => []
  | k + 1, n => BitVec.ofNat 8 (n / 256 ^ k) :: digits k n

/-- A numeric field of `k` bytes, most significant byte first (11_message_and_record_layouts.md). A value that
does not fit is carried as the free value `Config.unfit` (log 11). -/
def be (k n : Nat) : List Byte :=
  digits k (if n < 256 ^ k then n else Config.unfit k n)

/-- A signed field of `k` bytes in two's complement (R194). -/
def beSigned (k : Nat) (z : Int) : List Byte :=
  digits k (z % (256 ^ k : Nat)).toNat

/-- The number that bytes spell, most significant byte first. -/
def unbe (bytes : List Byte) : Nat :=
  bytes.foldl (fun n b => n * 256 + b.toNat) 0

/-- A yes-or-no field: 1 for yes, 0 for no (R196). -/
def yesNo (b : Bool) : List Byte :=
  [if b then 1 else 0]

/-- One shift of the CRC-16 with polynomial 0x1021 (chapter 10, "Frames on the line"). -/
def crcShift (c : Nat) : Nat :=
  if c &&& 0x8000 = 0 then (c <<< 1) &&& 0xFFFF else ((c <<< 1) ^^^ 0x1021) &&& 0xFFFF

/-- The CRC-16 after one more byte. -/
def crcByte (c : Nat) (b : Byte) : Nat :=
  Nat.repeat crcShift 8 (c ^^^ (b.toNat <<< 8))

/-- The CRC-16 of the frame: initial value 0xFFFF, no reflection, no final xor (R168, R181). -/
def crc16 (bytes : List Byte) : Nat :=
  bytes.foldl crcByte 0xFFFF

/-- The range of a field (R177, R169). -/
inductive FieldRange where
  | between (lo hi : Nat)
  | oneOf (values : List Nat)
  /-- a set within the members of the mask (R194) -/
  | within (mask : Nat)
  deriving DecidableEq, Repr

/-- Whether a value lies in a range. -/
def FieldRange.holds : FieldRange → Nat → Bool
  | .between lo hi, v => decide (lo ≤ v) && decide (v ≤ hi)
  | .oneOf values, v => values.contains v
  | .within mask, v => v ||| mask == mask

/-- A field as it is carried: its size in bytes, its range and its values, several for a field held for several
positions, classes or tallies (R196). -/
structure WireField where
  size : Nat
  range : FieldRange
  values : List Nat
  deriving DecidableEq, Repr

/-- The bytes of fields, in order. -/
def fieldBytes (fields : List WireField) : List Byte :=
  fields.flatMap fun f => f.values.flatMap (be f.size)

/-- The size of every value of some fields, in order. -/
def fieldSizes (fields : List WireField) : List Nat :=
  fields.flatMap fun f => f.values.map fun _ => f.size

/-- The index, counted from `first`, of the first field with a value out of its range (R183). -/
def firstBad (first : Nat) : List WireField → Option Nat
  | [] => none
  | f :: fs => if f.values.all f.range.holds then firstBad (first + 1) fs else some first

/-- The mark kinds a ROPE recipe may name in its sets (R169; chapter 9, "Kinds and fields"). -/
def ropeKindMask : Nat := 0x30F

/-- The mark kinds a NET recipe may name in its sets. -/
def netKindMask : Nat := 0x3F0

/-- The fields of a TWIST recipe with their sizes (R196) and ranges. -/
def TwistRecipe.fields (r : TwistRecipe) : List WireField :=
  [⟨2, .between 10 30000, [r.nominal]⟩, ⟨2, .between 0 5000, [r.tolLow]⟩,
    ⟨2, .between 0 5000, [r.tolHigh]⟩, ⟨2, .between 100 10000, [r.window]⟩,
    ⟨1, .between 0 4, [r.shift]⟩, ⟨1, .between 1 15, [r.outRun]⟩,
    ⟨4, .between 1000 50000000, [r.target]⟩, ⟨3, .between 0 100000, [r.bSpanLimit]⟩,
    ⟨1, .between 0 8, [r.bSpliceLimit]⟩]

/-- A TWIST recipe from its values in field order. -/
def TwistRecipe.ofValues (v : List Nat) : TwistRecipe where
  nominal := v.getD 0 0
  tolLow := v.getD 1 0
  tolHigh := v.getD 2 0
  window := v.getD 3 0
  shift := v.getD 4 0
  outRun := v.getD 5 0
  target := v.getD 6 0
  bSpanLimit := v.getD 7 0
  bSpliceLimit := v.getD 8 0

/-- The fields of a ROPE recipe with their sizes and ranges. -/
def RopeRecipe.fields (r : RopeRecipe) : List WireField :=
  [⟨1, .between 2 4, [r.strands]⟩, ⟨3, .between 1000 100000, [r.diameter]⟩,
    ⟨2, .between 0 50000, [r.stretch]⟩, ⟨2, .between 10000 15000, [r.layFactor]⟩,
    ⟨2, .between 10 30000, [r.nominal]⟩, ⟨2, .between 0 5000, [r.tolLow]⟩,
    ⟨2, .between 0 5000, [r.tolHigh]⟩, ⟨2, .between 200 20000, [r.window]⟩,
    ⟨1, .between 0 4, [r.shift]⟩, ⟨1, .between 1 15, [r.outRun]⟩,
    ⟨1, .between 1 3, [r.minGrade]⟩, ⟨3, .between 0 1000000, [r.runoutWarning]⟩,
    ⟨2, .within ropeKindMask, [r.spray.toNat]⟩, ⟨2, .within ropeKindMask, [r.bKinds.toNat]⟩,
    ⟨1, .between 0 255, [r.bLimit]⟩, ⟨2, .between 0 2000, [r.guard]⟩]

/-- A ROPE recipe from its values in field order. -/
def RopeRecipe.ofValues (v : List Nat) : RopeRecipe where
  strands := v.getD 0 0
  diameter := v.getD 1 0
  stretch := v.getD 2 0
  layFactor := v.getD 3 0
  nominal := v.getD 4 0
  tolLow := v.getD 5 0
  tolHigh := v.getD 6 0
  window := v.getD 7 0
  shift := v.getD 8 0
  outRun := v.getD 9 0
  minGrade := v.getD 10 0
  runoutWarning := v.getD 11 0
  spray := BitVec.ofNat 16 (v.getD 12 0)
  bKinds := BitVec.ofNat 16 (v.getD 13 0)
  bLimit := v.getD 14 0
  guard := v.getD 15 0

/-- The fields of a NET recipe after its pattern, with their sizes and ranges. -/
def NetRecipe.tailFields (r : NetRecipe) : List WireField :=
  [⟨2, .between 100 20000, [r.nominal]⟩, ⟨2, .between 0 5000, [r.tolLow]⟩,
    ⟨2, .between 0 5000, [r.tolHigh]⟩, ⟨1, .between 2 32, [r.rowsPerCheck]⟩,
    ⟨1, .between 1 15, [r.outRun]⟩, ⟨1, .between 2 8, [r.hookLimit]⟩,
    ⟨2, .between 0 50000, [r.stretch]⟩, ⟨2, .within netKindMask, [r.spray.toNat]⟩,
    ⟨2, .within netKindMask, [r.bKinds.toNat]⟩, ⟨1, .between 0 255, [r.bLimit]⟩,
    ⟨2, .between 0 2000, [r.guard]⟩, ⟨2, .between 0 5000, [r.panelTail]⟩]

/-- A NET recipe from its pattern and the values of its other fields in order. -/
def NetRecipe.ofValues (pattern : List PatternStep) (v : List Nat) : NetRecipe where
  pattern := pattern
  nominal := v.getD 0 0
  tolLow := v.getD 1 0
  tolHigh := v.getD 2 0
  rowsPerCheck := v.getD 3 0
  outRun := v.getD 4 0
  hookLimit := v.getD 5 0
  stretch := v.getD 6 0
  spray := BitVec.ofNat 16 (v.getD 7 0)
  bKinds := BitVec.ofNat 16 (v.getD 8 0)
  bLimit := v.getD 9 0
  guard := v.getD 10 0
  panelTail := v.getD 11 0

/-- Whether a pattern step is one R169 takes: hooks 0 to 63 in order, rows 1 to 65,535. -/
def PatternStep.inRange (p : PatternStep) : Bool :=
  decide (p.first ≤ p.last) && decide (p.last ≤ 63) && decide (1 ≤ p.rows) && decide (p.rows ≤ 65535)

/-- Whether a pattern is one R169 takes. -/
def patternInRange (pattern : List PatternStep) : Bool :=
  decide (1 ≤ pattern.length) && decide (pattern.length ≤ 16) && pattern.all PatternStep.inRange

/-- The bytes of one pattern step: first hook, last hook, rows (R195). -/
def PatternStep.bytes (p : PatternStep) : List Byte :=
  be 1 p.first ++ be 1 p.last ++ be 2 p.rows

/-- The kind code of a recipe (chapter 11, "Codes of named values"). -/
def RecipeBody.code : RecipeBody → Nat
  | .twist _ => 1
  | .rope _ => 2
  | .net _ => 3
  | .other code => code

/-- The field bytes of a recipe, in the order and sizes of STORE_RECIPE (R196, R198). -/
def RecipeBody.fieldBytes : RecipeBody → List Byte
  | .twist r => Sys2Proof.fieldBytes r.fields
  | .rope r => Sys2Proof.fieldBytes r.fields
  | .net r => be 1 r.pattern.length ++ r.pattern.flatMap PatternStep.bytes
      ++ Sys2Proof.fieldBytes r.tailFields
  | .other _ => []

/-- The index of the first field of a STORE_RECIPE body out of range; the slot is field 1 (R169). -/
def RecipeBody.firstBad : RecipeBody → Option Nat
  | .twist r => Sys2Proof.firstBad 3 r.fields
  | .rope r => Sys2Proof.firstBad 3 r.fields
  | .net r => if patternInRange r.pattern then Sys2Proof.firstBad 4 r.tailFields else some 3
  | .other _ => some 2

/-- The fields of the plant record with their sizes and ranges. A line held per position, class or tally is one
field of several values (R177, R196; log 21, DEDUCED). -/
def PlantRecord.fields (p : PlantRecord) : List WireField :=
  [⟨1, .between 1 16, p.ns.toList⟩, ⟨2, .between 1 1000, p.nd.toList⟩,
    ⟨3, .between 20000 2000000, p.cd.toList⟩, ⟨2, .between 1 1000, [p.nm]⟩,
    ⟨3, .between 50000 4000000, [p.cm]⟩, ⟨1, .between 1 16, [p.nlh]⟩,
    ⟨2, .between 1 1000, [p.nn]⟩, ⟨3, .between 50000 4000000, [p.cn]⟩,
    ⟨2, .between 0 20000, [p.feedOffset]⟩, ⟨2, .between 0 50000, [p.ropeMarker]⟩,
    ⟨2, .between 0 50000, [p.netMarker]⟩, ⟨3, .between 500 100000, [p.ropeCutter]⟩,
    ⟨3, .between 500 100000, [p.netCutter]⟩, ⟨1, .between 1 255, p.filterWidth.toList⟩,
    ⟨1, .between 1 255, p.stallTime.toList⟩, ⟨1, .between 1 255, [p.jamTime]⟩,
    ⟨1, .between 1 255, [p.detectorTime]⟩, ⟨1, .between 1 255, [p.cutTimeout]⟩,
    ⟨1, .oneOf [2, 4, 8], [p.driveLines]⟩, ⟨1, .between 2 255, [p.settleTime]⟩,
    ⟨2, .between 0 65535, p.serviceLimit.toList⟩]

/-- The values `v` from place `i` on, as many as the vector holds. -/
def slice (v : List Nat) (i n : Nat) : Vector Nat n :=
  Vector.ofFn fun k => v.getD (i + k.val) 0

/-- A plant record from its values in field order. -/
def PlantRecord.ofValues (v : List Nat) : PlantRecord where
  ns := slice v 0 8
  nd := slice v 8 8
  cd := slice v 16 8
  nm := v.getD 24 0
  cm := v.getD 25 0
  nlh := v.getD 26 0
  nn := v.getD 27 0
  cn := v.getD 28 0
  feedOffset := v.getD 29 0
  ropeMarker := v.getD 30 0
  netMarker := v.getD 31 0
  ropeCutter := v.getD 32 0
  netCutter := v.getD 33 0
  filterWidth := slice v 34 5
  stallTime := slice v 39 5
  jamTime := v.getD 44 0
  detectorTime := v.getD 45 0
  cutTimeout := v.getD 46 0
  driveLines := v.getD 47 0
  settleTime := v.getD 48 0
  serviceLimit := slice v 49 10

/-- The bytes of the plant fields (R198). -/
def PlantRecord.bytes (p : PlantRecord) : List Byte :=
  fieldBytes p.fields

/-- The numbers spelled by bytes cut into fields of the sizes given; none where the length does not fit. -/
def readFields : List Nat → List Byte → Option (List Nat)
  | [], bytes => if bytes.isEmpty then some [] else none
  | k :: ks, bytes =>
    if bytes.length < k then none
    else (readFields ks (bytes.drop k)).map (unbe (bytes.take k) :: ·)

/-- `count` entries of `size` bytes from the front of `bytes`. -/
def readEntries (size : Nat) : Nat → List Byte → List (List Byte)
  | 0, _ => []
  | count + 1, bytes => bytes.take size :: readEntries size count (bytes.drop size)

/-- A pattern step from its four bytes. -/
def PatternStep.ofBytes (bytes : List Byte) : PatternStep where
  first := unbe (bytes.take 1)
  last := unbe ((bytes.drop 1).take 1)
  rows := unbe (bytes.drop 2)

/-- The field bytes of a NET recipe: the count of the pattern, its steps, the other fields (R195). -/
def readNet (bytes : List Byte) : Option NetRecipe :=
  match bytes with
  | [] => none
  | c :: rest =>
    let steps := c.toNat
    (readFields (fieldSizes (NetRecipe.ofValues [] []).tailFields) (rest.drop (4 * steps))).map
      (NetRecipe.ofValues ((readEntries 4 steps rest).map PatternStep.ofBytes))

/-- A recipe from its kind code and field bytes; none where the length does not fit the kind (R169). For a code
that names no kind every length is taken (log 23, DEDUCED). -/
def readRecipeBody (code : Nat) (bytes : List Byte) : Option RecipeBody :=
  match code with
  | 1 => (readFields (fieldSizes (TwistRecipe.ofValues []).fields) bytes).map
      fun v => .twist (TwistRecipe.ofValues v)
  | 2 => (readFields (fieldSizes (RopeRecipe.ofValues []).fields) bytes).map
      fun v => .rope (RopeRecipe.ofValues v)
  | 3 => (readNet bytes).map .net
  | _ => some (.other code)

/-- How many field bytes a recipe of the kind has, the pattern count byte being `count` (R198). -/
def recipeLength (code count : Nat) : Nat :=
  match code with
  | 1 => (fieldSizes (TwistRecipe.ofValues []).fields).sum
  | 2 => (fieldSizes (RopeRecipe.ofValues []).fields).sum
  | 3 => 1 + 4 * count + (fieldSizes (NetRecipe.ofValues [] []).tailFields).sum
  | _ => 0

/-- A span entry of ADD_PACKAGE from its nine bytes (R195). -/
def SpanEntry.ofBytes (bytes : List Byte) : SpanEntry where
  start := unbe (bytes.take 4)
  stop := unbe ((bytes.drop 4).take 4)
  kind := unbe (bytes.drop 8)

/-- The fields of ADD_PACKAGE from the body after tag and kind (R42, R195). -/
def readPackageEntry (bytes : List Byte) : Option PackageEntry :=
  let spans := unbe ((bytes.drop 7).take 1)
  let afterSpans := bytes.drop (8 + 9 * spans)
  let splices := unbe (afterSpans.take 1)
  if bytes.length = 9 + 9 * spans + 4 * splices then
    some
      { number := unbe (bytes.take 2)
        wound := unbe ((bytes.drop 2).take 4)
        grade := unbe ((bytes.drop 6).take 1)
        spans := (readEntries 9 spans (bytes.drop 8)).map SpanEntry.ofBytes
        splices := (readEntries 4 splices (afterSpans.drop 1)).map unbe }
  else none

/-- A request with fields of fixed sizes, where the body has their length. -/
def withFields (sizes : List Nat) (rest : List Byte) (build : List Nat → Option Instr) :
    Option Instr :=
  (readFields sizes rest).bind build

/-- The command of a request kind that carries the one unread byte (R196). -/
def withoutFields (rest : List Byte) (c : Instr) : Option Instr :=
  if rest.length = 1 then some c else none

/-- The request a body spells after its tag and kind, by the kind codes of chapter 11 and the sizes of R195 and
R196; none where the kind is unknown or the length is not what the kind requires (R183, first check). -/
def readRequest (tag kind : Byte) (rest : List Byte) : Option Instr :=
  match kind.toNat with
  | 0x01 => withoutFields rest (.status tag)
  | 0x02 => withoutFields rest (.restart tag)
  | 0x03 => withFields [1] rest fun | [n] => some (.reports tag n) | _ => none
  | 0x04 => withFields [1, 1, 1, 1] rest fun
      | [k, q, c, u] => some (.setReports tag k q c u) | _ => none
  | 0x05 => withFields [1] rest fun | [v] => some (.callMask tag v) | _ => none
  | 0x10 => withoutFields rest (.readPlant tag)
  | 0x11 => withFields (fieldSizes (PlantRecord.ofValues []).fields) rest fun v =>
      some (.storePlant tag (PlantRecord.ofValues v))
  | 0x12 => withFields [1] rest fun | [n] => some (.readRecipe tag n) | _ => none
  | 0x13 =>
    match rest with
    | slot :: code :: fields =>
      (readRecipeBody code.toNat fields).map (.storeRecipe tag slot.toNat)
    | _ => none
  | 0x14 => withFields [1] rest fun | [n] => some (.eraseRecipe tag n) | _ => none
  | 0x15 => withFields [1] rest fun | [n] => some (.readTally tag n) | _ => none
  | 0x20 => withFields [1, 2, 1] rest fun
      | [p, n, slot] => some (.startPackage tag p n slot) | _ => none
  | 0x21 => withFields [1] rest fun | [p] => some (.resumePosition tag p) | _ => none
  | 0x22 => withFields [1] rest fun | [p] => some (.doffPackage tag p) | _ => none
  | 0x23 => withFields [1] rest fun | [p] => some (.positionStatus tag p) | _ => none
  | 0x30 => (readPackageEntry rest).map (.addPackage tag)
  | 0x31 => withFields [2] rest fun | [n] => some (.readPackage tag n) | _ => none
  | 0x32 => withFields [2] rest fun | [n] => some (.removePackage tag n) | _ => none
  | 0x33 => withFields [2, 1] rest fun | [n, p] => some (.placePackage tag n p) | _ => none
  | 0x34 => withFields [2] rest fun | [n] => some (.unplacePackage tag n) | _ => none
  | 0x35 => withFields [1] rest fun | [p] => some (.spliceFeed tag p) | _ => none
  | 0x36 => withoutFields rest (.creelStatus tag)
  | 0x40 => withFields [1, 1] rest fun | [m, n] => some (.loadLineRecipe tag m n) | _ => none
  | 0x41 => withFields [1, 4] rest fun | [m, v] => some (.setPosition tag m v) | _ => none
  | 0x42 => withFields [1] rest fun | [m] => some (.lineStatus tag m) | _ => none
  | 0x43 => withFields [1] rest fun | [m] => some (.stopMachine tag m) | _ => none
  | 0x44 => withFields [1, 1] rest fun | [m, c] => some (.release tag m c) | _ => none
  | 0x45 => withFields [1, 4] rest fun | [m, x] => some (.setWatch tag m x) | _ => none
  | 0x46 => withFields [1, 1] rest fun | [m, w] => some (.clearWatch tag m w) | _ => none
  | 0x47 => withFields [1, 4, 1, 1] rest fun
      | [m, x, k, n] => some (.readMarks tag m x k n) | _ => none
  | 0x48 => withFields [1, 4, 3] rest fun
      | [m, x, span] => some (.addMark tag m x span) | _ => none
  | 0x50 => withoutFields rest (.knotStatus tag)
  | 0x51 => withFields [1, 1] rest fun | [a, n] => some (.readRows tag a n) | _ => none
  | 0x60 => withFields [2, 1, 1, 1, 3, 2, 2, 1, 1] rest fun
      | [number, line, slot, rule, target, low, high, count, grade] =>
        some (.addOrder tag ⟨number, line, slot, rule, target, low, high, count, grade⟩)
      | _ => none
  | 0x61 => withFields [2] rest fun | [n] => some (.cancelOrder tag n) | _ => none
  | 0x62 => withFields [1, 1] rest fun | [k, n] => some (.readOrders tag k n) | _ => none
  | 0x63 => withFields [1] rest fun | [m] => some (.endCoil tag m) | _ => none
  | 0x64 => withFields [1] rest fun | [m] => some (.cutManual tag m) | _ => none
  | 0x65 => withFields [1] rest fun | [m] => some (.packStatus tag m) | _ => none
  | 0x70 => withFields [4, 1] rest fun | [f, n] => some (.logRead tag f n) | _ => none
  | 0x71 => withFields [4] rest fun | [t] => some (.logTake tag t) | _ => none
  | 0x72 => withFields [4] rest fun | [n] => some (.logVoid tag n) | _ => none
  | _ => none

/-- The command a request stands for: UNKNOWN_REQUEST where `readRequest` finds none (R183). -/
def requestOf (tag kind : Byte) (rest : List Byte) : Instr :=
  (readRequest tag kind rest).getD (.unknownRequest tag kind rest)

/-- The command the body of a frame spells: tag, kind, the rest. A frame has at least 3 body bytes (R181); a
shorter list, which no frame has, is read with zeros for what is missing. -/
def commandOfBody (body : List Byte) : Instr :=
  requestOf (body.getD 0 0) (body.getD 1 0) (body.drop 2)

/-- The bytes of a recipe as STORE_RECIPE carries it: kind code and fields (R196). -/
def RecipeBody.bytes (b : RecipeBody) : List Byte :=
  be 1 b.code ++ b.fieldBytes

/-- A span entry as ADD_PACKAGE carries it (R195). -/
def SpanEntry.bytes (e : SpanEntry) : List Byte :=
  be 4 e.start ++ be 4 e.stop ++ be 1 e.kind

/-- The fields of ADD_PACKAGE as they are carried (R42, R195). -/
def PackageEntry.bytes (e : PackageEntry) : List Byte :=
  be 2 e.number ++ be 4 e.wound ++ be 1 e.grade ++ be 1 e.spans.length
    ++ e.spans.flatMap SpanEntry.bytes ++ be 1 e.splices.length ++ e.splices.flatMap (be 4)

/-- The fields of ADD_ORDER as they are carried (R132, R196). -/
def OrderEntry.bytes (e : OrderEntry) : List Byte :=
  be 2 e.number ++ be 1 e.line ++ be 1 e.slot ++ be 1 e.rule ++ be 3 e.target ++ be 2 e.low
    ++ be 2 e.high ++ be 1 e.count ++ be 1 e.minGrade

/-- The body of the frame that carries a request: tag, kind code, fields, or the one unread byte, sent as 0 (chapter
11, R195, R196). None for a command that no frame carries. -/
def requestBody : Instr → Option (List Byte)
  | .unknownRequest tag kind rest => some (tag :: kind :: rest)
  | .status tag => some [tag, 0x01, 0]
  | .restart tag => some [tag, 0x02, 0]
  | .reports tag n => some (tag :: 0x03 :: be 1 n)
  | .setReports tag k q c u => some (tag :: 0x04 :: (be 1 k ++ be 1 q ++ be 1 c ++ be 1 u))
  | .callMask tag v => some (tag :: 0x05 :: be 1 v)
  | .readPlant tag => some [tag, 0x10, 0]
  | .storePlant tag plant => some (tag :: 0x11 :: plant.bytes)
  | .readRecipe tag slot => some (tag :: 0x12 :: be 1 slot)
  | .storeRecipe tag slot body => some (tag :: 0x13 :: (be 1 slot ++ body.bytes))
  | .eraseRecipe tag slot => some (tag :: 0x14 :: be 1 slot)
  | .readTally tag n => some (tag :: 0x15 :: be 1 n)
  | .startPackage tag p n slot => some (tag :: 0x20 :: (be 1 p ++ be 2 n ++ be 1 slot))
  | .resumePosition tag p => some (tag :: 0x21 :: be 1 p)
  | .doffPackage tag p => some (tag :: 0x22 :: be 1 p)
  | .positionStatus tag p => some (tag :: 0x23 :: be 1 p)
  | .addPackage tag e => some (tag :: 0x30 :: e.bytes)
  | .readPackage tag n => some (tag :: 0x31 :: be 2 n)
  | .removePackage tag n => some (tag :: 0x32 :: be 2 n)
  | .placePackage tag n p => some (tag :: 0x33 :: (be 2 n ++ be 1 p))
  | .unplacePackage tag n => some (tag :: 0x34 :: be 2 n)
  | .spliceFeed tag p => some (tag :: 0x35 :: be 1 p)
  | .creelStatus tag => some [tag, 0x36, 0]
  | .loadLineRecipe tag m slot => some (tag :: 0x40 :: (be 1 m ++ be 1 slot))
  | .setPosition tag m v => some (tag :: 0x41 :: (be 1 m ++ be 4 v))
  | .lineStatus tag m => some (tag :: 0x42 :: be 1 m)
  | .stopMachine tag m => some (tag :: 0x43 :: be 1 m)
  | .release tag m c => some (tag :: 0x44 :: (be 1 m ++ be 1 c))
  | .setWatch tag m x => some (tag :: 0x45 :: (be 1 m ++ be 4 x))
  | .clearWatch tag m w => some (tag :: 0x46 :: (be 1 m ++ be 1 w))
  | .readMarks tag m x k n => some (tag :: 0x47 :: (be 1 m ++ be 4 x ++ be 1 k ++ be 1 n))
  | .addMark tag m x span => some (tag :: 0x48 :: (be 1 m ++ be 4 x ++ be 3 span))
  | .knotStatus tag => some [tag, 0x50, 0]
  | .readRows tag a n => some (tag :: 0x51 :: (be 1 a ++ be 1 n))
  | .addOrder tag e => some (tag :: 0x60 :: e.bytes)
  | .cancelOrder tag n => some (tag :: 0x61 :: be 2 n)
  | .readOrders tag k n => some (tag :: 0x62 :: (be 1 k ++ be 1 n))
  | .endCoil tag m => some (tag :: 0x63 :: be 1 m)
  | .cutManual tag m => some (tag :: 0x64 :: be 1 m)
  | .packStatus tag m => some (tag :: 0x65 :: be 1 m)
  | .logRead tag f n => some (tag :: 0x70 :: (be 4 f ++ be 1 n))
  | .logTake tag t => some (tag :: 0x71 :: be 4 t)
  | .logVoid tag n => some (tag :: 0x72 :: be 4 n)
  | _ => none

/-- The command a word spells by the bits of spec/opcode_table.json: none, since the table gives no row bits. -/
def decodeTableWord (_nbits _w : Nat) : Option Instr :=
  none

end Sys2Proof
end

