-- ==== Sys2Proof/Machine/State.lean ====
section
/-! DEFINITION. The state of the part, block by block, as plain data; its reset; the fault and refusal types. -/

namespace Sys2Proof.Machine

/-! ### Count Inputs (01_count_inputs.md) -/

/-- One pulse input (the table of "Pulse inputs and their classes"; R2 to R7). Times are microseconds. -/
structure PulseIn where
  pin : Bool
  level : Bool
  /-- when the pin began to hold a level other than the filtered one (R2) -/
  hold : Option Nat
  /-- pulse total, wrapping; MW's is read as signed (R3, R4) -/
  total : BitVec 32
  running : Bool
  firstPulse : Bool
  /-- the deadline of the stall timer while it runs -/
  stall : Option Nat
  current : Nat
  last : Nat
  deriving DecidableEq, Repr

/-- One level input (R8). -/
structure LevelIn where
  pin : Bool
  level : Bool
  hold : Option Nat
  deriving DecidableEq, Repr

/-- All inputs and the interval clock (R7). -/
structure Inputs where
  sp : Vector PulseIn 8
  dl : Vector PulseIn 8
  lh : PulseIn
  mw : PulseIn
  nw : PulseIn
  ks : PulseIn
  sd : Vector LevelIn 8
  rev : LevelIn
  cdr : LevelIn
  cdn : LevelIn
  /-- when the interval now running ends -/
  interval : Nat
  deriving DecidableEq, Repr

/-! ### Windows, out-runs and spans (02_twisting_positions_and_the_twist_monitor.md) -/

/-- The side of an out-of-band figure (R29). -/
inductive Side where
  | low
  | high
  deriving DecidableEq, Repr

/-- The verdict of a band (R28, R120). -/
inductive Verdict where
  | low
  | inBand
  | high
  deriving DecidableEq, Repr

/-- An out-run (R29). -/
structure OutRun where
  side : Side
  count : Nat
  runStart : Nat
  lastEnd : Nat
  deriving DecidableEq, Repr

/-- An open span: its side and its start (R29). -/
structure OpenSpan where
  side : Side
  start : Nat
  deriving DecidableEq, Repr

/-- The figures of the last closed window: raw, filtered, OVER and verdict (R26). -/
structure LastWindow where
  raw : Nat
  filtered : Nat
  isOver : Bool
  verdict : Verdict
  deriving DecidableEq, Repr

/-- Why a position is in FAULT (R19, R20). -/
inductive FaultCause where
  | breakage
  | jam
  | spliceLimit
  deriving DecidableEq, Repr

/-- The state of a position that holds a package. -/
inductive Phase where
  | ready
  | run
  | still
  | fault (cause : FaultCause)
  | target
  deriving DecidableEq, Repr

/-- What a position holds outside IDLE ("Position state"; R14). -/
structure Job where
  phase : Phase
  package : Nat
  slot : Nat
  check : Nat
  recipe : TwistRecipe
  ns : Nat
  nd : Nat
  cd : Nat
  windowSize : Nat
  /-- D_total -/
  delivered : Nat
  /-- S, the spindle pulses of the window in progress -/
  spindle : Nat
  /-- D, the delivery pulses of the window in progress -/
  delivery : Nat
  windowStart : Nat
  /-- F while the filter is primed (R27) -/
  filter : Option Nat
  last : Option LastWindow
  outRun : OutRun
  span : Option OpenSpan
  motion : Option Nat
  detector : Option Nat
  deriving DecidableEq, Repr

/-- The lay machinery (R34). -/
structure Lay where
  head : Nat
  windowStart : Nat
  filter : Option Nat
  last : Option LastWindow
  outRun : OutRun
  span : Option OpenSpan
  deriving DecidableEq, Repr

/-! ### Package Table (03_packages_and_the_feed_creel.md) -/

/-- Grades of packages and coils, A > B > C (00_scope.md). -/
inductive Grade where
  | a
  | b
  | c
  deriving DecidableEq, Repr

/-- The kind of a fault span. -/
inductive SpanKind where
  | low
  | high
  | mixed
  deriving DecidableEq, Repr

/-- A fault span of a package: start and end in wound mm. -/
structure Span where
  start : Nat
  stop : Nat
  kind : SpanKind
  deriving DecidableEq, Repr

/-- The state of a package record. -/
inductive PackageState where
  | winding
  | doffed
  | placed
  | feeding
  | spent
  deriving DecidableEq, Repr

/-- A package record ("The package table"). `seat` is the feed place and whether the slot is the reserve. -/
structure Package where
  number : Nat
  state : PackageState
  origin : Option Nat
  slot : Option Nat
  wound : Nat
  grade : Option Grade
  spans : List Span
  splices : List Nat
  seat : Option (Nat × Bool)
  feedStart : Option Nat
  consumed : Nat
  warned : Bool
  leftover : Option Nat
  spentOrder : Option Nat
  deriving DecidableEq, Repr

/-- A place of the feed creel: package numbers in its slots and its runout flag. -/
structure Place where
  current : Option Nat
  reserve : Option Nat
  runout : Bool
  deriving DecidableEq, Repr

/-- The package table (at most 96 records, R38) with the creel. -/
structure Table where
  packages : List Package
  creel : Vector Place 4
  nextSpent : Nat
  deriving DecidableEq, Repr

/-! ### Lines (04_line_length.md, 05_marks_line_actions_and_stops.md, 07_orders_coils_and_cut_planning.md) -/

/-- The constants of a loaded line (R62). -/
structure Constants where
  n : Nat
  cEff : Nat
  stretch : Nat
  k : Nat
  deriving DecidableEq, Repr

/-- The Length Meter's state of a line; the recipe state is LOADED while `constants` are present (R61). -/
structure LengthMeter where
  constants : Option Constants
  base : Nat
  q : Int
  p : Nat
  highMark : Nat
  saturated : Bool
  speed : Nat
  deriving DecidableEq, Repr

/-- The mark kinds, in code order (chapter 11). -/
inductive MarkKind where
  | splice
  | strandFault
  | layLow
  | layHigh
  | knotMissing
  | meshLong
  | meshShort
  | unscanned
  | operator
  | mixed
  deriving DecidableEq, Repr

/-- The spray state of a mark. -/
inductive SprayState where
  | none
  | pending
  | done
  | missed
  deriving DecidableEq, Repr

/-- A mark ("The mark list"). `ref` is the model's name for the mark, which its spray actions refer to (log 19). -/
structure Mark where
  ref : Nat
  x : Nat
  span : Nat
  kind : MarkKind
  source : Option Nat
  count : Nat
  made : Bool
  spray : SprayState
  deriving DecidableEq, Repr

/-- What an action of the queue does ("The action queue"). -/
inductive Act where
  | sprayOn (ref : Nat)
  | sprayOff (ref : Nat)
  | cut
  deriving DecidableEq, Repr

/-- An entry of the action queue. -/
structure Action where
  trigger : Nat
  act : Act
  deriving DecidableEq, Repr

/-- The Line Action Unit's state of a line. -/
structure LineActions where
  marks : List Mark
  nextRef : Nat
  actions : List Action
  onCount : Nat
  /-- the marker output MKR or MKN -/
  marker : Bool
  watches : Vector (Option Nat) 4
  deriving DecidableEq, Repr

/-- The state of a pack point. -/
inductive PackState where
  | noCoil
  | opened
  | bound
  | planned
  | cutting
  | cutFail
  deriving DecidableEq, Repr

/-- What placed a cut. -/
inductive CutOrigin where
  | planned
  | panel
  | endCoil
  deriving DecidableEq, Repr

/-- A planned cut with its trigger (R138). -/
structure CutPlan where
  cut : Nat
  trigger : Nat
  grade : Option Grade
  origin : CutOrigin
  deriving DecidableEq, Repr

/-- The phase of a stroke. -/
inductive StrokePhase where
  | wait
  | stroke
  deriving DecidableEq, Repr

/-- A mark entry of a coil record (R147). -/
structure MarkEntry where
  offset : Nat
  span : Nat
  kind : MarkKind
  source : Option Nat
  deriving DecidableEq, Repr

/-- A coil record as built at completion (R147). `flags` is the byte at offset 21 of its layout. -/
structure CoilRecord where
  line : LineId
  order : Nat
  slot : Nat
  check : Nat
  start : Nat
  length : Nat
  grade : Grade
  flags : BitVec 8
  kindCounts : List Nat
  packages : List Nat
  entries : List MarkEntry
  deriving DecidableEq, Repr

/-- The write state of a pending record. -/
inductive WriteState where
  | queued
  | held
  deriving DecidableEq, Repr

/-- A record cut and not yet written to the log. -/
structure PendingRecord where
  coil : CoilRecord
  write : WriteState
  deriving DecidableEq, Repr

/-- The pack point of a line ("The pack point"). -/
structure PackPoint where
  state : PackState
  coilStart : Option Nat
  bound : Option Nat
  plan : Option CutPlan
  nearSplice : Bool
  phase : Option StrokePhase
  timer : Option Nat
  /-- the cutter output CTR or CTN -/
  cutter : Bool
  packages : List Nat
  more : Bool
  record : Option PendingRecord
  deriving DecidableEq, Repr

/-- Everything the part keeps for one line. -/
structure Line where
  len : LengthMeter
  act : LineActions
  pack : PackPoint
  deriving DecidableEq, Repr

/-- A line's working copy of its recipe, with its slot and check word (R173). -/
structure Copy (α : Type) where
  slot : Nat
  check : Nat
  recipe : α
  deriving DecidableEq, Repr

/-- The cut rule of an order. -/
inductive CutRule where
  | length
  | panel
  deriving DecidableEq, Repr

/-- An order ("The order queue"). -/
structure Order where
  number : Nat
  line : LineId
  slot : Nat
  check : Nat
  rule : CutRule
  target : Nat
  low : Nat
  high : Nat
  count : Nat
  done : Nat
  minGrade : Grade
  deriving DecidableEq, Repr

/-! ### Stop Unit -/

/-- The stop causes, in code order (chapter 11). -/
inductive StopCause where
  | breakage
  | jam
  | spliceLimit
  | target
  | commanded
  | creel
  | runout
  | marksFull
  | cut
  | cutFail
  | logFull
  | watch
  | hookFault
  | sensor
  | panelEnd
  deriving DecidableEq, Repr

/-- The Stop Unit's state of a machine: its cause set and its stop output (R98). -/
structure Stop where
  causes : CauseSet
  asserted : Bool
  deriving DecidableEq, Repr

/-! ### Knot Scanner (06_the_knotting_machine.md) -/

/-- The drive lines and settle time captured at the load (R105). -/
structure Grid where
  lines : Nat
  settle : Nat
  deriving DecidableEq, Repr

/-- A scan in progress: its row, whether it is kept, the driven line, the samples so far and the deadline of the
settle time (R107). -/
structure ScanInProgress where
  row : BitVec 32
  kept : Bool
  line : Nat
  samples : HookSet
  deadline : Nat
  deriving DecidableEq, Repr

/-- The sets of a scanned row (R111). -/
structure RowSets where
  present : HookSet
  missing : HookSet
  extra : HookSet
  deriving DecidableEq, Repr

/-- The scan state of a row in the ring (R118). -/
inductive RowScan where
  | scanning
  | scanned (sets : RowSets)
  | unscanned
  deriving DecidableEq, Repr

/-- A row of the ring. -/
structure RowEntry where
  number : BitVec 32
  step : Nat
  position : Nat
  scan : RowScan
  deriving DecidableEq, Repr

/-- The figures of the last mesh check (R120). -/
structure LastMesh where
  mesh : Nat
  isOver : Bool
  verdict : Verdict
  deriving DecidableEq, Repr

/-- The Knot Scanner's state (R103); its working copy is the net line's. -/
structure Knot where
  grid : Option Grid
  scan : Option ScanInProgress
  /-- the drive line DRV that is driven -/
  driven : Option Nat
  row : BitVec 32
  step : Nat
  rowsDone : Nat
  panels : Nat
  counters : Vector Nat 64
  faultHook : Option Nat
  extrasLast : Bool
  /-- oldest row first -/
  ring : List RowEntry
  last : Option LastMesh
  outRun : OutRun
  span : Option OpenSpan
  deriving DecidableEq, Repr

/-! ### Store Controller (08_the_coil_log_and_tallies.md) -/

/-- The store's bytes other than the erased 0xFF, by page x 512 + offset, addresses rising (R152). -/
abbrev Memory := List Host.Cell

/-- An operation of the store queue (R153). The record of a coil write is its line's pending record. -/
inductive StoreOp where
  | coilWrite (l : LineId)
  | logTake (upTo : Nat)
  | logVoid (coil : Nat)
  | storeRecipe (slot : Nat) (body : RecipeBody)
  | eraseRecipe (slot : Nat)
  | storePlant (plant : PlantRecord)
  | tallyStep (tally : Fin 10)
  deriving DecidableEq, Repr

/-- The state of a queue entry that holds an operation. -/
inductive EntryState where
  | waiting
  | running
  | held
  deriving DecidableEq, Repr

/-- An entry of the store queue that is not free. -/
structure StoreEntry where
  op : StoreOp
  state : EntryState
  deriving DecidableEq, Repr

/-- The log state of the Store Controller (R156). With `toBegin` the write point is slot 0 of a page that must be
begun. -/
structure LogState where
  oldest : Option Nat
  newest : Option Nat
  page : Nat
  slot : Nat
  toBegin : Bool
  next : Nat
  closed : Bool
  deriving DecidableEq, Repr

/-- A tally (R165). -/
structure Tally where
  stored : Nat
  queued : Bool
  fine : Nat
  fullReported : Bool
  deriving DecidableEq, Repr

/-! ### Link Port (10_the_link_port_and_reports.md) -/

/-- The status, detail and fields of a reply (R183). -/
structure Reply where
  tag : Byte
  kind : Byte
  status : Byte
  detail : Byte
  fields : List Byte
  deriving DecidableEq, Repr

/-- A frame of the receive queue: the request its body spells and, once handled, its reply (R182). -/
structure Frame where
  request : Instr
  reply : Option Reply
  deriving DecidableEq, Repr

/-- The receive state (R181). -/
inductive Receive where
  | hunt
  | length
  | body (len due : Nat) (kept : List Byte)
  | check (len : Nat) (kept : List Byte) (first : Option Byte)
  deriving DecidableEq, Repr

/-- The report kinds, in code order (R197). -/
inductive ReportKind where
  | started
  | positionFault
  | packageTarget
  | packageDoffed
  | twistSpan
  | runoutNear
  | runout
  | laySpan
  | stopChange
  | watchHit
  | rowFault
  | hookFault
  | panelEnd
  | meshSpan
  | orderBlocked
  | coilCut
  | orderDone
  | cutFail
  | logFull
  | storeDone
  | storeFailed
  | serviceDue
  | tallyFull
  | marksHigh
  deriving DecidableEq, Repr

/-- A record of the report queue. -/
structure Report where
  kind : ReportKind
  machine : Option Nat
  time : Nat
  body : List Byte
  call : Bool
  urgent : Bool
  deriving DecidableEq, Repr

/-- A record held for entry after STARTED (R191). -/
structure HeldReport where
  kind : ReportKind
  machine : Option Nat
  body : List Byte
  deriving DecidableEq, Repr

/-- The settings of a report kind (R187). -/
structure ReportSetting where
  queued : Bool
  call : Bool
  urgent : Bool
  deriving DecidableEq, Repr

/-- The latches of a machine (R190). -/
structure Latches where
  steady : Bool
  stopSeen : Bool
  deriving DecidableEq, Repr

/-- The start state (R191). -/
inductive StartState where
  | starting
  | unconfigured
  | ready
  deriving DecidableEq, Repr

/-- The kind of a reset (R191). -/
inductive ResetKind where
  | powerOn
  | restart
  deriving DecidableEq, Repr

/-- The Link Port's state. -/
structure Link where
  /-- the baud straps as the last reset read them (R11) -/
  br1 : Bool
  br0 : Bool
  receive : Receive
  gap : Option Nat
  badFrames : Nat
  overruns : Nat
  frames : List Frame
  reports : List Report
  settings : Vector ReportSetting 24
  mask : Bool
  lost : Nat
  /-- the CALL output, asserted -/
  call : Bool
  latches : Vector Latches 10
  start : StartState
  resetKind : ResetKind
  held : List HeldReport
  /-- a RESTART has been accepted and its reset is still to come (R192) -/
  restarting : Bool
  deriving DecidableEq, Repr

/-! ### The part -/

/-- The state of the CW416. -/
structure State where
  /-- the commands that wait, first in first out -/
  pending : List Instr
  /-- microseconds since the last reset ended -/
  now : Nat
  inputs : Inputs
  /-- the positions; `none` is IDLE -/
  jobs : Vector (Option Job) 8
  lay : Lay
  table : Table
  rope : Line
  net : Line
  ropeCopy : Option (Copy RopeRecipe)
  netCopy : Option (Copy NetRecipe)
  stops : Vector Stop 10
  knot : Knot
  orders : List Order
  flash : Memory
  queue : List StoreEntry
  log : LogState
  tallies : Vector Tally 10
  /-- the plant record in force (R176) -/
  plant : Option PlantRecord
  link : Link
  deriving DecidableEq, Repr

/-- What stops the machine. The spec gives the part no fault that stops it (log 31), so no command raises one:
the type has no member. SAFE: nothing is raised, so nothing true of a stopped part is claimed. -/
inductive Fault where
  deriving DecidableEq, Repr

/-- Why a command has no meaning here. -/
inductive Refusal where
  /-- raised by an arm of `exec` whose command has no meaning yet; SAFE, the machine stops. No arm raises it. -/
  | notModelled (mnemonic : String)
  deriving DecidableEq, Repr

/-! ### Reset -/

/-- A pulse input when a reset ends, its pin as given (R9). -/
def PulseIn.atReset (pin : Bool) : PulseIn where
  pin := pin
  level := pin
  hold := none
  total := 0
  running := false
  firstPulse := false
  stall := none
  current := 0
  last := 0

/-- A level input when a reset ends, its pin as given (R9). -/
def LevelIn.atReset (pin : Bool) : LevelIn where
  pin := pin
  level := pin
  hold := none

/-- Inputs when a reset ends, with the pins they had (R9). -/
def Inputs.atReset (i : Inputs) : Inputs where
  sp := i.sp.map fun x => PulseIn.atReset x.pin
  dl := i.dl.map fun x => PulseIn.atReset x.pin
  lh := PulseIn.atReset i.lh.pin
  mw := PulseIn.atReset i.mw.pin
  nw := PulseIn.atReset i.nw.pin
  ks := PulseIn.atReset i.ks.pin
  sd := i.sd.map fun x => LevelIn.atReset x.pin
  rev := LevelIn.atReset i.rev.pin
  cdr := LevelIn.atReset i.cdr.pin
  cdn := LevelIn.atReset i.cdn.pin
  interval := 250000

/-- All pins low, as at `State.reset` (log 8, DESIGN CHOICE, unsafe). -/
def Inputs.reset : Inputs where
  sp := Vector.replicate 8 (PulseIn.atReset false)
  dl := Vector.replicate 8 (PulseIn.atReset false)
  lh := PulseIn.atReset false
  mw := PulseIn.atReset false
  nw := PulseIn.atReset false
  ks := PulseIn.atReset false
  sd := Vector.replicate 8 (LevelIn.atReset false)
  rev := LevelIn.atReset false
  cdr := LevelIn.atReset false
  cdn := LevelIn.atReset false
  interval := 250000

/-- The out-run with count 0 that resets, starts and loads leave (log 9: side, run start and last out end are a
DESIGN CHOICE, unsafe). -/
def OutRun.reset : OutRun where
  side := .low
  count := 0
  runStart := 0
  lastEnd := 0

/-- The lay machinery after a reset (R34). -/
def Lay.reset : Lay where
  head := 0
  windowStart := 0
  filter := none
  last := none
  outRun := OutRun.reset
  span := none

/-- The package table and the creel after a reset (R38). -/
def Table.reset : Table where
  packages := []
  creel := Vector.replicate 4 { current := none, reserve := none, runout := false }
  nextSpent := 0

/-- A line after a reset (R61, R79, R127). -/
def Line.reset : Line where
  len :=
    { constants := none, base := 0, q := 0, p := 0, highMark := 0, saturated := false, speed := 0 }
  act :=
    { marks := [], nextRef := 0, actions := [], onCount := 0, marker := false
      watches := Vector.replicate 4 none }
  pack :=
    { state := .noCoil, coilStart := none, bound := none, plan := none, nearSplice := false
      phase := none, timer := none, cutter := false, packages := [], more := false, record := none }

/-- The Knot Scanner after a reset (R103). -/
def Knot.reset : Knot where
  grid := none
  scan := none
  driven := none
  row := 0
  step := 0
  rowsDone := 0
  panels := 0
  counters := Vector.replicate 64 0
  faultHook := none
  extrasLast := false
  ring := []
  last := none
  outRun := OutRun.reset
  span := none

/-- The log state before the start-up scan (log 10, DESIGN CHOICE, unsafe): that of a log with no page. -/
def LogState.reset : LogState where
  oldest := none
  newest := none
  page := 43
  slot := 0
  toBegin := true
  next := 1
  closed := false

/-- A tally before the start-up scan counts its page (R167; stored steps: log 10). -/
def Tally.reset : Tally where
  stored := 0
  queued := false
  fine := 0
  fullReported := false

/-- The default settings of a report kind, the six urgent kinds apart (R187). -/
def ReportSetting.plain : ReportSetting where
  queued := true
  call := true
  urgent := false

/-- The settings of the 24 report kinds after a reset, in code order (R187). -/
def defaultSettings : Vector ReportSetting 24 :=
  Vector.ofFn fun i =>
    { ReportSetting.plain with urgent := [1, 6, 8, 11, 17, 18].contains i.val }

/-- The Link Port when a reset ends (R193), the straps as read (R11). -/
def Link.atReset (br1 br0 : Bool) (kind : ResetKind) (held : List HeldReport) : Link where
  br1 := br1
  br0 := br0
  receive := .hunt
  gap := none
  badFrames := 0
  overruns := 0
  frames := []
  reports := []
  settings := defaultSettings
  mask := false
  lost := 0
  call := false
  latches := Vector.replicate 10 { steady := false, stopSeen := false }
  start := .starting
  resetKind := kind
  held := held
  restarting := false

/-- The part right after a power-on reset (the table "The part after a reset" of chapter 10), with no command
waiting; pins and straps low (log 8) and the store erased (log 7) are DESIGN CHOICES, unsafe. -/
def State.reset : State where
  pending := []
  now := 0
  inputs := Inputs.reset
  jobs := Vector.replicate 8 none
  lay := Lay.reset
  table := Table.reset
  rope := Line.reset
  net := Line.reset
  ropeCopy := none
  netCopy := none
  stops := Vector.replicate 10 { causes := 0, asserted := false }
  knot := Knot.reset
  orders := []
  flash := []
  queue := []
  log := LogState.reset
  tallies := Vector.replicate 10 Tally.reset
  plant := none
  link := Link.atReset false false .powerOn []

end Sys2Proof.Machine
end

