-- ==== Sys2Proof/Machine/Ops.lean ====
section
/-! DEFINITION. The shared operations: arithmetic of the conventions, codes, the store's memory and its steps,
the parts of State and their updates, the clock, the plant record in force. -/

namespace Sys2Proof.Machine

/-! ### Arithmetic (00_scope.md, "Arithmetic") -/

/-- a / b rounded half up. -/
def roundDiv (a b : Nat) : Nat :=
  (2 * a + b) / (2 * b)

/-- a / b rounded toward plus infinity. -/
def ceilDiv (a b : Nat) : Nat :=
  (a + b - 1) / b

/-- a + b, saturating at `top`. -/
def satAdd (top a b : Nat) : Nat :=
  min (a + b) top

/-- A sum of positions, held at 4,294,967,295. -/
def held32 (n : Nat) : Nat :=
  min n top32

/-- A mark's or stretch's span, held at 1,000,000 mm. -/
def heldSpan (n : Nat) : Nat :=
  min n 1000000

/-- `v` held within `lo` and `hi`, for a signed `v`. -/
def clampNat (v : Int) (lo hi : Nat) : Nat :=
  max lo (min v.toNat hi)

/-! ### Codes (chapter 11, "Codes of named values"; places in lists by R196) -/

/-- Code of a stop cause. -/
def StopCause.code : StopCause → Nat
  | .breakage => 1
  | .jam => 2
  | .spliceLimit => 3
  | .target => 4
  | .commanded => 5
  | .creel => 6
  | .runout => 7
  | .marksFull => 8
  | .cut => 9
  | .cutFail => 10
  | .logFull => 11
  | .watch => 12
  | .hookFault => 13
  | .sensor => 14
  | .panelEnd => 15

/-- The set of one cause (R194). -/
def StopCause.only (c : StopCause) : CauseSet :=
  1#16 <<< (c.code - 1)

/-- Whether a cause is in a set. -/
def StopCause.isIn (c : StopCause) (causes : CauseSet) : Bool :=
  causes.getLsbD (c.code - 1)

/-- Code of a mark kind. -/
def MarkKind.code : MarkKind → Nat
  | .splice => 1
  | .strandFault => 2
  | .layLow => 3
  | .layHigh => 4
  | .knotMissing => 5
  | .meshLong => 6
  | .meshShort => 7
  | .unscanned => 8
  | .operator => 9
  | .mixed => 10

/-- Whether a mark kind is in a set of kinds. -/
def MarkKind.isIn (k : MarkKind) (kinds : KindSet) : Bool :=
  kinds.getLsbD (k.code - 1)

/-- Code of a grade; a lower code is a better grade. -/
def Grade.code : Grade → Nat
  | .a => 1
  | .b => 2
  | .c => 3

/-- The grade of a code in range. -/
def Grade.ofCode (n : Nat) : Grade :=
  if n ≤ 1 then .a else if n = 2 then .b else .c

/-- Whether a grade is at least another: A > B > C. -/
def Grade.atLeast (g least : Grade) : Bool :=
  decide (g.code ≤ least.code)

/-- Code of a grade that may be absent: 0 when it is. -/
def gradeCode (g : Option Grade) : Nat :=
  (g.map Grade.code).getD 0

/-- Code of a span kind. -/
def SpanKind.code : SpanKind → Nat
  | .low => 1
  | .high => 2
  | .mixed => 3

/-- The span kind of a code in range. -/
def SpanKind.ofCode (n : Nat) : SpanKind :=
  if n ≤ 1 then .low else if n = 2 then .high else .mixed

/-- Code of a side. -/
def Side.code : Side → Nat
  | .low => 1
  | .high => 2

/-- The span kind of a side. -/
def Side.spanKind : Side → SpanKind
  | .low => .low
  | .high => .high

/-- Code of a verdict. -/
def Verdict.code : Verdict → Nat
  | .inBand => 0
  | .low => 1
  | .high => 2

/-- Stop cause of a fault cause. -/
def FaultCause.stop : FaultCause → StopCause
  | .breakage => .breakage
  | .jam => .jam
  | .spliceLimit => .spliceLimit

/-- Machine number of a line. -/
def machineOf : LineId → Fin 10
  | .rope => 8
  | .net => 9

/-- The line of a machine number (8 or 9). -/
def lineOf (machine : Nat) : Option LineId :=
  if machine = 8 then some .rope else if machine = 9 then some .net else none

/-- Machine number of a position. -/
def positionMachine (p : Fin 8) : Fin 10 :=
  ⟨p.val, by omega⟩

/-! ### The store's memory (R152) -/

/-- Bytes of a page. -/
def pageSize : Nat := 512

/-- Pages of the store. -/
def pageCount : Nat := 139

/-- Address of a byte of a page. -/
def addressOf (page offset : Nat) : Nat :=
  page * pageSize + offset

/-- What an unlisted address reads as: an erased byte. -/
def erasedByte : Byte := 0xFF

/-- The byte at an address. -/
def Memory.read : Memory → Nat → Byte
  | [], _ => erasedByte
  | (k, v) :: rest, a => if k = a then v else Memory.read rest a

/-- Memory with one byte set, in canonical form. -/
def Memory.write : Memory → Nat → Byte → Memory
  | [], a, b => if b = erasedByte then [] else [(a, b)]
  | (k, v) :: rest, a, b =>
    if a < k then if b = erasedByte then (k, v) :: rest else (a, b) :: (k, v) :: rest
    else if a = k then if b = erasedByte then rest else (a, b) :: rest
    else (k, v) :: Memory.write rest a b

/-- Canonical form from an address on: addresses rising, none listed as erased. -/
def Memory.wfFrom : Nat → Memory → Bool
  | _, [] => true
  | lo, (k, v) :: rest => decide (lo ≤ k) && v != erasedByte && Memory.wfFrom (k + 1) rest

/-- The canonical form of the store: addresses rising, no byte listed as erased. -/
def Memory.wf (m : Memory) : Bool :=
  Memory.wfFrom 0 m

/-- Whether every byte listed lies within the 139 pages of the store (R152). -/
def Memory.within (m : Memory) : Bool :=
  m.all fun c => decide (c.1 < pageCount * pageSize)

/-- `count` bytes from an offset of a page. -/
def Memory.bytes (m : Memory) (page offset count : Nat) : List Byte :=
  (List.range count).map fun i => m.read (addressOf page (offset + i))

/-- The number that `count` bytes of a page spell. -/
def Memory.number (m : Memory) (page offset count : Nat) : Nat :=
  unbe (m.bytes page offset count)

/-- The byte a step left at an offset, where it is other than intended. -/
def faultAt : StepFault → Nat → Option Byte
  | [], _ => none
  | (k, v) :: rest, offset => if k = offset then some v else faultAt rest offset

/-- A step of programming: byte i of `bytes` goes over the byte at `offset + i`, and can only clear bits (R152).
A byte that a fault names is programmed to the fault's value instead. -/
def Memory.program (fault : StepFault) (page : Nat) : Nat → List Byte → Memory → Memory
  | _, [], m => m
  | offset, b :: rest, m =>
    let a := addressOf page offset
    Memory.program fault page (offset + 1) rest
      (m.write a (m.read a &&& (faultAt fault offset).getD b))

/-- A page whose bytes all read as erased. -/
def Memory.clearPage (page : Nat) (m : Memory) : Memory :=
  m.filter fun c => !(decide (addressOf page 0 ≤ c.1) && decide (c.1 < addressOf (page + 1) 0))

/-- A step of erasing: every byte of the page is erased but those a fault names (R152). -/
def Memory.erase (fault : StepFault) (page : Nat) (m : Memory) : Memory :=
  fault.foldr (fun f acc => if f.1 < pageSize then acc.write (addressOf page f.1) f.2 else acc)
    (m.clearPage page)

/-- Whether every byte of a page reads as erased. -/
def Memory.pageErased (page : Nat) (m : Memory) : Bool :=
  m.all fun c => !(decide (addressOf page 0 ≤ c.1) && decide (c.1 < addressOf (page + 1) 0))

/-- A store operation on its way: the memory, the outcomes still to come (one a step, log 5) and how many more
steps are carried out before a reset cuts it off, `none` when none does (log 6). -/
structure Progress where
  mem : Memory
  faults : List StepFault
  budget : Option Nat
  deriving DecidableEq, Repr

/-- One step: the change it makes, given what fails in it. A step after the cut-off changes nothing. -/
def Progress.step (change : StepFault → Memory → Memory) (x : Progress) : Progress :=
  match x.budget with
  | some 0 => x
  | b =>
    { mem := change (x.faults.headD []) x.mem
      faults := x.faults.tail
      budget := b.map (· - 1) }

/-- Programs bytes and reads them back: the progress and whether they read as intended (R152). -/
def Progress.program (page offset : Nat) (bytes : List Byte) (x : Progress) : Progress × Bool :=
  let y := x.step fun fault => Memory.program fault page offset bytes
  (y, y.mem.bytes page offset bytes.length == bytes)

/-- Erases a page and reads it back: the progress and whether all of it reads 1s (R152). -/
def Progress.erase (page : Nat) (x : Progress) : Progress × Bool :=
  let y := x.step fun fault => Memory.erase fault page
  (y, y.mem.pageErased page)

/-! ### Parts of the state -/

/-- The state of a pulse input. -/
def Inputs.pulse (i : Inputs) : PulseInput → PulseIn
  | .sp p => i.sp[p]
  | .dl p => i.dl[p]
  | .lh => i.lh
  | .mw => i.mw
  | .nw => i.nw
  | .ks => i.ks

/-- Inputs with one pulse input replaced. -/
def Inputs.setPulse (i : Inputs) (k : PulseInput) (x : PulseIn) : Inputs :=
  match k with
  | .sp p => { i with sp := i.sp.set p x }
  | .dl p => { i with dl := i.dl.set p x }
  | .lh => { i with lh := x }
  | .mw => { i with mw := x }
  | .nw => { i with nw := x }
  | .ks => { i with ks := x }

/-- The state of a level input. -/
def Inputs.level (i : Inputs) : LevelInput → LevelIn
  | .sd p => i.sd[p]
  | .rev => i.rev
  | .cdr => i.cdr
  | .cdn => i.cdn

/-- Inputs with one level input replaced. -/
def Inputs.setLevel (i : Inputs) (k : LevelInput) (x : LevelIn) : Inputs :=
  match k with
  | .sd p => { i with sd := i.sd.set p x }
  | .rev => { i with rev := x }
  | .cdr => { i with cdr := x }
  | .cdn => { i with cdn := x }

/-- The state of a pulse input. -/
def State.pulse (s : State) (k : PulseInput) : PulseIn :=
  s.inputs.pulse k

/-- State with one pulse input replaced. -/
def State.setPulse (k : PulseInput) (x : PulseIn) (s : State) : State :=
  { s with inputs := s.inputs.setPulse k x }

/-- State with one level input replaced. -/
def State.setLevel (k : LevelInput) (x : LevelIn) (s : State) : State :=
  { s with inputs := s.inputs.setLevel k x }

/-- What a position holds. -/
def State.job (s : State) (p : Fin 8) : Option Job :=
  s.jobs[p]

/-- State with what a position holds replaced. -/
def State.setJob (p : Fin 8) (j : Option Job) (s : State) : State :=
  { s with jobs := s.jobs.set p j }

/-- A line. -/
def State.line (s : State) : LineId → Line
  | .rope => s.rope
  | .net => s.net

/-- State with a line replaced. -/
def State.setLine (l : LineId) (x : Line) (s : State) : State :=
  match l with
  | .rope => { s with rope := x }
  | .net => { s with net := x }

/-- The Length Meter's state of a line. -/
def State.len (s : State) (l : LineId) : LengthMeter :=
  (s.line l).len

/-- State with the Length Meter's state of a line replaced. -/
def State.setLen (l : LineId) (x : LengthMeter) (s : State) : State :=
  s.setLine l { s.line l with len := x }

/-- The Line Action Unit's state of a line. -/
def State.act (s : State) (l : LineId) : LineActions :=
  (s.line l).act

/-- State with the Line Action Unit's state of a line replaced. -/
def State.setAct (l : LineId) (x : LineActions) (s : State) : State :=
  s.setLine l { s.line l with act := x }

/-- The pack point of a line. -/
def State.pack (s : State) (l : LineId) : PackPoint :=
  (s.line l).pack

/-- State with the pack point of a line replaced. -/
def State.setPack (l : LineId) (x : PackPoint) (s : State) : State :=
  s.setLine l { s.line l with pack := x }

/-- State with the mark list of a line replaced. -/
def State.setMarks (l : LineId) (marks : List Mark) (s : State) : State :=
  s.setAct l { s.act l with marks := marks }

/-- A tally. -/
def State.tally (s : State) (m : Fin 10) : Tally :=
  s.tallies[m]

/-- State with a tally replaced. -/
def State.setTally (m : Fin 10) (t : Tally) (s : State) : State :=
  { s with tallies := s.tallies.set m t }

/-- The Stop Unit's state of a machine. -/
def State.stop (s : State) (m : Fin 10) : Stop :=
  s.stops[m]

/-- Whether a cause is set on a machine. -/
def State.hasCause (s : State) (m : Fin 10) (c : StopCause) : Bool :=
  c.isIn (s.stop m).causes

/-- The latches of a machine. -/
def State.latches (s : State) (m : Fin 10) : Latches :=
  s.link.latches[m]

/-- State with the latches of a machine replaced. -/
def State.setLatches (m : Fin 10) (x : Latches) (s : State) : State :=
  { s with link := { s.link with latches := s.link.latches.set m x } }

/-- The record of a package number. -/
def State.package (s : State) (number : Nat) : Option Package :=
  s.table.packages.find? fun k => k.number == number

/-- State with the package records replaced. -/
def State.setPackages (packages : List Package) (s : State) : State :=
  { s with table := { s.table with packages := packages } }

/-- State with the record of a package number changed. -/
def State.updatePackage (number : Nat) (f : Package → Package) (s : State) : State :=
  s.setPackages (s.table.packages.map fun k => if k.number == number then f k else k)

/-- A place of the creel. -/
def State.place (s : State) (i : Fin 4) : Place :=
  s.table.creel[i]

/-- State with a place of the creel replaced. -/
def State.setPlace (i : Fin 4) (x : Place) (s : State) : State :=
  { s with table := { s.table with creel := s.table.creel.set i x } }

/-! ### The clock (log 1, log 2) -/

/-- Microseconds of a millisecond. -/
def ms : Nat := 1000

/-- The state at a deadline: the clock stands there, or where it was if that is later. -/
def State.reach (deadline : Nat) (s : State) : State :=
  { s with now := max s.now deadline }

/-- A microsecond passes with no command waiting (log 1). -/
def State.tick (s : State) : State :=
  { s with now := s.now + 1 }

/-- The report time: milliseconds since the last reset ended, returning to 0 past 4,294,967,295 (chapter 10,
"The report queue"). -/
def State.reportTime (s : State) : Nat :=
  s.now / ms % 2 ^ 32

/-! ### The plant record in force (R176) and the class settings (R1) -/

/-- The constants read where a rule reads the plant record in force. With none in force, where no rule reads
one, every constant is 0 (log 28). -/
def State.plantD (s : State) : PlantRecord :=
  s.plant.getD (PlantRecord.ofValues [])

/-- The class of a pulse input, in the order of the table of R1. -/
def signalClass : PulseInput → Fin 5
  | .sp _ => 0
  | .dl _ => 1
  | .lh => 2
  | .mw => 3
  | .nw => 3
  | .ks => 4

/-- Filter width in force, microseconds (R1). -/
def State.filterWidth (s : State) (k : PulseInput) : Nat :=
  match s.plant with
  | some r => r.filterWidth[signalClass k]
  | none => 255

/-- Stall time in force, microseconds (R1). -/
def State.stallTime (s : State) (k : PulseInput) : Nat :=
  match s.plant with
  | some r => r.stallTime[signalClass k] * (10 * ms)
  | none => 100 * (10 * ms)

/-- Filter width of the level inputs, microseconds (R8). -/
def levelWidth : Nat := 100

/-- The marker offset of a line. -/
def State.markerOffset (s : State) : LineId → Nat
  | .rope => s.plantD.ropeMarker
  | .net => s.plantD.netMarker

/-- The cutter offset of a line. -/
def State.cutterOffset (s : State) : LineId → Nat
  | .rope => s.plantD.ropeCutter
  | .net => s.plantD.netCutter

/-- The feed offset. -/
def State.feedOffset (s : State) : Nat :=
  s.plantD.feedOffset

/-! ### Views of the lines -/

/-- The line wheel of a line (R71). -/
def wheelOf : LineId → PulseInput
  | .rope => .mw
  | .net => .nw

/-- Whether a line is RUNNING (R71). -/
def State.running (s : State) (l : LineId) : Bool :=
  (s.pulse (wheelOf l)).running

/-- The recipe slot and check word of a line's working copy (R173). -/
def State.copyOf (s : State) : LineId → Option (Nat × Nat)
  | .rope => s.ropeCopy.map fun c => (c.slot, c.check)
  | .net => s.netCopy.map fun c => (c.slot, c.check)

/-- The spray set of a line's working copy (R85). -/
def State.spraySet (s : State) : LineId → KindSet
  | .rope => (s.ropeCopy.map fun c => c.recipe.spray).getD 0
  | .net => (s.netCopy.map fun c => c.recipe.spray).getD 0

/-- The B-kind set of a line's working copy (R137). -/
def State.bKinds (s : State) : LineId → KindSet
  | .rope => (s.ropeCopy.map fun c => c.recipe.bKinds).getD 0
  | .net => (s.netCopy.map fun c => c.recipe.bKinds).getD 0

/-- The B limit of a line's working copy (R137). -/
def State.bLimit (s : State) : LineId → Nat
  | .rope => (s.ropeCopy.map fun c => c.recipe.bLimit).getD 0
  | .net => (s.netCopy.map fun c => c.recipe.bLimit).getD 0

/-- The guard G of a line's working copy (R135). -/
def State.guardOf (s : State) : LineId → Nat
  | .rope => (s.ropeCopy.map fun c => c.recipe.guard).getD 0
  | .net => (s.netCopy.map fun c => c.recipe.guard).getD 0

end Sys2Proof.Machine
end

