-- ==== Sys2Proof/Machine/Flags.lean ====
section
/-! DEFINITION. The flags the part keeps: report entry and the CALL output, stop causes with their outputs, and
the latches of the machines (R98, R99, R185, R188, R190). -/

namespace Sys2Proof.Machine

/-! ### Reports and CALL -/

/-- The place of a report kind in the list of kinds; its code is one more (R197). -/
def ReportKind.index : ReportKind → Fin 24
  | .started => 0
  | .positionFault => 1
  | .packageTarget => 2
  | .packageDoffed => 3
  | .twistSpan => 4
  | .runoutNear => 5
  | .runout => 6
  | .laySpan => 7
  | .stopChange => 8
  | .watchHit => 9
  | .rowFault => 10
  | .hookFault => 11
  | .panelEnd => 12
  | .meshSpan => 13
  | .orderBlocked => 14
  | .coilCut => 15
  | .orderDone => 16
  | .cutFail => 17
  | .logFull => 18
  | .storeDone => 19
  | .storeFailed => 20
  | .serviceDue => 21
  | .tallyFull => 22
  | .marksHigh => 23

/-- The code of a report kind (R197). -/
def ReportKind.code (k : ReportKind) : Nat :=
  k.index.val + 1

/-- Records the report queue holds at most (R185). -/
def reportCapacity : Nat := 64

/-- The top of the bad-frame, overrun and lost counts. -/
def countTop : Nat := 65535

/-- Whether a queued record holds CALL under a global call mask (R188). -/
def Report.holdsCall (mask : Bool) (r : Report) : Bool :=
  r.call && (!mask || r.urgent)

/-- Whether CALL is due: a queued record holds it (R188). -/
def Link.callDue (x : Link) : Bool :=
  x.reports.any (Report.holdsCall x.mask)

/-- The CALL output judged anew (R188). -/
def judgeCall (s : State) : State :=
  { s with link := { s.link with call := s.link.callDue } }

/-- Whether a report is held for entry after STARTED: one entered before STARTED, or the end report of the store
operation in flight under a RESTART; `onOutcome` sees to the others that its outcome enters (R191, R192; log 17). -/
def isHeld (kind : ReportKind) (s : State) : Bool :=
  s.link.start == .starting
    || (s.link.restarting && (kind == .storeDone || kind == .storeFailed))

/-- Entry of a report into the queue, its settings and time those of the moment (R185). -/
def queueReport (kind : ReportKind) (machine : Option Nat) (body : List Byte) (s : State) : State :=
  let setting := s.link.settings[kind.index]
  if !setting.queued then s
  else if s.link.reports.length < reportCapacity then
    let record : Report :=
      { kind := kind, machine := machine, time := s.reportTime, body := body
        call := setting.call, urgent := setting.urgent }
    judgeCall { s with link := { s.link with reports := s.link.reports ++ [record] } }
  else
    judgeCall { s with link := { s.link with lost := satAdd countTop s.link.lost 1 } }

/-- A block enters a report through the Link Port (R185, R191). -/
def enterReport (kind : ReportKind) (machine : Option Nat) (body : List Byte) (s : State) : State :=
  if isHeld kind s then
    { s with link := { s.link with held := s.link.held ++ [⟨kind, machine, body⟩] } }
  else queueReport kind machine body s

/-! ### Latches (R190) -/

/-- A position has entered STILL or a line has gone STILL: its steady latch is cleared. -/
def clearSteady (m : Fin 10) (s : State) : State :=
  s.setLatches m { s.latches m with steady := false }

/-- A cause has been added to a machine's set: steady is cleared and stop seen is set. -/
def latchStop (m : Fin 10) (s : State) : State :=
  s.setLatches m { steady := false, stopSeen := true }

/-! ### Stop causes (R98, R99) -/

/-- The body of STOP_CHANGE: set after, causes set, causes cleared, output (R197). -/
def stopChangeBody (before after : CauseSet) : List Byte :=
  be 2 after.toNat ++ be 2 (after &&& ~~~before).toNat ++ be 2 (before &&& ~~~after).toNat
    ++ yesNo (after != 0)

/-- A machine's cause set replaced and its output judged (R98). -/
def State.setCauses (m : Fin 10) (causes : CauseSet) (s : State) : State :=
  { s with stops := s.stops.set m { causes := causes, asserted := causes != 0 } }

/-- A notice that sets some causes of a machine and clears others. One that changes the set is one change: the
output is judged, the latches move if a cause was added and STOP_CHANGE is entered (R99). -/
def stopNotice (m : Fin 10) (set clear : CauseSet) (s : State) : State :=
  let before := (s.stop m).causes
  let after := (before ||| set) &&& ~~~clear
  if after = before then s
  else
    let s1 := s.setCauses m after
    let s2 := if after &&& ~~~before = 0 then s1 else latchStop m s1
    enterReport .stopChange (some m.val) (stopChangeBody before after) s2

/-- A notice that sets one cause. -/
def setCause (m : Fin 10) (c : StopCause) (s : State) : State :=
  stopNotice m c.only 0 s

/-- A notice that clears one cause. -/
def clearCause (m : Fin 10) (c : StopCause) (s : State) : State :=
  stopNotice m 0 c.only s

end Sys2Proof.Machine
end

