-- ==== Sys2Proof/Machine/Operands.lean ====
section
/-! DEFINITION. Requests: their answers, the order of their checks, the receive queue in which their frames wait
with their replies, and the codes of named values in replies (R182, R183, R194, R196). -/

namespace Sys2Proof.Machine

/-- The STATE conditions (chapter 11). -/
inductive Condition where
  | notConfigured
  | starting
  | machineRunning
  | wrongState
  | tableFull
  | duplicate
  | notFound
  | storeBusy
  | slotInOrder
  | slotEmpty
  | slotCorrupt
  | gradeLow
  | recordPending
  | placeFull
  | queueFull
  | slotBeingWritten
  | passed
  | plantMismatch
  deriving DecidableEq, Repr

/-- The code of a STATE condition. -/
def Condition.code : Condition → Nat
  | .notConfigured => 0x01
  | .starting => 0x02
  | .machineRunning => 0x03
  | .wrongState => 0x04
  | .tableFull => 0x05
  | .duplicate => 0x06
  | .notFound => 0x07
  | .storeBusy => 0x08
  | .slotInOrder => 0x09
  | .slotEmpty => 0x0A
  | .slotCorrupt => 0x0B
  | .gradeLow => 0x0C
  | .recordPending => 0x0D
  | .placeFull => 0x0E
  | .queueFull => 0x0F
  | .slotBeingWritten => 0x10
  | .passed => 0x11
  | .plantMismatch => 0x12

/-- How a request is answered (R183). -/
inductive Answer where
  | done (fields : List Byte)
  | field (index : Nat)
  | state (condition : Condition)
  | unknown
  deriving DecidableEq, Repr

/-- The reply an answer gives to a request of a tag and kind (R183). -/
def Answer.reply (tag kind : Byte) : Answer → Reply
  | .done fields => ⟨tag, kind, 0x00, 0, fields⟩
  | .field index => ⟨tag, kind, 0x01, BitVec.ofNat 8 index, []⟩
  | .state condition => ⟨tag, kind, 0x02, BitVec.ofNat 8 condition.code, []⟩
  | .unknown => ⟨tag, kind, 0x03, 0, []⟩

/-- The body of a reply frame: tag, kind with 0x80 added, status, detail, fields (chapter 11). To an unknown kind of
0x80 or above the addition wraps (log 40). -/
def Reply.body (r : Reply) : List Byte :=
  [r.tag, r.kind + 0x80, r.status, r.detail] ++ r.fields

/-- A body as it goes over the line: start byte, LEN, body, check word (chapter 10, "Frames on the line"). -/
def frameBytes (body : List Byte) : List Byte :=
  let checked := be 1 body.length ++ body
  [0x5A] ++ checked ++ be 2 (crc16 checked)

/-- The bytes now going out on TXD: the reply at the head of the receive queue (R182). -/
def State.transmitting (s : State) : List Byte :=
  match s.link.frames with
  | ⟨_, some r⟩ :: _ => frameBytes r.body
  | _ => []

/-- A check of a request: whether it passes, and the answer where it fails. -/
abbrev Check := Bool × Answer

/-- The answer of the first check that fails (R183). -/
def firstRefusal : List Check → Option Answer
  | [] => none
  | (ok, a) :: rest => if ok then firstRefusal rest else some a

/-- A request that changes nothing where a check fails, and otherwise acts (R183). -/
def guarded (checks : List Check) (act : State → State × Answer) (s : State) : State × Answer :=
  match firstRefusal checks with
  | some a => (s, a)
  | none => act s

/-- A field check: the value lies between two bounds (R183). -/
def inField (index lo hi v : Nat) : Check :=
  (decide (lo ≤ v) && decide (v ≤ hi), .field index)

/-- The check that a plant record is in force. -/
def configured (s : State) : Check :=
  (s.plant.isSome, .state .notConfigured)

/-! ### The receive queue (R182) -/

/-- Frames the receive queue holds at most. -/
def frameCapacity : Nat := 4

/-- A frame comes to the receive queue: it goes to the end, or is dropped as an overrun. -/
def frameArrives (request : Instr) (s : State) : State :=
  if s.link.frames.length < frameCapacity then
    { s with link := { s.link with frames := s.link.frames ++ [⟨request, none⟩] } }
  else { s with link := { s.link with overruns := satAdd countTop s.link.overruns 1 } }

/-- The first request of the queue not yet handled. -/
def firstWaiting : List Frame → Option Instr
  | [] => none
  | ⟨request, none⟩ :: _ => some request
  | ⟨_, some _⟩ :: rest => firstWaiting rest

/-- The frames with the first waiting one given its reply. -/
def giveReply (r : Reply) : List Frame → List Frame
  | [] => []
  | ⟨request, none⟩ :: rest => ⟨request, some r⟩ :: rest
  | ⟨request, some x⟩ :: rest => ⟨request, some x⟩ :: giveReply r rest

/-- State with the reply of the request just handled in its frame. -/
def attachReply (r : Reply) (s : State) : State :=
  { s with link := { s.link with frames := giveReply r s.link.frames } }

/-- How a request is answered once it is handled: while STARTING every kind but STATUS is refused (R183). -/
def answerOf (inStarting : Bool) (act : State → State × Answer) (s : State) : State × Answer :=
  if s.link.start == .starting && !inStarting then (s, .state .starting) else act s

/-- The event of a request command (log 13). Its frame is the first one waiting, or comes to the queue now. If it
is then the first one waiting and no RESTART has been accepted, the request is handled and its frame takes the
reply; otherwise the frame waits, or has been dropped (R182, R192). -/
def request (c : Instr) (tag kind : Byte) (inStarting : Bool) (act : State → State × Answer)
    (s : State) : State :=
  let s1 := if firstWaiting s.link.frames = some c then s else frameArrives c s
  if firstWaiting s1.link.frames = some c ∧ s1.link.restarting = false then
    let r := answerOf inStarting act s1
    attachReply (r.2.reply tag kind) r.1
  else s1

/-! ### Codes of named values without a code of their own: their place in the list (R196) -/

/-- STILL 1, RUNNING 2. -/
def runningCode (running : Bool) : List Byte :=
  [if running then 2 else 1]

/-- low 1, high 2. -/
def levelCode (level : Bool) : List Byte :=
  [if level then 2 else 1]

/-- A code field that may be absent: 0xFF when it is (R194). -/
def optionCode (c : Option Nat) : List Byte :=
  match c with
  | some n => be 1 n
  | none => [0xFF]

/-- An optional number with 0 outside its values: 0 when it is absent (R194, log 22). -/
def optionNumber (k : Nat) (n : Option Nat) : List Byte :=
  be k (n.getD 0)

/-- An optional number with 0 among its values, its range leaving free the top bit of its bytes: that bit says that it
is present (R194, log 22). -/
def presentBit (k : Nat) (n : Option Nat) : List Byte :=
  be k ((n.map fun v => 2 ^ (8 * k - 1) + v).getD 0)

/-- An optional number with 0 among its values and no bit free: bit 0 of a byte before it says that it is present
(R194, log 22). -/
def presentNumber (k : Nat) (n : Option Nat) : List Byte :=
  yesNo n.isSome ++ optionNumber k n

/-- A set of causes as it is carried (R194). -/
def causeBytes (c : CauseSet) : List Byte :=
  be 2 c.toNat

/-- A set of hooks as it is carried: hook h is bit h mod 8 of byte 7 - floor(h / 8) (R194). -/
def hookBytes (h : HookSet) : List Byte :=
  digits 8 h.toNat

/-- Place of a grade code on the wire. -/
def gradeByte (g : Option Grade) : List Byte :=
  be 1 (gradeCode g)

end Sys2Proof.Machine
end

