-- ==== Sys2Proof/Machine/Cutting.lean ====
section
/-! DEFINITION. The start of a cut: a CUT that fires and the stroke of the cutter (R140, R141). -/

namespace Sys2Proof.Machine

/-- The stroke begins: the cutter output is asserted and the cut timer starts (R141). -/
def beginStroke (l : LineId) (s : State) : State :=
  s.setPack l
    { s.pack l with
      phase := some .stroke
      cutter := true
      timer := some (s.now + s.plantD.cutTimeout * (100 * ms)) }

/-- A CUT fires: the pack point is CUTTING, waiting for the line to stand, and the cause CUT is set. On a line
that stands the stroke begins at once (R140). -/
def cutFires (l : LineId) (s : State) : State :=
  let s1 := s.setPack l { s.pack l with state := .cutting, phase := some .wait }
  let s2 := setCause (machineOf l) .cut s1
  if s2.running l then s2 else beginStroke l s2

/-- A line has gone STILL: a cut that waits for it begins its stroke (R141). -/
def lineStands (l : LineId) (s : State) : State :=
  if (s.pack l).state = .cutting ∧ (s.pack l).phase = some .wait then beginStroke l s else s

end Sys2Proof.Machine
end

