-- ==== Sys2Proof/Machine/LineActions.lean ====
section
/-! DEFINITION. The Line Action Unit: mark lists, spraying, action queues and watches (R79 to R97, R102). -/

namespace Sys2Proof.Machine

/-! ### The mark list as data (R80, R81, R83) -/

/-- A finding handed to a mark list as a new mark. -/
structure NewMark where
  x : Nat
  span : Nat
  kind : MarkKind
  source : Option Nat
  count : Nat
  deriving DecidableEq, Repr

/-- Where a mark's stretch ends. -/
def Mark.stop (m : Mark) : Nat :=
  m.x + m.span

/-- Marks a list holds at most. -/
def markCapacity : Nat := 128

/-- The levels of the high-water and low-water rules (R82). -/
def highWater : Nat := 120
def lowWater : Nat := 112

/-- The top of a mark's count. -/
def markCountTop : Nat := 255

/-- Whether a mark takes a stretch of this kind and source by R81: FUTURE, alike, and overlapping or touching. -/
def Mark.takes (m : Mark) (kind : MarkKind) (source : Option Nat) (x stop : Nat) : Bool :=
  !m.made && m.kind == kind && m.source == source && decide (x ≤ m.stop) && decide (m.x ≤ stop)

/-- A mark grown over another stretch: the lower position, the higher end, the sum of the counts (R81). -/
def Mark.grow (m : Mark) (x stop count : Nat) : Mark :=
  let start := min m.x x
  { m with
    x := start
    span := heldSpan (max m.stop stop - start)
    count := satAdd markCountTop m.count count }

/-- A mark put after every mark of position at or below its own (R80). -/
def placeMark (m : Mark) : List Mark → List Mark
  | [] => [m]
  | h :: rest => if h.x ≤ m.x then h :: placeMark m rest else m :: h :: rest

/-- A list with the mark of the reference changed in its place. -/
def mapRef (ref : Nat) (f : Mark → Mark) (marks : List Mark) : List Mark :=
  marks.map fun m => if m.ref = ref then f m else m

/-- A list without the mark of the reference. -/
def dropRef (ref : Nat) (marks : List Mark) : List Mark :=
  marks.filter fun m => m.ref != ref

/-- The mark of a reference. -/
def findRef (ref : Nat) (marks : List Mark) : Option Mark :=
  marks.find? fun m => m.ref == ref

/-- A mark of the list replaced by its grown form, moved where its position has fallen (R81). -/
def regrow (old grown : Mark) (marks : List Mark) : List Mark :=
  if grown.x < old.x then placeMark grown (dropRef old.ref marks)
  else mapRef old.ref (fun _ => grown) marks

/-- The grown mark absorbs every other mark it now takes, the first in list order each time (R81). The fuel is
the length of the list: each absorption removes a mark. -/
def absorb : Nat → Nat → List Mark → List Mark
  | 0, _, marks => marks
  | fuel + 1, ref, marks =>
    match findRef ref marks with
    | none => marks
    | some g =>
      match marks.find? fun m => m.ref != ref && m.takes g.kind g.source g.x g.stop with
      | none => marks
      | some m => absorb fuel ref (regrow g (g.grow m.x m.stop m.count) (dropRef m.ref marks))

/-- How a new mark was placed. -/
inductive Placing where
  | inserted
  | merged
  | folded
  deriving DecidableEq, Repr

/-- The mark a full list folds a new one into: the last at or before its position, else the first (R83). -/
def foldTarget (x : Nat) (marks : List Mark) : Option Mark :=
  match (marks.filter fun m => decide (m.x ≤ x)).getLast? with
  | some m => some m
  | none => marks.head?

/-- A mark with a new one folded into it (R83); `sprayed` says whether MIXED is in the spray set. -/
def Mark.fold (m : Mark) (n : NewMark) (sprayed : Bool) : Mark :=
  let start := min m.x n.x
  let span := heldSpan (max m.stop (n.x + n.span) - start)
  { m with
    kind := .mixed
    x := start
    span := span
    count := satAdd markCountTop m.count n.count
    source := if m.source = n.source then m.source else none
    spray := if m.made && decide (m.stop < start + span) && sprayed then .missed else m.spray }

/-- A mark list after a new mark of reference `fresh`: the list, the reference of the mark that holds it, and how
it was placed (R80, R81, R83). -/
def addMark (sprayed : Bool) (fresh : Nat) (n : NewMark) (marks : List Mark) :
    List Mark × Nat × Placing :=
  match marks.find? fun m => m.takes n.kind n.source n.x (n.x + n.span) with
  | some m =>
    (absorb marks.length m.ref (regrow m (m.grow n.x (n.x + n.span) n.count) marks), m.ref, .merged)
  | none =>
    if marks.length < markCapacity then
      (placeMark
        { ref := fresh, x := n.x, span := n.span, kind := n.kind, source := n.source
          count := n.count, made := false, spray := .none } marks, fresh, .inserted)
    else
      match foldTarget n.x marks with
      | some m => (mapRef m.ref (fun k => k.fold n sprayed) marks, m.ref, .folded)
      | none => (marks, fresh, .folded)

/-! ### Fullness (R82) -/

/-- High water: an insertion has brought the count to 120 (R82). MARKS_HIGH carries the position of the Length Meter, at a
rise the new one, though the mark may be judged at the old (log 39). -/
def judgeHighWater (l : LineId) (s : State) : State :=
  if (s.act l).marks.length = highWater ∧ s.hasCause (machineOf l) .marksFull = false then
    enterReport .marksHigh (some (machineOf l).val)
      (be 1 (s.act l).marks.length ++ be 4 (s.len l).p) (setCause (machineOf l) .marksFull s)
  else s

/-- Low water: a removal or an absorption has brought the count to 112 or below. -/
def judgeLowWater (l : LineId) (s : State) : State :=
  if (s.act l).marks.length ≤ lowWater then clearCause (machineOf l) .marksFull s else s

/-! ### The action queue (R89, R90) -/

/-- Whether an action is a spray action. -/
def Act.isSpray : Act → Bool
  | .cut => false
  | _ => true

/-- Spray actions of a queue. -/
def sprayCount (actions : List Action) : Nat :=
  (actions.filter fun a => a.act.isSpray).length

/-- Spray actions a queue may hold for a pair to find room (R89). -/
def pairRoom : Nat := 29

/-- An action put after every action of trigger at or below its own (R89). -/
def placeAction (a : Action) : List Action → List Action
  | [] => [a]
  | h :: rest => if h.trigger ≤ a.trigger then h :: placeAction a rest else a :: h :: rest

/-- State with the action queue of a line replaced. -/
def State.setActions (l : LineId) (actions : List Action) (s : State) : State :=
  s.setAct l { s.act l with actions := actions }

/-- The marker on-count moved and the marker output judged (R90, R92). -/
def State.setOnCount (l : LineId) (n : Nat) (s : State) : State :=
  s.setAct l { s.act l with onCount := n, marker := decide (0 < n) }

/-- A spray has ended: a mark still PENDING is DONE (R90). -/
def Mark.sprayEnds (m : Mark) : Mark :=
  if m.spray = .pending then { m with spray := .done } else m

/-- An action fires (R90, R91). -/
def fireAct (l : LineId) (a : Act) (s : State) : State :=
  match a with
  | .sprayOn _ => s.setOnCount l ((s.act l).onCount + 1)
  | .sprayOff ref =>
    let s1 := s.setOnCount l ((s.act l).onCount - 1)
    s1.setMarks l (mapRef ref Mark.sprayEnds (s1.act l).marks)
  | .cut => cutFires l s

/-- An action is queued, or fires at once where its trigger is at or below the line's position `p` (R90). -/
def queueAction (l : LineId) (p : Nat) (a : Action) (s : State) : State :=
  if a.trigger ≤ p then fireAct l a.act s
  else s.setActions l (placeAction a (s.act l).actions)

/-! ### Progress and spraying (R84, R85) -/

/-- How a mark comes to be made: at a rise, or at once on insertion with the line at a position. -/
inductive Making where
  | atRise
  | atOnce (p : Nat)
  deriving DecidableEq, Repr

/-- The shortest stretch the marker is on for. -/
def shortestSpray : Nat := 50

/-- The on-trigger and off-trigger of a mark (R85). -/
def sprayTriggers (offset : Nat) (m : Mark) : Nat × Nat :=
  (held32 (m.x + offset), held32 (m.x + max m.span shortestSpray + offset))

/-- A mark's spray state set. -/
def setSpray (l : LineId) (ref : Nat) (v : SprayState) (s : State) : State :=
  s.setMarks l (mapRef ref (fun m => { m with spray := v }) (s.act l).marks)

/-- The spray pair of a mark is queued; the pair of a mark made at once fires where it is reached, that of a mark
made at a rise waits for the firing of the same rise (R85, R90). -/
def queuePair (l : LineId) (how : Making) (on off : Action) (s : State) : State :=
  match how with
  | .atRise => s.setActions l (placeAction off (placeAction on (s.act l).actions))
  | .atOnce p => queueAction l p off (queueAction l p on s)

/-- Whether a mark's on-trigger has been passed: a mark made at once has missed it where the line is beyond (R85). -/
def Making.isLate (on : Nat) : Making → Bool
  | .atRise => false
  | .atOnce p => decide (on < p)

/-- A made mark is judged for spraying (R85). -/
def judgeSpray (l : LineId) (how : Making) (m : Mark) (s : State) : State :=
  if m.kind.isIn (s.spraySet l) then
    let (on, off) := sprayTriggers (s.markerOffset l) m
    if how.isLate on then setSpray l m.ref .missed s
    else if sprayCount (s.act l).actions ≤ pairRoom then
      queuePair l how ⟨on, .sprayOn m.ref⟩ ⟨off, .sprayOff m.ref⟩ (setSpray l m.ref .pending s)
    else setSpray l m.ref .missed s
  else s

/-- A mark becomes MADE and is judged for spraying (R84, R85). -/
def makeMark (l : LineId) (how : Making) (m : Mark) (s : State) : State :=
  judgeSpray l how m (s.setMarks l (mapRef m.ref (fun k => { k with made := true }) (s.act l).marks))

/-- A mark that a list holds at or below the position `p` becomes MADE at once (R84). -/
def makeAtOnce (l : LineId) (p ref : Nat) (s : State) : State :=
  match findRef ref (s.act l).marks with
  | some m => if !m.made && decide (m.x ≤ p) then makeMark l (.atOnce p) m s else s
  | none => s

/-- A new mark is handed to a line's list, the line standing at `p` for the Line Action Unit: it is placed, the
water levels are judged, and the mark that holds it is made at once where it is reached. The result names that mark
and how the new one was placed (R80 to R85). -/
def handMark (l : LineId) (p : Nat) (n : NewMark) (s : State) : State × Nat × Placing :=
  let a := s.act l
  let (marks, ref, how) := addMark (MarkKind.mixed.isIn (s.spraySet l)) a.nextRef n a.marks
  let s1 := s.setAct l { a with marks := marks, nextRef := a.nextRef + 1 }
  let s2 := match how with
    | .inserted => judgeHighWater l s1
    | .merged => if marks.length < a.marks.length then judgeLowWater l s1 else s1
    | .folded => s1
  (makeAtOnce l p ref s2, ref, how)

/-- A new mark is handed to a line's list. -/
def insertMark (l : LineId) (p : Nat) (n : NewMark) (s : State) : State :=
  (handMark l p n s).1

/-- Marks handed to a list one after another. -/
def insertMarks (l : LineId) (p : Nat) (ns : List NewMark) (s : State) : State :=
  ns.foldl (fun acc n => insertMark l p n acc) s

/-! ### A rise of the line (R84, R90, R96) -/

/-- Every FUTURE mark at or below the new position becomes MADE, in list order (R84). -/
def makeReached (l : LineId) (pNew : Nat) (s : State) : State :=
  ((s.act l).marks.filter fun m => !m.made && decide (m.x ≤ pNew)).foldl
    (fun acc m => makeMark l .atRise m acc) s

/-- Whether a line's pack point holds a pending record, which makes a CUT wait (R91). -/
def cutWaits (l : LineId) (s : State) : Bool :=
  (s.pack l).record.isSome

/-- Whether an action fires at a position: its trigger is reached, and it is not a CUT that waits (R90, R91). -/
def fires (waits : Bool) (p : Nat) (a : Action) : Bool :=
  decide (a.trigger ≤ p) && (a.act.isSpray || !waits)

/-- The actions reached fire in queue order and leave the queue; a CUT that waits stays in its place (R90, R91). -/
def fireReached (l : LineId) (p : Nat) (s : State) : State :=
  let waits := cutWaits l s
  let actions := (s.act l).actions
  (actions.filter (fires waits p)).foldl (fun acc a => fireAct l a.act acc)
    (s.setActions l (actions.filter fun a => !fires waits p a))

/-- Watches of a line with their positions, put in ascending order of position, then of number (R96). -/
def insertWatch (w : Nat × Fin 4) : List (Nat × Fin 4) → List (Nat × Fin 4)
  | [] => [w]
  | h :: rest => if h.1 ≤ w.1 then h :: insertWatch w rest else w :: h :: rest

/-- The watches at or below a position, in the order in which they are hit (R96). -/
def watchesReached (p : Nat) (watches : Vector (Option Nat) 4) : List (Nat × Fin 4) :=
  ([0, 1, 2, 3] : List (Fin 4)).foldl
    (fun acc i =>
      match watches[i] with
      | some x => if x ≤ p then insertWatch (x, i) acc else acc
      | none => acc) []

/-- State with a watch of a line set or cleared. -/
def State.setWatch (l : LineId) (i : Fin 4) (x : Option Nat) (s : State) : State :=
  s.setAct l { s.act l with watches := (s.act l).watches.set i x }

/-- A watch is hit: it is spent, WATCH is set and WATCH_HIT is entered (R96). -/
def hitWatch (l : LineId) (pNew : Nat) (w : Nat × Fin 4) (s : State) : State :=
  enterReport .watchHit (some (machineOf l).val) (be 1 w.2.val ++ be 4 w.1 ++ be 4 pNew)
    (setCause (machineOf l) .watch (s.setWatch l w.2 none))

/-- What the Line Action Unit does at a rise: marks are made, actions fire, watches are hit (R84, R90, R96). -/
def actionsRise (l : LineId) (pNew : Nat) (s : State) : State :=
  let s1 := fireReached l pNew (makeReached l pNew s)
  (watchesReached pNew (s1.act l).watches).foldl (fun acc w => hitWatch l pNew w acc) s1

/-! ### The CUT (R91) and removal (R87, R88) -/

/-- A CUT placed by the Pack Planner, in the place of one already queued: it fires at once where its trigger is
reached and no pending record makes it wait (R90, R91). -/
def placeCut (l : LineId) (trigger : Nat) (s : State) : State :=
  let s1 := s.setActions l ((s.act l).actions.filter fun a => a.act.isSpray)
  if trigger ≤ (s1.len l).p ∧ cutWaits l s1 = false then cutFires l s1
  else s1.setActions l (placeAction ⟨trigger, .cut⟩ (s1.act l).actions)

/-- The pending record of a line has been handed to the store: a CUT that waited fires where its trigger is
reached (R91). -/
def releaseCut (l : LineId) (s : State) : State :=
  let reached := fun a : Action => a.act == .cut && decide (a.trigger ≤ (s.len l).p)
  if (s.act l).actions.any reached then
    cutFires l (s.setActions l ((s.act l).actions.filter fun a => !reached a))
  else s

/-- The FUTURE marks of a package are removed from the rope list (R87). -/
def removePackageMarks (number : Nat) (s : State) : State :=
  let marks := (s.act .rope).marks
  let kept := marks.filter fun m => m.made || m.source != some number
  let s1 := s.setMarks .rope kept
  if kept.length < marks.length then judgeLowWater .rope s1 else s1

/-- The part of a mark before a cut, as it is handed over (R88). -/
def Mark.before (cut : Nat) (m : Mark) : Mark :=
  if m.stop ≤ cut then m else { m with span := cut - m.x }

/-- The remnant of a mark that straddles a cut (R88). -/
def Mark.remnant (cut : Nat) (m : Mark) : Mark :=
  { m with x := cut, span := m.stop - cut }

/-- The marks of the coil closed by a cut, and the marks that stay: remnants of straddling marks, then those at or
after the cut (R88). -/
def divideMarks (cut : Nat) (marks : List Mark) : List Mark × List Mark :=
  let early := marks.filter fun m => decide (m.x < cut)
  (early.map (Mark.before cut),
    (early.filter fun m => decide (cut < m.stop)).map (Mark.remnant cut)
      ++ marks.filter fun m => decide (cut ≤ m.x))

/-- The marks of the closed coil are taken out of the list (R88). -/
def takeCoilMarks (l : LineId) (cut : Nat) (s : State) : State × List Mark :=
  let marks := (s.act l).marks
  let (taken, kept) := divideMarks cut marks
  let s1 := s.setMarks l kept
  (if kept.length < marks.length then judgeLowWater l s1 else s1, taken)

/-! ### Host requests (R93 to R97) -/

/-- The index of the machine check of a line request: FIELD (1). -/
def lineField (machine : Nat) : Check :=
  ((lineOf machine).isSome, .field 1)

/-- A request on the line a machine number names; the field check before it makes sure that there is one. -/
def onLine (machine : Nat) (act : LineId → State → State × Answer) (s : State) : State × Answer :=
  match lineOf machine with
  | some l => act l s
  | none => (s, .field 1)

/-- Code of the progress of a mark: FUTURE 0, MADE 1 (chapter 11). -/
def progressCode (made : Bool) : Nat :=
  if made then 1 else 0

/-- Code of a spray state (chapter 11). -/
def SprayState.code : SprayState → Nat
  | .none => 0
  | .pending => 1
  | .done => 2
  | .missed => 3

/-- A mark as READ_MARKS carries it, 12 bytes (chapter 11, "Records read by the host"). -/
def Mark.bytes (m : Mark) : List Byte :=
  be 4 m.x ++ be 3 m.span
    ++ be 1 (m.kind.code + if m.source.isSome then 0x80 else 0)
    ++ be 2 (m.source.getD 0) ++ be 1 m.count
    ++ be 1 (16 * progressCode m.made + m.spray.code)

/-- The reply fields of ADD_MARK about the mark that holds the finding (R93). Whether the new mark was merged or folded is one
yes-or-no field, 1 for either (log 22). -/
def addMarkFields (l : LineId) (ref : Nat) (how : Placing) (s : State) : List Byte :=
  let mark := (findRef ref (s.act l).marks).getD
    { ref := ref, x := 0, span := 0, kind := .operator, source := none, count := 0, made := false
      spray := .none }
  be 1 (s.act l).marks.length ++ be 4 mark.x ++ be 3 mark.span ++ be 1 mark.kind.code
    ++ be 1 (progressCode mark.made) ++ be 1 mark.spray.code ++ yesNo (how != .inserted)

/-- ADD_MARK (R93). -/
def addMarkAct (machine position span : Nat) (s : State) : State × Answer :=
  guarded [lineField machine, inField 3 0 1000000 span, configured s]
    (onLine machine fun l s =>
      guarded [((s.len l).constants.isSome, .state .wrongState)]
        (fun s =>
          let (s1, ref, how) := handMark l (s.len l).p
            { x := position, span := span, kind := .operator, source := none, count := 1 } s
          (s1, .done (addMarkFields l ref how s1))) s) s

/-- READ_MARKS (R94). -/
def readMarksAct (machine start skip count : Nat) (s : State) : State × Answer :=
  guarded [lineField machine, inField 3 0 127 skip, inField 4 1 8 count]
    (onLine machine fun l s =>
      let marks := (s.act l).marks
      let found := (((marks.filter fun m => decide (start ≤ m.x)).drop skip).take count)
      (s, .done (be 1 marks.length ++ be 1 found.length ++ found.flatMap Mark.bytes))) s

/-- The clear watch of lowest number. -/
def clearWatchOf (watches : Vector (Option Nat) 4) : Option (Fin 4) :=
  ([0, 1, 2, 3] : List (Fin 4)).find? fun i => (watches[i]).isNone

/-- SET_WATCH (R95). -/
def setWatchAct (machine position : Nat) (s : State) : State × Answer :=
  guarded [lineField machine, configured s]
    (onLine machine fun l s =>
      guarded [(decide ((s.len l).p < position), .state .passed)]
        (fun s =>
          match clearWatchOf (s.act l).watches with
          | some i => (s.setWatch l i (some position), .done (be 1 i.val))
          | none => (s, .state .queueFull)) s) s

/-- CLEAR_WATCH (R97). -/
def clearWatchAct (machine watch : Nat) (s : State) : State × Answer :=
  guarded [lineField machine, inField 2 0 3 watch]
    (onLine machine fun l s => (s.setWatch l (Fin.ofNat 4 watch) none, .done [])) s

/-- ADD_MARK. -/
def execAddMark (tag : Byte) (machine position span : Nat) (s : State) :
    Host.Outcome State Fault Refusal :=
  .next (request (.addMark tag machine position span) tag 0x48 false
    (addMarkAct machine position span) s)

/-- READ_MARKS. -/
def execReadMarks (tag : Byte) (machine start skip count : Nat) (s : State) :
    Host.Outcome State Fault Refusal :=
  .next (request (.readMarks tag machine start skip count) tag 0x47 false
    (readMarksAct machine start skip count) s)

/-- SET_WATCH. -/
def execSetWatch (tag : Byte) (machine position : Nat) (s : State) :
    Host.Outcome State Fault Refusal :=
  .next (request (.setWatch tag machine position) tag 0x45 false (setWatchAct machine position) s)

/-- CLEAR_WATCH. -/
def execClearWatch (tag : Byte) (machine watch : Nat) (s : State) :
    Host.Outcome State Fault Refusal :=
  .next (request (.clearWatch tag machine watch) tag 0x46 false (clearWatchAct machine watch) s)

end Sys2Proof.Machine
end

