-- ==== Sys2Proof/Machine/Store.lean ====
section
/-! DEFINITION. The store operation queue, the state of the recipe slots and of the stored plant record as their
pages read (R153, R168, R176, R198). -/

namespace Sys2Proof.Machine

/-! ### The store operation queue (R153) -/

/-- Whether an operation takes a general entry. -/
def StoreOp.isGeneral : StoreOp → Bool
  | .coilWrite _ => false
  | _ => true

/-- General entries of the queue. -/
def generalEntries : Nat := 6

/-- Whether a general entry is free. -/
def State.generalFree (s : State) : Bool :=
  decide ((s.queue.filter fun e => e.op.isGeneral).length < generalEntries)

/-- The operation in flight. -/
def State.runningOp (s : State) : Option StoreOp :=
  (s.queue.find? fun e => e.state == .running).map StoreEntry.op

/-- The oldest WAITING entry becomes RUNNING. -/
def promote : List StoreEntry → List StoreEntry
  | [] => []
  | e :: rest =>
    if e.state = .waiting then { e with state := .running } :: rest else e :: promote rest

/-- With no operation in flight the oldest WAITING one becomes RUNNING (R153; log 30), unless a RESTART has been
accepted, which lets no further one run (R192, log 17). -/
def startNext (s : State) : State :=
  if s.runningOp.isSome || s.link.restarting then s else { s with queue := promote s.queue }

/-- An operation is placed in the queue, WAITING behind those there. -/
def placeOp (op : StoreOp) (s : State) : State :=
  startNext { s with queue := s.queue ++ [⟨op, .waiting⟩] }

/-- The operation in flight has ended: its entry is free and the next one runs. -/
def endOp (s : State) : State :=
  startNext { s with queue := s.queue.filter fun e => e.state != .running }

/-- The operation in flight, a coil write, is HELD and the next one runs. -/
def holdOp (s : State) : State :=
  startNext
    { s with
      queue := s.queue.map fun e => if e.state = .running then { e with state := .held } else e }

/-- Whether an entry is a HELD write of a line. -/
def StoreEntry.isHeldWrite (l : LineId) (e : StoreEntry) : Bool :=
  e.op == .coilWrite l && e.state == .held

/-- Every HELD entry becomes WAITING at the end of the queue, the rope line's first (R160). -/
def requeueHeld (s : State) : State :=
  let again := fun l : LineId =>
    (s.queue.filter (StoreEntry.isHeldWrite l)).map fun e => { e with state := .waiting }
  { s with
    queue := (s.queue.filter fun e => e.state != .held) ++ again .rope ++ again .net }

/-- Whether an operation writes a recipe slot. -/
def StoreOp.writesSlot (n : Nat) : StoreOp → Bool
  | .storeRecipe slot _ => slot == n
  | .eraseRecipe slot => slot == n
  | _ => false

/-- Whether a slot is being written (R169). -/
def State.slotWritten (s : State) (n : Nat) : Bool :=
  s.queue.any fun e => e.op.writesSlot n

/-- Whether an operation is a STORE_PLANT. -/
def StoreOp.writesPlant : StoreOp → Bool
  | .storePlant _ => true
  | _ => false

/-- Whether the plant record is being written (R177). -/
def State.plantWritten (s : State) : Bool :=
  s.queue.any fun e => e.op.writesPlant

/-- The areas of the store as reports name them (chapter 11). -/
inductive Area where
  | recipe
  | plant
  | log
  | tally
  deriving DecidableEq, Repr

/-- Code of an area. -/
def Area.code : Area → Nat
  | .recipe => 1
  | .plant => 2
  | .log => 3
  | .tally => 4

/-- Why an operation failed (R154). -/
inductive FailReason where
  | verify
  | gone
  deriving DecidableEq, Repr

/-- Code of a reason. -/
def FailReason.code : FailReason → Nat
  | .verify => 1
  | .gone => 2

/-- STORE_DONE is entered (R154). -/
def reportDone (area : Area) (number taken : Nat) (s : State) : State :=
  enterReport .storeDone none (be 1 area.code ++ be 4 number ++ be 2 taken) s

/-- STORE_FAILED is entered (R154). -/
def reportFailed (area : Area) (number : Nat) (reason : FailReason) (taken : Nat) (s : State) :
    State :=
  enterReport .storeFailed none
    (be 1 area.code ++ be 4 number ++ be 1 reason.code ++ be 2 taken) s

/-- The end report of an operation, by whether all it did was verified. -/
def reportEnd (ok : Bool) (area : Area) (number taken : Nat) (s : State) : State :=
  if ok then reportDone area number taken s else reportFailed area number .verify taken s

/-- Acting on the outcome of a store operation: under a RESTART every report it enters is held for entry after STARTED,
as one entered before STARTED is (R191, R192; log 17). -/
def onOutcome (act : State → State) (s : State) : State :=
  if s.link.restarting then
    let t := act { s with link := { s.link with start := .starting } }
    { t with link := { t.link with start := s.link.start } }
  else act s

/-! ### Recipe slots and the stored plant record as they read (R168, R176, R198) -/

/-- The state of a recipe slot. -/
inductive SlotState where
  | empty
  | valid (body : RecipeBody) (check : Nat)
  | corrupt (check : Nat)
  deriving DecidableEq, Repr

/-- The bytes a recipe's check word is taken over: the kind code and the fields (R168). -/
def checkedBytes (body : RecipeBody) : List Byte :=
  be 1 body.code ++ body.fieldBytes

/-- A slot judged from its page as it reads (R168, R198). -/
def judgeSlot (m : Memory) (slot : Nat) : SlotState :=
  if m.read (addressOf slot 0) = erasedByte then .empty
  else
    let check := m.number slot 1 2
    let code := m.number slot 3 1
    let count := m.number slot 4 1
    let fields := m.bytes slot 4 (recipeLength code count)
    let kindOk := code = 1 ∨ code = 2 ∨ (code = 3 ∧ 1 ≤ count ∧ count ≤ 16)
    if kindOk ∧ crc16 (be 1 code ++ fields) = check then
      match readRecipeBody code fields with
      | some body => .valid body check
      | none => .corrupt check
    else .corrupt check

/-- The page of the plant record (R152). -/
def plantPage : Nat := 32

/-- How many bytes the plant fields take. -/
def plantLength : Nat :=
  (fieldSizes (PlantRecord.ofValues []).fields).sum

/-- The stored plant record where it is valid: written, its check word agreeing, every field in range (R176). -/
def storedPlant (m : Memory) : Option PlantRecord :=
  if m.read (addressOf plantPage 0) = erasedByte then none
  else
    let fields := m.bytes plantPage 3 plantLength
    if crc16 fields = m.number plantPage 1 2 then
      match readFields (fieldSizes (PlantRecord.ofValues []).fields) fields with
      | some v =>
        let r := PlantRecord.ofValues v
        if firstBad 1 r.fields = none then some r else none
      | none => none
    else none

/-- The checks of a slot by what it must hold: nothing suitable fails with SLOT_EMPTY, a CORRUPT slot with
SLOT_CORRUPT (R13, R132, R174). -/
def slotChecks (suits : RecipeBody → Bool) (slot : Nat) (s : State) : List Check :=
  let state := judgeSlot s.flash slot
  [(!s.slotWritten slot, .state .slotBeingWritten),
    (match state with
      | .empty => false
      | .valid body _ => suits body
      | .corrupt _ => true, .state .slotEmpty),
    (match state with
      | .corrupt _ => false
      | _ => true, .state .slotCorrupt)]

/-- Whether a recipe is of kind TWIST. -/
def isTwist : RecipeBody → Bool
  | .twist _ => true
  | _ => false

/-- Whether a recipe suits a line: ROPE for the rope line, NET for the net line. -/
def suitsLine : LineId → RecipeBody → Bool
  | .rope, .rope _ => true
  | .net, .net _ => true
  | _, _ => false

end Sys2Proof.Machine
end

