-- ==== Sys2Proof/Machine/Tally.lean ====
section
/-! DEFINITION. The tallies (R165 to R167). -/

namespace Sys2Proof.Machine

/-- Millimetres of one tally step. -/
def stepLength : Nat := 10000000

/-- Steps a tally page holds. -/
def tallySteps : Nat := 4096

/-- The page of a tally (R152). -/
def tallyPage (m : Fin 10) : Nat :=
  33 + m.val

/-- The value of a tally in metres (R165). -/
def Tally.metres (t : Tally) : Nat :=
  10000 * (t.stored + if t.queued then 1 else 0) + t.fine / 1000

/-- A due step is placed where the tally has no queued step, a bit is left for it and a general entry is free
(R165). -/
def placeStep (m : Fin 10) (s : State) : State :=
  let t := s.tally m
  if stepLength ≤ t.fine ∧ t.queued = false ∧ t.stored < tallySteps ∧ s.generalFree = true then
    placeOp (.tallyStep m) (s.setTally m { t with queued := true, fine := t.fine - stepLength })
  else s

/-- TALLY_FULL is entered once since the reset (R165). -/
def reportFull (m : Fin 10) (s : State) : State :=
  if (s.tally m).fullReported then s
  else
    enterReport .tallyFull none (be 1 m.val) (s.setTally m { s.tally m with fullReported := true })

/-- Millimetres are added to the fine part of a tally. A full tally is held at 9,999,999; of any other a step is
placed when one falls due, and a deferred one is tried again at each further multiple of 1,000 mm (R165). -/
def addFine (m : Fin 10) (mm : Nat) (s : State) : State :=
  let t := s.tally m
  if t.stored = tallySteps then
    let s1 := s.setTally m { t with fine := min (t.fine + mm) (stepLength - 1) }
    if stepLength ≤ t.fine + mm then reportFull m s1 else s1
  else
    let fine := satAdd top32 t.fine mm
    let s1 := s.setTally m { t with fine := fine }
    if stepLength ≤ fine ∧ t.fine / 1000 < fine / 1000 then placeStep m s1 else s1

/-- The service limit of a tally in metres (R166). -/
def limitMetres (m : Fin 10) (s : State) : Nat :=
  1000 * s.plantD.serviceLimit[m]

/-- SERVICE_DUE is entered where an addition has taken the value from below the limit to it or beyond (R166). -/
def judgeService (m : Fin 10) (before : Nat) (s : State) : State :=
  let limit := limitMetres m s
  let after := (s.tally m).metres
  if 0 < limit ∧ before < limit ∧ limit ≤ after then
    enterReport .serviceDue (some m.val) (be 4 after ++ be 2 s.plantD.serviceLimit[m]) s
  else s

/-- An addition to a tally (R165, R166). -/
def tallyAdd (m : Fin 10) (mm : Nat) (s : State) : State :=
  if mm = 0 then s else judgeService m (s.tally m).metres (addFine m mm s)

/-! ### The page of a tally -/

/-- The bits of a byte that read 0. -/
def clearedBits (b : Byte) : Nat :=
  ((List.range 8).filter fun i => !b.getLsbD i).length

/-- The cleared bits of a tally's page (R167). -/
def countSteps (page : Nat) (m : Memory) : Nat :=
  ((m.filter fun c => decide (addressOf page 0 ≤ c.1) && decide (c.1 < addressOf (page + 1) 0)).map
    fun c => clearedBits c.2).sum

/-- A byte with its first bit that reads 1 cleared, most significant bit first (log 20, DESIGN CHOICE). -/
def clearFirstBit (b : Byte) : Byte :=
  match (List.range 8).find? fun i => b.getMsbD i with
  | some i => b &&& ~~~(0x80#8 >>> i)
  | none => b

/-- The place of the first byte of a page with a bit that reads 1. -/
def firstOpenByte (page : Nat) (m : Memory) : Option Nat :=
  (List.range pageSize).find? fun i => m.read (addressOf page i) != 0

/-- A tally step on the store: the first bit that still reads 1 is cleared and read back (R165). -/
def stepMemory (m : Fin 10) (x : Progress) : Progress × Bool :=
  let page := tallyPage m
  match firstOpenByte page x.mem with
  | some i => x.program page i [clearFirstBit (x.mem.read (addressOf page i))]
  | none => (x, false)

/-- A tally whose stored steps have reached 4,096 holds its fine part at 9,999,999 (R165). Deferred metres above it are
cut off, and the value falls by them (log 43). -/
def Tally.holdFull (t : Tally) : Tally :=
  if t.stored = tallySteps then { t with fine := min t.fine (stepLength - 1) } else t

/-- A tally after a verified step: its stored steps rise by 1 and the queued step is none (R165). -/
def Tally.stepVerified (t : Tally) : Tally :=
  { t with stored := t.stored + 1, queued := false }.holdFull

/-- A tally after a failed step: the queued step's metres go back to the fine part and the stored steps are counted
again from the page (R165). -/
def Tally.stepFailed (counted : Nat) (t : Tally) : Tally :=
  { t with stored := counted, queued := false, fine := satAdd top32 t.fine stepLength }.holdFull

/-- The end of a tally step; then a due step is tried again (R165). -/
def tallyStepEnds (m : Fin 10) (ok : Bool) (s : State) : State :=
  let s1 :=
    if ok then s.setTally m (s.tally m).stepVerified
    else
      reportFailed .tally m.val .verify 0
        (s.setTally m ((s.tally m).stepFailed (countSteps (tallyPage m) s.flash)))
  placeStep m (endOp s1)

/-- TALLY_STEP (R165). -/
def tallyStepEvent (faults : List StepFault) (s : State) : State :=
  match s.runningOp with
  | some (.tallyStep m) =>
    let (x, ok) := stepMemory m { mem := s.flash, faults := faults, budget := none }
    tallyStepEnds m ok { s with flash := x.mem }
  | _ => s

/-- The reply fields of READ_TALLY (R167). A limit of 0, and that of a part with no plant record in force, is not reached
(log 44). The queued step is sent as a number, 1 for one and 0 for none (log 22). -/
def tallyFields (m : Fin 10) (s : State) : List Byte :=
  let t := s.tally m
  be 2 t.stored ++ be 1 (if t.queued then 1 else 0) ++ be 4 t.fine ++ be 4 t.metres
    ++ be 2 s.plantD.serviceLimit[m]
    ++ yesNo (decide (0 < limitMetres m s) && decide (limitMetres m s ≤ t.metres))

/-- READ_TALLY (R167). -/
def readTallyAct (tally : Nat) (s : State) : State × Answer :=
  guarded [inField 1 0 9 tally] (fun s => (s, .done (tallyFields (Fin.ofNat 10 tally) s))) s

/-- TALLY_STEP. -/
def execTallyStep (faults : List StepFault) (s : State) : Host.Outcome State Fault Refusal :=
  .next (tallyStepEvent faults s)

/-- READ_TALLY. -/
def execReadTally (tag : Byte) (tally : Nat) (s : State) : Host.Outcome State Fault Refusal :=
  .next (request (.readTally tag tally) tag 0x15 false (readTallyAct tally) s)

end Sys2Proof.Machine
end

