-- ==== Sys2Proof/Machine/PackPlanner.lean ====
section
/-! DEFINITION. The Pack Planner: the order queue, binding, planning and completing cuts, coil records (R126 to
R151). -/

namespace Sys2Proof.Machine

/-! ### Orders and the open coil -/

/-- Code of the line of an order or a record. -/
def lineNumber (l : LineId) : Nat :=
  (machineOf l).val

/-- The oldest order of a line (R126). -/
def State.oldestOrder (s : State) (l : LineId) : Option Order :=
  s.orders.find? fun o => o.line == l

/-- The order of a number. -/
def State.order (s : State) (number : Nat) : Option Order :=
  s.orders.find? fun o => o.number == number

/-- The order bound to a line's coil. -/
def State.boundOrder (s : State) (l : LineId) : Option Order :=
  (s.pack l).bound.bind s.order

/-- The length so far of an open coil with start x0 (R127). -/
def State.lengthFrom (s : State) (l : LineId) (x0 : Nat) : Nat :=
  (s.len l).p - (s.cutterOffset l + x0)

/-- The length so far of a line's open coil (R127); 0 with no coil. -/
def State.lengthSoFar (s : State) (l : LineId) : Nat :=
  match (s.pack l).coilStart with
  | some x0 => s.lengthFrom l x0
  | none => 0

/-! ### Planning (R135 to R139) -/

/-- Whether a mark overlaps the stretch from x0 up to c (R137). -/
def Mark.overlaps (x0 c : Nat) (m : Mark) : Bool :=
  decide (m.x < c) && decide (x0 ≤ m.stop)

/-- The grade that some marks give a stretch or a coil (R137, R148). -/
def gradeOfMarks (kinds : KindSet) (limit : Nat) (marks : List Mark) : Grade :=
  if marks.isEmpty then .a
  else if marks.all (fun m => m.kind.isIn kinds) && decide (marks.length ≤ limit) then .b
  else .c

/-- Whether a point is within the guard of a SPLICE mark (R136). -/
def nearSplice (guard c : Nat) (marks : List Mark) : Bool :=
  marks.any fun m => m.kind == .splice && decide (m.x < c + guard) && decide (c < m.stop + guard)

/-- The candidate points of a plan, formed with a sign (R136). -/
def candidates (guard nominal : Nat) (marks : List Mark) : List Int :=
  (nominal : Int) :: marks.flatMap fun m => [(m.x : Int) - guard, (m.stop : Int) + guard]

/-- The candidates that are kept: in the window and clear of every splice (R136). -/
def keptCandidates (guard lo hi nominal : Nat) (marks : List Mark) : List Nat :=
  (((candidates guard nominal marks).filter fun c => decide ((lo : Int) ≤ c) && decide (c ≤ hi)).map
    Int.toNat).filter fun c => !nearSplice guard c marks

/-- The distance of two points. -/
def distance (a b : Nat) : Nat :=
  (a - b) + (b - a)

/-- Whether candidate `a` is chosen before candidate `b`: by grade, then nearness to the nominal point, then the
smaller (R138). -/
def chosenBefore (grade : Nat → Grade) (nominal a b : Nat) : Bool :=
  let ga := (grade a).code
  let gb := (grade b).code
  decide (ga < gb) || (ga == gb && (decide (distance a nominal < distance b nominal)
    || (distance a nominal == distance b nominal && decide (a < b))))

/-- The candidate chosen among those kept (R138). -/
def chooseCut (grade : Nat → Grade) (nominal : Nat) : List Nat → Option Nat
  | [] => none
  | c :: rest =>
    match chooseCut grade nominal rest with
    | none => some c
    | some b => if chosenBefore grade nominal b c then some b else some c

/-- The planned cut of a coil, its grade and whether no point clear of the splices was found (R135 to R138). -/
def cutChoice (kinds : KindSet) (limit guard x0 : Nat) (o : Order) (marks : List Mark) :
    Nat × Grade × Bool :=
  let nominal := x0 + o.target
  let grade := fun c => gradeOfMarks kinds limit (marks.filter (Mark.overlaps x0 c))
  match chooseCut grade nominal
      (keptCandidates guard (nominal - o.low) (nominal + o.high) nominal marks) with
  | some c => (c, grade c, false)
  | none => (nominal, grade nominal, true)

/-- A cut is planned: its plan stands in the pack point and its CUT goes to the action queue (R138, R139). The trigger
of a panel's cut is held at its top as that of a planned one is (log 38). -/
def placePlan (l : LineId) (cut : Nat) (grade : Option Grade) (origin : CutOrigin) (near : Bool)
    (s : State) : State :=
  let trigger := held32 (cut + s.cutterOffset l)
  placeCut l trigger
    (s.setPack l
      { s.pack l with
        state := .planned
        plan := some ⟨cut, trigger, grade, origin⟩
        nearSplice := near })

/-- Whether the planning event of a bound LENGTH order holds at a position (R135). -/
def planningDue (l : LineId) (p x0 : Nat) (o : Order) (s : State) : Bool :=
  o.rule == .length && decide (x0 + o.target - o.low + s.cutterOffset l ≤ p)

/-- The planning event at a position of the line (R135). -/
def planningEvent (l : LineId) (p : Nat) (s : State) : State :=
  match (s.pack l).state, (s.pack l).coilStart, s.boundOrder l with
  | .bound, some x0, some o =>
    if planningDue l p x0 o s then
      let (c, grade, near) :=
        cutChoice (s.bKinds l) (s.bLimit l) (s.guardOf l) x0 o (s.act l).marks
      placePlan l c (some grade) .planned near s
    else s
  | _, _, _ => s

/-- A panel end plans the cut of a bound PANEL order (R139). -/
def panelEnds (e : Nat) (s : State) : State :=
  match (s.pack .net).state, s.boundOrder .net with
  | .bound, some o =>
    if o.rule = .panel then
      placePlan .net (e + (s.netCopy.map fun c => c.recipe.panelTail).getD 0) none .panel false s
    else s
  | _, _ => s

/-! ### Binding (R130) -/

/-- Why an order is not bound. -/
inductive BlockReason where
  | recipe
  | late
  deriving DecidableEq, Repr

/-- Code of a blocking reason (chapter 11). -/
def BlockReason.code : BlockReason → Nat
  | .recipe => 1
  | .late => 2

/-- ORDER_BLOCKED is entered (R130). -/
def reportBlocked (l : LineId) (o : Order) (reason : BlockReason) (s : State) : State :=
  enterReport .orderBlocked (some (lineNumber l))
    (be 2 o.number ++ be 1 reason.code ++ be 4 (s.len l).p) s

/-- A binding attempt on a line: nothing outside OPEN. An order bound past its planning point is planned at once
(R130). -/
def tryBinding (l : LineId) (s : State) : State :=
  match (s.pack l).state, s.oldestOrder l with
  | .opened, some o =>
    if s.copyOf l ≠ some (o.slot, o.check) then reportBlocked l o .recipe s
    else if o.target - o.low < s.lengthSoFar l then reportBlocked l o .late s
    else
      planningEvent l (s.len l).p
        (s.setPack l { s.pack l with state := .bound, bound := some o.number })
  | _, _ => s

/-! ### Opening a coil (R128, R129) -/

/-- The numbers of the packages FEEDING, in ascending order of place (R128). -/
def feedingNumbers (s : State) : List Nat :=
  ([0, 1, 2, 3] : List (Fin 4)).filterMap fun i =>
    match (s.place i).current with
    | some n => if (s.package n).map Package.state = some .feeding then some n else none
    | none => none

/-- The package list of a coil that opens (R128). -/
def openingPackages (l : LineId) (s : State) : List Nat :=
  match l with
  | .rope => feedingNumbers s
  | .net => []

/-- A coil opens at a position, and a binding is tried (R128). -/
def openCoil (l : LineId) (x0 : Nat) (s : State) : State :=
  tryBinding l
    (s.setPack l
      { s.pack l with
        state := .opened
        coilStart := some x0
        bound := none
        plan := none
        nearSplice := false
        phase := none
        packages := openingPackages l s
        more := false })

/-- The pack point at a recipe load: a coil opens from NONE, and an open coil takes the new recipe from its start
(R128, R129). -/
def packLoads (l : LineId) (s : State) : State :=
  match (s.pack l).state with
  | .noCoil => openCoil l (s.len l).p s
  | .opened | .bound =>
    tryBinding l (s.setPack l { s.pack l with state := .opened, bound := none })
  | _ => s

/-- The pack point at SET_POSITION: an open coil restarts at the value set (R128). -/
def packRestarts (l : LineId) (v : Nat) (s : State) : State :=
  if (s.pack l).state = .noCoil then s
  else s.setPack l { s.pack l with coilStart := some v, packages := [], more := false }

/-- Packages a coil's list holds at most. -/
def coilPackages : Nat := 8

/-- A package that begins to feed is recorded against the coil open on the rope line (R131). -/
def recordPackage (number : Nat) (s : State) : State :=
  let k := s.pack .rope
  if k.state = .noCoil ∨ number ∈ k.packages then s
  else if k.packages.length < coilPackages then
    s.setPack .rope { k with packages := k.packages ++ [number] }
  else s.setPack .rope { k with more := true }

/-! ### The coil record (R147, R148) -/

/-- The mark kinds in code order. -/
def markKinds : List MarkKind :=
  [.splice, .strandFault, .layLow, .layHigh, .knotMissing, .meshLong, .meshShort, .unscanned,
    .operator, .mixed]

/-- The coil's marks: of the marks handed over, those that reach x0 or beyond, clipped to begin there (R147). -/
def coilMarks (x0 : Nat) (handed : List Mark) : List Mark :=
  (handed.filter fun m => decide (x0 ≤ m.stop)).map fun m =>
    if m.x < x0 then { m with x := x0, span := m.stop - x0 } else m

/-- The kind counts of a coil record (R147). -/
def kindCounts (marks : List Mark) : List Nat :=
  markKinds.map fun k => min ((marks.filter fun m => m.kind == k).map Mark.count).sum 255

/-- The mark entries of a coil record: the first seven (R147). -/
def markEntries (x0 : Nat) (marks : List Mark) : List MarkEntry :=
  (marks.take 7).map fun m => ⟨m.x - x0, m.span, m.kind, m.source⟩

/-- Whether a coil is counted for its bound order (R148). -/
def coilCounts (order : Option Order) (grade : Grade) (length : Nat) : Bool :=
  match order with
  | some o =>
    grade.atLeast o.minGrade
      && (o.rule == .panel
        || (decide (o.target - o.low ≤ length) && decide (length ≤ o.target + o.high)))
  | none => false

/-- A flag of a byte: the bit where the condition holds. -/
def flagBit (i : Nat) (holds : Bool) : BitVec 8 :=
  if holds then 1#8 <<< i else 0

/-- The bit of NOT_COUNTED in the flags of a record (chapter 11). -/
def notCountedBit : Nat := 2

/-- The flags of a coil record (R147; bits by chapter 11). -/
def coilFlags (k : PackPoint) (order : Option Order) (length : Nat) (counted manual : Bool)
    (marks : List Mark) : BitVec 8 :=
  flagBit 0 (order.any fun o => decide (length < o.target - o.low))
    ||| flagBit 1 (order.any fun o => decide (o.target + o.high < length))
    ||| flagBit notCountedBit (!counted)
    ||| flagBit 3 k.nearSplice
    ||| flagBit 4 ((k.plan.map CutPlan.origin) == some .endCoil)
    ||| flagBit 5 manual
    ||| flagBit 6 (marks.any fun m => m.kind == .mixed)
    ||| flagBit 7 k.more

/-- The coil record built at a cut, from the marks handed over (R147, R148). -/
def buildRecord (l : LineId) (x0 length : Nat) (manual : Bool) (handed : List Mark) (s : State) :
    CoilRecord :=
  let k := s.pack l
  let order := s.boundOrder l
  let marks := coilMarks x0 handed
  let grade := gradeOfMarks (s.bKinds l) (s.bLimit l) marks
  let counted := coilCounts order grade length
  { line := l
    order := k.bound.getD 0
    slot := ((s.copyOf l).map Prod.fst).getD 0
    check := ((s.copyOf l).map Prod.snd).getD 0
    start := x0
    length := length
    grade := grade
    flags := coilFlags k order length counted manual marks
    kindCounts := kindCounts marks
    packages := k.packages
    entries := markEntries x0 marks }

/-- Whether a record carries NOT_COUNTED. -/
def CoilRecord.notCounted (r : CoilRecord) : Bool :=
  r.flags.getLsbD notCountedBit

/-- State with the coils done of an order raised by 1. -/
def countCoil (number : Nat) (s : State) : State :=
  { s with
    orders := s.orders.map fun o => if o.number = number then { o with done := o.done + 1 } else o }

/-- An order leaves the queue. -/
def removeOrder (number : Nat) (s : State) : State :=
  { s with orders := s.orders.filter fun o => o.number != number }

/-- COIL_CUT is entered; `done` is the order's coils done after counting, 0 for a coil not counted (R146, R197). -/
def reportCoil (r : CoilRecord) (done : Nat) (s : State) : State :=
  enterReport .coilCut (some (lineNumber r.line))
    (be 2 r.order ++ be 4 r.start ++ be 4 r.length ++ be 1 r.grade.code
      ++ be 1 r.flags.toNat ++ be 1 done) s

/-- A count that fills the order enters ORDER_DONE, and the order leaves the queue (R146, R148). -/
def fillOrder (l : LineId) (r : CoilRecord) (s : State) : State :=
  match s.order r.order with
  | some o =>
    if r.notCounted = false ∧ o.done = o.count then
      removeOrder o.number
        (enterReport .orderDone (some (lineNumber l)) (be 2 o.number ++ be 1 o.count) s)
    else s
  | none => s

/-- Steps 4 to 6 of the completion: the record is counted and reported, and a filled order leaves (R146). -/
def countAndReport (l : LineId) (r : CoilRecord) (s : State) : State :=
  let s1 := if r.notCounted then s else countCoil r.order s
  let done := if r.notCounted then 0 else ((s1.order r.order).map Order.done).getD 0
  fillOrder l r (reportCoil r done s1)

/-- The record becomes the pending record and its write is queued (R146, R149). -/
def queueRecord (l : LineId) (r : CoilRecord) (s : State) : State :=
  placeOp (.coilWrite l) (s.setPack l { s.pack l with record := some ⟨r, .queued⟩ })

/-- Where a coil with start x0 is cut, the line standing where it does (R146). -/
def cutPosition (l : LineId) (x0 : Nat) (s : State) : Nat :=
  max x0 ((s.len l).p - s.cutterOffset l)

/-- A cut is completed at the line's position (R146). -/
def completeCut (l : LineId) (manual : Bool) (s : State) : State :=
  let x0 := ((s.pack l).coilStart).getD 0
  let s1 := s.setPack l { s.pack l with timer := none, cutter := false }
  let cut := cutPosition l x0 s1
  let (s2, handed) := takeCoilMarks l cut s1
  let record := buildRecord l x0 (cut - x0) manual handed s2
  let s3 := queueRecord l record (countAndReport l record s2)
  stopNotice (machineOf l) 0 (StopCause.only .cut ||| StopCause.only .cutFail) (openCoil l cut s3)

/-! ### Cutter-done edges and the cut timer (R142, R143) -/

/-- A cutter-done edge of a line (R142). -/
def cutterDone (l : LineId) (s : State) : State :=
  match (s.pack l).state with
  | .cutting => if (s.pack l).phase = some .stroke then completeCut l false s else s
  | .cutFail => completeCut l false s
  | _ => s

/-- The stroke has failed (R143). -/
def strokeFails (l : LineId) (s : State) : State :=
  let s1 := s.setPack l
    { s.pack l with state := .cutFail, phase := none, timer := none, cutter := false }
  let s2 := stopNotice (machineOf l) (StopCause.only .cutFail) (StopCause.only .cut) s1
  enterReport .cutFail (some (lineNumber l))
    (be 4 (((s.pack l).plan.map CutPlan.cut).getD 0) ++ be 4 (s.len l).p) s2

/-- CUT_TIMER_DEADLINE: the cut timer of a line in CUTTING reaches its deadline (R143). -/
def cutTimerEvent (l : LineId) (s : State) : State :=
  match (s.pack l).state, (s.pack l).timer with
  | .cutting, some d => strokeFails l (s.reach d)
  | _, _ => s

/-! ### The outcome of a write (R149) and the void of a record (R150) -/

/-- The detail of a write that was not done. -/
inductive LogDetail where
  | full
  | fault
  deriving DecidableEq, Repr

/-- Code of a detail (chapter 11). -/
def LogDetail.code : LogDetail → Nat
  | .full => 1
  | .fault => 2

/-- The record of a line has been written (R149). -/
def recordWritten (l : LineId) (s : State) : State :=
  onOutcome
    (fun s => releaseCut l
      (clearCause (machineOf l) .logFull (s.setPack l { s.pack l with record := none }))) s

/-- The record of a line has not been written: it is HELD and LOG_FULL stands (R149). -/
def recordHeld (l : LineId) (detail : LogDetail) (s : State) : State :=
  onOutcome
    (fun s => enterReport .logFull (some (lineNumber l)) (be 1 detail.code)
      (setCause (machineOf l) .logFull
        (s.setPack l
          { s.pack l with record := (s.pack l).record.map fun r => { r with write := .held } }))) s

/-- A record has been voided: a counted coil is taken off its order where the order is queued (R150). -/
def voidCoil (number : Nat) (notCounted : Bool) (s : State) : State :=
  if number = 0 ∨ notCounted then s
  else
    { s with
      orders := s.orders.map fun o =>
        if o.number = number then { o with done := o.done - 1 } else o }

/-! ### Requests (R132 to R134, R144, R145, R151) -/

/-- Orders the queue holds at most (R126). -/
def orderCapacity : Nat := 16

/-- The field checks of ADD_ORDER (R132). -/
def orderFields (e : OrderEntry) : List Check :=
  [inField 1 1 65535 e.number, inField 2 8 9 e.line, inField 3 0 31 e.slot,
    (e.rule == 1 || (e.rule == 2 && e.line == 9), .field 4),
    inField 5 1000 2000000 e.target,
    (decide (e.low ≤ 50000) && decide (e.low < e.target), .field 6),
    inField 7 0 50000 e.high, inField 8 1 255 e.count, inField 9 1 3 e.minGrade]

/-- The line an order in range names. -/
def entryLine (e : OrderEntry) : LineId :=
  if e.line = 8 then .rope else .net

/-- The order an accepted ADD_ORDER appends, capturing the slot's check word (R132). -/
def newOrder (e : OrderEntry) (check : Nat) : Order where
  number := e.number
  line := entryLine e
  slot := e.slot
  check := check
  rule := if e.rule = 2 then .panel else .length
  target := e.target
  low := e.low
  high := e.high
  count := e.count
  done := 0
  minGrade := Grade.ofCode e.minGrade

/-- The check word of a slot as it reads. -/
def slotCheck (slot : Nat) (s : State) : Nat :=
  match judgeSlot s.flash slot with
  | .valid _ check => check
  | .corrupt check => check
  | .empty => 0

/-- ADD_ORDER (R132). -/
def addOrderAct (e : OrderEntry) (s : State) : State × Answer :=
  guarded
    (orderFields e
      ++ [configured s, ((s.order e.number).isNone, .state .duplicate),
        (decide (s.orders.length < orderCapacity), .state .queueFull)]
      ++ slotChecks (suitsLine (entryLine e)) e.slot s)
    (fun s =>
      (tryBinding (entryLine e)
        { s with orders := s.orders ++ [newOrder e (slotCheck e.slot s)] }, .done [])) s

/-- The line whose coil an order is bound to. -/
def boundLine (number : Nat) (s : State) : Option LineId :=
  if (s.pack .rope).bound = some number then some .rope
  else if (s.pack .net).bound = some number then some .net
  else none

/-- Whether a pack state has its cut under way: PLANNED, CUTTING or CUT_FAIL. -/
def PackState.underWay : PackState → Bool
  | .planned | .cutting | .cutFail => true
  | _ => false

/-- An order leaves the queue at the host's word: a pack point bound to it becomes OPEN, and a binding is tried on
the order's line (R130, R133). -/
def cancelOrder (o : Order) (s : State) : State :=
  match boundLine o.number s with
  | some l =>
    tryBinding l ((removeOrder o.number s).setPack l { s.pack l with state := .opened, bound := none })
  | none => tryBinding o.line (removeOrder o.number s)

/-- CANCEL_ORDER (R133). -/
def cancelOrderAct (number : Nat) (s : State) : State × Answer :=
  guarded
    [inField 1 1 65535 number, ((s.order number).isSome, .state .notFound),
      (!((boundLine number s).any fun l => (s.pack l).state.underWay), .state .wrongState)]
    (fun s =>
      match s.order number with
      | some o => (cancelOrder o s, .done [])
      | none => (s, .state .notFound)) s

/-- Code of a pack state (its place in the list of R127's table). -/
def PackState.code : PackState → Nat
  | .noCoil => 1
  | .opened => 2
  | .bound => 3
  | .planned => 4
  | .cutting => 5
  | .cutFail => 6

/-- An order as READ_ORDERS carries it (R134, R196). -/
def orderBytes (s : State) (o : Order) : List Byte :=
  let bound := boundLine o.number s
  be 2 o.number ++ be 1 (lineNumber o.line) ++ be 1 o.slot ++ be 2 o.check
    ++ be 1 (match o.rule with | .length => 1 | .panel => 2) ++ be 3 o.target ++ be 2 o.low
    ++ be 2 o.high ++ be 1 o.count ++ be 1 o.done ++ be 1 o.minGrade.code
    ++ yesNo bound.isSome ++ optionCode (bound.map fun l => (s.pack l).state.code)

/-- READ_ORDERS (R134). -/
def readOrdersAct (skip count : Nat) (s : State) : State × Answer :=
  guarded [inField 1 0 15 skip, inField 2 1 8 count]
    (fun s =>
      let found := (s.orders.drop skip).take count
      (s, .done (be 1 s.orders.length ++ be 1 found.length ++ found.flatMap (orderBytes s)))) s

/-- The effect of END_COIL: the coil is cut where it stands (R145). -/
def endCoil (l : LineId) (s : State) : State :=
  let p := (s.len l).p
  placeCut l p
    (s.setPack l
      { s.pack l with
        state := .planned
        plan := some ⟨p - s.cutterOffset l, p, none, .endCoil⟩
        nearSplice := false })

/-- Whether END_COIL is taken in a pack state. -/
def PackState.endable : PackState → Bool
  | .opened | .bound | .planned => true
  | _ => false

/-- END_COIL (R145). -/
def endCoilAct (machine : Nat) (s : State) : State × Answer :=
  guarded [lineField machine, configured s]
    (onLine machine fun l s =>
      guarded
        [((s.pack l).record.isNone, .state .recordPending),
          ((s.pack l).state.endable, .state .wrongState),
          (decide (0 < s.lengthSoFar l), .state .wrongState)]
        (fun s => (endCoil l s, .done [])) s) s

/-- Whether CUT_MANUAL completes a cut in a pack state. -/
def PackState.cuttable : PackState → Bool
  | .cutting | .cutFail => true
  | _ => false

/-- CUT_MANUAL (R144). -/
def cutManualAct (machine : Nat) (s : State) : State × Answer :=
  guarded [lineField machine, configured s]
    (onLine machine fun l s =>
      guarded [((s.pack l).state.cuttable, .state .wrongState)]
        (fun s => (completeCut l true s, .done [])) s) s

/-- Code of a cut origin. -/
def CutOrigin.code : CutOrigin → Nat
  | .planned => 1
  | .panel => 2
  | .endCoil => 3

/-- Code of a stroke phase. -/
def StrokePhase.code : StrokePhase → Nat
  | .wait => 1
  | .stroke => 2

/-- Code of a write state. -/
def WriteState.code : WriteState → Nat
  | .queued => 1
  | .held => 2

/-- The time left to a deadline in 10 ms steps, part steps left off (R151, log 22). -/
def timeLeft (deadline now : Nat) : Nat :=
  (deadline - now) / (10 * ms)

/-- The reply fields of PACK_STATUS (R151, R194, R196). The time left takes 2 bytes, by the range of the cut timeout;
the byte before it says both that the cut timer is running and that the time left is present; the near-splice and
packages-more flags are sent as yes-or-no fields, 1 set and 0 clear; the package list is sent as a count byte and that many
package numbers (log 22). -/
def packFields (l : LineId) (s : State) : List Byte :=
  let k := s.pack l
  be 1 k.state.code ++ presentNumber 4 k.coilStart
    ++ presentNumber 4 (k.coilStart.map (s.lengthFrom l)) ++ optionNumber 2 k.bound
    ++ presentNumber 4 (k.plan.map CutPlan.cut) ++ optionNumber 4 (k.plan.map CutPlan.trigger)
    ++ gradeByte (k.plan.bind CutPlan.grade)
    ++ optionCode (k.plan.map fun p => p.origin.code)
    ++ yesNo k.nearSplice ++ optionCode (k.phase.map StrokePhase.code) ++ yesNo k.cutter
    ++ presentNumber 2 (k.timer.map fun d => timeLeft d s.now)
    ++ be 1 k.packages.length ++ k.packages.flatMap (be 2) ++ yesNo k.more
    ++ yesNo k.record.isSome ++ optionCode (k.record.map fun r => r.write.code)
    ++ presentNumber 2 (k.record.map fun r => r.coil.order)
    ++ presentNumber 4 (k.record.map fun r => r.coil.length)
    ++ gradeByte (k.record.map fun r => r.coil.grade)
    ++ presentNumber 1 (k.record.map fun r => r.coil.flags.toNat)
    ++ causeBytes (s.stop (machineOf l)).causes

/-- PACK_STATUS (R151). -/
def packStatusAct (machine : Nat) (s : State) : State × Answer :=
  guarded [lineField machine] (onLine machine fun l s => (s, .done (packFields l s))) s

/-- CUT_TIMER_DEADLINE. -/
def execCutTimerDeadline (l : LineId) (s : State) : Host.Outcome State Fault Refusal :=
  .next (cutTimerEvent l s)

/-- ADD_ORDER. -/
def execAddOrder (tag : Byte) (e : OrderEntry) (s : State) : Host.Outcome State Fault Refusal :=
  .next (request (.addOrder tag e) tag 0x60 false (addOrderAct e) s)

/-- CANCEL_ORDER. -/
def execCancelOrder (tag : Byte) (number : Nat) (s : State) : Host.Outcome State Fault Refusal :=
  .next (request (.cancelOrder tag number) tag 0x61 false (cancelOrderAct number) s)

/-- READ_ORDERS. -/
def execReadOrders (tag : Byte) (skip count : Nat) (s : State) :
    Host.Outcome State Fault Refusal :=
  .next (request (.readOrders tag skip count) tag 0x62 false (readOrdersAct skip count) s)

/-- END_COIL. -/
def execEndCoil (tag : Byte) (machine : Nat) (s : State) : Host.Outcome State Fault Refusal :=
  .next (request (.endCoil tag machine) tag 0x63 false (endCoilAct machine) s)

/-- CUT_MANUAL. -/
def execCutManual (tag : Byte) (machine : Nat) (s : State) : Host.Outcome State Fault Refusal :=
  .next (request (.cutManual tag machine) tag 0x64 false (cutManualAct machine) s)

/-- PACK_STATUS. -/
def execPackStatus (tag : Byte) (machine : Nat) (s : State) : Host.Outcome State Fault Refusal :=
  .next (request (.packStatus tag machine) tag 0x65 false (packStatusAct machine) s)

end Sys2Proof.Machine
end

