-- ==== Sys2Proof/Machine/PackageTable.lean ====
section
/-! DEFINITION. The Package Table: records and their lists, the feed creel, projection and consumption (R38 to
R60). -/

namespace Sys2Proof.Machine

/-! ### Span and splice lists (R40, R41) -/

/-- Entries of the package table (R38). -/
def tableCapacity : Nat := 96

/-- Spans and splices a record holds at most (R40, R41). -/
def spanCapacity : Nat := 6
def spliceCapacity : Nat := 8

/-- A span put after every span of start at or below its own (R40). -/
def placeSpan (x : Span) : List Span → List Span
  | [] => [x]
  | h :: rest => if h.start ≤ x.start then h :: placeSpan x rest else x :: h :: rest

/-- The last two of more than six spans merged into one MIXED span (R40). -/
def mergeLast : List Span → List Span
  | [a, b] => [⟨min a.start b.start, max a.stop b.stop, .mixed⟩]
  | x :: rest => x :: mergeLast rest
  | [] => []

/-- A span handed to a record's span list (R40). -/
def insertSpan (x : Span) (spans : List Span) : List Span :=
  let all := placeSpan x spans
  if spanCapacity < all.length then mergeLast all else all

/-- A splice put after every splice at or below its position (R41). -/
def insertSplice (w : Nat) : List Nat → List Nat
  | [] => [w]
  | h :: rest => if h ≤ w then h :: insertSplice w rest else w :: h :: rest

/-- The lists of a record cut back to a shorter wound length (R59). -/
def cutSpans (w : Nat) (spans : List Span) : List Span :=
  (spans.filter fun x => decide (x.start < w)).map fun x => { x with stop := min x.stop w }

/-! ### Creating records (R39) -/

/-- Whether an entry is found for a new record (R39). -/
def State.entryFound (s : State) : Bool :=
  decide (s.table.packages.length < tableCapacity)
    || s.table.packages.any fun k => k.state == .spent

/-- The record spent first (R39). -/
def firstSpent (packages : List Package) : Option Package :=
  packages.foldl
    (fun best k =>
      if k.state = .spent then
        match best with
        | none => some k
        | some b => if k.spentOrder.getD 0 < b.spentOrder.getD 0 then some k else some b
      else best) none

/-- A record is created: in an empty entry, or in that of the record spent first, which is deleted (R39). -/
def createPackage (k : Package) (s : State) : State :=
  if s.table.packages.length < tableCapacity then s.setPackages (s.table.packages ++ [k])
  else
    match firstSpent s.table.packages with
    | some old => s.setPackages ((s.table.packages.filter fun x => x.number != old.number) ++ [k])
    | none => s

/-- A record is deleted and its entry is empty (R44). -/
def deletePackage (number : Nat) (s : State) : State :=
  s.setPackages (s.table.packages.filter fun k => k.number != number)

/-! ### The creel -/

/-- The places, in ascending order. -/
def places : List (Fin 4) := [0, 1, 2, 3]

/-- The strand count of the rope line's working copy; with no recipe no place is used (R47). -/
def State.strands (s : State) : Nat :=
  (s.ropeCopy.map fun c => c.recipe.strands).getD 0

/-- The lay factor of the working copy. -/
def State.layFactor (s : State) : Nat :=
  (s.ropeCopy.map fun c => c.recipe.layFactor).getD 0

/-- The runout warning length of the working copy. -/
def State.warningLength (s : State) : Nat :=
  (s.ropeCopy.map fun c => c.recipe.runoutWarning).getD 0

/-- Whether a place is used (R47). -/
def State.used (s : State) (i : Fin 4) : Bool :=
  decide (i.val < s.strands)

/-- Whether a used place has an empty current slot under a loaded recipe (R48). -/
def State.creelLacks (s : State) : Bool :=
  places.any fun i => s.used i && (s.place i).current.isNone

/-- The CREEL check (R48). -/
def checkCreel (s : State) : State :=
  if s.creelLacks then setCause 8 .creel s else clearCause 8 .creel s

/-- The record in the current slot of a place. -/
def State.currentPackage (s : State) (i : Fin 4) : Option Package :=
  (s.place i).current.bind s.package

/-- The record in the reserve slot of a place. -/
def State.reservePackage (s : State) (i : Fin 4) : Option Package :=
  (s.place i).reserve.bind s.package

/-- Whether a record is in a state. -/
def inState (state : PackageState) (k : Option Package) : Bool :=
  k.map Package.state == some state

/-! ### Projection (R50) -/

/-- The product position of a wound position (R50). -/
def projected (start feed lay wound w : Nat) : Nat :=
  held32 (start + feed + (wound - w) * 10000 / lay)

/-- Projected marks with the wound positions they are ordered by, put in descending order of these; a mark goes after
those of its own wound position (R50; log 16). -/
def placeProjected (m : Nat × NewMark) : List (Nat × NewMark) → List (Nat × NewMark)
  | [] => [m]
  | h :: rest => if m.1 ≤ h.1 then h :: placeProjected m rest else m :: h :: rest

/-- The marks of a package's spans and splices, in the order in which they are handed over (R50). -/
def projection (start feed lay : Nat) (k : Package) : List NewMark :=
  let x := projected start feed lay k.wound
  let spans := k.spans.map fun sp =>
    (sp.stop,
      { x := x sp.stop, span := heldSpan (x sp.start - x sp.stop), kind := .strandFault
        source := some k.number, count := 1 : NewMark })
  let splices := k.splices.map fun w =>
    (w, { x := x w, span := 0, kind := .splice, source := some k.number, count := 1 : NewMark })
  ((spans ++ splices).foldl (fun acc m => placeProjected m acc) []).map Prod.snd

/-- A package begins to feed from a position: its record, its projection, its number against the open coil (R49,
R55). The rope line stands at `seen` for the Line Action Unit. -/
def beginFeeding (i : Fin 4) (start seen : Nat) (k : Package) (s : State) : State :=
  let s1 := s.updatePackage k.number fun r =>
    { r with state := .feeding, seat := some (i.val, false), feedStart := some start, consumed := 0 }
  recordPackage k.number
    (insertMarks .rope seen (projection start s.feedOffset s.layFactor k) s1)

/-! ### Consumption (R51 to R53) -/

/-- The consumed length of a package fed from `start`, the line at `p` (R51). -/
def consumedAt (lay start wound p : Nat) : Nat :=
  min ((((p : Int) - start) * lay / 10000).toNat) wound

/-- The warning of a package whose consumed length has been computed (R52). -/
def compareWarning (i : Fin 4) (p number : Nat) (s : State) : State :=
  match s.package number with
  | some k =>
    if k.warned = false ∧ k.wound - k.consumed ≤ s.warningLength then
      enterReport .runoutNear (some 8)
        (be 1 i.val ++ be 2 number ++ be 4 (k.wound - k.consumed) ++ be 4 p)
        (s.updatePackage number fun r => { r with warned := true })
    else s
  | none => s

/-- A package whose consumed length has been computed equal to its wound length is at runout (R53). -/
def compareRunout (i : Fin 4) (p number : Nat) (s : State) : State :=
  match s.package number with
  | some k =>
    if k.consumed = k.wound then
      enterReport .runout (some 8) (be 1 i.val ++ be 2 number ++ be 4 p)
        (setCause 8 .runout (s.setPlace i { s.place i with runout := true }))
    else s
  | none => s

/-- The consumption of the package FEEDING at a place is computed at a position, unless it stands at runout (R51 to
R53). -/
def consume (p : Nat) (s : State) (i : Fin 4) : State :=
  match s.currentPackage i with
  | some k =>
    if k.state = .feeding ∧ (s.place i).runout = false then
      let c := consumedAt s.layFactor (k.feedStart.getD 0) k.wound p
      compareRunout i p k.number
        (compareWarning i p k.number (s.updatePackage k.number fun r => { r with consumed := c }))
    else s
  | none => s

/-- A PLACED package in the current slot of a used place begins to feed at a rise (R49). -/
def feedAtRise (pOld seen : Nat) (s : State) (i : Fin 4) : State :=
  match s.currentPackage i with
  | some k => if k.state = .placed ∧ s.used i = true then beginFeeding i pOld seen k s else s
  | none => s

/-- What the Package Table does at a rise of the rope line (R49, R51). The consumption, and with it RUNOUT_NEAR and RUNOUT,
goes by ascending place as the beginning of feeding does (log 37). -/
def packageRise (pOld pNew seen : Nat) (s : State) : State :=
  places.foldl (consume pNew) (places.foldl (feedAtRise pOld seen) s)

/-- What the Package Table does at a fall of the rope line (R51). -/
def packageFall (pNew : Nat) (s : State) : State :=
  places.foldl (consume pNew) s

/-! ### Leaving feed (R55, R58) -/

/-- A FEEDING record becomes SPENT (R55, R58). -/
def spend (number leftover : Nat) (s : State) : State :=
  let s1 := s.updatePackage number fun r =>
    { r with
      state := .spent
      seat := none
      feedStart := none
      leftover := some leftover
      spentOrder := some s.table.nextSpent }
  { s1 with table := { s1.table with nextSpent := s.table.nextSpent + 1 } }

/-- RUNOUT is cleared where no place stands at runout (R55, R58). -/
def judgeRunout (s : State) : State :=
  if places.any fun i => (s.place i).runout then s else clearCause 8 .runout s

/-- The reserve package of a place moves to its empty current slot (R57, R58). -/
def moveReserve (i : Fin 4) (s : State) : State :=
  match (s.place i).reserve with
  | some n =>
    (s.setPlace i { s.place i with current := some n, reserve := none }).updatePackage n fun r =>
      { r with seat := some (i.val, false) }
  | none => s.setPlace i { s.place i with current := none }

/-- SPLICE_FEED at a place: the current package `old` is cut out and the reserve package `next` takes over (R55). -/
def spliceFeed (i : Fin 4) (old next : Package) (s : State) : State :=
  let p := (s.len .rope).p
  let s1 := removePackageMarks old.number (spend old.number (old.wound - old.consumed) s)
  let s2 := s1.setPlace i { s1.place i with current := some next.number, reserve := none }
  let s3 := beginFeeding i p p next s2
  let s4 := insertMark .rope p
    { x := held32 (p + s.feedOffset), span := 0, kind := .splice, source := some next.number
      count := 1 } s3
  let s5 := compareWarning i p next.number s4
  judgeRunout (s5.setPlace i { s5.place i with runout := false })

/-- A record returned to DOFFED from a slot it was PLACED in (R57). -/
def Package.unplaced (k : Package) : Package :=
  { k with state := .doffed, seat := none }

/-- A record returned from feeding to DOFFED with `left` of its strand (R58, R59). -/
def Package.returned (left : Nat) (k : Package) : Package :=
  { k with
    state := .doffed
    wound := left
    consumed := 0
    warned := false
    seat := none
    feedStart := none
    spans := cutSpans left k.spans
    splices := k.splices.filter fun w => decide (w < left) }

/-- UNPLACE_PACKAGE of a PLACED package (R57). -/
def unplacePlaced (i : Fin 4) (reserve : Bool) (number : Nat) (s : State) : State :=
  let s1 := s.updatePackage number Package.unplaced
  checkCreel
    (if reserve then s1.setPlace i { s1.place i with reserve := none } else moveReserve i s1)

/-- UNPLACE_PACKAGE of a FEEDING package (R58). -/
def unplaceFeeding (i : Fin 4) (k : Package) (s : State) : State :=
  let left := k.wound - k.consumed
  let s1 := if 0 < left then s.updatePackage k.number (Package.returned left) else spend k.number 0 s
  let s2 := moveReserve i (removePackageMarks k.number s1)
  checkCreel (judgeRunout (s2.setPlace i { s2.place i with runout := false }))

/-! ### Requests (R42 to R46, R54, R57, R58, R60) -/

/-- The check of a package number (1 to 65,535). -/
def packageField (index number : Nat) : Check :=
  inField index 1 65535 number

/-- Whether a list does not fall. -/
def nonDecreasing : List Nat → Bool
  | a :: b :: rest => decide (a ≤ b) && nonDecreasing (b :: rest)
  | _ => true

/-- Whether a span entry is one R42 takes. -/
def SpanEntry.inRange (wound : Nat) (e : SpanEntry) : Bool :=
  decide (e.start ≤ e.stop) && decide (e.stop ≤ wound) && decide (1 ≤ e.kind) && decide (e.kind ≤ 3)

/-- The field checks of ADD_PACKAGE (R42). -/
def packageFields (e : PackageEntry) : List Check :=
  [packageField 1 e.number, inField 2 1 100000000 e.wound, inField 3 1 3 e.grade,
    (decide (e.spans.length ≤ spanCapacity) && e.spans.all (SpanEntry.inRange e.wound)
      && nonDecreasing (e.spans.map SpanEntry.start), .field 4),
    (decide (e.splices.length ≤ spliceCapacity) && e.splices.all (fun w => decide (w ≤ e.wound))
      && nonDecreasing e.splices, .field 5)]

/-- The record an accepted ADD_PACKAGE creates (R42). -/
def enteredPackage (e : PackageEntry) : Package where
  number := e.number
  state := .doffed
  origin := none
  slot := none
  wound := e.wound
  grade := some (Grade.ofCode e.grade)
  spans := e.spans.map fun x => ⟨x.start, x.stop, SpanKind.ofCode x.kind⟩
  splices := e.splices
  seat := none
  feedStart := none
  consumed := 0
  warned := false
  leftover := none
  spentOrder := none

/-- ADD_PACKAGE (R42). -/
def addPackageAct (e : PackageEntry) (s : State) : State × Answer :=
  guarded
    (packageFields e
      ++ [configured s, ((s.package e.number).isNone, .state .duplicate),
        (s.entryFound, .state .tableFull)])
    (fun s => (createPackage (enteredPackage e) s, .done [])) s

/-- Code of a package state (chapter 11). -/
def PackageState.code : PackageState → Nat
  | .winding => 1
  | .doffed => 2
  | .placed => 3
  | .feeding => 4
  | .spent => 5

/-- Place and slot of a package: place in bits 0 and 1, bit 4 for the reserve slot (chapter 11); 0 where
it has none. -/
def seatCode (seat : Option (Nat × Bool)) : Nat :=
  (seat.map fun x => x.1 + if x.2 then 16 else 0).getD 0

/-- The place and slot byte of a package record. Chapter 11 leaves it three free bits, in which the presence bits of R194
stand: bit 7 for the place and slot, bit 6 for the feed start, bit 5 for the leftover (log 22). -/
def Package.seatField (k : Package) : Nat :=
  seatCode k.seat + (if k.seat.isSome then 128 else 0) + (if k.feedStart.isSome then 64 else 0)
    + if k.leftover.isSome then 32 else 0

/-- A span entry of a package record, nine bytes. -/
def Span.bytes (x : Span) : List Byte :=
  be 4 x.start ++ be 4 x.stop ++ be 1 x.kind.code

/-- A package record as READ_PACKAGE carries it, 112 bytes (chapter 11, R194; presence bits by log 22). -/
def Package.bytes (k : Package) : List Byte :=
  be 2 k.number ++ be 1 k.state.code ++ presentBit 1 k.origin ++ presentBit 1 k.slot ++ be 4 k.wound
    ++ gradeByte k.grade ++ be 1 k.seatField ++ optionNumber 4 k.feedStart ++ be 4 k.consumed
    ++ optionNumber 4 k.leftover ++ yesNo k.warned ++ be 1 k.spans.length
    ++ (k.spans.flatMap Span.bytes ++ List.replicate 54 0).take 54 ++ be 1 k.splices.length
    ++ (k.splices.flatMap (be 4) ++ List.replicate 32 0).take 32

/-- READ_PACKAGE (R43). -/
def readPackageAct (number : Nat) (s : State) : State × Answer :=
  guarded [packageField 1 number]
    (fun s =>
      match s.package number with
      | some k => (s, .done k.bytes)
      | none => (s, .state .notFound)) s

/-- Whether REMOVE_PACKAGE takes a record in a state (R44). -/
def PackageState.removable : PackageState → Bool
  | .doffed | .spent => true
  | _ => false

/-- REMOVE_PACKAGE (R44). -/
def removePackageAct (number : Nat) (s : State) : State × Answer :=
  guarded
    [packageField 1 number, ((s.package number).isSome, .state .notFound),
      (((s.package number).map Package.state).any PackageState.removable, .state .wrongState)]
    (fun s => (deletePackage number s, .done [])) s

/-- An accepted PLACE_PACKAGE (R46). -/
def placePackage (number : Nat) (i : Fin 4) (s : State) : State :=
  let seated := fun reserve : Bool =>
    s.updatePackage number fun r =>
      { r with state := .placed, seat := some (i.val, reserve), consumed := 0, warned := false }
  if (s.place i).current.isNone then
    checkCreel ((seated false).setPlace i { s.place i with current := some number })
  else (seated true).setPlace i { s.place i with reserve := some number }

/-- The minimum package grade of the rope line's working copy. -/
def State.minGrade (s : State) : Grade :=
  Grade.ofCode ((s.ropeCopy.map fun c => c.recipe.minGrade).getD 0)

/-- PLACE_PACKAGE (R45). -/
def placePackageAct (number place : Nat) (s : State) : State × Answer :=
  let i := Fin.ofNat 4 place
  guarded
    [packageField 1 number, inField 2 0 3 place, configured s,
      ((s.package number).isSome, .state .notFound),
      (inState .doffed (s.package number), .state .wrongState),
      (s.ropeCopy.isSome, .state .wrongState), (s.used i, .state .wrongState),
      (((s.package number).bind Package.grade).any fun g => g.atLeast s.minGrade, .state .gradeLow),
      ((s.place i).current.isNone || (s.place i).reserve.isNone, .state .placeFull)]
    (fun s => (placePackage number i s, .done [])) s

/-- SPLICE_FEED (R54). -/
def spliceFeedAct (place : Nat) (s : State) : State × Answer :=
  let i := Fin.ofNat 4 place
  guarded
    [inField 1 0 3 place, configured s, (s.ropeCopy.isSome && s.used i, .state .wrongState),
      (inState .feeding (s.currentPackage i), .state .wrongState),
      (inState .placed (s.reservePackage i), .state .wrongState)]
    (fun s =>
      match s.currentPackage i, s.reservePackage i with
      | some old, some next => (spliceFeed i old next s, .done [])
      | _, _ => (s, .state .wrongState)) s

/-- UNPLACE_PACKAGE (R57, R58). -/
def unplacePackageAct (number : Nat) (s : State) : State × Answer :=
  guarded [packageField 1 number, ((s.package number).isSome, .state .notFound)]
    (fun s =>
      match s.package number with
      | some k =>
        match k.state, k.seat with
        | .placed, some (i, reserve) =>
          (unplacePlaced (Fin.ofNat 4 i) reserve number s, .done [])
        | .feeding, some (i, _) =>
          if s.running .rope then (s, .state .machineRunning)
          else (unplaceFeeding (Fin.ofNat 4 i) k s, .done [])
        | _, _ => (s, .state .wrongState)
      | none => (s, .state .notFound)) s

/-- A figure of the package FEEDING at a place, absent where none feeds (R60). -/
def feedingFigure (f : Package → Nat) (s : State) (i : Fin 4) : List Byte :=
  presentNumber 4 (((s.currentPackage i).filter fun k => k.state == .feeding).map f)

/-- The reply fields of CREEL_STATUS (R60, R196), a field for all places and then the next, the two slots of a place together
(log 22). -/
def creelFields (s : State) : List Byte :=
  yesNo s.ropeCopy.isSome ++ be 1 s.strands ++ be 2 s.layFactor
    ++ be 1 ((s.ropeCopy.map fun c => c.recipe.minGrade).getD 0)
    ++ presentBit 3 (s.ropeCopy.map fun c => c.recipe.runoutWarning)
    ++ yesNo (s.hasCause 8 .creel) ++ yesNo (s.hasCause 8 .runout)
    ++ places.flatMap (fun i => yesNo (s.used i))
    ++ places.flatMap (fun i => yesNo (s.place i).runout)
    ++ places.flatMap (fun i =>
      optionNumber 2 (s.place i).current ++ optionNumber 2 (s.place i).reserve)
    ++ places.flatMap (feedingFigure (fun k => k.feedStart.getD 0) s)
    ++ places.flatMap (feedingFigure Package.consumed s)
    ++ places.flatMap (feedingFigure (fun k => k.wound - k.consumed) s)

/-- CREEL_STATUS (R60). -/
def creelStatusAct (s : State) : State × Answer :=
  (s, .done (creelFields s))

/-- ADD_PACKAGE. -/
def execAddPackage (tag : Byte) (e : PackageEntry) (s : State) :
    Host.Outcome State Fault Refusal :=
  .next (request (.addPackage tag e) tag 0x30 false (addPackageAct e) s)

/-- READ_PACKAGE. -/
def execReadPackage (tag : Byte) (number : Nat) (s : State) : Host.Outcome State Fault Refusal :=
  .next (request (.readPackage tag number) tag 0x31 false (readPackageAct number) s)

/-- REMOVE_PACKAGE. -/
def execRemovePackage (tag : Byte) (number : Nat) (s : State) :
    Host.Outcome State Fault Refusal :=
  .next (request (.removePackage tag number) tag 0x32 false (removePackageAct number) s)

/-- PLACE_PACKAGE. -/
def execPlacePackage (tag : Byte) (number place : Nat) (s : State) :
    Host.Outcome State Fault Refusal :=
  .next (request (.placePackage tag number place) tag 0x33 false (placePackageAct number place) s)

/-- UNPLACE_PACKAGE. -/
def execUnplacePackage (tag : Byte) (number : Nat) (s : State) :
    Host.Outcome State Fault Refusal :=
  .next (request (.unplacePackage tag number) tag 0x34 false (unplacePackageAct number) s)

/-- SPLICE_FEED. -/
def execSpliceFeed (tag : Byte) (place : Nat) (s : State) : Host.Outcome State Fault Refusal :=
  .next (request (.spliceFeed tag place) tag 0x35 false (spliceFeedAct place) s)

/-- CREEL_STATUS. -/
def execCreelStatus (tag : Byte) (s : State) : Host.Outcome State Fault Refusal :=
  .next (request (.creelStatus tag) tag 0x36 false creelStatusAct s)

end Sys2Proof.Machine
end

