-- ==== Sys2Proof/Machine/Windows.lean ====
section
/-! DEFINITION. The window machinery that twist, lay and mesh share: figure, filter, band, out-run and spans
(R26 to R31). -/

namespace Sys2Proof.Machine

/-- The top of a twist, lay or mesh figure. -/
def figureTop : Nat := 65535

/-- A figure held at 65,535, with the OVER flag where it was greater (R26). -/
def heldFigure (n : Nat) : Nat × Bool :=
  (min n figureTop, decide (figureTop < n))

/-- The filter after a window of raw figure `raw`: primed with it, or moved toward it by floor((16 raw - F) / 2^k)
(R27). -/
def filterStep (shift raw : Nat) : Option Nat → Nat
  | none => 16 * raw
  | some f => ((f : Int) + (16 * (raw : Int) - f) / (2 ^ shift : Nat)).toNat

/-- The filtered figure of a filter value: floor((F + 8) / 16) (R27). -/
def filteredOf (f : Nat) : Nat :=
  (f + 8) / 16

/-- The verdict of a band with its low end held at 0 (R28). -/
def verdictOf (nominal tolLow tolHigh figure : Nat) : Verdict :=
  if figure < nominal - tolLow then .low else if figure > nominal + tolHigh then .high else .inBand

/-- A span that has closed. -/
structure ClosedSpan where
  side : Side
  start : Nat
  stop : Nat
  deriving DecidableEq, Repr

/-- An open span closed with its end at the last out end (R30). -/
def closeAt (o : OutRun) (sp : Option OpenSpan) : Option ClosedSpan :=
  sp.map fun x => ⟨x.side, x.start, o.lastEnd⟩

/-- What a verdict makes of the out-run and the open span, and the span it closes (R29, R30). -/
structure OutRunResult where
  outRun : OutRun
  span : Option OpenSpan
  closed : Option ClosedSpan
  deriving DecidableEq, Repr

/-- The top of an out-run count. -/
def outRunTop : Nat := 15

/-- An out-of-band window on a side, from `start` to `stop`, with `e` windows to open a span (R29). -/
def outWindow (e : Nat) (side : Side) (start stop : Nat) (o : OutRun) (sp : Option OpenSpan) :
    OutRunResult :=
  let fresh := o.count = 0 ∨ o.side ≠ side
  let ends := fresh ∧ (sp.map OpenSpan.side).getD side ≠ side
  let o' : OutRun :=
    if fresh then { side := side, count := 1, runStart := start, lastEnd := stop }
    else { o with count := satAdd outRunTop o.count 1, lastEnd := stop }
  let kept := if ends then none else sp
  { outRun := o'
    span := if o'.count = e ∧ kept = none then some ⟨side, o'.runStart⟩ else kept
    closed := if ends then closeAt o sp else none }

/-- What a window from `start` to `stop` with a verdict does to the out-run and the open span (R29). -/
def outRunStep (e : Nat) (v : Verdict) (start stop : Nat) (o : OutRun) (sp : Option OpenSpan) :
    OutRunResult :=
  match v with
  | .inBand => { outRun := { o with count := 0 }, span := none, closed := closeAt o sp }
  | .low => outWindow e .low start stop o sp
  | .high => outWindow e .high start stop o sp

end Sys2Proof.Machine
end

