-- ==== Sys2Proof/Machine/TwistMonitor.lean ====
section
/-! DEFINITION. The Twist Monitor: positions with their windows, timers and requests, and the lay machinery of the
rope line (R12 to R37). -/

namespace Sys2Proof.Machine

/-! ### Figures of a position (R17, R25, R26, R32) -/

/-- The wound length of D_total delivery pulses; beyond the range of a length a free value (R17, log 12). -/
def woundOf (delivered cd nd : Nat) : Nat :=
  let exact := delivered * cd / (nd * 1000)
  if exact ≤ top32 then exact else Config.unfitLength exact % 2 ^ 32

/-- The wound length of a job (R17). -/
def Job.wound (j : Job) : Nat :=
  woundOf j.delivered j.cd j.nd

/-- The window size of a position (R25). -/
def windowSize (window nd cd : Nat) : Nat :=
  max 1 (ceilDiv (window * 1000 * nd) cd)

/-- The raw twist of a window (R26). -/
def rawTwist (spindle nd ns delivery cd : Nat) : Nat :=
  roundDiv (spindle * nd * 10 ^ 7) (ns * delivery * cd)

/-- The grade of a package at its doff (R32). -/
def doffGrade (r : TwistRecipe) (k : Package) : Grade :=
  if k.spans.isEmpty && k.splices.isEmpty then .a
  else if decide ((k.spans.map fun x => x.stop - x.start).sum ≤ r.bSpanLimit)
      && decide (k.splices.length ≤ r.bSpliceLimit) then .b
  else .c

/-! ### Spans and discards (R30, R31) -/

/-- A closed span is handed to the Package Table and reported (R30). -/
def handSpan (p : Fin 8) (number : Nat) (c : ClosedSpan) (s : State) : State :=
  enterReport .twistSpan (some p.val)
    (be 2 number ++ be 1 c.side.spanKind.code ++ be 4 c.start ++ be 4 c.stop)
    (s.updatePackage number fun k =>
      { k with spans := insertSpan ⟨c.start, c.stop, c.side.spanKind⟩ k.spans })

/-- A span that a rule has closed, if it has closed one. -/
def handSpan? (p : Fin 8) (number : Nat) (c : Option ClosedSpan) (s : State) : State :=
  match c with
  | some x => handSpan p number x s
  | none => s

/-- A job whose window in progress is discarded and whose open span is closed (R30, R31). -/
def Job.discard (j : Job) : Job :=
  { j with
    spindle := 0
    delivery := 0
    windowStart := j.wound
    filter := none
    outRun := { j.outRun with count := 0 }
    span := none }

/-- A job that leaves RUN for another phase: its timers stop (R18, R20). -/
def Job.leave (phase : Phase) (j : Job) : Job :=
  { j with phase := phase, motion := none, detector := none }

/-! ### Changes of state (R18 to R22) -/

/-- Whether the spindle and delivery inputs of a position are RUNNING. -/
def spRuns (p : Fin 8) (s : State) : Bool := (s.pulse (.sp p)).running
def dlRuns (p : Fin 8) (s : State) : Bool := (s.pulse (.dl p)).running

/-- The jam time and the detector time in force, microseconds. -/
def State.jamTime (s : State) : Nat := s.plantD.jamTime * (100 * ms)
def State.detectorTime (s : State) : Nat := s.plantD.detectorTime * (10 * ms)

/-- A position enters FAULT (R21). STOP_CHANGE, entered at the notice, stands before POSITION_FAULT (log 37). -/
def enterFault (p : Fin 8) (c : FaultCause) (j : Job) (s : State) : State :=
  let s1 := s.setJob p (some (j.discard.leave (.fault c)))
  let s2 := handSpan? p j.package (closeAt j.outRun j.span) s1
  enterReport .positionFault (some p.val) (be 2 j.package ++ be 1 c.stop.code ++ be 4 j.wound)
    (setCause (positionMachine p) c.stop s2)

/-- A position enters TARGET (R22). -/
def enterTarget (p : Fin 8) (j : Job) (s : State) : State :=
  let s1 := s.setJob p (some (j.discard.leave .target))
  let s2 := handSpan? p j.package (closeAt j.outRun j.span) s1
  enterReport .packageTarget (some p.val) (be 2 j.package ++ be 4 j.wound)
    (setCause (positionMachine p) .target s2)

/-- A position enters STILL, and the Link Port is told (R18, R33). -/
def enterStill (p : Fin 8) (j : Job) (s : State) : State :=
  clearSteady (positionMachine p) (s.setJob p (some (j.leave .still)))

/-- A job that enters RUN: its motion timer runs unless both inputs are RUNNING, its detector timer where SD is high
(R18, R20). -/
def enterRun (p : Fin 8) (s : State) (j : Job) : Job :=
  { j with
    phase := .run
    motion := if spRuns p s && dlRuns p s then none else some (s.now + s.jamTime)
    detector := if (s.inputs.level (.sd p)).level then some (s.now + s.detectorTime) else none }

/-- The running state of an input of a position has changed (R18). -/
def drivesChanged (p : Fin 8) (s : State) : State :=
  match s.job p with
  | some j =>
    if j.phase = .run then
      match spRuns p s, dlRuns p s with
      | true, true => s.setJob p (some { j with motion := none })
      | false, false => enterStill p j s
      | _, _ => s.setJob p (some { j with motion := some (j.motion.getD (s.now + s.jamTime)) })
    else s
  | none => s

/-- The filtered level of SD of a position has changed (R20). -/
def detectorChanged (p : Fin 8) (s : State) : State :=
  match s.job p with
  | some j =>
    if j.phase = .run then
      s.setJob p (some
        { j with
          detector :=
            if (s.inputs.level (.sd p)).level then some (s.now + s.detectorTime) else none })
    else s
  | none => s

/-! ### Pulses at a position (R15, R16, R26) -/

/-- A spindle pulse at a position (R16). -/
def spindlePulse (p : Fin 8) (s : State) : State :=
  match s.job p with
  | some j =>
    if j.phase = .run ∨ j.phase = .still then
      s.setJob p (some { j with spindle := satAdd top32 j.spindle 1 })
    else s
  | none => s

/-- A delivery pulse is wound: D_total, the record's wound length and the tally rise (R15, R17, R165). -/
def windPulse (p : Fin 8) (j : Job) (s : State) : Job × State :=
  let j1 := { j with delivered := satAdd top32 j.delivered 1 }
  let s1 := (s.setJob p (some j1)).updatePackage j.package fun k => { k with wound := j1.wound }
  (j1, tallyAdd (positionMachine p) (j1.wound - j.wound) s1)

/-- What closing its window makes of a job, and the span it closes (R26 to R30). -/
def Job.windowClosed (j : Job) : Job × Option ClosedSpan :=
  let (tw, isOver) := heldFigure (rawTwist j.spindle j.nd j.ns j.delivery j.cd)
  let f := filterStep j.recipe.shift tw j.filter
  let tf := filteredOf f
  let v := verdictOf j.recipe.nominal j.recipe.tolLow j.recipe.tolHigh tf
  let r := outRunStep j.recipe.outRun v j.windowStart j.wound j.outRun j.span
  ({ j with
      spindle := 0
      delivery := 0
      windowStart := j.wound
      filter := some f
      last := some ⟨tw, tf, isOver, v⟩
      outRun := r.outRun
      span := r.span },
    r.closed)

/-- The window of a position closes: its figures are kept, and a span that closes is handed to the record (R26 to
R30). -/
def closeWindow (p : Fin 8) (j : Job) (s : State) : State :=
  handSpan? p j.package j.windowClosed.2 (s.setJob p (some j.windowClosed.1))

/-- A wound pulse in RUN goes into the window, which closes where it is full (R15). -/
def windowPulse (p : Fin 8) (j : Job) (s : State) : State :=
  let j1 := { j with delivery := satAdd top32 j.delivery 1 }
  if j1.delivery = j1.windowSize then closeWindow p j1 s else s.setJob p (some j1)

/-- The target check after a winding pulse in RUN (R22). -/
def checkTarget (p : Fin 8) (s : State) : State :=
  match s.job p with
  | some j => if j.recipe.target ≤ j.wound then enterTarget p j s else s
  | none => s

/-- A delivery pulse of a position in RUN: winding, the window, the target check (R15; log 33). -/
def runPulse (p : Fin 8) (j : Job) (s : State) : State :=
  let (j1, s1) := windPulse p j s
  checkTarget p (windowPulse p j1 s1)

/-- A delivery pulse at a position (R15). -/
def deliveryPulse (p : Fin 8) (s : State) : State :=
  match s.job p with
  | some j =>
    match j.phase with
    | .ready | .still => runPulse p (enterRun p s j) s
    | .run => runPulse p j s
    | .target => (windPulse p j s).2
    | .fault _ => s
  | none => s

/-! ### Deadlines (R19, R20) -/

/-- MOTION_TIMER_DEADLINE: the motion timer of a position in RUN reaches its deadline (R19). -/
def motionEvent (p : Fin 8) (s : State) : State :=
  match s.job p with
  | some j =>
    match j.phase, j.motion with
    | .run, some d =>
      let s1 := s.reach d
      match spRuns p s, dlRuns p s with
      | true, true => s1.setJob p (some { j with motion := none })
      | false, false => enterStill p j s1
      | _, _ => enterFault p .jam j s1
    | _, _ => s
  | none => s

/-- The cause of a strand break, by the splices the record holds (R20). -/
def breakCause (j : Job) (s : State) : FaultCause :=
  if ((s.package j.package).map fun k => k.splices.length) = some spliceCapacity then .spliceLimit
  else .breakage

/-- DETECTOR_TIMER_DEADLINE: the detector timer of a position reaches its deadline (R20). -/
def detectorEvent (p : Fin 8) (s : State) : State :=
  match s.job p with
  | some j =>
    match j.phase, j.detector with
    | .run, some d => enterFault p (breakCause j s) j (s.reach d)
    | _, _ => s
  | none => s

/-! ### Requests (R13, R14, R23, R24) -/

/-- The record START_PACKAGE creates (R14). -/
def woundPackage (p : Fin 8) (number slot : Nat) : Package where
  number := number
  state := .winding
  origin := some p.val
  slot := some slot
  wound := 0
  grade := none
  spans := []
  splices := []
  seat := none
  feedStart := none
  consumed := 0
  warned := false
  leftover := none
  spentOrder := none

/-- The job START_PACKAGE makes READY (R14). -/
def newJob (p : Fin 8) (number slot check : Nat) (r : TwistRecipe) (plant : PlantRecord) : Job where
  phase := .ready
  package := number
  slot := slot
  check := check
  recipe := r
  ns := plant.ns[p]
  nd := plant.nd[p]
  cd := plant.cd[p]
  windowSize := windowSize r.window plant.nd[p] plant.cd[p]
  delivered := 0
  spindle := 0
  delivery := 0
  windowStart := 0
  filter := none
  last := none
  outRun := OutRun.reset
  span := none
  motion := none
  detector := none

/-- The check of a position number. -/
def positionField (position : Nat) : Check :=
  inField 1 0 7 position

/-- START_PACKAGE (R13, R14). -/
def startPackageAct (position number slot : Nat) (s : State) : State × Answer :=
  let p := Fin.ofNat 8 position
  guarded
    ([positionField position, packageField 2 number, inField 3 0 31 slot, configured s,
        ((s.job p).isNone, .state .wrongState)]
      ++ slotChecks isTwist slot s
      ++ [((s.package number).isNone, .state .duplicate), (s.entryFound, .state .tableFull)])
    (fun s =>
      match judgeSlot s.flash slot with
      | .valid (.twist r) check =>
        ((createPackage (woundPackage p number slot) s).setJob p
          (some (newJob p number slot check r s.plantD)), .done [])
      | _ => (s, .state .slotEmpty)) s

/-- RESUME_POSITION (R23). -/
def resumePositionAct (position : Nat) (s : State) : State × Answer :=
  let p := Fin.ofNat 8 position
  guarded [positionField position]
    (fun s =>
      match s.job p with
      | some j =>
        match j.phase with
        | .fault .breakage =>
          let s1 := s.updatePackage j.package fun k =>
            { k with splices := insertSplice j.wound k.splices }
          ((clearCause (positionMachine p) .breakage s1).setJob p (some { j with phase := .ready }),
            .done [])
        | .fault .jam =>
          ((clearCause (positionMachine p) .jam s).setJob p (some { j with phase := .ready }),
            .done [])
        | _ => (s, .state .wrongState)
      | none => (s, .state .wrongState)) s

/-- The causes that a doff clears (R24). -/
def doffCauses : CauseSet :=
  StopCause.only .breakage ||| StopCause.only .jam ||| StopCause.only .spliceLimit
    ||| StopCause.only .target ||| StopCause.only .commanded

/-- A package leaves its position: DOFFED with its grade, or removed where nothing was wound; and its report (R24
steps 2 to 4). -/
def doffRecord (p : Fin 8) (j : Job) (s : State) : State :=
  let grade := if j.wound = 0 then none else (s.package j.package).map (doffGrade j.recipe)
  let s1 :=
    if j.wound = 0 then deletePackage j.package s
    else s.updatePackage j.package fun k => { k with state := .doffed, grade := grade }
  enterReport .packageDoffed (some p.val)
    (be 2 j.package ++ be 4 j.wound ++ gradeByte grade ++ yesNo (j.wound == 0)) s1

/-- An accepted DOFF_PACKAGE (R24). -/
def doff (p : Fin 8) (j : Job) (s : State) : State :=
  let s1 := handSpan? p j.package (closeAt j.outRun j.span) (s.setJob p (some j.discard))
  (stopNotice (positionMachine p) 0 doffCauses (doffRecord p j s1)).setJob p none

/-- DOFF_PACKAGE (R24). -/
def doffPackageAct (position : Nat) (s : State) : State × Answer :=
  let p := Fin.ofNat 8 position
  guarded [positionField position]
    (fun s =>
      match s.job p with
      | some j =>
        if j.phase = .run then (s, .state .machineRunning) else (doff p j s, .done [])
      | none => (s, .state .wrongState)) s

/-! ### POSITION_STATUS (R33) and the latches it reads (R189, R190) -/

/-- Whether a machine runs: a position in RUN, a line whose wheel is RUNNING (R189). -/
def machineRuns (m : Fin 10) (s : State) : Bool :=
  if h : m.val < 8 then (s.job ⟨m.val, h⟩).any fun j => j.phase == .run
  else s.running (if m.val = 8 then .rope else .net)

/-- A status reply has been built: steady is settled from the present state, stop seen is cleared (R190). -/
def settleLatches (m : Fin 10) (s : State) : State :=
  s.setLatches m { steady := (s.stop m).causes == 0 && machineRuns m s, stopSeen := false }

/-- Place of a position state in its table (R196). -/
def Phase.code : Phase → Nat
  | .ready => 2
  | .run => 3
  | .still => 4
  | .fault _ => 5
  | .target => 6

/-- The fault cause a phase carries. -/
def Phase.cause : Phase → Option FaultCause
  | .fault c => some c
  | _ => none

/-- Total, running state and last interval count of a pulse input (R10). -/
def pulseBytes (x : PulseIn) : List Byte :=
  be 4 x.total.toNat ++ runningCode x.running ++ be 2 x.last

/-- The figures of a last window: raw, filtered, OVER, verdict (R33). With no last window OVER is sent as 0 (log 22). -/
def lastWindowBytes (w : Option LastWindow) : List Byte :=
  presentNumber 2 (w.map LastWindow.raw) ++ presentNumber 2 (w.map LastWindow.filtered)
    ++ yesNo (w.any LastWindow.isOver) ++ optionCode (w.map fun x => x.verdict.code)

/-- An out-run and an open span: side and count, side and start (R33). -/
def outRunBytes (o : OutRun) (sp : Option OpenSpan) : List Byte :=
  be 1 o.side.code ++ be 1 o.count ++ optionCode (sp.map fun x => x.side.code)
    ++ presentNumber 4 (sp.map OpenSpan.start)

/-- The two latches as they stand. -/
def latchBytes (x : Latches) : List Byte :=
  yesNo x.steady ++ yesNo x.stopSeen

/-- The reply fields of POSITION_STATUS (R33, R10, R194, R196). R10 names SP and DL together and leaves open whether their three
values go input by input or value by value: the three of SP are sent first, then the three of DL (DESIGN CHOICE, log 22). -/
def positionFields (p : Fin 8) (s : State) : List Byte :=
  let j := s.job p
  be 1 ((j.map fun x => x.phase.code).getD 1)
    ++ optionCode ((j.bind fun x => x.phase.cause).map fun c => c.stop.code)
    ++ optionNumber 2 (j.map Job.package) ++ presentBit 1 (j.map Job.slot)
    ++ optionNumber 4 (j.map Job.wound) ++ optionNumber 4 (j.map Job.delivered)
    ++ optionNumber 3 (j.map Job.windowSize) ++ optionNumber 4 (j.map Job.delivery)
    ++ optionNumber 4 (j.map Job.spindle) ++ lastWindowBytes (j.bind Job.last)
    ++ outRunBytes ((j.map Job.outRun).getD OutRun.reset) (j.bind Job.span)
    ++ causeBytes (s.stop (positionMachine p)).causes
    ++ pulseBytes (s.pulse (.sp p)) ++ pulseBytes (s.pulse (.dl p))
    ++ levelCode (s.inputs.level (.sd p)).level ++ latchBytes (s.latches (positionMachine p))

/-- POSITION_STATUS (R33). -/
def positionStatusAct (position : Nat) (s : State) : State × Answer :=
  let p := Fin.ofNat 8 position
  guarded [positionField position]
    (fun s => (settleLatches (positionMachine p) s, .done (positionFields p s))) s

/-! ### Lay on the rope line (R34 to R37) -/

/-- State with the lay machinery replaced. -/
def State.setLay (x : Lay) (s : State) : State :=
  { s with lay := x }

/-- An LH pulse at the lay machinery (R34, R35). -/
def layPulse (s : State) : State :=
  if s.ropeCopy.isSome ∧ (s.inputs.level .rev).level = false then
    s.setLay { s.lay with head := satAdd top32 s.lay.head 1 }
  else s

/-- The length of a lay span; a free value where its end lies below its start (R37, log 35). -/
def laySpanLength (start stop : Nat) : Nat :=
  if start ≤ stop then stop - start else Config.unfitSpan start stop

/-- The mark kind of a lay span's side (R37). -/
def layKind : Side → MarkKind
  | .low => .layLow
  | .high => .layHigh

/-- A closed lay span: its mark, the rope line standing at `seen` for the Line Action Unit, and its report (R37). -/
def handLaySpan (seen : Nat) (c : ClosedSpan) (s : State) : State :=
  let x := held32 (c.start + s.feedOffset)
  let span := heldSpan (laySpanLength c.start c.stop)
  enterReport .laySpan (some 8) (be 1 (layKind c.side).code ++ be 4 x ++ be 4 span)
    (insertMark .rope seen
      { x := x, span := span, kind := layKind c.side, source := none, count := 1 } s)

/-- A lay span that a rule has closed, if it has closed one. -/
def handLaySpan? (seen : Nat) (c : Option ClosedSpan) (s : State) : State :=
  match c with
  | some x => handLaySpan seen x s
  | none => s

/-- The raw lay of a window of `length` mm (R35). -/
def rawLay (head nlh length : Nat) : Nat :=
  roundDiv (head * 10000) (nlh * length)

/-- The lay window closes at a position (R35). -/
def closeLayWindow (r : RopeRecipe) (p seen : Nat) (s : State) : State :=
  let y := s.lay
  let (raw, isOver) := heldFigure (rawLay y.head s.plantD.nlh (p - y.windowStart))
  let f := filterStep r.shift raw y.filter
  let v := verdictOf r.nominal r.tolLow r.tolHigh (filteredOf f)
  let o := outRunStep r.outRun v y.windowStart p y.outRun y.span
  handLaySpan? seen o.closed
    (s.setLay
      { head := 0
        windowStart := p
        filter := some f
        last := some ⟨raw, filteredOf f, isOver, v⟩
        outRun := o.outRun
        span := o.span })

/-- What the lay machinery does at a rise of the rope line (R35). -/
def layRise (pNew seen : Nat) (s : State) : State :=
  match s.ropeCopy with
  | some c =>
    if s.lay.windowStart + c.recipe.window ≤ pNew then closeLayWindow c.recipe pNew seen s else s
  | none => s

/-- What the lay machinery does at a fall of the rope line (R36). -/
def layFall (pNew : Nat) (s : State) : State :=
  if s.ropeCopy.isSome then s.setLay { s.lay with head := 0, windowStart := pNew } else s

/-- The lay machinery restarts at a position (R34). -/
def layRestart (x : Nat) (s : State) : State :=
  s.setLay { Lay.reset with windowStart := x }

/-- A lay span open under the recipe being replaced is closed (R34, R175). -/
def closeLaySpan (s : State) : State :=
  handLaySpan? (s.len .rope).p (closeAt s.lay.outRun s.lay.span)
    (s.setLay { s.lay with span := none })

/-! ### The commands -/

/-- MOTION_TIMER_DEADLINE. -/
def execMotionTimerDeadline (p : Fin 8) (s : State) : Host.Outcome State Fault Refusal :=
  .next (motionEvent p s)

/-- DETECTOR_TIMER_DEADLINE. -/
def execDetectorTimerDeadline (p : Fin 8) (s : State) : Host.Outcome State Fault Refusal :=
  .next (detectorEvent p s)

/-- START_PACKAGE. -/
def execStartPackage (tag : Byte) (position package slot : Nat) (s : State) :
    Host.Outcome State Fault Refusal :=
  .next (request (.startPackage tag position package slot) tag 0x20 false
    (startPackageAct position package slot) s)

/-- RESUME_POSITION. -/
def execResumePosition (tag : Byte) (position : Nat) (s : State) :
    Host.Outcome State Fault Refusal :=
  .next (request (.resumePosition tag position) tag 0x21 false (resumePositionAct position) s)

/-- DOFF_PACKAGE. -/
def execDoffPackage (tag : Byte) (position : Nat) (s : State) : Host.Outcome State Fault Refusal :=
  .next (request (.doffPackage tag position) tag 0x22 false (doffPackageAct position) s)

/-- POSITION_STATUS. -/
def execPositionStatus (tag : Byte) (position : Nat) (s : State) :
    Host.Outcome State Fault Refusal :=
  .next (request (.positionStatus tag position) tag 0x23 false (positionStatusAct position) s)

end Sys2Proof.Machine
end

