-- ==== Sys2Proof/Machine/KnotScanner.lean ====
section
/-! DEFINITION. The Knot Scanner: row events, scans, the taper pattern, hook counters and the mesh check (R103 to
R125). -/

namespace Sys2Proof.Machine

/-- State with the Knot Scanner replaced. -/
def State.setKnot (x : Knot) (s : State) : State :=
  { s with knot := x }

/-- Machine number of the net line. -/
def netMachine : Fin 10 := 9

/-! ### Sets of hooks (R109, R111) -/

/-- The hooks of the machine. -/
def hooks : List (Fin 64) :=
  List.ofFn id

/-- Whether a hook is in a set. -/
def hookIn (h : Fin 64) (set : HookSet) : Bool :=
  set.getLsbD h.val

/-- The expected set of a pattern step: every hook from its first to its last (R109). -/
def expectedSet (step : PatternStep) : HookSet :=
  hooks.foldl
    (fun acc h =>
      if step.first ≤ h.val ∧ h.val ≤ step.last then acc ||| (1#64 <<< h.val) else acc) 0

/-- Hooks in a set. -/
def hookCount (set : HookSet) : Nat :=
  (hooks.filter fun h => hookIn h set).length

/-- The lowest hook in a set. -/
def lowestHook (set : HookSet) : Option Nat :=
  (hooks.find? fun h => hookIn h set).map Fin.val

/-- The step of a pattern. -/
def stepOf (pattern : List PatternStep) (i : Nat) : PatternStep :=
  pattern.getD i ⟨0, 0, 0⟩

/-- The sets of a scanned row (R111). -/
def rowSets (expected present : HookSet) : RowSets where
  present := present
  missing := expected &&& ~~~present
  extra := present &&& ~~~expected

/-! ### Mesh spans (R119 to R121) -/

/-- The mesh of `w` rows over an advance, in tenths of a millimetre (R119). -/
def meshOf (advance w : Nat) : Nat :=
  (40 * advance + w) / (2 * w)

/-- The mark kind of a mesh span's side (R121). -/
def meshKind : Side → MarkKind
  | .low => .meshShort
  | .high => .meshLong

/-- A closed mesh span: its mark and its report (R121). -/
def handMeshSpan (c : ClosedSpan) (s : State) : State :=
  let span := heldSpan (c.stop - c.start)
  enterReport .meshSpan (some 9)
    (be 1 (meshKind c.side).code ++ be 4 c.start ++ be 4 span ++ be 4 s.knot.row.toNat)
    (insertMark .net (s.len .net).p
      { x := c.start, span := span, kind := meshKind c.side, source := none, count := 1 } s)

/-- A mesh span that a rule has closed, if it has closed one. -/
def handMeshSpan? (c : Option ClosedSpan) (s : State) : State :=
  match c with
  | some x => handMeshSpan x s
  | none => s

/-- The mesh check of a row at a net position against the row `w` places back (R119, R120). -/
def meshCheck (r : NetRecipe) (position : Nat) (back : RowEntry) (s : State) : State :=
  let k := s.knot
  let (mesh, isOver) := heldFigure (meshOf (position - back.position) r.rowsPerCheck)
  let v := verdictOf r.nominal r.tolLow r.tolHigh mesh
  let o := outRunStep r.outRun v back.position position k.outRun k.span
  handMeshSpan? o.closed
    (s.setKnot { k with last := some ⟨mesh, isOver, v⟩, outRun := o.outRun, span := o.span })

/-- The mesh check is made where the ring holds rows enough (R119). -/
def checkMesh (r : NetRecipe) (position : Nat) (s : State) : State :=
  let ring := s.knot.ring
  if ring.length < r.rowsPerCheck then s
  else
    match ring[ring.length - r.rowsPerCheck]? with
    | some back => meshCheck r position back s
    | none => s

/-! ### The row ring (R118) -/

/-- Rows the ring holds at most. -/
def ringCapacity : Nat := 32

/-- A row entered at the newest end of the ring. -/
def enterRow (e : RowEntry) (ring : List RowEntry) : List RowEntry :=
  if ring.length < ringCapacity then ring ++ [e] else ring.tail ++ [e]

/-! ### Reports of rows (R116) -/

/-- ROW_FAULT is entered for a row (R116; layout of R197). -/
def reportRow (e : RowEntry) (step : PatternStep) (scanned sensor : Bool) (changed : HookSet)
    (s : State) : State :=
  enterReport .rowFault (some 9)
    (be 4 e.number.toNat ++ be 4 e.position ++ be 1 e.step
      ++ be 1 ((if scanned then 1 else 0) + if sensor then 2 else 0)
      ++ be 1 step.first ++ be 1 step.last ++ hookBytes changed) s

/-! ### The row event (R106 to R110) -/

/-- A scan of a row begins at the first drive line (R107). -/
def beginScan (row : BitVec 32) (s : State) : State :=
  let settle := (s.knot.grid.map Grid.settle).getD 0
  s.setKnot
    { s.knot with
      scan := some { row := row, kept := true, line := 0, samples := 0, deadline := s.now + settle }
      driven := some 0 }

/-- A row that finds the scanner SCANNING: its mark and its ROW_FAULT (R108). -/
def unscannedRow (e : RowEntry) (step : PatternStep) (s : State) : State :=
  reportRow e step false false 0
    (insertMark .net (s.len .net).p
      { x := e.position, span := 0, kind := .unscanned, source := none, count := 1 } s)

/-- The panel ends with a row (R110). -/
def endPanel (e : RowEntry) (s : State) : State :=
  let panels := satAdd 65535 s.knot.panels 1
  let s1 := setCause netMachine .panelEnd (s.setKnot { s.knot with panels := panels })
  panelEnds e.position
    (enterReport .panelEnd (some 9) (be 4 e.number.toNat ++ be 4 e.position ++ be 2 panels) s1)

/-- The pattern advances by one row (R109). -/
def advancePattern (r : NetRecipe) (e : RowEntry) (s : State) : State :=
  let k := s.knot
  if k.rowsDone + 1 = (stepOf r.pattern k.step).rows then
    if k.step + 1 < r.pattern.length then s.setKnot { k with rowsDone := 0, step := k.step + 1 }
    else
      let s1 := endPanel e s
      s1.setKnot { s1.knot with rowsDone := 0, step := 0 }
  else s.setKnot { k with rowsDone := k.rowsDone + 1 }

/-- A row event under a loaded recipe (R106). -/
def countRow (r : NetRecipe) (s : State) : State :=
  let row := s.knot.row + 1
  let position := (s.len .net).p
  let s1 := checkMesh r position (s.setKnot { s.knot with row := row })
  let idle := s1.knot.scan.isNone
  let e : RowEntry :=
    { number := row, step := s.knot.step, position := position
      scan := if idle then .scanning else .unscanned }
  let s2 := s1.setKnot { s1.knot with ring := enterRow e s1.knot.ring }
  let s3 := if idle then beginScan row s2 else unscannedRow e (stepOf r.pattern e.step) s2
  advancePattern r e s3

/-- A counted pulse of KS at the Knot Scanner (R106). -/
def rowEvent (s : State) : State :=
  match s.netCopy with
  | some c => countRow c.recipe s
  | none => s

/-! ### The completion of a scan (R111 to R116) -/

/-- The mark of a row's missing knots (R112). -/
def markMissing (e : RowEntry) (missing : HookSet) (s : State) : State :=
  match hookCount missing with
  | 0 => s
  | 1 =>
    insertMark .net (s.len .net).p
      { x := e.position, span := 0, kind := .knotMissing, source := lowestHook missing, count := 1 } s
  | n =>
    insertMark .net (s.len .net).p
      { x := e.position, span := 0, kind := .knotMissing, source := none, count := n } s

/-- The top of a hook miss counter. -/
def counterTop : Nat := 15

/-- The hook miss counters after a scanned row (R113). -/
def countMisses (expected : HookSet) (sets : RowSets) (counters : Vector Nat 64) : Vector Nat 64 :=
  Vector.ofFn fun h =>
    if hookIn h sets.missing then satAdd counterTop counters[h] 1
    else if hookIn h expected then 0
    else counters[h]

/-- The missing hooks whose counters stand at the hook limit: those that have risen to it at this row (R114). -/
def hooksAtLimit (limit : Nat) (missing : HookSet) (before after : Vector Nat 64) :
    List (Fin 64) :=
  hooks.filter fun h => hookIn h missing && before[h] != limit && after[h] == limit

/-- The counters are updated and HOOK_FAULT is judged (R113, R114). -/
def judgeHooks (r : NetRecipe) (e : RowEntry) (expected : HookSet) (sets : RowSets) (s : State) :
    State :=
  let before := s.knot.counters
  let after := countMisses expected sets before
  let s1 := s.setKnot { s.knot with counters := after }
  match hooksAtLimit r.hookLimit sets.missing before after with
  | [] => s1
  | h :: rest =>
    if s1.hasCause netMachine .hookFault then s1
    else
      enterReport .hookFault (some 9)
        (be 1 h.val ++ be 1 after[h] ++ be 4 e.number.toNat ++ be 4 e.position
          ++ be 1 (rest.length + 1))
        (setCause netMachine .hookFault (s1.setKnot { s1.knot with faultHook := some h.val }))

/-- The extra knots are judged; whether this row sets SENSOR (R115). -/
def judgeExtras (extra : HookSet) (s : State) : State × Bool :=
  let sensor := extra != 0 && s.knot.extrasLast && !s.hasCause netMachine .sensor
  let s1 := if sensor then setCause netMachine .sensor s else s
  (s1.setKnot { s1.knot with extrasLast := extra != 0 }, sensor)

/-- A row of the ring given its sets (R118). -/
def setScanned (row : BitVec 32) (sets : RowSets) (ring : List RowEntry) : List RowEntry :=
  ring.map fun e =>
    if e.number = row ∧ e.scan = .scanning then { e with scan := .scanned sets } else e

/-- The findings of a completed scan of a row of the ring (R111 to R116). -/
def judgeRow (r : NetRecipe) (e : RowEntry) (present : HookSet) (s : State) : State :=
  let step := stepOf r.pattern e.step
  let expected := expectedSet step
  let sets := rowSets expected present
  let s1 := s.setKnot { s.knot with ring := setScanned e.number sets s.knot.ring }
  let (s2, sensor) := judgeExtras sets.extra (judgeHooks r e expected sets (markMissing e sets.missing s1))
  if sets.missing ||| sets.extra = 0 then s2
  else reportRow e step true sensor (sets.missing ||| sets.extra) s2

/-- The row of the ring that a scan senses. -/
def scanRow (x : ScanInProgress) (ring : List RowEntry) : Option RowEntry :=
  ring.find? fun e => e.number == x.row && e.scan == .scanning

/-- A scan completes: its findings are acted on where it is kept, and the scanner is IDLE (R107, R111, R123). A kept scan
whose row 32 later rows have pushed out of the ring, which R118 rules out by time alone, is taken like one not kept
(log 42). -/
def completeScan (x : ScanInProgress) (present : HookSet) (s : State) : State :=
  let s1 :=
    match x.kept, s.netCopy, scanRow x s.knot.ring with
    | true, some c, some e => judgeRow c.recipe e present s
    | _, _, _ => s
  s1.setKnot { s1.knot with scan := none, driven := none }

/-- The samples with those of one drive line's eight hooks (R107). -/
def addSamples (line : Nat) (samples : Byte) (known : HookSet) : HookSet :=
  known ||| (samples.zeroExtend 64 <<< (8 * line))

/-- SCAN_SETTLE_ELAPSED: the settle time of the driven line has elapsed, and its sense lines are sampled (R107). The
drive lines are those now captured (log 25). -/
def settleEvent (samples : Byte) (s : State) : State :=
  match s.knot.scan with
  | some x =>
    let s1 := s.reach x.deadline
    let known := addSamples x.line samples x.samples
    let grid := s.knot.grid.getD ⟨0, 0⟩
    if x.line + 1 < grid.lines then
      s1.setKnot
        { s1.knot with
          scan := some
            { x with line := x.line + 1, samples := known, deadline := s1.now + grid.settle }
          driven := some (x.line + 1) }
    else completeScan x known s1
  | none => s

/-! ### Loads, new segments and releases (R104, R117, R122) -/

/-- A scan in progress is no longer kept. -/
def dropScan (x : Option ScanInProgress) : Option ScanInProgress :=
  x.map fun y => { y with kept := false }

/-- A mesh span open under the recipe being replaced is closed (R104). -/
def closeMeshSpan (s : State) : State :=
  handMeshSpan? (closeAt s.knot.outRun s.knot.span) (s.setKnot { s.knot with span := none })

/-- The Knot Scanner at a net recipe load, its working copy in force (R104 steps 2 to 7). -/
def knotLoads (s : State) : State :=
  s.setKnot
    { s.knot with
      grid := some ⟨s.plantD.driveLines, s.plantD.settleTime⟩
      step := 0
      rowsDone := 0
      counters := Vector.replicate 64 0
      faultHook := none
      extrasLast := false
      ring := []
      last := none
      outRun := OutRun.reset
      span := none
      scan := dropScan s.knot.scan }

/-- The Knot Scanner at a SET_POSITION of the net line (R122). The side and the ends of the out-run of count 0 are those
of log 9. -/
def knotSegment (s : State) : State :=
  s.setKnot
    { s.knot with
      ring := []
      last := none
      outRun := OutRun.reset
      span := none
      scan := dropScan s.knot.scan }

/-- The notice that a set HOOK_FAULT has been released (R117). -/
def hooksReleased (s : State) : State :=
  s.setKnot { s.knot with counters := Vector.replicate 64 0, faultHook := none }

/-! ### Requests (R124, R125) -/

/-- The reply fields of KNOT_STATUS (R124, R10, R194, R196). With no last mesh OVER is sent as 0 (log 22). -/
def knotFields (s : State) : List Byte :=
  let k := s.knot
  be 1 (if s.netCopy.isSome then 2 else 1) ++ presentBit 1 (s.netCopy.map Copy.slot)
    ++ optionNumber 1 (k.grid.map Grid.lines) ++ optionNumber 1 (k.grid.map Grid.settle)
    ++ optionNumber 1 (s.netCopy.map fun c => c.recipe.pattern.length)
    ++ optionNumber 1 (s.netCopy.map fun c => c.recipe.hookLimit)
    ++ be 1 (if k.scan.isSome then 2 else 1) ++ presentNumber 4 (k.scan.map fun x => x.row.toNat)
    ++ be 4 k.row.toNat ++ be 1 k.step ++ be 2 k.rowsDone ++ be 2 k.panels
    ++ k.counters.toList.flatMap (be 1) ++ presentBit 1 k.faultHook ++ yesNo k.extrasLast
    ++ presentNumber 2 (k.last.map LastMesh.mesh) ++ yesNo (k.last.any LastMesh.isOver)
    ++ optionCode (k.last.map fun x => x.verdict.code) ++ outRunBytes k.outRun k.span
    ++ be 1 k.ring.length ++ pulseBytes (s.pulse .ks) ++ causeBytes (s.stop netMachine).causes

/-- KNOT_STATUS (R124). -/
def knotStatusAct (s : State) : State × Answer :=
  (s, .done (knotFields s))

/-- Place of the scan state of a row in its list (R118, R196). -/
def RowScan.code : RowScan → Nat
  | .scanning => 1
  | .scanned _ => 2
  | .unscanned => 3

/-- The sets of a row: its own where it is SCANNED, empty ones elsewhere. -/
def RowScan.sets : RowScan → RowSets
  | .scanned x => x
  | _ => ⟨0, 0, 0⟩

/-- A row of the ring as READ_ROWS carries it, 34 bytes (R125, R196). -/
def RowEntry.bytes (e : RowEntry) : List Byte :=
  be 4 e.number.toNat ++ be 1 e.step ++ be 4 e.position ++ be 1 e.scan.code
    ++ hookBytes e.scan.sets.present ++ hookBytes e.scan.sets.missing ++ hookBytes e.scan.sets.extra

/-- READ_ROWS (R125). -/
def readRowsAct (back count : Nat) (s : State) : State × Answer :=
  guarded [inField 1 0 31 back, inField 2 1 7 count]
    (fun s =>
      let found := (s.knot.ring.reverse.drop back).take count
      (s, .done (be 1 s.knot.ring.length ++ be 1 found.length ++ found.flatMap RowEntry.bytes))) s

/-- SCAN_SETTLE_ELAPSED. -/
def execScanSettleElapsed (samples : Byte) (s : State) : Host.Outcome State Fault Refusal :=
  .next (settleEvent samples s)

/-- KNOT_STATUS. -/
def execKnotStatus (tag : Byte) (s : State) : Host.Outcome State Fault Refusal :=
  .next (request (.knotStatus tag) tag 0x50 false knotStatusAct s)

/-- READ_ROWS. -/
def execReadRows (tag : Byte) (back count : Nat) (s : State) : Host.Outcome State Fault Refusal :=
  .next (request (.readRows tag back count) tag 0x51 false (readRowsAct back count) s)

end Sys2Proof.Machine
end

