-- ==== Sys2Proof/Machine/LengthMeter.lean ====
section
/-! DEFINITION. The Length Meter: constants, position, the blocks a rise or a fall reaches, segments, speed and its
requests (R61 to R78, R102). -/

namespace Sys2Proof.Machine

/-! ### Constants and position (R62 to R67) -/

/-- Constants from pulses a turn, effective circumference and stretch (R62). -/
def constantsFrom (n cEff stretch : Nat) : Constants where
  n := n
  cEff := cEff
  stretch := stretch
  k := cEff * (10 ^ 6 - stretch)

/-- The constants of a line, from the plant record in force and its working copy (R62). -/
def constantsOf (l : LineId) (s : State) : Constants :=
  match l with
  | .rope =>
    let diameter := (s.ropeCopy.map fun c => c.recipe.diameter).getD 0
    constantsFrom s.plantD.nm (s.plantD.cm + roundDiv (diameter * 355) 113)
      ((s.ropeCopy.map fun c => c.recipe.stretch).getD 0)
  | .net =>
    constantsFrom s.plantD.nn s.plantD.cn ((s.netCopy.map fun c => c.recipe.stretch).getD 0)

/-- The range of the segment pulse total Q. -/
def qTop : Int := 140737488355327
def qBottom : Int := -140737488355328

/-- Q after a pulse, held at its limits (R64). -/
def movedQ (forward : Bool) (q : Int) : Int :=
  if forward then min (q + 1) qTop else max (q - 1) qBottom

/-- The computed value B + floor(Q K / (N 10^9)) before its clamp (R65). -/
def computedPosition (c : Constants) (base : Nat) (q : Int) : Int :=
  (base : Int) + q * c.k / ((c.n * 10 ^ 9 : Nat) : Int)

/-- The Length Meter's state of a line after a pulse (R64 to R67). -/
def LengthMeter.moved (c : Constants) (forward : Bool) (x : LengthMeter) : LengthMeter :=
  let q := movedQ forward x.q
  let v := computedPosition c x.base q
  { x with q := q, p := clampNat v 0 top32, saturated := x.saturated || decide ((top32 : Int) ≤ v) }

/-! ### What a change of position does (R68 to R70) -/

/-- The blocks a rise reaches, in the order of R68's table. -/
def riseBlocks : List RiseBlock :=
  [.packageTable, .twistMonitor, .lineActions, .packPlanner, .storeController]

/-- The order in which the blocks take a rise: as given, then those not named in the order of R68's table (log 4). -/
def blockOrder (order : List RiseBlock) : List RiseBlock :=
  (order ++ riseBlocks).eraseDups

/-- The line's tally takes what a rise adds above the high mark (R70). -/
def tallyRise (l : LineId) (pNew : Nat) (s : State) : State :=
  let x := s.len l
  if x.highMark < pNew then
    tallyAdd (machineOf l) (pNew - x.highMark) (s.setLen l { x with highMark := pNew })
  else s

/-- One block takes a rise. With the state goes the position at which the line stands for the Line Action Unit: the
old one until that unit has taken the rise (R68, R86). -/
def takeRise (l : LineId) (pOld pNew : Nat) (x : State × Nat) (b : RiseBlock) : State × Nat :=
  let (s, seen) := x
  match b, l with
  | .packageTable, .rope => (packageRise pOld pNew seen s, seen)
  | .twistMonitor, .rope => (layRise pNew seen s, seen)
  | .packageTable, .net | .twistMonitor, .net => (s, seen)
  | .lineActions, _ => (actionsRise l pNew s, pNew)
  | .packPlanner, _ => (planningEvent l pNew s, seen)
  | .storeController, _ => (tallyRise l pNew s, seen)

/-- A rise of a line's position is handed to every block that follows the line (R68). -/
def handRise (l : LineId) (order : List RiseBlock) (pOld pNew : Nat) (s : State) : State :=
  ((blockOrder order).foldl (takeRise l pOld pNew) (s, pOld)).1

/-- A fall of the rope line's position is handed to the Package Table and the Twist Monitor (R69). -/
def handFall (pNew : Nat) (s : State) : State :=
  layFall pNew (packageFall pNew s)

/-- A pulse of a line's wheel at the Length Meter (R64, R65). -/
def linePulse (l : LineId) (forward : Bool) (order : List RiseBlock) (s : State) : State :=
  let x := s.len l
  match x.constants with
  | some c =>
    let y := x.moved c forward
    let s1 := s.setLen l y
    if x.p < y.p then handRise l order x.p y.p s1
    else if y.p < x.p ∧ l = .rope then handFall y.p s1
    else s1
  | none => s

/-! ### Segments and speed (R63, R72, R73) -/

/-- A new segment begins at the present position with constants (R63, R73). -/
def beginSegment (l : LineId) (c : Constants) (s : State) : State :=
  let x := s.len l
  s.setLen l
    { x with constants := some c, base := x.p, q := 0, saturated := decide (x.p = top32) }

/-- A loaded line takes the plant record in force (R63). -/
def takePlant (l : LineId) (s : State) : State :=
  if (s.len l).constants.isSome then beginSegment l (constantsOf l s) s else s

/-- The speed of a line from its wheel's last interval count (R72). -/
def speedOf (c : Option Constants) (count : Nat) : Nat :=
  match c with
  | some k => min (count * 4 * k.k / (k.n * 10 ^ 9)) 65535
  | none => 0

/-- The speed of a line is taken at the end of an interval (R72). -/
def takeSpeed (l : LineId) (s : State) : State :=
  let x := s.len l
  s.setLen l { x with speed := speedOf x.constants (s.pulse (wheelOf l)).last }

/-! ### SET_POSITION (R75, R76) -/

/-- Whether a package is FEEDING. -/
def State.anyFeeding (s : State) : Bool :=
  s.table.packages.any fun k => k.state == .feeding

/-- The check that no package is FEEDING, for the rope line alone. -/
def noneFeeding (l : LineId) (s : State) : Check :=
  (l == .net || !s.anyFeeding, .state .wrongState)

/-- The check that a line is STILL. -/
def lineStill (l : LineId) (s : State) : Check :=
  (!s.running l, .state .machineRunning)

/-- The position of a line is set (R76 step 1). -/
def LengthMeter.setTo (v : Nat) (x : LengthMeter) : LengthMeter :=
  { x with base := v, q := 0, p := v, highMark := v, saturated := decide (v = top32) }

/-- The Line Action Unit of a line emptied (R76 step 2). -/
def LineActions.cleared (x : LineActions) : LineActions :=
  { x with
    marks := []
    actions := []
    onCount := 0
    marker := false
    watches := Vector.replicate 4 none }

/-- An accepted SET_POSITION (R76). -/
def setPosition (l : LineId) (v : Nat) (s : State) : State :=
  let s1 := s.setLen l ((s.len l).setTo v)
  let s2 := s1.setAct l (s1.act l).cleared
  let s3 := stopNotice (machineOf l) 0 (StopCause.only .marksFull ||| StopCause.only .watch) s2
  let s4 := packRestarts l v s3
  match l with
  | .rope => layRestart v s4
  | .net => knotSegment s4

/-- SET_POSITION (R75). -/
def setPositionAct (machine value : Nat) (s : State) : State × Answer :=
  guarded [lineField machine, inField 2 0 top32 value, configured s]
    (onLine machine fun l s =>
      guarded
        [lineStill l s, noneFeeding l s, (!(s.pack l).state.underWay, .state .wrongState),
          ((s.pack l).record.isNone, .state .recordPending)]
        (fun s => (setPosition l value s, .done [])) s) s

/-! ### LINE_STATUS (R78, R102, R10, R190) -/

/-- The length part of LINE_STATUS (R78, R196). SATURATED is sent as a yes-or-no field, 1 set and 0 clear (log 22). -/
def lengthFields (l : LineId) (s : State) : List Byte :=
  let x := s.len l
  let c := x.constants
  be 1 (if c.isSome then 2 else 1) ++ presentBit 1 ((s.copyOf l).map Prod.fst)
    ++ optionNumber 2 (c.map Constants.n) ++ optionNumber 3 (c.map Constants.cEff)
    ++ presentNumber 2 (c.map Constants.stretch) ++ optionNumber 6 (c.map Constants.k)
    ++ be 4 x.base ++ beSigned 6 x.q ++ be 4 x.p ++ be 4 x.highMark ++ yesNo x.saturated
    ++ be 2 x.speed ++ runningCode (s.running l)

/-- The lay part of the rope line's LINE_STATUS (R78). -/
def layFields (s : State) : List Byte :=
  levelCode (s.inputs.level .rev).level ++ be 4 s.lay.windowStart ++ be 4 s.lay.head
    ++ lastWindowBytes s.lay.last ++ outRunBytes s.lay.outRun s.lay.span

/-- The input values of LINE_STATUS (R10). -/
def lineInputs (l : LineId) (s : State) : List Byte :=
  match l with
  | .rope =>
    pulseBytes (s.pulse .mw) ++ pulseBytes (s.pulse .lh) ++ levelCode (s.inputs.level .rev).level
      ++ levelCode (s.inputs.level .cdr).level
  | .net => pulseBytes (s.pulse .nw) ++ levelCode (s.inputs.level .cdn).level

/-- The CUT in an action queue. -/
def queuedCut (actions : List Action) : Option Action :=
  actions.find? fun a => a.act == .cut

/-- Whether the queued CUT of a line waits for a pending record (R91). It is not said to wait while the line stands below
its trigger, having backed since it reached it (log 41). -/
def cutIsWaiting (l : LineId) (s : State) : Bool :=
  (queuedCut (s.act l).actions).any fun a => decide (a.trigger ≤ (s.len l).p) && cutWaits l s

/-- The fields of the Line Action Unit and the Stop Unit in LINE_STATUS (R102). -/
def actionFields (l : LineId) (s : State) : List Byte :=
  let a := s.act l
  let stop := s.stop (machineOf l)
  be 1 a.marks.length ++ be 1 (a.marks.filter fun m => !m.made).length ++ be 1 a.actions.length
    ++ be 1 (sprayCount a.actions) ++ yesNo (queuedCut a.actions).isSome
    ++ optionNumber 4 ((queuedCut a.actions).map Action.trigger) ++ yesNo (cutIsWaiting l s)
    ++ be 1 a.onCount ++ yesNo a.marker ++ a.watches.toList.flatMap (optionNumber 4)
    ++ causeBytes stop.causes ++ yesNo stop.asserted

/-- The reply fields of LINE_STATUS (R78, R102, R196). The order of its parts is the model's; the level of REV and the stop
cause set, which two rules name each, are sent where each names them (DESIGN CHOICE, log 22). -/
def lineFields (l : LineId) (s : State) : List Byte :=
  lengthFields l s ++ (match l with | .rope => layFields s | .net => []) ++ lineInputs l s
    ++ causeBytes (s.stop (machineOf l)).causes ++ latchBytes (s.latches (machineOf l))
    ++ actionFields l s

/-- LINE_STATUS (R78); the latches are settled once the reply is built (R190). -/
def lineStatusAct (machine : Nat) (s : State) : State × Answer :=
  guarded [lineField machine]
    (onLine machine fun l s => (settleLatches (machineOf l) s, .done (lineFields l s))) s

/-- SET_POSITION. -/
def execSetPosition (tag : Byte) (machine value : Nat) (s : State) :
    Host.Outcome State Fault Refusal :=
  .next (request (.setPosition tag machine value) tag 0x41 false (setPositionAct machine value) s)

/-- LINE_STATUS. -/
def execLineStatus (tag : Byte) (machine : Nat) (s : State) : Host.Outcome State Fault Refusal :=
  .next (request (.lineStatus tag machine) tag 0x42 false (lineStatusAct machine) s)

end Sys2Proof.Machine
end

