-- ==== Sys2Proof/Machine/CountInputs.lean ====
section
/-! DEFINITION. The Count Inputs: filters, counted pulses, running states, the interval clock and the level inputs (R1
to R9). -/

namespace Sys2Proof.Machine

/-- What a pin's change does to the hold measurement: it begins where the pin now differs from the filtered level and
is discarded where it agrees (R2, R8). -/
def holdAfter (pin level : Bool) (now : Nat) : Option Nat :=
  if pin = level then none else some now

/-- PULSE_PIN_CHANGE: the pin of a pulse input takes the other level (R2). -/
def pulsePinEvent (i : PulseInput) (s : State) : State :=
  let x := s.pulse i
  s.setPulse i { x with pin := !x.pin, hold := holdAfter (!x.pin) x.level s.now }

/-- LEVEL_PIN_CHANGE: the pin of a level input takes the other level (R8). -/
def levelPinEvent (i : LevelInput) (s : State) : State :=
  let x := s.inputs.level i
  s.setLevel i { x with pin := !x.pin, hold := holdAfter (!x.pin) x.level s.now }

/-! ### Counted pulses (R3 to R5, R7) -/

/-- Whether a pulse counted on an input now is a forward one: all are but those of MW under REV high (R4). -/
def isForward (i : PulseInput) (s : State) : Bool :=
  !(i == .mw && (s.inputs.level .rev).level)

/-- The top of an interval count. -/
def intervalTop : Nat := 65535

/-- A pulse is counted: the pulse total and the current interval count move (R3, R4, R7). -/
def PulseIn.counted (forward : Bool) (x : PulseIn) : PulseIn :=
  { x with
    total := if forward then x.total + 1 else x.total - 1
    current := satAdd intervalTop x.current 1 }

/-- The running state after a counted pulse, the stall timer restarted (R5). -/
def PulseIn.moves (deadline : Nat) (x : PulseIn) : PulseIn :=
  { x with
    running := x.running || x.firstPulse
    firstPulse := !x.running && !x.firstPulse
    stall := some deadline }

/-- A counted pulse is handed to the block named for its input (R3). -/
def handPulse (i : PulseInput) (forward : Bool) (order : List RiseBlock) (s : State) : State :=
  match i with
  | .sp p => spindlePulse p s
  | .dl p => deliveryPulse p s
  | .lh => layPulse s
  | .mw => linePulse .rope forward order s
  | .nw => linePulse .net true order s
  | .ks => rowEvent s

/-- A line has gone STILL: the Pack Planner and the Link Port are told (R71, R141, R190). -/
def lineGoesStill (l : LineId) (s : State) : State :=
  clearSteady (machineOf l) (lineStands l s)

/-- A change of running state is handed to the block named for its input (R6, R18, R71). -/
def handRunning (i : PulseInput) (s : State) : State :=
  match i with
  | .sp p | .dl p => drivesChanged p s
  | .mw => if s.running .rope then s else lineGoesStill .rope s
  | .nw => if s.running .net then s else lineGoesStill .net s
  | .lh | .ks => s

/-- The running state of an input moves at a counted pulse that has been handed on (R5). -/
def pulseMoves (i : PulseInput) (s : State) : State :=
  let x := s.pulse i
  let y := x.moves (s.now + s.stallTime i)
  let s1 := s.setPulse i y
  if y.running = x.running then s1 else handRunning i s1

/-- A counted pulse: it is counted, handed on, and then moves the running state (R3 to R5). -/
def countPulse (i : PulseInput) (order : List RiseBlock) (s : State) : State :=
  let forward := isForward i s
  pulseMoves i (handPulse i forward order (s.setPulse i ((s.pulse i).counted forward)))

/-- PULSE_FILTER_SETTLED: the pin of a pulse input has held the opposite level for the filter width (R2). -/
def pulseSettled (i : PulseInput) (order : List RiseBlock) (s : State) : State :=
  let x := s.pulse i
  match x.hold with
  | some began =>
    let s1 := (s.reach (began + s.filterWidth i)).setPulse i { x with level := x.pin, hold := none }
    if x.pin then countPulse i order s1 else s1
  | none => s

/-! ### Level inputs (R8) -/

/-- A change of a filtered level is handed on (R8). -/
def handLevel (i : LevelInput) (level : Bool) (s : State) : State :=
  match i with
  | .sd p => detectorChanged p s
  | .rev => s
  | .cdr => if level then cutterDone .rope s else s
  | .cdn => if level then cutterDone .net s else s

/-- LEVEL_FILTER_SETTLED: the pin of a level input has held the opposite level for 100 microseconds (R8). -/
def levelSettled (i : LevelInput) (s : State) : State :=
  let x := s.inputs.level i
  match x.hold with
  | some began =>
    handLevel i x.pin ((s.reach (began + levelWidth)).setLevel i { x with level := x.pin, hold := none })
  | none => s

/-! ### Stall deadlines and the interval clock (R6, R7) -/

/-- STALL_DEADLINE: the stall timer of an input reaches its deadline (R6). -/
def stallEvent (i : PulseInput) (s : State) : State :=
  let x := s.pulse i
  match x.stall with
  | some d =>
    let s1 := (s.reach d).setPulse i { x with running := false, firstPulse := false, stall := none }
    if x.running then handRunning i s1 else s1
  | none => s

/-- An input at the end of an interval (R7). -/
def PulseIn.intervalEnds (x : PulseIn) : PulseIn :=
  { x with last := x.current, current := 0 }

/-- An interval, microseconds (R7). -/
def intervalLength : Nat := 250 * ms

/-- All inputs at the end of an interval, a new one beginning (R7). -/
def Inputs.intervalEnds (x : Inputs) : Inputs :=
  { x with
    sp := x.sp.map PulseIn.intervalEnds
    dl := x.dl.map PulseIn.intervalEnds
    lh := x.lh.intervalEnds
    mw := x.mw.intervalEnds
    nw := x.nw.intervalEnds
    ks := x.ks.intervalEnds
    interval := x.interval + intervalLength }

/-- INTERVAL_END: an interval ends, and the Length Meter takes the speeds (R7, R72). -/
def intervalEvent (s : State) : State :=
  let s1 := s.reach s.inputs.interval
  takeSpeed .net (takeSpeed .rope { s1 with inputs := s1.inputs.intervalEnds })

/-! ### The commands -/

/-- PULSE_PIN_CHANGE. -/
def execPulsePinChange (i : PulseInput) (s : State) : Host.Outcome State Fault Refusal :=
  .next (pulsePinEvent i s)

/-- PULSE_FILTER_SETTLED. -/
def execPulseFilterSettled (i : PulseInput) (order : List RiseBlock) (s : State) :
    Host.Outcome State Fault Refusal :=
  .next (pulseSettled i order s)

/-- LEVEL_PIN_CHANGE. -/
def execLevelPinChange (i : LevelInput) (s : State) : Host.Outcome State Fault Refusal :=
  .next (levelPinEvent i s)

/-- LEVEL_FILTER_SETTLED. -/
def execLevelFilterSettled (i : LevelInput) (s : State) : Host.Outcome State Fault Refusal :=
  .next (levelSettled i s)

/-- STALL_DEADLINE. -/
def execStallDeadline (i : PulseInput) (s : State) : Host.Outcome State Fault Refusal :=
  .next (stallEvent i s)

/-- INTERVAL_END. -/
def execIntervalEnd (s : State) : Host.Outcome State Fault Refusal :=
  .next (intervalEvent s)

end Sys2Proof.Machine
end

