-- ==== Sys2Proof/Machine/CoilLog.lean ====
section
/-! DEFINITION. The coil log: its slots and pages as they read, writing a record, taking, voiding and reading
records, the start-up scan (R152 to R164). -/

namespace Sys2Proof.Machine

/-! ### Slots and pages as they read (R155, R156; chapter 11, "Records read by the host") -/

/-- The pages of the log, in ring order from the first. -/
def logPages : List Nat :=
  (List.range 96).map (43 + ·)

/-- The page after a page in ring order (R156). -/
def nextPage (page : Nat) : Nat :=
  if page = 138 then 43 else page + 1

/-- Bytes of a record slot; a record fills the first 118 of them. -/
def slotSize : Nat := 128

/-- The offset in its page of byte `i` of a slot. -/
def slotOffset (slot i : Nat) : Nat :=
  slot * slotSize + i

/-- The place of a slot of the log. -/
structure SlotPlace where
  page : Nat
  slot : Nat
  deriving DecidableEq, Repr

/-- The state byte of a slot. -/
def stateByte (m : Memory) (p : SlotPlace) : Byte :=
  m.read (addressOf p.page (slotOffset p.slot 0))

/-- `count` bytes of a slot from byte `i` on. -/
def slotBytes (m : Memory) (p : SlotPlace) (i count : Nat) : List Byte :=
  m.bytes p.page (slotOffset p.slot i) count

/-- The number in `count` bytes of a slot. -/
def slotNumber (m : Memory) (p : SlotPlace) (i count : Nat) : Nat :=
  unbe (slotBytes m p i count)

/-- The coil number of a slot. -/
def coilNumber (m : Memory) (p : SlotPlace) : Nat :=
  slotNumber m p 3 4

/-- The state bytes that show a record in the log (R155). -/
def recordStates : List Byte :=
  [0x7F, 0x3F, 0x5F, 0x1F]

/-- Whether a slot holds a record in the log: VALID with its check word agreeing (R155). -/
def isRecord (m : Memory) (p : SlotPlace) : Bool :=
  recordStates.contains (stateByte m p)
    && crc16 (slotBytes m p 3 115) == slotNumber m p 1 2

/-- Whether a slot is FREE: its state byte and its body erased (R155). -/
def isFree (m : Memory) (p : SlotPlace) : Bool :=
  stateByte m p == erasedByte && (slotBytes m p 1 117).all (· == erasedByte)

/-- Whether a record carries TAKEN. -/
def isTaken (m : Memory) (p : SlotPlace) : Bool :=
  !(stateByte m p).getLsbD 6

/-- Whether a record carries VOID. -/
def isVoid (m : Memory) (p : SlotPlace) : Bool :=
  !(stateByte m p).getLsbD 5

/-- The slots of a page. -/
def slotsOf (page : Nat) : List SlotPlace :=
  [⟨page, 0⟩, ⟨page, 1⟩, ⟨page, 2⟩, ⟨page, 3⟩]

/-- Offset of the header in a log page: the last ten bytes of slot 0. -/
def headerOffset : Nat := 118

/-- The sequence number in a page's header. -/
def sequenceOf (m : Memory) (page : Nat) : Nat :=
  m.number page headerOffset 4

/-- The first coil number in a page's header. -/
def firstCoilOf (m : Memory) (page : Nat) : Nat :=
  m.number page (headerOffset + 4) 4

/-- Whether a page's header is valid (R164). -/
def headerValid (m : Memory) (page : Nat) : Bool :=
  crc16 (m.bytes page headerOffset 8) == m.number page (headerOffset + 8) 2

/-- The pages in the log. -/
def headeredPages (m : Memory) : List Nat :=
  logPages.filter (headerValid m)

/-- The oldest page: the valid header of lowest sequence number (R156; log 26). -/
def oldestPage (m : Memory) : Option Nat :=
  (headeredPages m).foldl
    (fun best p =>
      match best with
      | none => some p
      | some b => if sequenceOf m p < sequenceOf m b then some p else some b) none

/-- The newest page: the valid header of highest sequence number (R156; log 26). -/
def newestPage (m : Memory) : Option Nat :=
  (headeredPages m).foldl
    (fun best p =>
      match best with
      | none => some p
      | some b => if sequenceOf m b < sequenceOf m p then some p else some b) none

/-- A slot put into a list in ascending coil number. -/
def insertSlot (m : Memory) (p : SlotPlace) : List SlotPlace → List SlotPlace
  | [] => [p]
  | h :: rest => if coilNumber m h ≤ coilNumber m p then h :: insertSlot m p rest else p :: h :: rest

/-- The records in the log, in ascending coil number (R155, R156). -/
def recordsInLog (m : Memory) : List SlotPlace :=
  (((headeredPages m).flatMap slotsOf).filter (isRecord m)).foldl (fun acc p => insertSlot m p acc) []

/-- The record in the log of a coil number. -/
def findRecord (m : Memory) (coil : Nat) : Option SlotPlace :=
  (recordsInLog m).find? fun p => coilNumber m p == coil

/-- Whether a page holds a VALID record not TAKEN (R158). -/
def holdsUntaken (m : Memory) (page : Nat) : Bool :=
  (slotsOf page).any fun p => isRecord m p && !isTaken m p

/-- Whether the next page would find the log full: the page to be begun is the oldest, with a VALID record not TAKEN
on it (R158, R161). -/
def nextIsFull (m : Memory) (x : LogState) : Bool :=
  x.toBegin && x.oldest == some x.page && holdsUntaken m x.page

/-! ### The bytes of a record (chapter 11) -/

/-- A mark entry of a coil record, ten bytes. -/
def MarkEntry.bytes (e : MarkEntry) : List Byte :=
  be 4 e.offset ++ be 3 e.span ++ be 1 (e.kind.code + if e.source.isSome then 0x80 else 0)
    ++ be 2 (e.source.getD 0)

/-- A list of bytes followed by zeros up to a length. -/
def padTo (n : Nat) (bytes : List Byte) : List Byte :=
  (bytes ++ List.replicate n 0).take n

/-- Bytes 3 to 117 of the slot of a record with its coil number. -/
def CoilRecord.bytes (number : Nat) (r : CoilRecord) : List Byte :=
  be 4 number ++ be 1 (16 * lineNumber r.line + r.grade.code) ++ be 2 r.order ++ be 1 r.slot
    ++ be 2 r.check ++ be 4 r.start ++ be 4 r.length ++ [r.flags]
    ++ padTo 10 (r.kindCounts.flatMap (be 1)) ++ padTo 16 (r.packages.flatMap (be 2))
    ++ padTo 70 (r.entries.flatMap MarkEntry.bytes)

/-- Bytes 1 to 117: the check word before the contents (R157 step 1). -/
def recordBody (number : Nat) (r : CoilRecord) : List Byte :=
  let contents := r.bytes number
  be 2 (crc16 contents) ++ contents

/-- The header of a page: sequence number, first coil number, check word (R158). -/
def headerBytes (sequence coil : Nat) : List Byte :=
  let numbers := be 4 sequence ++ be 4 coil
  numbers ++ be 2 (crc16 numbers)

/-! ### Writing a record (R157 to R159) -/

/-- An attempt under way: the store and the log state. -/
structure Attempt where
  x : Progress
  log : LogState
  deriving DecidableEq, Repr

/-- How a try of an attempt ended. -/
inductive TryEnd where
  | passed
  | full
  | failed
  deriving DecidableEq, Repr

/-- The outcome of an attempt that is handed to the Pack Planner (R149, R157); a FAULT carries the coil number the
record had (log 27). -/
inductive WriteEnd where
  | written
  | full
  | fault (coil : Nat)
  deriving DecidableEq, Repr

/-- The log state with its oldest and newest pages as the headers read. -/
def LogState.atHeaders (m : Memory) (x : LogState) : LogState :=
  { x with oldest := oldestPage m, newest := newestPage m }

/-- The write point moved to the next slot in ring order (R156). -/
def LogState.advance (x : LogState) : LogState :=
  if x.slot < 3 then { x with slot := x.slot + 1 }
  else { x with page := nextPage x.page, slot := 0, toBegin := true }

/-- The next coil number has been used: it rises by 1, and its top closes the log (R156). -/
def LogState.spend (x : LogState) : LogState :=
  if x.next = top32 then { x with closed := true } else { x with next := x.next + 1 }

/-- The sequence number a page begun takes (R156). -/
def nextSequence (m : Memory) (x : LogState) : Nat :=
  match x.newest with
  | some p => sequenceOf m p + 1
  | none => 1

/-- The header bytes of a page read erased. -/
def Memory.clearHeader (page : Nat) (m : Memory) : Memory :=
  m.filter fun c =>
    !(decide (addressOf page headerOffset ≤ c.1) && decide (c.1 < addressOf page (headerOffset + 10)))

/-- An erase or a header that is not verified, or that a reset cuts off, leaves no valid header: one that the step would
leave reads erased (R159, R164; log 45). -/
def Progress.unhead (page : Nat) (x : Progress) : Progress :=
  if headerValid x.mem page then { x with mem := x.mem.clearHeader page } else x

/-- The page of the write point is erased and given its header; whether both were verified (R158). Where one was not, the
page has no valid header (R159); an erase that a reset has come before leaves the page as it was. -/
def beginPage (a : Attempt) : Attempt × Bool :=
  let page := a.log.page
  let header := headerBytes (nextSequence a.x.mem a.log) a.log.next
  let (x1, erased) := a.x.erase page
  if erased then
    let (x2, headed) := x1.program page headerOffset header
    if headed then (⟨x2, { a.log.atHeaders x2.mem with toBegin := false }⟩, true)
    else
      let y := x2.unhead page
      (⟨y, a.log.atHeaders y.mem⟩, false)
  else
    let y := if a.x.budget = some 0 then x1 else x1.unhead page
    (⟨y, a.log.atHeaders y.mem⟩, false)

/-- Step 2 of an attempt: the page is begun where the write point needs it (R157, R158). -/
def prepare (a : Attempt) : Attempt × TryEnd :=
  if !a.log.toBegin then (a, .passed)
  else if nextIsFull a.x.mem a.log || decide (top32 < nextSequence a.x.mem a.log) then (a, .full)
  else
    let (b, ok) := beginPage a
    (b, if ok then .passed else .failed)

/-- The slot of the write point is spoiled: its state byte is cleared whole, once more if it does not read so; the
number is spent where the slot still reads as a record; the write point moves on (R159). -/
def spoil (a : Attempt) : Attempt :=
  let place : SlotPlace := ⟨a.log.page, a.log.slot⟩
  let (x1, ok) := a.x.program place.page (slotOffset place.slot 0) [0]
  let x2 := if ok then x1 else (x1.program place.page (slotOffset place.slot 0) [0]).1
  let log := if isRecord x2.mem place then a.log.spend else a.log
  ⟨x2, log.advance⟩

/-- Steps 3 and 4 of an attempt: the body, then the VALID flag; whether both were verified (R157). -/
def writeSlot (r : CoilRecord) (a : Attempt) : Progress × Bool :=
  let (x1, body) := a.x.program a.log.page (slotOffset a.log.slot 1) (recordBody a.log.next r)
  if body then x1.program a.log.page (slotOffset a.log.slot 0) [0x7F] else (x1, false)

/-- One try of an attempt: its failures are dealt with by R159. -/
def tryWrite (r : CoilRecord) (a : Attempt) : Attempt × TryEnd :=
  if a.log.closed then (a, .full)
  else
    match prepare a with
    | (b, .passed) =>
      let (x, ok) := writeSlot r b
      if ok then (⟨x, b.log.spend.advance⟩, .passed) else (spoil ⟨x, b.log⟩, .failed)
    | (b, e) => (b, e)

/-- An attempt: a try, and after a failure one more (R157, R159). -/
def attemptWrite (r : CoilRecord) (a : Attempt) : Attempt × WriteEnd :=
  match tryWrite r a with
  | (b, .passed) => (b, .written)
  | (b, .full) => (b, .full)
  | (b, .failed) =>
    match tryWrite r b with
    | (c, .passed) => (c, .written)
    | (c, .full) => (c, .full)
    | (c, .failed) => (c, .fault b.log.next)

/-- The end of an attempt: its outcome is handed to the Pack Planner, and the entry is free or HELD (R157 to
R159). -/
def attemptEnds (l : LineId) (e : WriteEnd) (s : State) : State :=
  match e with
  | .written => endOp (recordWritten l s)
  | .full => holdOp (recordHeld l .full s)
  | .fault coil => holdOp (reportFailed .log coil .verify 0 (recordHeld l .fault s))

/-- COIL_WRITE_ATTEMPT (R157). -/
def coilWriteEvent (faults : List StepFault) (s : State) : State :=
  match s.runningOp with
  | some (.coilWrite l) =>
    match (s.pack l).record with
    | some r =>
      let (a, e) := attemptWrite r.coil ⟨{ mem := s.flash, faults := faults, budget := none }, s.log⟩
      attemptEnds l e { s with flash := a.x.mem, log := a.log }
    | none => s
  | _ => s

/-! ### Taking and voiding (R160, R162, R163) -/

/-- A flag of a record is cleared and read back, and cleared once more if the first verify fails: the bits of `keep`
stay (R162, R163). Both clearings intend the same byte, that of the state byte as it stood with the flag cleared, and the
second is verified against it as the first is (log 46). -/
def clearFlag (keep : Byte) (p : SlotPlace) (x : Progress) : Progress × Bool :=
  let intended := [stateByte x.mem p &&& keep]
  let (x1, ok) := x.program p.page (slotOffset p.slot 0) intended
  if ok then (x1, true) else x1.program p.page (slotOffset p.slot 0) intended

/-- The TAKEN flags of some records are cleared: the store, how many were verified and whether all were. -/
def takeRecords : List SlotPlace → Progress → Progress × Nat × Bool
  | [], x => (x, 0, true)
  | p :: rest, x =>
    let (x1, ok) := clearFlag 0xBF p x
    let (x2, count, all) := takeRecords rest x1
    (x2, if ok then count + 1 else count, ok && all)

/-- A LOG_TAKE operation on the store: every record in the log not TAKEN with a number at or below `upTo` (R162). -/
def takeMemory (upTo : Nat) (x : Progress) : Progress × Nat × Bool :=
  takeRecords
    ((recordsInLog x.mem).filter fun p => decide (coilNumber x.mem p ≤ upTo) && !isTaken x.mem p) x

/-- LOG_TAKE_OPERATION: the end is reported and the HELD writes are WAITING again (R160, R162). -/
def logTakeEvent (faults : List StepFault) (s : State) : State :=
  match s.runningOp with
  | some (.logTake upTo) =>
    let (x, count, ok) := takeMemory upTo { mem := s.flash, faults := faults, budget := none }
    endOp (requeueHeld (reportEnd ok .log upTo count
      { s with flash := x.mem, log := s.log.atHeaders x.mem }))
  | _ => s

/-- The order number of a record in the log. -/
def recordOrder (m : Memory) (p : SlotPlace) : Nat :=
  slotNumber m p 8 2

/-- Whether a record in the log carries NOT_COUNTED. -/
def recordNotCounted (m : Memory) (p : SlotPlace) : Bool :=
  (m.read (addressOf p.page (slotOffset p.slot 21))).getLsbD notCountedBit

/-- A LOG_VOID operation on the store: the record voided, and whether it was verified; no record where none has the
number or it is VOID already (R163). -/
def voidMemory (coil : Nat) (x : Progress) : Progress × Bool :=
  match findRecord x.mem coil with
  | some p => if isVoid x.mem p then (x, true) else clearFlag 0xDF p x
  | none => (x, false)

/-- LOG_VOID_OPERATION (R163). -/
def logVoidEvent (faults : List StepFault) (s : State) : State :=
  match s.runningOp with
  | some (.logVoid coil) =>
    match findRecord s.flash coil with
    | none => endOp (reportFailed .log coil .gone 0 s)
    | some p =>
      let (x, ok) := voidMemory coil { mem := s.flash, faults := faults, budget := none }
      let s1 := { s with flash := x.mem, log := s.log.atHeaders x.mem }
      let s2 :=
        if ok && !isVoid s.flash p then
          voidCoil (recordOrder s.flash p) (recordNotCounted s.flash p) s1
        else s1
      endOp (reportEnd ok .log coil 0 s2)
  | _ => s

/-! ### The start-up scan (R164) -/

/-- The slots of a page from its last slot that is not FREE: how many slots are used up. -/
def usedSlots (m : Memory) (page : Nat) : Nat :=
  (slotsOf page).foldl (fun n p => if isFree m p then n else p.slot + 1) 0

/-- The highest coil number in the log. -/
def highestCoil (m : Memory) : Option Nat :=
  (recordsInLog m).getLast?.map (coilNumber m)

/-- The log state that the start-up scan finds (R156, R164). The write point in a newest page with every slot FREE is its
slot 0 (log 47). -/
def scanLog (m : Memory) : LogState :=
  match newestPage m with
  | none => LogState.reset
  | some newest =>
    let used := usedSlots m newest
    let full := decide (used = 4)
    let above := match highestCoil m with
      | some n => n + 1
      | none => 0
    { oldest := oldestPage m
      newest := some newest
      page := if full then nextPage newest else newest
      slot := if full then 0 else used
      toBegin := full
      next := min (max above (firstCoilOf m newest)) top32
      closed := decide (above = top32 + 1) }

/-! ### Requests (R161 to R163) -/

/-- How many records in the log are not TAKEN. -/
def untakenCount (m : Memory) : Nat :=
  ((recordsInLog m).filter fun p => !isTaken m p).length

/-- A record as LOG_READ carries it: byte 0, then bytes 3 to 117 (chapter 11). -/
def recordReply (m : Memory) (p : SlotPlace) : List Byte :=
  stateByte m p :: slotBytes m p 3 115

/-- LOG_READ (R161). -/
def logReadAct (first count : Nat) (s : State) : State × Answer :=
  guarded [inField 2 1 2 count]
    (fun s =>
      let records := recordsInLog s.flash
      let found := (records.filter fun p => decide (first ≤ coilNumber s.flash p)).take count
      (s, .done (be 1 found.length ++ be 2 records.length ++ be 2 (untakenCount s.flash)
        ++ be 4 ((records.head?.map (coilNumber s.flash)).getD 0) ++ be 4 s.log.next
        ++ yesNo (nextIsFull s.flash s.log) ++ found.flatMap (recordReply s.flash)))) s

/-- The check that a general entry of the store operation queue is free (R153). -/
def entryFree (s : State) : Check :=
  (s.generalFree, .state .storeBusy)

/-- LOG_TAKE (R162). -/
def logTakeAct (upTo : Nat) (s : State) : State × Answer :=
  guarded [entryFree s] (fun s => (placeOp (.logTake upTo) s, .done [])) s

/-- LOG_VOID (R163). -/
def logVoidAct (coil : Nat) (s : State) : State × Answer :=
  guarded
    [inField 1 1 top32 coil, ((findRecord s.flash coil).isSome, .state .notFound), entryFree s]
    (fun s => (placeOp (.logVoid coil) s, .done [])) s

/-- COIL_WRITE_ATTEMPT. -/
def execCoilWriteAttempt (faults : List StepFault) (s : State) :
    Host.Outcome State Fault Refusal :=
  .next (coilWriteEvent faults s)

/-- LOG_TAKE_OPERATION. -/
def execLogTakeOperation (faults : List StepFault) (s : State) :
    Host.Outcome State Fault Refusal :=
  .next (logTakeEvent faults s)

/-- LOG_VOID_OPERATION. -/
def execLogVoidOperation (faults : List StepFault) (s : State) :
    Host.Outcome State Fault Refusal :=
  .next (logVoidEvent faults s)

/-- LOG_READ. -/
def execLogRead (tag : Byte) (first count : Nat) (s : State) : Host.Outcome State Fault Refusal :=
  .next (request (.logRead tag first count) tag 0x70 false (logReadAct first count) s)

/-- LOG_TAKE. -/
def execLogTake (tag : Byte) (upTo : Nat) (s : State) : Host.Outcome State Fault Refusal :=
  .next (request (.logTake tag upTo) tag 0x71 false (logTakeAct upTo) s)

/-- LOG_VOID. -/
def execLogVoid (tag : Byte) (coil : Nat) (s : State) : Host.Outcome State Fault Refusal :=
  .next (request (.logVoid tag coil) tag 0x72 false (logVoidAct coil) s)

end Sys2Proof.Machine
end

