-- ==== Sys2Proof/Machine/Recipes.lean ====
section
/-! DEFINITION. Recipe slots, line loads and the plant record: their requests and store operations (R168 to R180). -/

namespace Sys2Proof.Machine

/-! ### Storing into a page with its check block (R168, R170, R171, R178, R198) -/

/-- The written flag of a page reads erased. -/
def Progress.unflag (page : Nat) (x : Progress) : Progress :=
  { x with mem := x.mem.write (addressOf page 0) erasedByte }

/-- The erase that begins a store into a page. Where `voids` holds, one that is not verified has come at least as far
as the written flag (log 36). -/
def openPage (voids : Bool) (page : Nat) (x : Progress) : Progress × Bool :=
  let (y, erased) := x.erase page
  if erased then (y, true) else (if voids then y.unflag page else y, false)

/-- The check word and the written flag, in one programming. One that is not verified, or that a reset cuts off, leaves
no flag programmed over a check word that agrees (R168, R170, R178; log 36). -/
def sealPage (page check : Nat) (x : Progress) : Progress × Bool :=
  let (y, ok) := x.program page 0 ([0] ++ be 2 check)
  if ok && y.budget.isNone then (y, true)
  else (if y.mem.number page 1 2 = check then y.unflag page else y, false)

/-- A store of `contents` from byte `start` of a page on, the check word and the written flag last: whether every step
was verified. The operation ends at its first failed read-back (R170, R178). -/
def storePage (voids : Bool) (page start : Nat) (contents : List Byte) (x : Progress) :
    Progress × Bool :=
  let (x1, erased) := openPage voids page x
  if erased then
    let (x2, filled) := x1.program page start contents
    if filled then sealPage page (crc16 contents) x2 else (x2, false)
  else (x1, false)

/-- A STORE_RECIPE operation on the store: kind code and fields from byte 3 on (R170, R198). One cut off leaves the slot
EMPTY or CORRUPT (R168). -/
def recipeMemory (slot : Nat) (body : RecipeBody) (x : Progress) : Progress × Bool :=
  storePage x.budget.isSome slot 3 (checkedBytes body) x

/-- A STORE_PLANT operation on the store: the plant fields from byte 3 on; failed or cut off, it leaves no valid record
(R178, R198). -/
def plantMemory (plant : PlantRecord) (x : Progress) : Progress × Bool :=
  storePage true plantPage 3 plant.bytes x

/-- STORE_RECIPE_OPERATION (R170). -/
def storeRecipeEvent (faults : List StepFault) (s : State) : State :=
  match s.runningOp with
  | some (.storeRecipe slot body) =>
    let (x, ok) := recipeMemory slot body { mem := s.flash, faults := faults, budget := none }
    endOp (reportEnd ok .recipe slot 0 { s with flash := x.mem })
  | _ => s

/-- ERASE_RECIPE_OPERATION (R171). -/
def eraseRecipeEvent (faults : List StepFault) (s : State) : State :=
  match s.runningOp with
  | some (.eraseRecipe slot) =>
    let (x, ok) := Progress.erase slot { mem := s.flash, faults := faults, budget := none }
    endOp (reportEnd ok .recipe slot 0 { s with flash := x.mem })
  | _ => s

/-- An UNCONFIGURED part becomes READY (R178, R180). -/
def becomeReady (s : State) : State :=
  if s.link.start = .unconfigured then { s with link := { s.link with start := .ready } } else s

/-- A plant record comes into force: every loaded line takes its constants, and an UNCONFIGURED part becomes READY
(R63, R176, R178). -/
def plantInForce (plant : PlantRecord) (s : State) : State :=
  becomeReady (takePlant .net (takePlant .rope { s with plant := some plant }))

/-- STORE_PLANT_OPERATION (R178). -/
def storePlantEvent (faults : List StepFault) (s : State) : State :=
  match s.runningOp with
  | some (.storePlant plant) =>
    let (x, ok) := plantMemory plant { mem := s.flash, faults := faults, budget := none }
    let s1 := { s with flash := x.mem }
    endOp (reportEnd ok .plant 0 0 (if ok then plantInForce plant s1 else s1))
  | _ => s

/-! ### Recipe requests (R169, R171, R172) -/

/-- The field check of a slot, at an index. -/
def slotField (index slot : Nat) : Check :=
  inField index 0 31 slot

/-- Whether an order of the queue names a slot (R169). -/
def State.slotOrdered (s : State) (slot : Nat) : Bool :=
  s.orders.any fun o => o.slot == slot

/-- The state checks of STORE_RECIPE and ERASE_RECIPE (R169, R171). -/
def slotStoreChecks (slot : Nat) (s : State) : List Check :=
  [(!s.slotOrdered slot, .state .slotInOrder), (!s.slotWritten slot, .state .slotBeingWritten),
    entryFree s]

/-- The check of the kind and the fields of a recipe (R169). -/
def bodyCheck (body : RecipeBody) : Check :=
  match body.firstBad with
  | some i => (false, .field i)
  | none => (true, .done [])

/-- STORE_RECIPE (R169). -/
def storeRecipeAct (slot : Nat) (body : RecipeBody) (s : State) : State × Answer :=
  guarded ([slotField 1 slot, bodyCheck body] ++ slotStoreChecks slot s)
    (fun s => (placeOp (.storeRecipe slot body) s, .done [])) s

/-- ERASE_RECIPE (R171). -/
def eraseRecipeAct (slot : Nat) (s : State) : State × Answer :=
  guarded ([slotField 1 slot] ++ slotStoreChecks slot s)
    (fun s => (placeOp (.eraseRecipe slot) s, .done [])) s

/-- A slot as READ_RECIPE carries it: its state by its place in the list, and what the state gives (R172, R196), the pattern
of a NET recipe as STORE_RECIPE carries it (log 22). -/
def slotFields (x : SlotState) : List Byte :=
  match x with
  | .empty => be 1 1
  | .valid body check => be 1 2 ++ be 1 body.code ++ body.fieldBytes ++ be 2 check
  | .corrupt check => be 1 3 ++ be 2 check

/-- Whether a slot is the source of the working copy of a line (R172). -/
def State.slotLoaded (s : State) (slot : Nat) : Bool :=
  (s.copyOf .rope).map Prod.fst == some slot || (s.copyOf .net).map Prod.fst == some slot

/-- READ_RECIPE (R172). -/
def readRecipeAct (slot : Nat) (s : State) : State × Answer :=
  guarded [slotField 1 slot, (!s.slotWritten slot, .state .slotBeingWritten)]
    (fun s =>
      (s, .done (slotFields (judgeSlot s.flash slot) ++ yesNo (s.slotOrdered slot)
        ++ yesNo (s.slotLoaded slot)))) s

/-! ### Loading a line (R174, R175) -/

/-- Whether a recipe fits the grid of the plant record in force: every pattern step's last hook is below 8D (R174). -/
def fitsGrid (body : RecipeBody) (s : State) : Bool :=
  match body with
  | .net r => r.pattern.all fun p => decide (p.last < 8 * s.plantD.driveLines)
  | _ => true

/-- Whether the pack point of a line takes a load: NONE, or OPEN or BOUND with length so far 0 (R174). -/
def packTakesLoad (l : LineId) (s : State) : Bool :=
  match (s.pack l).state with
  | .noCoil => true
  | .opened | .bound => s.lengthSoFar l == 0
  | _ => false

/-- A recipe put in force as the working copy of its line (R173, R175 step 2). -/
def setCopy (l : LineId) (slot check : Nat) (body : RecipeBody) (s : State) : State :=
  match l, body with
  | .rope, .rope r => { s with ropeCopy := some ⟨slot, check, r⟩ }
  | .net, .net r => { s with netCopy := some ⟨slot, check, r⟩ }
  | _, _ => s

/-- Spans under the old recipe are closed (R175 step 1). -/
def closeSpans (l : LineId) (s : State) : State :=
  match l with
  | .rope => closeLaySpan s
  | .net => closeMeshSpan s

/-- The line machinery restarts (R175 step 4). -/
def machineryLoads (l : LineId) (s : State) : State :=
  match l with
  | .rope => layRestart (s.len .rope).p s
  | .net => knotLoads s

/-- The CREEL check after a rope recipe load (R175 step 6). -/
def creelLoads (l : LineId) (s : State) : State :=
  match l with
  | .rope => checkCreel s
  | .net => s

/-- An accepted LOAD_LINE_RECIPE (R175). -/
def loadLine (l : LineId) (slot check : Nat) (body : RecipeBody) (s : State) : State :=
  let s1 := setCopy l slot check body (closeSpans l s)
  let s2 := machineryLoads l (beginSegment l (constantsOf l s1) s1)
  creelLoads l (packLoads l s2)

/-- LOAD_LINE_RECIPE (R174, R175). -/
def loadLineRecipeAct (machine slot : Nat) (s : State) : State × Answer :=
  guarded [lineField machine, slotField 2 slot, configured s]
    (onLine machine fun l s =>
      guarded
        ([lineStill l s, noneFeeding l s, (packTakesLoad l s, .state .wrongState)]
          ++ slotChecks (suitsLine l) slot s)
        (fun s =>
          match judgeSlot s.flash slot with
          | .valid body check =>
            guarded [(fitsGrid body s, .state .plantMismatch)]
              (fun s => (loadLine l slot check body s, .done [])) s
          | _ => (s, .state .slotEmpty)) s) s

/-! ### The plant record (R177, R179, R180) -/

/-- The check of the fields of STORE_PLANT (R177). -/
def plantCheck (plant : PlantRecord) : Check :=
  match firstBad 1 plant.fields with
  | some i => (false, .field i)
  | none => (true, .done [])

/-- Whether every position is IDLE or has both its drives STILL (R177). -/
def positionsStand (s : State) : Bool :=
  ([0, 1, 2, 3, 4, 5, 6, 7] : List (Fin 8)).all fun p =>
    (s.job p).isNone || !(spRuns p s || dlRuns p s)

/-- STORE_PLANT (R177). -/
def storePlantAct (plant : PlantRecord) (s : State) : State × Answer :=
  guarded
    [plantCheck plant, (positionsStand s, .state .machineRunning),
      (!(s.running .rope || s.running .net), .state .machineRunning),
      (!s.plantWritten, .state .slotBeingWritten), entryFree s]
    (fun s => (placeOp (.storePlant plant) s, .done [])) s

/-- The reply fields of READ_PLANT (R179). -/
def plantFields (s : State) : List Byte :=
  let stored := storedPlant s.flash
  yesNo stored.isSome ++ (match stored with | some r => r.bytes | none => [])
    ++ yesNo s.plant.isSome ++ yesNo (s.plant.isSome && s.plant == stored)

/-- READ_PLANT (R179). -/
def readPlantAct (s : State) : State × Answer :=
  guarded [(!s.plantWritten, .state .slotBeingWritten)] (fun s => (s, .done (plantFields s))) s

/-! ### The commands -/

/-- STORE_RECIPE_OPERATION. -/
def execStoreRecipeOperation (faults : List StepFault) (s : State) :
    Host.Outcome State Fault Refusal :=
  .next (storeRecipeEvent faults s)

/-- ERASE_RECIPE_OPERATION. -/
def execEraseRecipeOperation (faults : List StepFault) (s : State) :
    Host.Outcome State Fault Refusal :=
  .next (eraseRecipeEvent faults s)

/-- STORE_PLANT_OPERATION. -/
def execStorePlantOperation (faults : List StepFault) (s : State) :
    Host.Outcome State Fault Refusal :=
  .next (storePlantEvent faults s)

/-- READ_PLANT. -/
def execReadPlant (tag : Byte) (s : State) : Host.Outcome State Fault Refusal :=
  .next (request (.readPlant tag) tag 0x10 false readPlantAct s)

/-- STORE_PLANT. -/
def execStorePlant (tag : Byte) (plant : PlantRecord) (s : State) :
    Host.Outcome State Fault Refusal :=
  .next (request (.storePlant tag plant) tag 0x11 false (storePlantAct plant) s)

/-- READ_RECIPE. -/
def execReadRecipe (tag : Byte) (slot : Nat) (s : State) : Host.Outcome State Fault Refusal :=
  .next (request (.readRecipe tag slot) tag 0x12 false (readRecipeAct slot) s)

/-- STORE_RECIPE. -/
def execStoreRecipe (tag : Byte) (slot : Nat) (body : RecipeBody) (s : State) :
    Host.Outcome State Fault Refusal :=
  .next (request (.storeRecipe tag slot body) tag 0x13 false (storeRecipeAct slot body) s)

/-- ERASE_RECIPE. -/
def execEraseRecipe (tag : Byte) (slot : Nat) (s : State) : Host.Outcome State Fault Refusal :=
  .next (request (.eraseRecipe tag slot) tag 0x14 false (eraseRecipeAct slot) s)

/-- LOAD_LINE_RECIPE. -/
def execLoadLineRecipe (tag : Byte) (machine slot : Nat) (s : State) :
    Host.Outcome State Fault Refusal :=
  .next (request (.loadLineRecipe tag machine slot) tag 0x40 false (loadLineRecipeAct machine slot) s)

end Sys2Proof.Machine
end

