-- ==== Sys2Proof/Machine/LinkPort.lean ====
section
/-! DEFINITION. The Link Port: receiver, receive queue, reports and their requests, the resets and the start (R181 to
R193). -/

namespace Sys2Proof.Machine

/-- State with the Link Port replaced. -/
def State.setLink (x : Link) (s : State) : State :=
  { s with link := x }

/-! ### The receiver (R181) -/

/-- The gap time, microseconds (R181). -/
def gapTime : Nat := 3 * ms

/-- The receiver outside HUNT after a byte: the gap timer starts afresh (R181; log 18). -/
def receiving (r : Receive) (s : State) : State :=
  s.setLink { s.link with receive := r, gap := some (s.now + gapTime) }

/-- The receiver back in HUNT, its gap timer stopped. -/
def hunting (s : State) : State :=
  s.setLink { s.link with receive := .hunt, gap := none }

/-- A partial frame is dropped: the bad-frame count rises and the receiver is in HUNT (R181). -/
def dropFrame (s : State) : State :=
  hunting (s.setLink { s.link with badFrames := satAdd countTop s.link.badFrames 1 })

/-- The second byte of the check word completes a frame (R181). -/
def completeFrame (len : Nat) (body : List Byte) (check : Nat) (s : State) : State :=
  if crc16 (be 1 len ++ body) = check then frameArrives (commandOfBody body) (hunting s)
  else dropFrame s

/-- A byte with its stop bit high (R181). -/
def takeByte (b : Byte) (s : State) : State :=
  match s.link.receive with
  | .hunt => if b = 0x5A then receiving .length s else s
  | .length =>
    if 3 ≤ b.toNat ∧ b.toNat ≤ 250 then receiving (.body b.toNat b.toNat []) s else dropFrame s
  | .body len due kept =>
    if due ≤ 1 then receiving (.check len (kept ++ [b]) none) s
    else receiving (.body len (due - 1) (kept ++ [b])) s
  | .check len body none => receiving (.check len body (some b)) s
  | .check len body (some first) => completeFrame len body (unbe [first, b]) s

/-- BYTE_RECEIVED: a byte comes in on RXD (R181). -/
def byteEvent (b : Byte) (stopBit : Bool) (s : State) : State :=
  if stopBit then takeByte b s
  else if s.link.receive = .hunt then s
  else dropFrame s

/-- GAP_TIMEOUT: the gap timer reaches its deadline (R181). -/
def gapEvent (s : State) : State :=
  match s.link.gap with
  | some d => dropFrame (s.reach d)
  | none => s

/-- REPLY_SENT: the reply at the head of the receive queue has been sent whole (R182). -/
def sentEvent (s : State) : State :=
  match s.link.frames with
  | ⟨_, some _⟩ :: rest => s.setLink { s.link with frames := rest }
  | _ => s

/-- UNKNOWN_REQUEST: a body that spells no request is answered UNKNOWN in every start state (R183). A body that does
spell one is that request's frame, which comes to the receive queue (log 13). -/
def unknownEvent (tag kind : Byte) (rest : List Byte) (s : State) : State :=
  let c := requestOf tag kind rest
  if c = .unknownRequest tag kind rest then request c tag kind true (fun s => (s, .unknown)) s
  else frameArrives c s

/-! ### The status digest (R189) -/

/-- The serial rate the straps give (R11). -/
def baudOf (br1 br0 : Bool) : Nat :=
  match br1, br0 with
  | false, false => 57600
  | false, true => 115200
  | true, false => 230400
  | true, true => 460800

/-- Place of a start state in its list (R196). -/
def StartState.code : StartState → Nat
  | .starting => 1
  | .unconfigured => 2
  | .ready => 3

/-- The machines, in ascending number. -/
def machines : List (Fin 10) := [0, 1, 2, 3, 4, 5, 6, 7, 8, 9]

/-- The reply fields of STATUS (R189, R196). -/
def statusFields (s : State) : List Byte :=
  let x := s.link
  be 1 x.start.code ++ be 3 (baudOf x.br1 x.br0) ++ be 2 x.badFrames ++ be 2 x.overruns ++ be 2 x.lost
    ++ be 1 x.reports.length ++ be 1 (x.reports.filter (Report.holdsCall x.mask)).length
    ++ yesNo x.mask ++ yesNo x.call ++ be 1 s.queue.length
    ++ machines.flatMap (fun m => yesNo (s.stop m).asserted)

/-- STATUS (R189). -/
def statusAct (s : State) : State × Answer :=
  (s, .done (statusFields s))

/-! ### Reports (R186 to R188) -/

/-- A report record as REPORTS carries it (R197). -/
def Report.bytes (r : Report) : List Byte :=
  be 1 r.kind.code ++ optionCode r.machine ++ be 4 r.time ++ be 1 r.body.length ++ r.body

/-- REPORTS: the oldest records leave the queue and are carried (R186). -/
def reportsAct (n : Nat) (s : State) : State × Answer :=
  guarded [inField 1 1 8 n]
    (fun s =>
      let taken := s.link.reports.take n
      let rest := s.link.reports.drop n
      (judgeCall (s.setLink { s.link with reports := rest }),
        .done (be 1 taken.length ++ be 1 rest.length ++ taken.flatMap Report.bytes))) s

/-- The report kind settings with those of a kind replaced (R187). -/
def setReportsAct (kind queued call urgent : Nat) (s : State) : State × Answer :=
  guarded [inField 1 1 24 kind, inField 2 0 1 queued, inField 3 0 1 call, inField 4 0 1 urgent]
    (fun s =>
      (judgeCall (s.setLink
        { s.link with
          settings := s.link.settings.set (Fin.ofNat 24 (kind - 1))
            { queued := queued == 1, call := call == 1, urgent := urgent == 1 } }),
        .done [])) s

/-- CALL_MASK (R188). -/
def callMaskAct (setting : Nat) (s : State) : State × Answer :=
  guarded [inField 1 0 1 setting]
    (fun s => (judgeCall (s.setLink { s.link with mask := setting == 1 }), .done [])) s

/-! ### Resets (R192, R193) -/

/-- The part when a reset ends: every block at its reset values, the pins, the store and the commands that wait as
they were (the table "The part after a reset"). -/
def resetPart (kind : ResetKind) (br1 br0 : Bool) (held : List HeldReport) (s : State) : State :=
  { State.reset with
    pending := s.pending
    inputs := s.inputs.atReset
    flash := s.flash
    link := Link.atReset br1 br0 kind held }

/-- What a store operation leaves in the store, run from a progress on (R157, R162, R163, R165, R170, R171,
R178). -/
def operationMemory (op : StoreOp) (x : Progress) (s : State) : Memory :=
  match op with
  | .coilWrite l =>
    match (s.pack l).record with
    | some r => (attemptWrite r.coil ⟨x, s.log⟩).1.x.mem
    | none => x.mem
  | .logTake upTo => (takeMemory upTo x).1.mem
  | .logVoid coil => (voidMemory coil x).1.mem
  | .storeRecipe slot body => (recipeMemory slot body x).1.mem
  | .eraseRecipe slot => (x.erase slot).1.mem
  | .storePlant plant => (plantMemory plant x).1.mem
  | .tallyStep m => (stepMemory m x).1.mem

/-- The store after a power-on reset: the operation in flight has come `steps` steps far (R152, R153; log 6). -/
def cutOffMemory (steps : Nat) (faults : List StepFault) (s : State) : Memory :=
  match s.runningOp with
  | some op => operationMemory op { mem := s.flash, faults := faults, budget := some steps } s
  | none => s.flash

/-- POWER_ON_RESET (R193). -/
def powerOnEvent (br1 br0 : Bool) (steps : Nat) (faults : List StepFault) (s : State) : State :=
  resetPart .powerOn br1 br0 [] { s with flash := cutOffMemory steps faults s }

/-- RESTART: it is accepted, and its reset is to come (R192 step 1). -/
def restartAct (s : State) : State × Answer :=
  (s.setLink { s.link with restarting := true }, .done [])

/-- Whether the reset of an accepted RESTART may take place: its reply has been sent and no store operation is in
flight (R192). -/
def State.restartDue (s : State) : Bool :=
  s.link.restarting && !(s.link.frames.any fun f => f.reply.isSome) && s.runningOp.isNone

/-- RESTART_RESET (R192 steps 3 and 4). -/
def restartEvent (br1 br0 : Bool) (s : State) : State :=
  if s.restartDue then resetPart .restart br1 br0 s.link.held s else s

/-! ### The start (R164, R167, R180, R191) -/

/-- Code of a reset kind (R197). -/
def ResetKind.code : ResetKind → Nat
  | .powerOn => 1
  | .restart => 2

/-- The body of STARTED (R197). -/
def startedBody (s : State) : List Byte :=
  be 1 s.link.resetKind.code ++ be 1 (if s.plant.isSome then 2 else 1)
    ++ be 2 (recordsInLog s.flash).length ++ be 2 (untakenCount s.flash) ++ be 4 s.log.next

/-- The stored steps of every tally counted from its page (R167). -/
def countTallies (s : State) : State :=
  { s with
    tallies := Vector.ofFn fun m => { s.tallies[m] with stored := countSteps (tallyPage m) s.flash } }

/-- STARTED is entered, and after it the records held for it (R191). -/
def enterStarted (s : State) : State :=
  let first := queueReport .started none (startedBody s) s
  let all := s.link.held.foldl (fun acc h => queueReport h.kind h.machine h.body acc) first
  all.setLink { all.link with held := [] }

/-- START_SEQUENCE_END: the stored plant record has been judged, the log scanned and the tallies counted (R191). -/
def startEvent (s : State) : State :=
  if s.link.start = .starting then
    let plant := storedPlant s.flash
    let s1 := countTallies { s with plant := plant, log := scanLog s.flash }
    enterStarted
      (s1.setLink { s1.link with start := if plant.isSome then .ready else .unconfigured })
  else s

/-! ### The commands -/

/-- POWER_ON_RESET. -/
def execPowerOnReset (br1 br0 : Bool) (steps : Nat) (faults : List StepFault) (s : State) :
    Host.Outcome State Fault Refusal :=
  .next (powerOnEvent br1 br0 steps faults s)

/-- START_SEQUENCE_END. -/
def execStartSequenceEnd (s : State) : Host.Outcome State Fault Refusal :=
  .next (startEvent s)

/-- BYTE_RECEIVED. -/
def execByteReceived (b : Byte) (stopBit : Bool) (s : State) : Host.Outcome State Fault Refusal :=
  .next (byteEvent b stopBit s)

/-- GAP_TIMEOUT. -/
def execGapTimeout (s : State) : Host.Outcome State Fault Refusal :=
  .next (gapEvent s)

/-- REPLY_SENT. -/
def execReplySent (s : State) : Host.Outcome State Fault Refusal :=
  .next (sentEvent s)

/-- UNKNOWN_REQUEST. -/
def execUnknownRequest (tag kind : Byte) (rest : List Byte) (s : State) :
    Host.Outcome State Fault Refusal :=
  .next (unknownEvent tag kind rest s)

/-- STATUS. -/
def execStatus (tag : Byte) (s : State) : Host.Outcome State Fault Refusal :=
  .next (request (.status tag) tag 0x01 true statusAct s)

/-- RESTART. -/
def execRestart (tag : Byte) (s : State) : Host.Outcome State Fault Refusal :=
  .next (request (.restart tag) tag 0x02 false restartAct s)

/-- RESTART_RESET. -/
def execRestartReset (br1 br0 : Bool) (s : State) : Host.Outcome State Fault Refusal :=
  .next (restartEvent br1 br0 s)

/-- REPORTS. -/
def execReports (tag : Byte) (n : Nat) (s : State) : Host.Outcome State Fault Refusal :=
  .next (request (.reports tag n) tag 0x03 false (reportsAct n) s)

/-- SET_REPORTS. -/
def execSetReports (tag : Byte) (kind queued call urgent : Nat) (s : State) :
    Host.Outcome State Fault Refusal :=
  .next (request (.setReports tag kind queued call urgent) tag 0x04 false
    (setReportsAct kind queued call urgent) s)

/-- CALL_MASK. -/
def execCallMask (tag : Byte) (setting : Nat) (s : State) : Host.Outcome State Fault Refusal :=
  .next (request (.callMask tag setting) tag 0x05 false (callMaskAct setting) s)

end Sys2Proof.Machine
end

