-- ==== Sys2Proof/Machine/StopUnit.lean ====
section
/-! DEFINITION. The requests on the Stop Unit (R100, R101). -/

namespace Sys2Proof.Machine

/-- The check of a machine number. -/
def machineField (machine : Nat) : Check :=
  inField 1 0 9 machine

/-- STOP_MACHINE (R100). -/
def stopMachineAct (machine : Nat) (s : State) : State × Answer :=
  guarded [machineField machine]
    (fun s => (setCause (Fin.ofNat 10 machine) .commanded s, .done [])) s

/-- The causes the host may release on a machine (R101). -/
def releasable (machine : Nat) : List StopCause :=
  if machine = 9 then [.commanded, .watch, .hookFault, .sensor, .panelEnd]
  else if machine = 8 then [.commanded, .watch]
  else [.commanded]

/-- The cause a RELEASE names, where the host may release it (R101). -/
def releaseCause (machine code : Nat) : Option StopCause :=
  (releasable machine).find? fun c => c.code == code

/-- A cause of a machine is released; the Knot Scanner is told where a set HOOK_FAULT is (R101, R117). -/
def releaseStop (m : Fin 10) (c : StopCause) (s : State) : State :=
  let s1 := clearCause m c s
  if c = .hookFault ∧ s.hasCause m .hookFault = true then hooksReleased s1 else s1

/-- RELEASE (R101). -/
def releaseAct (machine code : Nat) (s : State) : State × Answer :=
  guarded [machineField machine, ((releaseCause machine code).isSome, .field 2)]
    (fun s =>
      match releaseCause machine code with
      | some c => (releaseStop (Fin.ofNat 10 machine) c s, .done [])
      | none => (s, .field 2)) s

/-- STOP_MACHINE. -/
def execStopMachine (tag : Byte) (machine : Nat) (s : State) : Host.Outcome State Fault Refusal :=
  .next (request (.stopMachine tag machine) tag 0x43 false (stopMachineAct machine) s)

/-- RELEASE. -/
def execRelease (tag : Byte) (machine cause : Nat) (s : State) : Host.Outcome State Fault Refusal :=
  .next (request (.release tag machine cause) tag 0x44 false (releaseAct machine cause) s)

end Sys2Proof.Machine
end

