-- ==== Sys2Proof/Machine/Dispatch.lean ====
section
/-! DEFINITION. The meaning of every command: one arm per row of spec/opcode_table.json, in its order. -/

namespace Sys2Proof.Machine

def exec (i : Instr) (s : State) : Host.Outcome State Fault Refusal :=
  match i with
  | .powerOnReset br1 br0 steps faults => Sys2Proof.Machine.execPowerOnReset br1 br0 steps faults s
  | .startSequenceEnd => Sys2Proof.Machine.execStartSequenceEnd s
  | .pulsePinChange k => Sys2Proof.Machine.execPulsePinChange k s
  | .pulseFilterSettled k order => Sys2Proof.Machine.execPulseFilterSettled k order s
  | .levelPinChange k => Sys2Proof.Machine.execLevelPinChange k s
  | .levelFilterSettled k => Sys2Proof.Machine.execLevelFilterSettled k s
  | .stallDeadline k => Sys2Proof.Machine.execStallDeadline k s
  | .intervalEnd => Sys2Proof.Machine.execIntervalEnd s
  | .motionTimerDeadline p => Sys2Proof.Machine.execMotionTimerDeadline p s
  | .detectorTimerDeadline p => Sys2Proof.Machine.execDetectorTimerDeadline p s
  | .scanSettleElapsed samples => Sys2Proof.Machine.execScanSettleElapsed samples s
  | .cutTimerDeadline l => Sys2Proof.Machine.execCutTimerDeadline l s
  | .coilWriteAttempt faults => Sys2Proof.Machine.execCoilWriteAttempt faults s
  | .logTakeOperation faults => Sys2Proof.Machine.execLogTakeOperation faults s
  | .logVoidOperation faults => Sys2Proof.Machine.execLogVoidOperation faults s
  | .storeRecipeOperation faults => Sys2Proof.Machine.execStoreRecipeOperation faults s
  | .eraseRecipeOperation faults => Sys2Proof.Machine.execEraseRecipeOperation faults s
  | .storePlantOperation faults => Sys2Proof.Machine.execStorePlantOperation faults s
  | .tallyStep faults => Sys2Proof.Machine.execTallyStep faults s
  | .byteReceived b stopBit => Sys2Proof.Machine.execByteReceived b stopBit s
  | .gapTimeout => Sys2Proof.Machine.execGapTimeout s
  | .replySent => Sys2Proof.Machine.execReplySent s
  | .unknownRequest tag kind rest => Sys2Proof.Machine.execUnknownRequest tag kind rest s
  | .status tag => Sys2Proof.Machine.execStatus tag s
  | .restart tag => Sys2Proof.Machine.execRestart tag s
  | .restartReset br1 br0 => Sys2Proof.Machine.execRestartReset br1 br0 s
  | .reports tag n => Sys2Proof.Machine.execReports tag n s
  | .setReports tag kind queued call urgent => Sys2Proof.Machine.execSetReports tag kind queued call urgent s
  | .callMask tag setting => Sys2Proof.Machine.execCallMask tag setting s
  | .readPlant tag => Sys2Proof.Machine.execReadPlant tag s
  | .storePlant tag plant => Sys2Proof.Machine.execStorePlant tag plant s
  | .readRecipe tag slot => Sys2Proof.Machine.execReadRecipe tag slot s
  | .storeRecipe tag slot body => Sys2Proof.Machine.execStoreRecipe tag slot body s
  | .eraseRecipe tag slot => Sys2Proof.Machine.execEraseRecipe tag slot s
  | .readTally tag tally => Sys2Proof.Machine.execReadTally tag tally s
  | .startPackage tag position package slot => Sys2Proof.Machine.execStartPackage tag position package slot s
  | .resumePosition tag position => Sys2Proof.Machine.execResumePosition tag position s
  | .doffPackage tag position => Sys2Proof.Machine.execDoffPackage tag position s
  | .positionStatus tag position => Sys2Proof.Machine.execPositionStatus tag position s
  | .addPackage tag entry => Sys2Proof.Machine.execAddPackage tag entry s
  | .readPackage tag package => Sys2Proof.Machine.execReadPackage tag package s
  | .removePackage tag package => Sys2Proof.Machine.execRemovePackage tag package s
  | .placePackage tag package place => Sys2Proof.Machine.execPlacePackage tag package place s
  | .unplacePackage tag package => Sys2Proof.Machine.execUnplacePackage tag package s
  | .spliceFeed tag place => Sys2Proof.Machine.execSpliceFeed tag place s
  | .creelStatus tag => Sys2Proof.Machine.execCreelStatus tag s
  | .loadLineRecipe tag machine slot => Sys2Proof.Machine.execLoadLineRecipe tag machine slot s
  | .setPosition tag machine value => Sys2Proof.Machine.execSetPosition tag machine value s
  | .lineStatus tag machine => Sys2Proof.Machine.execLineStatus tag machine s
  | .stopMachine tag machine => Sys2Proof.Machine.execStopMachine tag machine s
  | .release tag machine cause => Sys2Proof.Machine.execRelease tag machine cause s
  | .setWatch tag machine position => Sys2Proof.Machine.execSetWatch tag machine position s
  | .clearWatch tag machine watch => Sys2Proof.Machine.execClearWatch tag machine watch s
  | .readMarks tag machine start skip count => Sys2Proof.Machine.execReadMarks tag machine start skip count s
  | .addMark tag machine position span => Sys2Proof.Machine.execAddMark tag machine position span s
  | .knotStatus tag => Sys2Proof.Machine.execKnotStatus tag s
  | .readRows tag back count => Sys2Proof.Machine.execReadRows tag back count s
  | .addOrder tag order => Sys2Proof.Machine.execAddOrder tag order s
  | .cancelOrder tag order => Sys2Proof.Machine.execCancelOrder tag order s
  | .readOrders tag skip count => Sys2Proof.Machine.execReadOrders tag skip count s
  | .endCoil tag machine => Sys2Proof.Machine.execEndCoil tag machine s
  | .cutManual tag machine => Sys2Proof.Machine.execCutManual tag machine s
  | .packStatus tag machine => Sys2Proof.Machine.execPackStatus tag machine s
  | .logRead tag first count => Sys2Proof.Machine.execLogRead tag first count s
  | .logTake tag upTo => Sys2Proof.Machine.execLogTake tag upTo s
  | .logVoid tag coil => Sys2Proof.Machine.execLogVoid tag coil s

end Sys2Proof.Machine
end

