-- ==== Sys2Proof/WellFormed.lean ====
section
/-! DEFINITION. Well-formed commands: operands that the floor, the store and the serial line can bring. -/

namespace Sys2Proof

/-- Whether a number fits a field of `k` bytes (R196). -/
def fits (k n : Nat) : Bool :=
  decide (n < 256 ^ k)

/-- Whether every value of some fields fits its size. -/
def fieldsFit (fields : List WireField) : Bool :=
  fields.all fun f => f.values.all (fits f.size)

/-- Whether every fault names a byte of a page (R152). -/
def faultsInPage (faults : List StepFault) : Bool :=
  faults.all fun f => f.all fun x => decide (x.1 < 512)

/-- Whether a pattern step fits its four bytes (R195). -/
def PatternStep.fits (p : PatternStep) : Bool :=
  Sys2Proof.fits 1 p.first && Sys2Proof.fits 1 p.last && Sys2Proof.fits 2 p.rows

/-- Whether a recipe can be carried: its values fit, a NET pattern fits its count byte, and a code that names no kind is
none of the three kinds' (R195, R196). -/
def RecipeBody.fits : RecipeBody → Bool
  | .twist r => fieldsFit r.fields
  | .rope r => fieldsFit r.fields
  | .net r =>
    Sys2Proof.fits 1 r.pattern.length && r.pattern.all PatternStep.fits && fieldsFit r.tailFields
  | .other code => Sys2Proof.fits 1 code && !([1, 2, 3].contains code)

/-- Whether a span entry fits its nine bytes. -/
def SpanEntry.fits (e : SpanEntry) : Bool :=
  Sys2Proof.fits 4 e.start && Sys2Proof.fits 4 e.stop && Sys2Proof.fits 1 e.kind

/-- Whether the fields of ADD_PACKAGE can be carried. -/
def PackageEntry.fits (e : PackageEntry) : Bool :=
  Sys2Proof.fits 2 e.number && Sys2Proof.fits 4 e.wound && Sys2Proof.fits 1 e.grade
    && Sys2Proof.fits 1 e.spans.length && e.spans.all SpanEntry.fits
    && Sys2Proof.fits 1 e.splices.length && e.splices.all (Sys2Proof.fits 4)

/-- Whether the fields of ADD_ORDER can be carried. -/
def OrderEntry.fits (e : OrderEntry) : Bool :=
  Sys2Proof.fits 2 e.number && Sys2Proof.fits 1 e.line && Sys2Proof.fits 1 e.slot
    && Sys2Proof.fits 1 e.rule && Sys2Proof.fits 3 e.target && Sys2Proof.fits 2 e.low
    && Sys2Proof.fits 2 e.high && Sys2Proof.fits 1 e.count && Sys2Proof.fits 1 e.minGrade

/-- The most body bytes of a frame (chapter 10, "Frames on the line"). -/
def bodyTop : Nat := 250

/-- Whether a request's body has a length a frame can carry: 3 to 250 (R181). -/
def bodyFits (c : Instr) : Bool :=
  match requestBody c with
  | some body => decide (3 ≤ body.length) && decide (body.length ≤ bodyTop)
  | none => true

/-- Whether the operands of a command, one by one, are ones that can be brought. -/
def operandsFit : Instr → Bool
  | .powerOnReset _ _ _ faults => faultsInPage faults
  | .pulseFilterSettled _ order => decide order.Nodup
  | .coilWriteAttempt faults | .logTakeOperation faults | .logVoidOperation faults
  | .storeRecipeOperation faults | .eraseRecipeOperation faults | .storePlantOperation faults
  | .tallyStep faults => faultsInPage faults
  | .unknownRequest tag kind rest => (readRequest tag kind rest).isNone
  | .reports _ n => fits 1 n
  | .setReports _ k q c u => fits 1 k && fits 1 q && fits 1 c && fits 1 u
  | .callMask _ v => fits 1 v
  | .storePlant _ plant => fieldsFit plant.fields
  | .readRecipe _ slot | .eraseRecipe _ slot => fits 1 slot
  | .storeRecipe _ slot body => fits 1 slot && body.fits
  | .readTally _ n => fits 1 n
  | .startPackage _ p n slot => fits 1 p && fits 2 n && fits 1 slot
  | .resumePosition _ p | .doffPackage _ p | .positionStatus _ p => fits 1 p
  | .addPackage _ e => e.fits
  | .readPackage _ n | .removePackage _ n | .unplacePackage _ n => fits 2 n
  | .placePackage _ n p => fits 2 n && fits 1 p
  | .spliceFeed _ p => fits 1 p
  | .loadLineRecipe _ m slot => fits 1 m && fits 1 slot
  | .setPosition _ m v => fits 1 m && fits 4 v
  | .lineStatus _ m | .stopMachine _ m => fits 1 m
  | .release _ m c => fits 1 m && fits 1 c
  | .setWatch _ m x => fits 1 m && fits 4 x
  | .clearWatch _ m w => fits 1 m && fits 1 w
  | .readMarks _ m x k n => fits 1 m && fits 4 x && fits 1 k && fits 1 n
  | .addMark _ m x span => fits 1 m && fits 4 x && fits 3 span
  | .readRows _ a n => fits 1 a && fits 1 n
  | .addOrder _ e => e.fits
  | .cancelOrder _ n => fits 2 n
  | .readOrders _ k n => fits 1 k && fits 1 n
  | .endCoil _ m | .cutManual _ m | .packStatus _ m => fits 1 m
  | .logRead _ f n => fits 4 f && fits 1 n
  | .logTake _ t => fits 4 t
  | .logVoid _ n => fits 4 n
  | _ => true

/-- Whether a command is well formed: its operands can be brought, and a request's body fits a frame. -/
def Instr.wf (c : Instr) : Bool :=
  operandsFit c && bodyFits c

/-- Whether a command is a request of the serial line. -/
def Instr.isRequest (c : Instr) : Bool :=
  (requestBody c).isSome

end Sys2Proof
end

