-- ==== Sys2Proof/Safety.lean ====
section
/-! DEFINITION. What holds of the part in every state that a run reaches: outputs that follow the sets and counts
behind them, lists within their capacities, positions and addresses within their ranges. And the words that
statements about commands use: the part ready for a request, a request answered, commands one after another. -/

namespace Sys2Proof.Machine

/-- Every stop output is asserted exactly when its cause set is not empty (R98). -/
def StopsAgree (s : State) : Prop :=
  ∀ m : Fin 10, (s.stop m).asserted = ((s.stop m).causes != 0)

/-- The Link Port: CALL as the queued records hold it, the queues within their capacities, the counts within their
tops (R181, R182, R185, R188). -/
structure LinkOk (x : Link) : Prop where
  call : x.call = x.callDue
  reports : x.reports.length ≤ reportCapacity
  frames : x.frames.length ≤ frameCapacity
  badFrames : x.badFrames ≤ countTop
  overruns : x.overruns ≤ countTop
  lost : x.lost ≤ countTop

/-- The most spray actions of a queue: 32 entries less the one kept for a CUT (R89). -/
def sprayTop : Nat := 31

/-- The Line Action Unit of a line: marks and actions within their capacities, the marker output asserted exactly
while the on-count is above 0 (R79, R89, R92). -/
structure ActionsOk (a : LineActions) : Prop where
  marks : a.marks.length ≤ markCapacity
  sprays : sprayCount a.actions ≤ sprayTop
  cuts : (a.actions.filter fun x => !x.act.isSpray).length ≤ 1
  marker : a.marker = decide (0 < a.onCount)

/-- The Length Meter of a line: its positions within their range (R65). -/
structure LengthOk (x : LengthMeter) : Prop where
  position : x.p ≤ top32
  base : x.base ≤ top32
  highMark : x.highMark ≤ top32

/-- Whether an operation names a recipe slot of the store and carries fields that STORE_RECIPE takes (R169). -/
def StoreOp.inRange : StoreOp → Bool
  | .storeRecipe slot body => decide (slot ≤ 31) && body.firstBad.isNone
  | .eraseRecipe slot => decide (slot ≤ 31)
  | _ => true

/-- The store: its memory in canonical form and within the 139 pages, the write point in the log, the operations
queued in range and within the six general entries (R152, R153, R156). -/
structure StoreOk (s : State) : Prop where
  memory : s.flash.wf = true
  within : s.flash.within = true
  page : 43 ≤ s.log.page ∧ s.log.page ≤ 138
  slot : s.log.slot ≤ 3
  general : (s.queue.filter fun e => e.op.isGeneral).length ≤ generalEntries
  ops : ∀ e ∈ s.queue, e.op.inRange = true

/-- The tables: at most 96 package records and 16 orders, no two of one number, at most 32 rows in the ring, and every
order's tolerance below its target (R38, R118, R126, R132). -/
structure TablesOk (s : State) : Prop where
  packages : s.table.packages.length ≤ tableCapacity
  packageNumbers : (s.table.packages.map Package.number).Nodup
  orders : s.orders.length ≤ orderCapacity
  orderNumbers : (s.orders.map Order.number).Nodup
  ring : s.knot.ring.length ≤ ringCapacity
  bands : ∀ o ∈ s.orders, o.low < o.target

/-- What every step keeps. -/
structure Inv (s : State) : Prop where
  stops : StopsAgree s
  link : LinkOk s.link
  actions : ∀ l, ActionsOk (s.act l)
  lengths : ∀ l, LengthOk (s.len l)
  store : StoreOk s
  tables : TablesOk s

/-! ### Requests -/

/-- The part ready for a request: started, nothing waiting in the receive queue, room for a frame, and no RESTART
accepted (R182, R183, R192). -/
structure Ready (s : State) : Prop where
  started : s.link.start ≠ .starting
  waiting : firstWaiting s.link.frames = none
  room : s.link.frames.length < frameCapacity
  running : s.link.restarting = false

/-- The state with a request at the end of the receive queue, answered (R182, R183). -/
def State.replied (s : State) (c : Instr) (a : Answer) : State :=
  match requestBody c with
  | some (tag :: kind :: _) =>
    { s with
      link := { s.link with frames := s.link.frames ++ [⟨c, some (a.reply tag kind)⟩] } }
  | _ => s

/-- The state after a request: refused by the first check that fails, with nothing changed, and otherwise accepted,
with the effect and the reply fields given (R183). -/
def State.judged (s : State) (c : Instr) (checks : List Check) (effect : State)
    (fields : List Byte) : State :=
  match firstRefusal checks with
  | some a => s.replied c a
  | none => effect.replied c (.done fields)

/-- The state with a frame at the end of the receive queue, its request not yet handled. -/
def State.queued (s : State) (c : Instr) : State :=
  { s with link := { s.link with frames := s.link.frames ++ [⟨c, none⟩] } }

/-! ### What a command may touch

Each list names the rows of spec/opcode_table.json that may change the part of the state in question. -/

/-- The commands that may change bytes of the store: its operations, and a reset that cuts one off (R152, R153). -/
def mayWriteStore : Instr → Bool
  | .powerOnReset _ _ _ _ | .coilWriteAttempt _ | .logTakeOperation _ | .logVoidOperation _
  | .storeRecipeOperation _ | .eraseRecipeOperation _ | .storePlantOperation _ | .tallyStep _ => true
  | _ => false

/-- The commands that may change the inputs: events on their pins, their deadlines, and the resets (R1 to R10). -/
def mayMoveInputs : Instr → Bool
  | .powerOnReset _ _ _ _ | .restartReset _ _ | .pulsePinChange _ | .pulseFilterSettled _ _
  | .levelPinChange _ | .levelFilterSettled _ | .stallDeadline _ | .intervalEnd => true
  | _ => false

/-- The commands that may move the clock: deadlines (log 2) and the resets (R191). -/
def mayMoveClock : Instr → Bool
  | .powerOnReset _ _ _ _ | .restartReset _ _ | .pulseFilterSettled _ _ | .levelFilterSettled _
  | .stallDeadline _ | .intervalEnd | .motionTimerDeadline _ | .detectorTimerDeadline _
  | .scanSettleElapsed _ | .cutTimerDeadline _ | .gapTimeout => true
  | _ => false

/-- The commands that may change the plant record in force: its operation, the end of the start, and the resets
(R176). -/
def maySetPlant : Instr → Bool
  | .powerOnReset _ _ _ _ | .restartReset _ _ | .startSequenceEnd | .storePlantOperation _ => true
  | _ => false

/-! ### Commands one after another -/

/-- The state after some commands, where each of them answers a next state. -/
def afterAll : List Instr → State → Option State
  | [], s => some s
  | c :: rest, s =>
    match exec c s with
    | .next t => afterAll rest t
    | _ => none

end Sys2Proof.Machine
end

