-- ==== Sys2Proof/Certificates/Slice0/Obligations.lean ====
section
/-! DEFINITION. The statements for the provers. -/

section

open Sys2Proof Sys2Proof.Machine

/-! ### The queue of commands and the invariant -/

/-- A step runs the command at the front of the queue on the state with the rest of the queue. -/
def Obligations.StepRunsFrontCommand : Prop :=
  ∀ (c : Instr) (rest : List Instr) (s : State),
    step { s with pending := c :: rest } = exec c { s with pending := rest }

/-- With no command waiting a microsecond passes and nothing else changes (the model's choice, log 1). A deadline or an
end with no occasion, its timer stopped or its part not under way, changes nothing at all (log 3): the timers of a
position that has no job, is not in RUN or has stopped them, the cut timer of a line not in CUTTING, and the end of a
store operation where none is in flight or one of another kind is. -/
def Obligations.NothingHappensWithoutOccasion : Prop :=
  (∀ s : State, s.pending = [] → step s = .next { s with now := s.now + 1 }) ∧
  (∀ (i : PulseInput) (order : List RiseBlock) (s : State), (s.pulse i).hold = none →
    exec (.pulseFilterSettled i order) s = .next s) ∧
  (∀ (i : LevelInput) (s : State), (s.inputs.level i).hold = none →
    exec (.levelFilterSettled i) s = .next s) ∧
  (∀ (i : PulseInput) (s : State), (s.pulse i).stall = none →
    exec (.stallDeadline i) s = .next s) ∧
  (∀ (p : Fin 8) (s : State), s.job p = none →
    exec (.motionTimerDeadline p) s = .next s ∧ exec (.detectorTimerDeadline p) s = .next s) ∧
  (∀ (l : LineId) (s : State), (s.pack l).timer = none →
    exec (.cutTimerDeadline l) s = .next s) ∧
  (∀ (p : Fin 8) (s : State) (j : Job), s.job p = some j →
    (j.phase ≠ .run ∨ j.motion = none → exec (.motionTimerDeadline p) s = .next s) ∧
    (j.phase ≠ .run ∨ j.detector = none → exec (.detectorTimerDeadline p) s = .next s)) ∧
  (∀ (l : LineId) (s : State), (s.pack l).state ≠ .cutting →
    exec (.cutTimerDeadline l) s = .next s) ∧
  (∀ (faults : List StepFault) (s : State) (op : StoreOp), s.runningOp = some op →
    ((∀ l, op = .coilWrite l → (s.pack l).record = none) →
      exec (.coilWriteAttempt faults) s = .next s) ∧
    ((∀ n, op ≠ .logTake n) → exec (.logTakeOperation faults) s = .next s) ∧
    ((∀ n, op ≠ .logVoid n) → exec (.logVoidOperation faults) s = .next s) ∧
    ((∀ slot body, op ≠ .storeRecipe slot body) → exec (.storeRecipeOperation faults) s = .next s) ∧
    ((∀ slot, op ≠ .eraseRecipe slot) → exec (.eraseRecipeOperation faults) s = .next s) ∧
    ((∀ plant, op ≠ .storePlant plant) → exec (.storePlantOperation faults) s = .next s) ∧
    ((∀ m, op ≠ .tallyStep m) → exec (.tallyStep faults) s = .next s)) ∧
  (∀ (samples : Byte) (s : State), s.knot.scan = none →
    exec (.scanSettleElapsed samples) s = .next s) ∧
  (∀ s : State, s.link.gap = none → exec .gapTimeout s = .next s) ∧
  (∀ s : State, (∀ f, s.link.frames.head? = some f → f.reply = none) → exec .replySent s = .next s) ∧
  (∀ s : State, s.link.start ≠ .starting → exec .startSequenceEnd s = .next s) ∧
  (∀ (br1 br0 : Bool) (s : State), s.restartDue = false →
    exec (.restartReset br1 br0) s = .next s) ∧
  (∀ (faults : List StepFault) (s : State), s.runningOp = none →
    exec (.coilWriteAttempt faults) s = .next s ∧ exec (.logTakeOperation faults) s = .next s ∧
    exec (.logVoidOperation faults) s = .next s ∧ exec (.storeRecipeOperation faults) s = .next s ∧
    exec (.eraseRecipeOperation faults) s = .next s ∧
    exec (.storePlantOperation faults) s = .next s ∧ exec (.tallyStep faults) s = .next s)

/-- Every command completes in every state, and none touches the commands that wait. That no command stops is the
model's own (log 31, DEDUCED): a request out of its ranges is refused in a reply, an event without occasion is taken. -/
def Obligations.EveryCommandCompletes : Prop :=
  ∀ (c : Instr) (s : State), ∃ t : State, exec c s = .next t ∧ t.pending = s.pending

/-- What no command touches but its own kind: the store's bytes change only by the store operations and a power-on reset;
the inputs, by the events of the floor, their deadlines and the resets; the clock, by deadlines, interval ends and
resets alone (the model's choice, logs 1 and 2); the plant record in force, by its operation, the end of the start and the resets. -/
def Obligations.CommandsKeepTheirFrame : Prop :=
  ∀ (c : Instr) (s t : State), exec c s = .next t →
    (mayWriteStore c = false → t.flash = s.flash) ∧
    (mayMoveInputs c = false → t.inputs = s.inputs) ∧
    (mayMoveClock c = false → t.now = s.now) ∧
    (maySetPlant c = false → t.plant = s.plant)

/-- Every step keeps the invariant: stop outputs that follow their cause sets, CALL that follows the queued records,
lists and counts within their capacities, marker outputs that follow their on-counts, positions within their range,
the store in its canonical form within its pages, package and order numbers without a double. -/
def Obligations.StepKeepsInvariant : Prop :=
  ∀ s t : State, Inv s → step s = .next t → Inv t

/-- The invariant holds of the part after reset. -/
def Obligations.InvariantAtReset : Prop :=
  Inv State.reset

/-! ### Request bodies and frames -/

/-- The body of every well-formed request reads back as that request, with every operand. A STORE_RECIPE of a kind code
that names no kind reads back as one too (the model's reading, log 23, DEDUCED). -/
def Obligations.RequestBodiesReadBack : Prop :=
  ∀ (c : Instr) (body : List Byte),
    c.wf = true → requestBody c = some body → commandOfBody body = c

/-- A request sent as a frame over the line comes to the end of the receive queue: from HUNT, the bytes of the frame
that carries it leave the receiver in HUNT and the request waiting. -/
def Obligations.FrameBringsRequest : Prop :=
  ∀ (c : Instr) (body : List Byte) (s : State),
    c.wf = true → requestBody c = some body → s.link.receive = .hunt →
    s.link.frames.length < frameCapacity →
    afterAll ((frameBytes body).map fun b => .byteReceived b true) s
      = some { s with
          link := { s.link with
            receive := .hunt, gap := none, frames := s.link.frames ++ [⟨c, none⟩] } }

/-- What a byte with its stop bit high does in each receive state; the gap timer is started at every byte that leaves
the receiver outside HUNT (at the start byte too: log 18). -/
def Obligations.ReceiverTakesBytes : Prop :=
  ∀ (s : State) (b : Byte),
    let within := fun r : Receive =>
      { s with link := { s.link with receive := r, gap := some (s.now + 3000) } }
    let dropped :=
      { s with
        link := { s.link with
          receive := .hunt, gap := none, badFrames := min (s.link.badFrames + 1) 65535 } }
    (s.link.receive = .hunt → b ≠ 0x5A → exec (.byteReceived b true) s = .next s) ∧
    (s.link.receive = .hunt → b = 0x5A → exec (.byteReceived b true) s = .next (within .length)) ∧
    (s.link.receive = .length → 3 ≤ b.toNat → b.toNat ≤ 250 →
      exec (.byteReceived b true) s = .next (within (.body b.toNat b.toNat []))) ∧
    (s.link.receive = .length → ¬(3 ≤ b.toNat ∧ b.toNat ≤ 250) →
      exec (.byteReceived b true) s = .next dropped) ∧
    (∀ len due kept, s.link.receive = .body len due kept → 1 < due →
      exec (.byteReceived b true) s = .next (within (.body len (due - 1) (kept ++ [b])))) ∧
    (∀ len due kept, s.link.receive = .body len due kept → due ≤ 1 →
      exec (.byteReceived b true) s = .next (within (.check len (kept ++ [b]) none))) ∧
    (∀ len body, s.link.receive = .check len body none →
      exec (.byteReceived b true) s = .next (within (.check len body (some b)))) ∧
    (∀ len body first, s.link.receive = .check len body (some first) →
      crc16 (be 1 len ++ body) ≠ unbe [first, b] →
      exec (.byteReceived b true) s = .next dropped) ∧
    (∀ len body first, s.link.receive = .check len body (some first) →
      crc16 (be 1 len ++ body) = unbe [first, b] → s.link.frames.length < frameCapacity →
      exec (.byteReceived b true) s
        = .next { s with
            link := { s.link with
              receive := .hunt, gap := none
              frames := s.link.frames ++ [⟨commandOfBody body, none⟩] } }) ∧
    (∀ len body first, s.link.receive = .check len body (some first) →
      crc16 (be 1 len ++ body) = unbe [first, b] → frameCapacity ≤ s.link.frames.length →
      exec (.byteReceived b true) s
        = .next { s with
            link := { s.link with
              receive := .hunt, gap := none, overruns := min (s.link.overruns + 1) 65535 } })

/-- A byte with its stop bit low drops the partial frame, and so does the gap timer at its deadline, which the clock then
stands at (the model's choice, log 2); in HUNT the byte finds nothing to drop. A reply sent whole takes its frame out of the receive queue, from its head. Nothing else changes. -/
def Obligations.FramesAreDroppedOrAnswered : Prop :=
  (∀ (s : State) (b : Byte), s.link.receive = .hunt → exec (.byteReceived b false) s = .next s) ∧
  (∀ (s : State) (b : Byte), s.link.receive ≠ .hunt →
    exec (.byteReceived b false) s
      = .next { s with
          link := { s.link with
            receive := .hunt, gap := none, badFrames := min (s.link.badFrames + 1) 65535 } }) ∧
  (∀ (s : State) (d : Nat), s.link.gap = some d →
    exec .gapTimeout s
      = .next { s with
          now := max s.now d
          link := { s.link with
            receive := .hunt, gap := none, badFrames := min (s.link.badFrames + 1) 65535 } }) ∧
  (∀ (s : State) (c : Instr) (r : Reply) (rest : List Frame),
    s.link.frames = ⟨c, some r⟩ :: rest →
    exec .replySent s = .next { s with link := { s.link with frames := rest } })

/-! ### Requests in general -/

/-- A body that spells no request is answered UNKNOWN in every start state. While the part is STARTING, every request but
STATUS is answered STATE (STARTING), and STATUS is answered with the fields held. None changes anything else. -/
def Obligations.UnservedRequestsAreRefused : Prop :=
  (∀ (tag kind : Byte) (rest : List Byte) (s : State),
      readRequest tag kind rest = none → firstWaiting s.link.frames = none →
      s.link.frames.length < frameCapacity → s.link.restarting = false →
      exec (.unknownRequest tag kind rest) s
        = .next { s with
            link := { s.link with
              frames := s.link.frames
                ++ [⟨.unknownRequest tag kind rest, some ⟨tag, kind, 0x03, 0, []⟩⟩] } }) ∧
  (∀ (c : Instr) (tag kind : Byte) (rest : List Byte) (s : State),
      c.wf = true → requestBody c = some (tag :: kind :: rest) → kind ≠ 0x01 →
      (∀ t k r, c ≠ .unknownRequest t k r) →
      s.link.start = .starting → firstWaiting s.link.frames = none →
      s.link.frames.length < frameCapacity → s.link.restarting = false →
      exec c s
        = .next { s with
            link := { s.link with
              frames := s.link.frames ++ [⟨c, some ⟨tag, kind, 0x02, 0x02, []⟩⟩] } }) ∧
  (∀ (tag : Byte) (s : State), s.link.start = .starting → firstWaiting s.link.frames = none →
    s.link.frames.length < frameCapacity → s.link.restarting = false →
    exec (.status tag) s = .next (s.replied (.status tag) (.done (statusFields s))))

/-- A request that finds another one waiting, or a RESTART accepted (the model's reading, log 17, DEDUCED), waits behind
in the receive queue; one that finds
four frames there is dropped and counted as an overrun. Nothing else changes.
A request whose frame is in the queue already, every frame before it answered, is handled as one that comes to the part
with those frames before it alone: the same effect and the same reply, put into its frame in its place, and the frames
behind it stay as they are. Where a RESTART has been accepted nothing changes (log 17). -/
def Obligations.RequestsWaitOrAreDropped : Prop :=
  (∀ (c : Instr) (s : State),
    c.wf = true → c.isRequest = true → firstWaiting s.link.frames ≠ some c →
    (s.link.frames.length < frameCapacity →
      firstWaiting s.link.frames ≠ none ∨ s.link.restarting = true →
      exec c s = .next (s.queued c)) ∧
    (frameCapacity ≤ s.link.frames.length →
      exec c s
        = .next { s with link := { s.link with overruns := min (s.link.overruns + 1) 65535 } })) ∧
  (∀ (c : Instr) (before behind : List Frame) (s : State), c.wf = true → c.isRequest = true →
    s.link.frames = before ++ ⟨c, none⟩ :: behind → (∀ f ∈ before, f.reply ≠ none) →
    (s.link.restarting = true → exec c s = .next s) ∧
    (s.link.restarting = false → before.length < frameCapacity →
      ∃ (t : State) (r : Reply),
        exec c { s with link := { s.link with frames := before } } = .next t ∧
        t.link.frames = before ++ [⟨c, some r⟩] ∧
        exec c s
          = .next { t with link := { t.link with frames := before ++ ⟨c, some r⟩ :: behind } }))

/-- A request that the part is ready for is answered, its frame at the end of the receive queue; a refused one changes
nothing else. -/
def Obligations.RefusedRequestsChangeNothing : Prop :=
  ∀ (c : Instr) (s : State), c.wf = true → c.isRequest = true → Ready s →
    ∃ (a : Answer) (t : State),
      exec c s = .next (t.replied c a) ∧ t.link.frames = s.link.frames ∧
      ((∀ fields, a ≠ .done fields) → t = s)

/-- A request about a line that names no line (a machine number other than 8 and 9) is refused with FIELD (1). -/
def Obligations.LineRequestsNameALine : Prop :=
  ∀ (tag : Byte) (m x v n k : Nat) (s : State), Ready s → m ≠ 8 → m ≠ 9 →
    exec (.loadLineRecipe tag m x) s = .next (s.replied (.loadLineRecipe tag m x) (.field 1)) ∧
    exec (.setPosition tag m v) s = .next (s.replied (.setPosition tag m v) (.field 1)) ∧
    exec (.lineStatus tag m) s = .next (s.replied (.lineStatus tag m) (.field 1)) ∧
    exec (.setWatch tag m v) s = .next (s.replied (.setWatch tag m v) (.field 1)) ∧
    exec (.clearWatch tag m x) s = .next (s.replied (.clearWatch tag m x) (.field 1)) ∧
    exec (.readMarks tag m v k n) s = .next (s.replied (.readMarks tag m v k n) (.field 1)) ∧
    exec (.addMark tag m v x) s = .next (s.replied (.addMark tag m v x) (.field 1)) ∧
    exec (.endCoil tag m) s = .next (s.replied (.endCoil tag m) (.field 1)) ∧
    exec (.cutManual tag m) s = .next (s.replied (.cutManual tag m) (.field 1)) ∧
    exec (.packStatus tag m) s = .next (s.replied (.packStatus tag m) (.field 1))

/-- The requests that only read are answered with the fields of their rules and change nothing else. The layout of the
fields is the model's where chapter 11 gives none (log 22).
A mark takes 12 bytes: position, span, kind with bit 7 for a source, source, count, and progress and spray state in one
byte. A coil record takes 116: its state byte, then bytes 3 to 117 of its slot. -/
def Obligations.ReadsChangeNothing : Prop :=
  (∀ (tag : Byte) (s : State), Ready s →
    exec (.status tag) s = .next (s.replied (.status tag) (.done (statusFields s))) ∧
    exec (.creelStatus tag) s = .next (s.replied (.creelStatus tag) (.done (creelFields s))) ∧
    exec (.knotStatus tag) s = .next (s.replied (.knotStatus tag) (.done (knotFields s))) ∧
    exec (.readPlant tag) s
      = .next (s.judged (.readPlant tag) [(!s.plantWritten, .state .slotBeingWritten)] s
          (plantFields s)) ∧
    (∀ slot, exec (.readRecipe tag slot) s
      = .next (s.judged (.readRecipe tag slot)
          [inField 1 0 31 slot, (!s.slotWritten slot, .state .slotBeingWritten)] s
          (slotFields (judgeSlot s.flash slot) ++ yesNo (s.slotOrdered slot)
            ++ yesNo (s.slotLoaded slot)))) ∧
    (∀ m : Fin 10, exec (.readTally tag m.val) s
      = .next (s.replied (.readTally tag m.val) (.done (tallyFields m s)))) ∧
    (∀ m, 9 < m → exec (.readTally tag m) s = .next (s.replied (.readTally tag m) (.field 1))) ∧
    (∀ first count, exec (.logRead tag first count) s
      = .next (s.judged (.logRead tag first count) [inField 2 1 2 count] s
          (be 1 (((recordsInLog s.flash).filter fun p =>
              decide (first ≤ coilNumber s.flash p)).take count).length
            ++ be 2 (recordsInLog s.flash).length ++ be 2 (untakenCount s.flash)
            ++ be 4 (((recordsInLog s.flash).head?.map (coilNumber s.flash)).getD 0)
            ++ be 4 s.log.next ++ yesNo (nextIsFull s.flash s.log)
            ++ (((recordsInLog s.flash).filter fun p =>
              decide (first ≤ coilNumber s.flash p)).take count).flatMap
              (recordReply s.flash)))) ∧
    (∀ l : LineId, exec (.packStatus tag (machineOf l).val) s
      = .next (s.replied (.packStatus tag (machineOf l).val) (.done (packFields l s)))) ∧
    (∀ (l : LineId) (start skip count : Nat), exec (.readMarks tag (machineOf l).val start skip count) s
      = .next (s.judged (.readMarks tag (machineOf l).val start skip count)
          [inField 3 0 127 skip, inField 4 1 8 count] s
          (be 1 (s.act l).marks.length
            ++ be 1 ((((s.act l).marks.filter fun m => decide (start ≤ m.x)).drop skip).take
              count).length
            ++ ((((s.act l).marks.filter fun m => decide (start ≤ m.x)).drop skip).take
              count).flatMap Mark.bytes)))) ∧
  (∀ m : Mark,
    let kind := match m.kind with
      | .splice => 1
      | .strandFault => 2
      | .layLow => 3
      | .layHigh => 4
      | .knotMissing => 5
      | .meshLong => 6
      | .meshShort => 7
      | .unscanned => 8
      | .operator => 9
      | .mixed => 10
    let spray := match m.spray with
      | .none => 0
      | .pending => 1
      | .done => 2
      | .missed => 3
    m.bytes
        = be 4 m.x ++ be 3 m.span ++ be 1 (kind + if m.source.isSome then 128 else 0)
          ++ be 2 (m.source.getD 0) ++ be 1 m.count ++ be 1 (spray + if m.made then 16 else 0) ∧
      m.bytes.length = 12) ∧
  (∀ (m : Memory) (p : SlotPlace),
    let base := 512 * p.page + 128 * p.slot
    recordReply m p
        = Memory.read m base :: (List.range 115).map (fun i => Memory.read m (base + 3 + i)) ∧
      (recordReply m p).length = 116)

/-- POSITION_STATUS and LINE_STATUS are answered with the values held and change nothing but the latches of the
machine they name: stop seen is cleared, and steady is settled from the present state. The sizes of the fields, the
order of those of LINE_STATUS and that of the values of SP and DL in POSITION_STATUS are the model's (log 22). -/
def Obligations.StatusReadsSettleLatches : Prop :=
  ∀ (tag : Byte) (s : State), Ready s →
    (∀ p : Fin 8, exec (.positionStatus tag p.val) s
      = .next ((s.setLatches (positionMachine p)
          { steady := (s.stop (positionMachine p)).causes == 0
              && (s.job p).any fun j => j.phase == .run
            stopSeen := false }).replied
          (.positionStatus tag p.val) (.done (positionFields p s)))) ∧
    (∀ p, 7 < p →
      exec (.positionStatus tag p) s = .next (s.replied (.positionStatus tag p) (.field 1))) ∧
    (∀ l : LineId, exec (.lineStatus tag (machineOf l).val) s
      = .next ((s.setLatches (machineOf l)
          { steady := (s.stop (machineOf l)).causes == 0 && s.running l, stopSeen := false }).replied
          (.lineStatus tag (machineOf l).val) (.done (lineFields l s))))

/-! ### Reports and CALL -/

/-- R188: CALL stands as the queued records and the mask hold it after every command, if it did before; CALL_MASK sets
the mask, or is refused with FIELD (1); after either reset the mask is off, the queue is empty and CALL is released,
and STARTED asserts it. -/
def Obligations.CallFollowsRecords : Prop :=
  (∀ (c : Instr) (s t : State), Inv s → exec c s = .next t →
    (t.link.call = true ↔
      ∃ r ∈ t.link.reports, r.call = true ∧ (t.link.mask = false ∨ r.urgent = true))) ∧
  (∀ (tag : Byte) (v : Nat) (s : State), Ready s →
      exec (.callMask tag v) s
        = .next (s.judged (.callMask tag v) [inField 1 0 1 v]
            { s with
              link := { s.link with
                mask := v == 1
                call := s.link.reports.any fun r => r.call && (!(v == 1) || r.urgent) } }
            [])) ∧
  (∀ (br1 br0 : Bool) (steps : Nat) (faults : List StepFault) (s : State),
    ∃ t u : State, exec (.powerOnReset br1 br0 steps faults) s = .next t ∧ exec .startSequenceEnd t = .next u ∧
      t.link.mask = false ∧ t.link.reports = [] ∧ t.link.call = false ∧ u.link.call = true) ∧
  (∀ (br1 br0 : Bool) (s : State), s.restartDue = true →
    ∃ t u : State, exec (.restartReset br1 br0) s = .next t ∧ exec .startSequenceEnd t = .next u ∧
      t.link.mask = false ∧ t.link.reports = [] ∧ t.link.call = false ∧ u.link.call = true)

/-- Entry of a report after STARTED: discarded where its kind is not queued; at the end of the queue, with the marks
and the time of the moment, where it has room; otherwise dropped and counted.
A report entered while the part is STARTING is held, to be entered after STARTED. So are those of the store operation in
flight when a RESTART has been accepted: STORE_DONE and STORE_FAILED, and what the outcome of a coil write enters, LOG_FULL
and the STOP_CHANGE of each change of a set. A report of any other kind entered then goes to the queue as before (log 17). -/
def Obligations.ReportsAreEntered : Prop :=
  (∀ (kind : ReportKind) (machine : Option Nat) (body : List Byte) (s : State),
    s.link.start ≠ .starting →
    (s.link.restarting = false ∨ (kind ≠ .storeDone ∧ kind ≠ .storeFailed)) →
    let setting := s.link.settings[kind.index]
    let entered : Report :=
      { kind := kind, machine := machine, time := s.now / 1000 % 4294967296, body := body
        call := setting.call, urgent := setting.urgent }
    (setting.queued = false → enterReport kind machine body s = s) ∧
    (setting.queued = true → s.link.reports.length < 64 →
      enterReport kind machine body s
        = { s with
            link := { s.link with
              reports := s.link.reports ++ [entered]
              call := (s.link.reports ++ [entered]).any fun r =>
                r.call && (!s.link.mask || r.urgent) } }) ∧
    (setting.queued = true → 64 ≤ s.link.reports.length →
      enterReport kind machine body s
        = { s with
            link := { s.link with
              lost := min (s.link.lost + 1) 65535
              call := s.link.reports.any fun r => r.call && (!s.link.mask || r.urgent) } })) ∧
  (∀ (kind : ReportKind) (machine : Option Nat) (body : List Byte) (s : State),
    (s.link.start = .starting ∨
      (s.link.restarting = true ∧ (kind = .storeDone ∨ kind = .storeFailed))) →
    enterReport kind machine body s
      = { s with link := { s.link with held := s.link.held ++ [⟨kind, machine, body⟩] } }) ∧
  (∀ (l : LineId) (d : LogDetail) (s : State), s.link.restarting = true →
    let m := machineOf l
    let before := (s.stop m).causes
    let after := before ||| 1024#16
    let t := recordHeld l d s
    t.link.reports = s.link.reports ∧ t.link.lost = s.link.lost ∧ t.link.start = s.link.start ∧
    t.link.held = s.link.held
      ++ (if after = before then []
        else [⟨.stopChange, some m.val, be 2 after.toNat ++ be 2 (after &&& ~~~before).toNat
          ++ be 2 (before &&& ~~~after).toNat ++ be 1 1⟩])
      ++ [⟨.logFull, some m.val, be 1 (match d with | .full => 1 | .fault => 2)⟩]) ∧
  (∀ (l : LineId) (s : State), s.link.restarting = true →
    let t := recordWritten l s
    t.link.reports = s.link.reports ∧ t.link.lost = s.link.lost ∧ t.link.start = s.link.start ∧
    ∃ changes : List HeldReport, t.link.held = s.link.held ++ changes ∧
      (∀ x ∈ changes, x.kind = .stopChange) ∧
      (s.hasCause (machineOf l) .logFull = true → changes ≠ []))

/-- R186: REPORTS takes the oldest records, carries them, and judges CALL; while the part is STARTING it is refused.
A record is carried as its kind code, its machine or 0xFF, its time, the length of its body and its body. -/
def Obligations.ReportsAreTaken : Prop :=
  (∀ (tag : Byte) (n : Nat) (s : State), Ready s →
    exec (.reports tag n) s
      = .next (s.judged (.reports tag n) [inField 1 1 8 n]
          { s with
            link := { s.link with
              reports := s.link.reports.drop n
              call := (s.link.reports.drop n).any fun r => r.call && (!s.link.mask || r.urgent) } }
          (be 1 (min n s.link.reports.length) ++ be 1 (s.link.reports.length - n)
            ++ (s.link.reports.take n).flatMap Report.bytes))) ∧
  (∀ (tag : Byte) (n : Nat) (s : State), s.link.start = .starting →
    firstWaiting s.link.frames = none → s.link.frames.length < frameCapacity →
    s.link.restarting = false →
    exec (.reports tag n) s = .next (s.replied (.reports tag n) (.state .starting))) ∧
  (∀ r : Report,
    let code := match r.kind with
      | .started => 0x01
      | .positionFault => 0x02
      | .packageTarget => 0x03
      | .packageDoffed => 0x04
      | .twistSpan => 0x05
      | .runoutNear => 0x06
      | .runout => 0x07
      | .laySpan => 0x08
      | .stopChange => 0x09
      | .watchHit => 0x0A
      | .rowFault => 0x0B
      | .hookFault => 0x0C
      | .panelEnd => 0x0D
      | .meshSpan => 0x0E
      | .orderBlocked => 0x0F
      | .coilCut => 0x10
      | .orderDone => 0x11
      | .cutFail => 0x12
      | .logFull => 0x13
      | .storeDone => 0x14
      | .storeFailed => 0x15
      | .serviceDue => 0x16
      | .tallyFull => 0x17
      | .marksHigh => 0x18
    r.bytes
      = be 1 code ++ be 1 (r.machine.getD 0xFF) ++ be 4 r.time ++ be 1 r.body.length ++ r.body)

/-- R187: SET_REPORTS replaces the three settings of a kind, touches no queued record and leaves CALL as it was; records
entered after it take the new marks, and a kind switched off enters nothing and counts nothing; the settings after
either reset. -/
def Obligations.ReportSettingsAreReplaced : Prop :=
  (∀ (tag : Byte) (kind queued call urgent : Nat) (s : State), Ready s → Inv s →
    exec (.setReports tag kind queued call urgent) s
      = .next (s.judged (.setReports tag kind queued call urgent)
          [inField 1 1 24 kind, inField 2 0 1 queued, inField 3 0 1 call, inField 4 0 1 urgent]
          { s with
            link := { s.link with
              settings := s.link.settings.set (Fin.ofNat 24 (kind - 1))
                { queued := queued == 1, call := call == 1, urgent := urgent == 1 } } }
          [])) ∧
  (∀ (kind : ReportKind) (machine : Option Nat) (body : List Byte) (s : State),
    s.link.start ≠ .starting → s.link.restarting = false →
    ((s.link.settings[kind.index]).queued = false → Inv s → enterReport kind machine body s = s) ∧
    ((s.link.settings[kind.index]).queued = true → s.link.reports.length < 64 →
      ∃ r, (enterReport kind machine body s).link.reports = s.link.reports ++ [r] ∧
        r.call = (s.link.settings[kind.index]).call ∧
        r.urgent = (s.link.settings[kind.index]).urgent)) ∧
  (∀ (br1 br0 : Bool) (steps : Nat) (faults : List StepFault) (s : State),
    ∃ t : State, exec (.powerOnReset br1 br0 steps faults) s = .next t ∧
      ∀ kind : ReportKind, t.link.settings[kind.index]
        = { queued := true, call := true
            urgent := decide (kind = .positionFault ∨ kind = .runout ∨ kind = .cutFail ∨
              kind = .logFull ∨ kind = .hookFault ∨ kind = .stopChange) }) ∧
  (∀ (br1 br0 : Bool) (s : State), s.restartDue = true →
    ∃ t : State, exec (.restartReset br1 br0) s = .next t ∧
      ∀ kind : ReportKind, t.link.settings[kind.index]
        = { queued := true, call := true
            urgent := decide (kind = .positionFault ∨ kind = .runout ∨ kind = .cutFail ∨
              kind = .logFull ∨ kind = .hookFault ∨ kind = .stopChange) })

/-! ### Resets and the start -/

/-- What a reset leaves: positions, packages, creel, lines, stops, scanner, orders, store queue, tallies and Link Port
at the values of the table "The part after a reset"; the inputs from the pins, each filtered level the pin's, with no hold
and no pulse counted, STILL, and a new interval begun; the straps as read; the commands that wait as they were; the clock
at 0. A power-on reset with no store operation in flight, and a RESTART, keep the store. The side and the
ends of an out-run of count 0, and the log state and the stored steps before the start-up scan, are the model's (logs 9
and 10).
A power-on reset that cuts off a store operation changes no byte outside the page under operation (of a coil write, that
of the write point or the next one). A STORE_RECIPE cut off leaves its slot EMPTY or CORRUPT, and EMPTY where the reset
comes before the step of the written flag; a STORE_PLANT cut off leaves no valid record. An erase or a header of a log
page cut off leaves that page no valid header. How far the operation has come is the operand `steps` (log 6), and what a
step cut off leaves is that of logs 36 and 45.
RESTART is answered DONE and its reset is to come; the reset does not take place while its reply waits or is being sent,
nor while a store operation is in flight. -/
def Obligations.ResetsLeaveResetValues : Prop :=
  (∀ (br1 br0 : Bool) (steps : Nat) (faults : List StepFault) (s : State),
    ∃ t : State, exec (.powerOnReset br1 br0 steps faults) s = .next t ∧
      t = { State.reset with
            pending := s.pending
            inputs := s.inputs.atReset
            flash := t.flash
            link := Link.atReset br1 br0 .powerOn [] } ∧
      (s.runningOp = none → t.flash = s.flash)) ∧
  (∀ (br1 br0 : Bool) (s : State), s.restartDue = true →
    exec (.restartReset br1 br0) s
      = .next { State.reset with
          pending := s.pending
          inputs := s.inputs.atReset
          flash := s.flash
          link := Link.atReset br1 br0 .restart s.link.held }) ∧
  (∀ (br1 br0 : Bool) (steps : Nat) (faults : List StepFault) (op : StoreOp) (s : State),
    Inv s → s.runningOp = some op →
    let mayChange := fun page : Nat =>
      match op with
      | .coilWrite _ => page = s.log.page ∨ page = nextPage s.log.page
      | .logTake _ => 43 ≤ page ∧ page ≤ 138
      | .logVoid _ => 43 ≤ page ∧ page ≤ 138
      | .storeRecipe slot _ => page = slot
      | .eraseRecipe slot => page = slot
      | .storePlant _ => page = 32
      | .tallyStep m => page = 33 + m.val
    ∃ t : State, exec (.powerOnReset br1 br0 steps faults) s = .next t ∧
      (∀ a, (∀ page, mayChange page → a < 512 * page ∨ 512 * (page + 1) ≤ a) →
        Memory.read t.flash a = Memory.read s.flash a)) ∧
  (∀ (br1 br0 : Bool) (steps : Nat) (faults : List StepFault) (slot : Nat) (body : RecipeBody) (s : State),
    s.runningOp = some (.storeRecipe slot body) → body.firstBad = none → body.fits = true →
    s.flash.wf = true →
    ∃ t : State, exec (.powerOnReset br1 br0 steps faults) s = .next t ∧
      (∀ b c, judgeSlot t.flash slot ≠ .valid b c) ∧ (steps ≤ 2 → judgeSlot t.flash slot = .empty)) ∧
  (∀ (br1 br0 : Bool) (steps : Nat) (faults : List StepFault) (plant : PlantRecord) (s : State),
    s.runningOp = some (.storePlant plant) → firstBad 1 plant.fields = none →
    fieldsFit plant.fields = true → s.flash.wf = true →
    ∃ t : State, exec (.powerOnReset br1 br0 steps faults) s = .next t ∧ storedPlant t.flash = none) ∧
  (∀ (br1 br0 : Bool) (steps : Nat) (faults : List StepFault) (l : LineId) (r : PendingRecord) (s : State),
    s.runningOp = some (.coilWrite l) → (s.pack l).record = some r →
    s.log.closed = false → s.log.toBegin = true → nextIsFull s.flash s.log = false →
    let page := s.log.page
    let sequence := (s.log.newest.map (sequenceOf s.flash)).elim 1 (· + 1)
    let header := headerBytes sequence s.log.next
    let erased := Memory.erase (faults.headD []) page s.flash
    let headed := Memory.program (faults.tail.headD []) page 118 header erased
    sequence ≤ 4294967295 →
    (steps = 1 ∨ (steps = 2 ∧ (erased.pageErased page = false ∨ headed.bytes page 118 10 ≠ header))) →
    ∃ t : State, exec (.powerOnReset br1 br0 steps faults) s = .next t ∧
      headerValid t.flash page = false) ∧
  (∀ i : Inputs,
    (∀ k, i.atReset.pulse k
      = { pin := (i.pulse k).pin, level := (i.pulse k).pin, hold := none, total := 0
          running := false, firstPulse := false, stall := none, current := 0, last := 0 }) ∧
    (∀ k, i.atReset.level k = { pin := (i.level k).pin, level := (i.level k).pin, hold := none }) ∧
    i.atReset.interval = 250000) ∧
  State.reset.now = 0 ∧
  State.reset.jobs = Vector.replicate 8 none ∧
  State.reset.table.packages = [] ∧
  (∀ i, State.reset.place i = { current := none, reserve := none, runout := false }) ∧
  State.reset.ropeCopy = none ∧ State.reset.netCopy = none ∧
  (∀ l, (State.reset.len l).constants = none ∧ (State.reset.len l).p = 0 ∧
    (State.reset.len l).highMark = 0 ∧ (State.reset.len l).saturated = false ∧
    (State.reset.len l).speed = 0) ∧
  (∀ l, (State.reset.act l).marks = [] ∧ (State.reset.act l).actions = [] ∧
    (State.reset.act l).onCount = 0 ∧ (State.reset.act l).marker = false ∧
    ∀ i : Fin 4, (State.reset.act l).watches[i] = none) ∧
  (∀ l, (State.reset.pack l).state = .noCoil ∧ (State.reset.pack l).record = none ∧
    (State.reset.pack l).cutter = false) ∧
  (∀ m, State.reset.stop m = { causes := 0, asserted := false }) ∧
  State.reset.knot.scan = none ∧ State.reset.knot.row = 0 ∧ State.reset.knot.step = 0 ∧
  State.reset.knot.counters = Vector.replicate 64 0 ∧ State.reset.knot.ring = [] ∧
  State.reset.knot.grid = none ∧ State.reset.knot.driven = none ∧ State.reset.knot.rowsDone = 0 ∧
  State.reset.knot.panels = 0 ∧ State.reset.knot.faultHook = none ∧
  State.reset.knot.extrasLast = false ∧ State.reset.knot.last = none ∧
  State.reset.knot.outRun.count = 0 ∧ State.reset.knot.span = none ∧
  State.reset.lay.head = 0 ∧ State.reset.lay.filter = none ∧ State.reset.lay.last = none ∧
  State.reset.lay.outRun.count = 0 ∧ State.reset.lay.span = none ∧
  State.reset.orders = [] ∧ State.reset.queue = [] ∧ State.reset.plant = none ∧
  (∀ m, (State.reset.tally m).fine = 0 ∧ (State.reset.tally m).queued = false) ∧
  (∀ (br1 br0 : Bool) (k : ResetKind) (held : List HeldReport),
    (Link.atReset br1 br0 k held).receive = .hunt ∧ (Link.atReset br1 br0 k held).frames = [] ∧
    (Link.atReset br1 br0 k held).reports = [] ∧ (Link.atReset br1 br0 k held).call = false ∧
    (Link.atReset br1 br0 k held).mask = false ∧ (Link.atReset br1 br0 k held).badFrames = 0 ∧
    (Link.atReset br1 br0 k held).overruns = 0 ∧ (Link.atReset br1 br0 k held).lost = 0 ∧
    (Link.atReset br1 br0 k held).start = .starting ∧
    (Link.atReset br1 br0 k held).br1 = br1 ∧ (Link.atReset br1 br0 k held).br0 = br0 ∧
    (Link.atReset br1 br0 k held).resetKind = k ∧ (Link.atReset br1 br0 k held).held = held ∧
    (Link.atReset br1 br0 k held).gap = none ∧ (Link.atReset br1 br0 k held).restarting = false ∧
    ∀ m : Fin 10, (Link.atReset br1 br0 k held).latches[m] = { steady := false, stopSeen := false }) ∧
  (∀ (tag : Byte) (s : State), Ready s →
    exec (.restart tag) s
      = .next (({ s with link := { s.link with restarting := true } } : State).replied
          (.restart tag) (.done []))) ∧
  (∀ s : State, s.restartDue = true ↔
    s.link.restarting = true ∧ (∀ f ∈ s.link.frames, f.reply = none) ∧ s.runningOp = none)

/-- R79: both resets empty mark lists, action queues and watches, release the markers and leave MARKS_FULL clear;
SET_POSITION does so with its own line, and lets the other line's stand. -/
def Obligations.ResetsEmptyLineActions : Prop :=
  let empty := fun a : LineActions =>
    a.marks = [] ∧ a.actions = [] ∧ (∀ i : Fin 4, a.watches[i] = none) ∧ a.onCount = 0 ∧ a.marker = false
  (∀ (br1 br0 : Bool) (steps : Nat) (faults : List StepFault) (s : State),
    ∃ t : State, exec (.powerOnReset br1 br0 steps faults) s = .next t ∧
      ∀ l, empty (t.act l) ∧ t.hasCause (machineOf l) .marksFull = false) ∧
  (∀ (br1 br0 : Bool) (s : State), s.restartDue = true →
    ∃ t : State, exec (.restartReset br1 br0) s = .next t ∧
      ∀ l, empty (t.act l) ∧ t.hasCause (machineOf l) .marksFull = false) ∧
  (∀ (tag : Byte) (l other : LineId) (v : Nat) (s : State), Ready s → other ≠ l → v ≤ 4294967295 →
    s.plant.isSome = true → s.running l = false → (l = .net ∨ s.anyFeeding = false) →
    (s.pack l).state.underWay = false → (s.pack l).record = none →
    ∃ t : State, exec (.setPosition tag (machineOf l).val v) s
        = .next (t.replied (.setPosition tag (machineOf l).val v) (.done [])) ∧
      empty (t.act l) ∧ t.act other = s.act other)

/-- The start sequence ends: the stored plant record is in force where it is valid, the part is READY or UNCONFIGURED,
the log is scanned, every tally's stored steps are counted, and STARTED is the first record, before those held.
The scan: the oldest and newest pages are pages of valid headers of the lowest and the highest sequence number (of equal
ones: log 26). The write point is the slot after the last slot of the newest page that is not FREE; where that is its
last, slot 0 of the next page in ring order, to be begun; where every slot of it is FREE, its slot 0 (log 47). The next
coil number is the larger of one above the highest coil number in the log and the newest page's first coil number; the
number 4,294,967,295 in the log closes it, and stays the next. With no valid header the write point is slot 0 of page 43, to
be begun, and the next coil number 1. -/
def Obligations.StartSequenceEnds : Prop :=
  (∀ s : State, s.link.start = .starting → s.link.reports = [] →
    (∀ k : Fin 24, (s.link.settings[k]).queued = true) → s.link.held.length ≤ 63 →
    ∃ t : State, exec .startSequenceEnd s = .next t ∧
      t.plant = storedPlant s.flash ∧
      t.link.start = (if (storedPlant s.flash).isSome then .ready else .unconfigured) ∧
      t.log = scanLog s.flash ∧
      (∀ m : Fin 10, t.tally m
        = { s.tally m with stored := countSteps (tallyPage m) s.flash }) ∧
      t.link.held = [] ∧
      t.link.reports.map (fun r => (r.kind, r.machine, r.body))
        = (.started, none,
            be 1 s.link.resetKind.code ++ be 1 (if (storedPlant s.flash).isSome then 2 else 1)
              ++ be 2 (recordsInLog s.flash).length ++ be 2 (untakenCount s.flash)
              ++ be 4 (scanLog s.flash).next)
          :: s.link.held.map (fun h => (h.kind, h.machine, h.body)) ∧
      t.flash = s.flash ∧ t.inputs = s.inputs ∧ t.jobs = s.jobs ∧ t.table = s.table ∧
      t.rope = s.rope ∧ t.net = s.net ∧ t.stops = s.stops ∧ t.orders = s.orders ∧
      t.queue = s.queue ∧ t.knot = s.knot) ∧
  (∀ m : Memory,
    let headered := fun p => 43 ≤ p ∧ p ≤ 138 ∧ headerValid m p = true
    let x := scanLog m
    ((∀ p, ¬ headered p) →
      x = { oldest := none, newest := none, page := 43, slot := 0, toBegin := true, next := 1
            closed := false }) ∧
    (∀ p, headered p → ∃ old new,
      x.oldest = some old ∧ headered old ∧ sequenceOf m old ≤ sequenceOf m p ∧
      x.newest = some new ∧ headered new ∧ sequenceOf m p ≤ sequenceOf m new) ∧
    (∀ new, x.newest = some new →
      (∀ k, k ≤ 2 → isFree m ⟨new, k⟩ = false →
        (∀ j, k < j → j ≤ 3 → isFree m ⟨new, j⟩ = true) →
        x.page = new ∧ x.slot = k + 1 ∧ x.toBegin = false) ∧
      (isFree m ⟨new, 3⟩ = false →
        x.page = (if new = 138 then 43 else new + 1) ∧ x.slot = 0 ∧ x.toBegin = true) ∧
      ((∀ j, j ≤ 3 → isFree m ⟨new, j⟩ = true) →
        x.page = new ∧ x.slot = 0 ∧ x.toBegin = false) ∧
      (recordsInLog m = [] → x.next = firstCoilOf m new ∧ x.closed = false) ∧
      (∀ n, (∃ p ∈ recordsInLog m, coilNumber m p = n) →
        (∀ p ∈ recordsInLog m, coilNumber m p ≤ n) →
        x.next = min (max (n + 1) (firstCoilOf m new)) 4294967295 ∧
        x.closed = decide (n = 4294967295)))) ∧
  (∀ (m : Memory) (p : SlotPlace),
    let byteAt := fun i => Memory.read m (512 * p.page + 128 * p.slot + i)
    let number := fun i n => unbe ((List.range n).map fun k => byteAt (i + k))
    (p ∈ recordsInLog m ↔
      43 ≤ p.page ∧ p.page ≤ 138 ∧ headerValid m p.page = true ∧ p.slot ≤ 3 ∧ isRecord m p = true) ∧
    (isFree m p = true ↔ ∀ i, i < 118 → byteAt i = 0xFF) ∧
    (isRecord m p = true ↔
      (byteAt 0 = 0x7F ∨ byteAt 0 = 0x3F ∨ byteAt 0 = 0x5F ∨ byteAt 0 = 0x1F) ∧
        crc16 ((List.range 115).map fun k => byteAt (3 + k)) = number 1 2) ∧
    coilNumber m p = number 3 4) ∧
  (∀ (m : Memory) (page : Nat),
    let number := fun i n => unbe ((List.range n).map fun k => Memory.read m (512 * page + i + k))
    sequenceOf m page = number 118 4 ∧ firstCoilOf m page = number 122 4 ∧
    (headerValid m page = true ↔
      crc16 ((List.range 8).map fun k => Memory.read m (512 * page + 118 + k)) = number 126 2))

/-! ### Count Inputs -/

/-- A pin that changes takes the other level; the hold of a level other than the filtered one begins, and a return to
it discards the measurement. Nothing else changes. -/
def Obligations.PinChangesAreMeasured : Prop :=
  (∀ (i : PulseInput) (s : State),
    exec (.pulsePinChange i) s
      = .next (s.setPulse i
          { s.pulse i with
            pin := !(s.pulse i).pin
            hold := if (!(s.pulse i).pin) = (s.pulse i).level then none else some s.now })) ∧
  (∀ (i : LevelInput) (s : State),
    exec (.levelPinChange i) s
      = .next (s.setLevel i
          { s.inputs.level i with
            pin := !(s.inputs.level i).pin
            hold := if (!(s.inputs.level i).pin) = (s.inputs.level i).level then none
              else some s.now }))

/-- A filtered level that rises is a counted pulse: the pulse total moves by one, down only on MW under REV high; the
interval count rises; the block of the input takes the pulse, then the running state takes the step of R5 and the stall
timer restarts, and a change of the running state is handed to the drives of the position or to the line. Whatever the
pulse makes the blocks do, every other input stays as it is. The clock stands at the end of the hold (log 2).
A filtered level that falls does nothing further. The filter width and the stall time of an input are those of its class in
the plant record in force, and 255 us and 1 s where none is. -/
def Obligations.FilteredLevelsAreCounted : Prop :=
  (∀ (i : PulseInput) (order : List RiseBlock) (s : State) (began : Nat),
      (s.pulse i).hold = some began → (s.pulse i).pin = true →
      ∃ t : State, exec (.pulseFilterSettled i order) s = .next t ∧
        t.now = max s.now (began + s.filterWidth i) ∧
        t.pulse i
          = { s.pulse i with
              level := true
              hold := none
              total := if i = .mw ∧ (s.inputs.level .rev).level = true then (s.pulse i).total - 1
                else (s.pulse i).total + 1
              current := min ((s.pulse i).current + 1) 65535
              running := (s.pulse i).running || (s.pulse i).firstPulse
              firstPulse := !(s.pulse i).running && !(s.pulse i).firstPulse
              stall := some (t.now + s.stallTime i) } ∧
        (∀ k, k ≠ i → t.pulse k = s.pulse k) ∧
        (∀ k, t.inputs.level k = s.inputs.level k)) ∧
  (∀ (i : PulseInput) (order : List RiseBlock) (s : State) (began : Nat),
    (s.pulse i).hold = some began → (s.pulse i).pin = false →
    exec (.pulseFilterSettled i order) s
      = .next (({ s with now := max s.now (began + s.filterWidth i) } : State).setPulse i
          { s.pulse i with level := false, hold := none })) ∧
  (∀ (i : PulseInput) (order : List RiseBlock) (s : State) (began : Nat),
    (s.pulse i).hold = some began → (s.pulse i).pin = true →
    let backward : Prop := i = .mw ∧ (s.inputs.level .rev).level = true
    let counted := ({ s with now := max s.now (began + s.filterWidth i) } : State).setPulse i
      { s.pulse i with
        level := true
        hold := none
        total := if backward then (s.pulse i).total - 1 else (s.pulse i).total + 1
        current := min ((s.pulse i).current + 1) 65535 }
    exec (.pulseFilterSettled i order) s
      = .next (pulseMoves i
          (match i with
          | .sp p => spindlePulse p counted
          | .dl p => deliveryPulse p counted
          | .lh => layPulse counted
          | .mw => linePulse .rope (!(s.inputs.level .rev).level) order counted
          | .nw => linePulse .net true order counted
          | .ks => rowEvent counted))) ∧
  (∀ (i : PulseInput) (s : State),
    let x := s.pulse i
    let moved := s.setPulse i
      { x with
        running := x.running || x.firstPulse
        firstPulse := !x.running && !x.firstPulse
        stall := some (s.now + s.stallTime i) }
    ((x.running || x.firstPulse) = x.running → pulseMoves i s = moved) ∧
    ((x.running || x.firstPulse) ≠ x.running → pulseMoves i s = handRunning i moved)) ∧
  (∀ (i : PulseInput) (s : State),
    handRunning i s
      = match i with
        | .sp p => drivesChanged p s
        | .dl p => drivesChanged p s
        | .mw => if s.running .rope = true then s else clearSteady 8 (lineStands .rope s)
        | .nw => if s.running .net = true then s else clearSteady 9 (lineStands .net s)
        | .lh => s
        | .ks => s) ∧
  (∀ (i : PulseInput) (s : State),
    let signal : Fin 5 :=
      match i with
      | .sp _ => 0
      | .dl _ => 1
      | .lh => 2
      | .mw => 3
      | .nw => 3
      | .ks => 4
    (∀ r, s.plant = some r →
      s.filterWidth i = r.filterWidth[signal] ∧ s.stallTime i = r.stallTime[signal] * 10000) ∧
    (s.plant = none → s.filterWidth i = 255 ∧ s.stallTime i = 1000000))

/-- A level input that has held takes its filtered level, and no other input moves; REV does nothing further, an SD is
handed to its position, and a cutter-done input that has gone high to its line.
A stall deadline stops the timer and leaves the input STILL with no first-pulse mark; no other input moves; the change of
a RUNNING input is handed on. The clock stands at the end of the hold and at the deadline (log 2). -/
def Obligations.LevelsSettleAndInputsStall : Prop :=
  (∀ (i : LevelInput) (s : State) (began : Nat),
      (s.inputs.level i).hold = some began →
      ∃ t : State, exec (.levelFilterSettled i) s = .next t ∧
        t.now = max s.now (began + 100) ∧
        t.inputs.level i
          = { s.inputs.level i with level := (s.inputs.level i).pin, hold := none } ∧
        (∀ k, k ≠ i → t.inputs.level k = s.inputs.level k) ∧
        (∀ k, t.pulse k = s.pulse k) ∧
        (i = .rev → t = ({ s with now := t.now } : State).setLevel .rev
          { s.inputs.level .rev with level := (s.inputs.level .rev).pin, hold := none })) ∧
  (∀ (i : PulseInput) (s : State) (d : Nat), (s.pulse i).stall = some d →
    ∃ t : State, exec (.stallDeadline i) s = .next t ∧
      t.now = max s.now d ∧
      t.pulse i = { s.pulse i with running := false, firstPulse := false, stall := none } ∧
      (∀ k, k ≠ i → t.pulse k = s.pulse k) ∧
      (∀ k, t.inputs.level k = s.inputs.level k) ∧
      ((s.pulse i).running = false → t = ({ s with now := t.now } : State).setPulse i
        { s.pulse i with running := false, firstPulse := false, stall := none })) ∧
  (∀ (i : LevelInput) (s : State) (began : Nat), (s.inputs.level i).hold = some began →
    let settled := ({ s with now := max s.now (began + 100) } : State).setLevel i
      { s.inputs.level i with level := (s.inputs.level i).pin, hold := none }
    exec (.levelFilterSettled i) s
      = .next (match i with
        | .sd p => detectorChanged p settled
        | .rev => settled
        | .cdr => if (s.inputs.level i).pin then cutterDone .rope settled else settled
        | .cdn => if (s.inputs.level i).pin then cutterDone .net settled else settled)) ∧
  (∀ (i : PulseInput) (s : State) (d : Nat), (s.pulse i).stall = some d →
    (s.pulse i).running = true →
    exec (.stallDeadline i) s
      = .next (handRunning i (({ s with now := max s.now d } : State).setPulse i
          { s.pulse i with running := false, firstPulse := false, stall := none })))

/-- At the end of an interval the current counts become the last ones and start again at 0, and each line takes its
speed from the last count of its wheel: floor(4 c K / (N x 10^9)) held at 65,535 where it is loaded, else 0. The clock
stands at the end of the interval (the model's choice, log 2). -/
def Obligations.IntervalsEnd : Prop :=
  ∀ s : State, ∃ t : State, exec .intervalEnd s = .next t ∧
    t = { s with now := t.now, inputs := t.inputs, rope := t.rope, net := t.net } ∧
    t.now = max s.now s.inputs.interval ∧
    t.inputs.interval = s.inputs.interval + 250000 ∧
    (∀ k, t.pulse k = { s.pulse k with last := (s.pulse k).current, current := 0 }) ∧
    (∀ k, t.inputs.level k = s.inputs.level k) ∧
    (∀ l, t.act l = s.act l ∧ t.pack l = s.pack l ∧
      t.len l
        = { s.len l with
            speed :=
              match (s.len l).constants with
              | some c => min ((s.pulse (wheelOf l)).current * 4 * c.k / (c.n * 10 ^ 9)) 65535
              | none => 0 })

/-! ### Twisting positions -/

/-- START_PACKAGE: its checks in order, and the READY position and WINDING record it makes: the recipe and the constants
captured, the window size of R25, nothing delivered or wound, no timer, no window, no span; the record with its origin
and slot, nothing wound and nothing entered. -/
def Obligations.StartPackageMakesReady : Prop :=
  (∀ (tag : Byte) (p : Fin 8) (number slot : Nat) (s : State), Ready s →
    exec (.startPackage tag p.val number slot) s
      = .next (s.judged (.startPackage tag p.val number slot)
          ([inField 2 1 65535 number, inField 3 0 31 slot, (s.plant.isSome, .state .notConfigured),
              ((s.job p).isNone, .state .wrongState)]
            ++ slotChecks isTwist slot s
            ++ [((s.package number).isNone, .state .duplicate), (s.entryFound, .state .tableFull)])
          (match judgeSlot s.flash slot with
            | .valid (.twist r) check =>
              (createPackage (woundPackage p number slot) s).setJob p
                (some (newJob p number slot check r s.plantD))
            | _ => s)
          [])) ∧
  (∀ (tag : Byte) (p number slot : Nat) (s : State), Ready s → 7 < p →
    exec (.startPackage tag p number slot) s
      = .next (s.replied (.startPackage tag p number slot) (.field 1))) ∧
  (∀ (p : Fin 8) (number slot check : Nat) (r : TwistRecipe) (plant : PlantRecord),
    let j := newJob p number slot check r plant
    j.phase = .ready ∧ j.package = number ∧ j.slot = slot ∧ j.check = check ∧ j.recipe = r ∧
    j.ns = plant.ns[p] ∧ j.nd = plant.nd[p] ∧ j.cd = plant.cd[p] ∧
    j.windowSize = max 1 ((r.window * 1000 * plant.nd[p] + plant.cd[p] - 1) / plant.cd[p]) ∧
    j.delivered = 0 ∧ j.wound = 0 ∧ j.spindle = 0 ∧ j.delivery = 0 ∧ j.windowStart = 0 ∧
    j.filter = none ∧ j.last = none ∧ j.outRun.count = 0 ∧ j.span = none ∧
    j.motion = none ∧ j.detector = none ∧
    woundPackage p number slot
      = { number := number, state := .winding, origin := some p.val, slot := some slot, wound := 0
          grade := none, spans := [], splices := [], seat := none, feedStart := none, consumed := 0
          warned := false, leftover := none, spentOrder := none })

/-- RESUME_POSITION: from FAULT with BREAK, a splice at the wound length and READY; from FAULT with JAM, READY; in any
other state WRONG_STATE.
A splice goes after every splice of the list at the same or a lower position, and a list in rising order stays so. -/
def Obligations.ResumePositionClearsFault : Prop :=
  (∀ (tag : Byte) (p : Fin 8) (s : State), Ready s →
    (∀ j, s.job p = some j → j.phase = .fault .breakage →
      exec (.resumePosition tag p.val) s
        = .next (((clearCause (positionMachine p) .breakage
            (s.updatePackage j.package fun k =>
              { k with splices := insertSplice j.wound k.splices })).setJob p
            (some { j with phase := .ready })).replied (.resumePosition tag p.val) (.done []))) ∧
    (∀ j, s.job p = some j → j.phase = .fault .jam →
      exec (.resumePosition tag p.val) s
        = .next (((clearCause (positionMachine p) .jam s).setJob p
            (some { j with phase := .ready })).replied (.resumePosition tag p.val) (.done []))) ∧
    (s.job p = none →
      exec (.resumePosition tag p.val) s
        = .next (s.replied (.resumePosition tag p.val) (.state .wrongState))) ∧
    (∀ j, s.job p = some j → j.phase ≠ .fault .breakage → j.phase ≠ .fault .jam →
      exec (.resumePosition tag p.val) s
        = .next (s.replied (.resumePosition tag p.val) (.state .wrongState))) ∧
    (∀ n, 7 < n →
      exec (.resumePosition tag n) s = .next (s.replied (.resumePosition tag n) (.field 1)))) ∧
  (∀ (w : Nat) (splices : List Nat),
    insertSplice w splices
        = splices.takeWhile (fun v => decide (v ≤ w)) ++ w ::
          splices.dropWhile (fun v => decide (v ≤ w)) ∧
      (splices.Pairwise (· ≤ ·) →
        insertSplice w splices
            = splices.filter (fun v => decide (v ≤ w)) ++ w ::
              splices.filter (fun v => decide (w < v)) ∧
          (insertSplice w splices).Pairwise (· ≤ ·)))

/-- DOFF_PACKAGE: refused in IDLE and RUN; otherwise the position is IDLE, its five causes are cleared, and the record
is removed where nothing was wound, else DOFFED with its grade.
In order: an open span is closed at its last out end into the record and TWIST_SPAN; the record is DOFFED with its grade
or removed; PACKAGE_DOFFED carries the package, the wound length, the grade, absent where the record was removed, and
whether it was; the causes BREAK, JAM, SPLICE_LIMIT, TARGET and COMMANDED are cleared in one notice.
The grade is A with both lists empty, B with the spans' lengths and the splices within the recipe's B limits, else C.
A span goes into the record's list after every span that starts at or below its start, and a list in rising order stays so;
where the list then holds seven, its last two become one of kind MIXED, from the earlier start to the later end. -/
def Obligations.DoffPackageFreesPosition : Prop :=
  (∀ (tag : Byte) (p : Fin 8) (s : State), Ready s →
    (s.job p = none →
      exec (.doffPackage tag p.val) s
        = .next (s.replied (.doffPackage tag p.val) (.state .wrongState))) ∧
    (∀ j, s.job p = some j → j.phase = .run →
      exec (.doffPackage tag p.val) s
        = .next (s.replied (.doffPackage tag p.val) (.state .machineRunning))) ∧
    (∀ j, s.job p = some j → j.phase ≠ .run →
      ∃ t : State, exec (.doffPackage tag p.val) s
          = .next (t.replied (.doffPackage tag p.val) (.done [])) ∧
        t.job p = none ∧ (∀ q, q ≠ p → t.job q = s.job q) ∧
        (∀ cause ∈ [StopCause.breakage, .jam, .spliceLimit, .target, .commanded],
          t.hasCause (positionMachine p) cause = false) ∧
        (∀ m, m ≠ positionMachine p → t.stop m = s.stop m) ∧
        (j.wound = 0 → t.package j.package = none) ∧
        (∀ k, 0 < j.wound → s.package j.package = some k →
          let closed :=
            match closeAt j.outRun j.span with
            | some x => { k with spans := insertSpan ⟨x.start, x.stop, x.side.spanKind⟩ k.spans }
            | none => k
          t.package j.package
            = some { closed with state := .doffed, grade := some (doffGrade j.recipe closed) })) ∧
    (∀ n, 7 < n →
      exec (.doffPackage tag n) s = .next (s.replied (.doffPackage tag n) (.field 1)))) ∧
  (∀ (tag : Byte) (p : Fin 8) (j : Job) (s : State), Ready s → s.job p = some j → j.phase ≠ .run →
    let discarded := s.setJob p (some { j with
      spindle := 0, delivery := 0, windowStart := j.wound, filter := none
      outRun := { j.outRun with count := 0 }, span := none })
    let spanned :=
      match j.span with
      | some x =>
        let kind : SpanKind := if x.side = Side.low then .low else .high
        enterReport .twistSpan (some p.val)
          (be 2 j.package ++ be 1 kind.code ++ be 4 x.start ++ be 4 j.outRun.lastEnd)
          (discarded.updatePackage j.package fun k =>
            { k with spans := insertSpan ⟨x.start, j.outRun.lastEnd, kind⟩ k.spans })
      | none => discarded
    let grade := if j.wound = 0 then none else (spanned.package j.package).map (doffGrade j.recipe)
    let recorded :=
      if j.wound = 0 then
        spanned.setPackages (spanned.table.packages.filter fun k => k.number != j.package)
      else spanned.updatePackage j.package fun k => { k with state := .doffed, grade := grade }
    let code := match grade with
      | some .a => 1
      | some .b => 2
      | some .c => 3
      | none => 0
    let reported := enterReport .packageDoffed (some p.val)
      (be 2 j.package ++ be 4 j.wound ++ be 1 code ++ be 1 (if j.wound = 0 then 1 else 0)) recorded
    exec (.doffPackage tag p.val) s
      = .next (((stopNotice (positionMachine p) 0 31#16 reported).setJob p none).replied
          (.doffPackage tag p.val) (.done []))) ∧
  (∀ (r : TwistRecipe) (k : Package),
    let faulty := (k.spans.map fun x => x.stop - x.start).sum
    (k.spans = [] → k.splices = [] → doffGrade r k = .a) ∧
    (k.spans ≠ [] ∨ k.splices ≠ [] → faulty ≤ r.bSpanLimit → k.splices.length ≤ r.bSpliceLimit →
      doffGrade r k = .b) ∧
    (k.spans ≠ [] ∨ k.splices ≠ [] → r.bSpanLimit < faulty ∨ r.bSpliceLimit < k.splices.length →
      doffGrade r k = .c)) ∧
  (∀ (x : Span) (spans : List Span),
    let placed := spans.takeWhile (fun y => decide (y.start ≤ x.start)) ++ x ::
      spans.dropWhile (fun y => decide (y.start ≤ x.start))
    (placed.length ≤ 6 → insertSpan x spans = placed) ∧
    (∀ front a b, placed = front ++ [a, b] → 6 < placed.length →
      insertSpan x spans = front ++ [⟨min a.start b.start, max a.stop b.stop, .mixed⟩]) ∧
    ((spans.Pairwise fun a b => a.start ≤ b.start) →
      placed = spans.filter (fun y => decide (y.start ≤ x.start)) ++ x ::
          spans.filter (fun y => decide (x.start < y.start)) ∧
        (insertSpan x spans).Pairwise fun a b => a.start ≤ b.start))

/-- The motion deadline of a position in RUN: FAULT with JAM where exactly one drive runs, STILL where neither does. The
detector deadline: FAULT, with SPLICE_LIMIT where the record holds 8 splices and BREAK otherwise. No other position
moves. The clock stands at the deadline (the model's choice, log 2).
At the entry to FAULT the window is discarded, an open span is closed at its last out end and handed to the record and to
TWIST_SPAN, the cause is set, and POSITION_FAULT carries the package, the cause and the wound length (STOP_CHANGE before
it: log 37). -/
def Obligations.PositionTimersEndRun : Prop :=
  (∀ (p : Fin 8) (s : State) (j : Job) (d : Nat),
      s.job p = some j → j.phase = .run → j.motion = some d →
      ∃ t : State, exec (.motionTimerDeadline p) s = .next t ∧ t.now = max s.now d ∧
        (∀ q, q ≠ p → t.job q = s.job q) ∧
        (spRuns p s ≠ dlRuns p s →
          t.job p
            = some { j with
                phase := .fault .jam, motion := none, detector := none, spindle := 0, delivery := 0
                windowStart := j.wound, filter := none, outRun := { j.outRun with count := 0 }
                span := none } ∧
          t.hasCause (positionMachine p) .jam = true ∧
          (StopsAgree s → (t.stop (positionMachine p)).asserted = true)) ∧
        (spRuns p s = false → dlRuns p s = false →
          t.job p = some { j with phase := .still, motion := none, detector := none } ∧
          t.stops = s.stops ∧ t.table = s.table)) ∧
  (∀ (p : Fin 8) (s : State) (j : Job) (d : Nat),
      s.job p = some j → j.phase = .run → j.detector = some d →
      ∃ t : State, exec (.detectorTimerDeadline p) s = .next t ∧ t.now = max s.now d ∧
        (∀ q, q ≠ p → t.job q = s.job q) ∧
        (∀ k, s.package j.package = some k →
          let cause : FaultCause := if k.splices.length = 8 then .spliceLimit else .breakage
          t.job p
            = some { j with
                phase := .fault cause, motion := none, detector := none, spindle := 0, delivery := 0
                windowStart := j.wound, filter := none, outRun := { j.outRun with count := 0 }
                span := none } ∧
          t.hasCause (positionMachine p) cause.stop = true ∧
          (StopsAgree s → (t.stop (positionMachine p)).asserted = true))) ∧
  (∀ (p : Fin 8) (s : State) (j : Job) (d : Nat), s.job p = some j → j.phase = .run →
    let entered := fun (cause : FaultCause) (stop : StopCause) (code : Nat) =>
      let stopped := ({ s with now := max s.now d } : State).setJob p (some { j with
        phase := .fault cause, motion := none, detector := none, spindle := 0, delivery := 0
        windowStart := j.wound, filter := none, outRun := { j.outRun with count := 0 }, span := none })
      let spanned :=
        match j.span with
        | some x =>
          let kind : SpanKind := if x.side = .low then .low else .high
          enterReport .twistSpan (some p.val)
            (be 2 j.package ++ be 1 kind.code ++ be 4 x.start ++ be 4 j.outRun.lastEnd)
            (stopped.updatePackage j.package fun k =>
              { k with spans := insertSpan ⟨x.start, j.outRun.lastEnd, kind⟩ k.spans })
        | none => stopped
      enterReport .positionFault (some p.val) (be 2 j.package ++ be 1 code ++ be 4 j.wound)
        (setCause (positionMachine p) stop spanned)
    (j.motion = some d → spRuns p s ≠ dlRuns p s →
      exec (.motionTimerDeadline p) s = .next (entered .jam .jam 2)) ∧
    (j.detector = some d →
      let full := (s.package j.package).any fun k => k.splices.length == 8
      exec (.detectorTimerDeadline p) s
        = .next (if full then entered .spliceLimit .spliceLimit 3 else entered .breakage .breakage 1)))

/-- A spindle pulse counts into the window of a position in RUN or STILL. A delivery pulse is wound in RUN, where the
window is not full and the target not reached, and in TARGET; it is without effect in FAULT and IDLE. A lay pulse counts
into the lay window where the rope line is loaded and REV is low.
A delivery pulse in READY or STILL first puts the position in RUN, its motion timer running unless both drives run, its
detector timer running where SD is high. The pulse that fills the window closes it and hands a span that closes to the
record and to TWIST_SPAN. The pulse that reaches the target stops the timers, closes an open span, empties the window,
sets TARGET and enters PACKAGE_TARGET (STOP_CHANGE before it: log 37). The length wound goes to the record and to the
tally of the position, whose reports come before those of the window and of the target (the model's reading, log 33,
DEDUCED).
The wound length is D_total times C_d, divided by 1,000 times N_d and rounded down; beyond the range of a length it is a
free value of 32 bits (the model's choice, log 12).
A change of running state moves the motion timer of a position in RUN, or makes it STILL; a change of SD starts or stops
its detector timer. -/
def Obligations.PulsesAreCountedAndWound : Prop :=
  (∀ j : Job,
    let exact := j.delivered * j.cd / (j.nd * 1000)
    (exact ≤ 4294967295 → j.wound = exact) ∧
    (4294967295 < exact → j.wound = Config.unfitLength exact % 2 ^ 32)) ∧
  (∀ (p : Fin 8) (s : State),
    spindlePulse p s
      = match s.job p with
        | some j =>
          if j.phase = .run ∨ j.phase = .still then
            s.setJob p (some { j with spindle := min (j.spindle + 1) 4294967295 })
          else s
        | none => s) ∧
  (∀ s : State,
    layPulse s
      = if s.ropeCopy.isSome = true ∧ (s.inputs.level .rev).level = false then
          { s with lay := { s.lay with head := min (s.lay.head + 1) 4294967295 } }
        else s) ∧
  (∀ (p : Fin 8) (s : State),
    (s.job p = none → deliveryPulse p s = s) ∧
    (∀ j c, s.job p = some j → j.phase = .fault c → deliveryPulse p s = s) ∧
    (∀ j, s.job p = some j → j.phase = .target →
      (deliveryPulse p s).job p
        = some { j with delivered := min (j.delivered + 1) 4294967295 }) ∧
    (∀ j, s.job p = some j → j.phase = .run →
      let wound := { j with delivered := min (j.delivered + 1) 4294967295 }
      min (j.delivery + 1) 4294967295 ≠ j.windowSize → wound.wound < j.recipe.target →
      (deliveryPulse p s).job p
          = some { wound with delivery := min (j.delivery + 1) 4294967295 } ∧
        ((deliveryPulse p s).package j.package).map Package.wound
          = (s.package j.package).map fun _ => wound.wound) ∧
    (∀ q, q ≠ p → (deliveryPulse p s).job q = s.job q)) ∧
  (∀ (p : Fin 8) (s : State) (j : Job), s.job p = some j → j.phase = .ready ∨ j.phase = .still →
    deliveryPulse p s
      = deliveryPulse p (s.setJob p (some { j with
          phase := .run
          motion := if (s.pulse (.sp p)).running ∧ (s.pulse (.dl p)).running then none
            else some (s.now + s.plantD.jamTime * 100000)
          detector := if (s.inputs.level (.sd p)).level then
              some (s.now + s.plantD.detectorTime * 10000)
            else none }))) ∧
  (∀ (p : Fin 8) (s : State) (j : Job), s.job p = some j → j.phase = .run →
    let wound := { j with
      delivered := min (j.delivered + 1) 4294967295, delivery := min (j.delivery + 1) 4294967295 }
    let closed := if wound.delivery = j.windowSize then wound.windowClosed else (wound, none)
    let handed := fun (c : Option ClosedSpan) (spans : List Span) =>
      match c with
      | some x => insertSpan ⟨x.start, x.stop, x.side.spanKind⟩ spans
      | none => spans
    let t := deliveryPulse p s
    (wound.wound < j.recipe.target →
      t.job p = some closed.1 ∧
      t.package j.package = (s.package j.package).map fun k =>
        { k with wound := wound.wound, spans := handed closed.2 k.spans }) ∧
    (j.recipe.target ≤ wound.wound →
      t.job p
        = some { closed.1 with
            phase := .target, motion := none, detector := none, spindle := 0, delivery := 0
            windowStart := wound.wound, filter := none
            outRun := { closed.1.outRun with count := 0 }, span := none } ∧
      t.package j.package = (s.package j.package).map (fun k =>
        { k with
          wound := wound.wound
          spans := handed (closeAt closed.1.outRun closed.1.span) (handed closed.2 k.spans) }) ∧
      t.hasCause (positionMachine p) .target = true)) ∧
  (∀ (p : Fin 8) (s : State) (j : Job), s.job p = some j →
    let wound := { j with delivered := min (j.delivered + 1) 4294967295 }
    let counted := tallyAdd (positionMachine p) (wound.wound - j.wound)
      ((s.setJob p (some wound)).updatePackage j.package fun k => { k with wound := wound.wound })
    let full := { wound with delivery := min (j.delivery + 1) 4294967295 }
    let closed := if full.delivery = j.windowSize then full.windowClosed else (full, none)
    let measured := handSpan? p j.package closed.2 (counted.setJob p (some closed.1))
    (j.phase = .target → deliveryPulse p s = counted) ∧
    (j.phase = .run → wound.wound < j.recipe.target → deliveryPulse p s = measured) ∧
    (j.phase = .run → j.recipe.target ≤ wound.wound →
      deliveryPulse p s
        = enterReport .packageTarget (some p.val) (be 2 j.package ++ be 4 wound.wound)
            (setCause (positionMachine p) .target
              (handSpan? p j.package (closeAt closed.1.outRun closed.1.span)
                (measured.setJob p (some { closed.1 with
                  phase := .target, motion := none, detector := none, spindle := 0, delivery := 0
                  windowStart := wound.wound, filter := none
                  outRun := { closed.1.outRun with count := 0 }, span := none })))))) ∧
  (∀ (p : Fin 8) (number : Nat) (s : State),
    handSpan? p number none s = s ∧
    ∀ x : ClosedSpan, handSpan? p number (some x) s
      = enterReport .twistSpan (some p.val)
          (be 2 number ++ be 1 x.side.spanKind.code ++ be 4 x.start ++ be 4 x.stop)
          (s.updatePackage number fun k =>
            { k with spans := insertSpan ⟨x.start, x.stop, x.side.spanKind⟩ k.spans })) ∧
  (∀ (p : Fin 8) (s : State),
    (s.job p = none → drivesChanged p s = s ∧ detectorChanged p s = s) ∧
    (∀ j, s.job p = some j → j.phase ≠ .run → drivesChanged p s = s ∧ detectorChanged p s = s) ∧
    (∀ j, s.job p = some j → j.phase = .run →
      (spRuns p s = true → dlRuns p s = true →
        drivesChanged p s = s.setJob p (some { j with motion := none })) ∧
      (spRuns p s ≠ dlRuns p s →
        drivesChanged p s
          = s.setJob p (some { j with
              motion := some (j.motion.getD (s.now + s.plantD.jamTime * 100000)) })) ∧
      (spRuns p s = false → dlRuns p s = false →
        drivesChanged p s
          = (s.setJob p (some { j with phase := .still, motion := none, detector := none })).setLatches
              (positionMachine p) { s.latches (positionMachine p) with steady := false }) ∧
      detectorChanged p s
        = s.setJob p (some { j with
            detector := if (s.inputs.level (.sd p)).level then
                some (s.now + s.plantD.detectorTime * 10000)
              else none })))

/-- A window that closes: the raw twist rounded half up and held at 65,535, the filter primed or moved toward it, the
filtered twist, the verdict by the band, and accumulators that start again at 0. The out-run and the open span take the
step of the verdict: in band ends the run and closes the span at the last out end; out of band on the side of the run
lengthens it; on the other side, or with no run, a new run begins and a span of the other side closes; a run that
reaches the out-run length with no span open opens one at its start.
The lay window closes at a rise by the same rules, with the lay in tenths of a turn per metre, and hands a span that
closes to the mark list and to LAY_SPAN, its mark at the feed offset beyond it. -/
def Obligations.WindowsGiveTwist : Prop :=
  (∀ j : Job,
    let exact := (2 * (j.spindle * j.nd * 10 ^ 7) + j.ns * j.delivery * j.cd) / (2 * (j.ns * j.delivery * j.cd))
    let raw := min exact 65535
    let value : Nat :=
      match j.filter with
      | none => 16 * raw
      | some f => ((f : Int) + (16 * (raw : Int) - f) / (2 ^ j.recipe.shift : Nat)).toNat
    let twist := (value + 8) / 16
    let k := j.windowClosed.1
    k.spindle = 0 ∧ k.delivery = 0 ∧ k.windowStart = j.wound ∧ k.filter = some value ∧
    k.last
      = some
        { raw := raw
          filtered := twist
          isOver := decide (65535 < exact)
          verdict :=
            if twist < j.recipe.nominal - j.recipe.tolLow then .low
            else if j.recipe.nominal + j.recipe.tolHigh < twist then .high
            else .inBand } ∧
    k.phase = j.phase ∧ k.delivered = j.delivered ∧ k.package = j.package ∧ k.recipe = j.recipe) ∧
  (∀ (j : Job) (w : LastWindow), j.windowClosed.1.last = some w →
    let step := outRunStep j.recipe.outRun w.verdict j.windowStart j.wound j.outRun j.span
    j.windowClosed.1.outRun = step.outRun ∧ j.windowClosed.1.span = step.span ∧
    j.windowClosed.2 = step.closed) ∧
  (∀ (e start stop : Nat) (o : OutRun) (sp : Option OpenSpan),
    outRunStep e .inBand start stop o sp
      = { outRun := { o with count := 0 }, span := none
          closed := sp.map fun x => { side := x.side, start := x.start, stop := o.lastEnd } } ∧
    ∀ (side : Side) (v : Verdict), (side = .low ∧ v = .low) ∨ (side = .high ∧ v = .high) →
      let r := outRunStep e v start stop o sp
      (o.count ≠ 0 → o.side = side →
        r.outRun = { o with count := min (o.count + 1) 15, lastEnd := stop } ∧ r.closed = none ∧
        (∀ x, sp = some x → r.span = some x) ∧
        (sp = none → r.span = if min (o.count + 1) 15 = e then some ⟨side, o.runStart⟩ else none)) ∧
      (o.count = 0 ∨ o.side ≠ side →
        r.outRun = { side := side, count := 1, runStart := start, lastEnd := stop } ∧
        (sp = none → r.closed = none ∧ r.span = if e = 1 then some ⟨side, start⟩ else none) ∧
        (∀ x, sp = some x → x.side = side → r.closed = none ∧ r.span = some x) ∧
        (∀ x, sp = some x → x.side ≠ side →
          r.closed = some { side := x.side, start := x.start, stop := o.lastEnd } ∧
          r.span = if e = 1 then some ⟨side, start⟩ else none))) ∧
  (∀ (pNew seen : Nat) (s : State),
    (s.ropeCopy = none → layRise pNew seen s = s) ∧
    (∀ c, s.ropeCopy = some c →
      (pNew < s.lay.windowStart + c.recipe.window → layRise pNew seen s = s) ∧
      (s.lay.windowStart + c.recipe.window ≤ pNew →
        let area := s.plantD.nlh * (pNew - s.lay.windowStart)
        let exact := (2 * (s.lay.head * 10000) + area) / (2 * area)
        let raw := min exact 65535
        let value : Nat :=
          match s.lay.filter with
          | none => 16 * raw
          | some f => ((f : Int) + (16 * (raw : Int) - f) / (2 ^ c.recipe.shift : Nat)).toNat
        let lay := (value + 8) / 16
        let verdict : Verdict :=
          if lay < c.recipe.nominal - c.recipe.tolLow then .low
          else if c.recipe.nominal + c.recipe.tolHigh < lay then .high
          else .inBand
        let step := outRunStep c.recipe.outRun verdict s.lay.windowStart pNew s.lay.outRun s.lay.span
        let closed := s.setLay
          { head := 0, windowStart := pNew, filter := some value
            last := some
              { raw := raw, filtered := lay, isOver := decide (65535 < exact), verdict := verdict }
            outRun := step.outRun, span := step.span }
        (step.closed = none → layRise pNew seen s = closed) ∧
        (∀ x, step.closed = some x → x.start ≤ x.stop →
          let place := min (x.start + s.plantD.feedOffset) 4294967295
          let span := min (x.stop - x.start) 1000000
          let kind : MarkKind := if x.side = .low then .layLow else .layHigh
          layRise pNew seen s
            = enterReport .laySpan (some 8) (be 1 kind.code ++ be 4 place ++ be 4 span)
                (handMark .rope seen ⟨place, span, kind, none, 1⟩ closed).1))))

/-! ### Packages and the creel -/

/-- ADD_PACKAGE: its checks in order, and the DOFFED record it creates, with the fields entered and no origin. A record
goes to an entry that is empty; where none is, the record of the package SPENT first leaves the table. -/
def Obligations.AddPackageCreatesRecord : Prop :=
  (∀ (tag : Byte) (e : PackageEntry) (s : State), Ready s →
    exec (.addPackage tag e) s
      = .next (s.judged (.addPackage tag e)
          ([inField 1 1 65535 e.number, inField 2 1 100000000 e.wound, inField 3 1 3 e.grade,
            (decide (e.spans.length ≤ 6)
              && e.spans.all (fun x => decide (x.start ≤ x.stop) && decide (x.stop ≤ e.wound)
                && decide (1 ≤ x.kind) && decide (x.kind ≤ 3))
              && nonDecreasing (e.spans.map SpanEntry.start), .field 4),
            (decide (e.splices.length ≤ 8) && e.splices.all (fun w => decide (w ≤ e.wound))
              && nonDecreasing e.splices, .field 5),
            (s.plant.isSome, .state .notConfigured),
            ((s.package e.number).isNone, .state .duplicate),
            (decide (s.table.packages.length < 96)
              || s.table.packages.any fun k => k.state == .spent, .state .tableFull)])
          (createPackage (enteredPackage e) s) [])) ∧
  (∀ (k : Package) (s : State), s.table.packages.length < 96 →
    createPackage k s = s.setPackages (s.table.packages ++ [k])) ∧
  (∀ (k old : Package) (s : State), 96 ≤ s.table.packages.length → old ∈ s.table.packages →
    old.state = .spent →
    (∀ x ∈ s.table.packages, x.state = .spent → x.number ≠ old.number →
      old.spentOrder.getD 0 < x.spentOrder.getD 0) →
    createPackage k s
      = s.setPackages ((s.table.packages.filter fun x => x.number != old.number) ++ [k])) ∧
  (∀ e : PackageEntry, 1 ≤ e.grade → (∀ x ∈ e.spans, 1 ≤ x.kind) →
    enteredPackage e
      = { number := e.number, state := .doffed, origin := none, slot := none, wound := e.wound
          grade := some (if e.grade = 1 then .a else if e.grade = 2 then .b else .c)
          spans := e.spans.map fun x =>
            ⟨x.start, x.stop, if x.kind = 1 then .low else if x.kind = 2 then .high else .mixed⟩
          splices := e.splices, seat := none, feedStart := none, consumed := 0, warned := false
          leftover := none, spentOrder := none })

/-- READ_PACKAGE carries the record of the number named (R43), or is refused with NOT_FOUND; a number out of range is
refused with FIELD (1) (R183; the model's reading, log 21, DEDUCED).
The record takes the 112 bytes of chapter 11, entries beyond the counts 0. Where the presence bits stand is the model's
choice (log 22): the top bits of origin and recipe slot, and bits 7, 6 and 5 of the place and slot byte for the place and
slot, the feed start and the leftover. -/
def Obligations.ReadPackageCarriesRecord : Prop :=
  (∀ (tag : Byte) (n : Nat) (s : State), Ready s →
    exec (.readPackage tag n) s
      = .next
        (if 1 ≤ n ∧ n ≤ 65535 then
          match s.package n with
          | some k => s.replied (.readPackage tag n) (.done k.bytes)
          | none => s.replied (.readPackage tag n) (.state .notFound)
        else s.replied (.readPackage tag n) (.field 1))) ∧
  (∀ k : Package,
    let state := match k.state with
      | .winding => 1
      | .doffed => 2
      | .placed => 3
      | .feeding => 4
      | .spent => 5
    let grade := match k.grade with
      | some .a => 1
      | some .b => 2
      | some .c => 3
      | none => 0
    let present := fun n : Option Nat => match n with
      | some v => 128 + v
      | none => 0
    let seat := match k.seat with
      | some (place, reserve) => 128 + place + if reserve then 16 else 0
      | none => 0
    let spans := k.spans.flatMap fun x =>
      be 4 x.start ++ be 4 x.stop
        ++ be 1 (match x.kind with | .low => 1 | .high => 2 | .mixed => 3)
    let splices := k.splices.flatMap (be 4)
    k.bytes
        = be 2 k.number ++ be 1 state ++ be 1 (present k.origin) ++ be 1 (present k.slot)
          ++ be 4 k.wound ++ be 1 grade
          ++ be 1 (seat + (if k.feedStart.isSome then 64 else 0) + if k.leftover.isSome then 32 else 0)
          ++ be 4 (k.feedStart.getD 0) ++ be 4 k.consumed ++ be 4 (k.leftover.getD 0)
          ++ be 1 (if k.warned then 1 else 0) ++ be 1 k.spans.length
          ++ (spans ++ List.replicate 54 0).take 54 ++ be 1 k.splices.length
          ++ (splices ++ List.replicate 32 0).take 32 ∧
      k.bytes.length = 112)

/-- REMOVE_PACKAGE deletes a record in DOFFED or SPENT (R44); a number out of range is refused with FIELD (1) (R183; the
model's reading, log 21, DEDUCED). -/
def Obligations.RemovePackageDeletesRecord : Prop :=
  ∀ (tag : Byte) (n : Nat) (s : State), Ready s →
    exec (.removePackage tag n) s
      = .next
        (if 1 ≤ n ∧ n ≤ 65535 then
          match s.package n with
          | some k =>
            if k.state = .doffed ∨ k.state = .spent then
              (s.setPackages (s.table.packages.filter fun x => x.number != n)).replied
                (.removePackage tag n) (.done [])
            else s.replied (.removePackage tag n) (.state .wrongState)
          | none => s.replied (.removePackage tag n) (.state .notFound)
        else s.replied (.removePackage tag n) (.field 1))

/-- PLACE_PACKAGE: its checks in order, and the record PLACED in the current slot where that is empty, else in the
reserve slot. After a placement into a current slot CREEL is judged; after one into a reserve slot it stands as it was.
A rise of the rope line makes the PLACED packages in the current slots of used places FEEDING from the old position, by
ascending place: a package's number goes to the open coil, and the marks of its spans and splices, each at the position
where the strand reaches the line, are handed to the rope list from the lowest position up (the order among equal ones is
log 16's). Then, and at a fall, the consumption of every package FEEDING and not at runout is computed at the new
position, by ascending place (the model's choice, log 37), and compared with the warning length and the wound length. -/
def Obligations.PlacePackageFillsSlot : Prop :=
  (∀ (tag : Byte) (n : Nat) (i : Fin 4) (s : State), Ready s →
    exec (.placePackage tag n i.val) s
      = .next (s.judged (.placePackage tag n i.val)
          [inField 1 1 65535 n, (s.plant.isSome, .state .notConfigured),
            ((s.package n).isSome, .state .notFound),
            ((s.package n).map Package.state == some .doffed, .state .wrongState),
            (s.ropeCopy.isSome, .state .wrongState), (s.used i, .state .wrongState),
            (((s.package n).bind Package.grade).any fun g => g.atLeast s.minGrade,
              .state .gradeLow),
            ((s.place i).current.isNone || (s.place i).reserve.isNone, .state .placeFull)]
          (placePackage n i s) [])) ∧
  (∀ (tag : Byte) (n i : Nat) (s : State), Ready s → 1 ≤ n → n ≤ 65535 → 3 < i →
    exec (.placePackage tag n i) s = .next (s.replied (.placePackage tag n i) (.field 2))) ∧
  (∀ (n : Nat) (i : Fin 4) (k : Package) (s : State), s.package n = some k →
    let t := placePackage n i s
    let reserve := (s.place i).current.isSome
    t.place i
      = (if reserve then { s.place i with reserve := some n }
        else { s.place i with current := some n }) ∧
    (∀ q, q ≠ i → t.place q = s.place q) ∧
    t.package n
      = some { k with
          state := .placed, seat := some (i.val, reserve), consumed := 0, warned := false } ∧
    (reserve = false → t.hasCause 8 .creel = t.creelLacks) ∧
    (reserve = true → t.hasCause 8 .creel = s.hasCause 8 .creel) ∧
    (∀ cause, cause ≠ .creel → t.hasCause 8 cause = s.hasCause 8 cause)) ∧
  (∀ (pOld pNew seen : Nat) (s : State),
    packageRise pOld pNew seen s
      = ([0, 1, 2, 3] : List (Fin 4)).foldl (fun t i => consume pNew t i)
          (([0, 1, 2, 3] : List (Fin 4)).foldl (fun t i => feedAtRise pOld seen t i) s) ∧
    packageFall pNew s = ([0, 1, 2, 3] : List (Fin 4)).foldl (fun t i => consume pNew t i) s) ∧
  (∀ (pOld seen : Nat) (i : Fin 4) (s : State),
    ((∀ k, s.currentPackage i = some k → k.state = .placed → s.used i = false) →
      feedAtRise pOld seen s i = s) ∧
    (∀ k, s.currentPackage i = some k → k.state = .placed → s.used i = true →
      let t := feedAtRise pOld seen s i
      let coil := s.pack .rope
      t.package k.number
        = some { k with
            state := .feeding, seat := some (i.val, false), feedStart := some pOld, consumed := 0 } ∧
      (∀ n, n ≠ k.number → t.package n = s.package n) ∧ (∀ q, t.place q = s.place q) ∧
      t.len .rope = s.len .rope ∧
      t.act .rope = ((projection pOld s.plantD.feedOffset s.layFactor k).foldl
        (fun u m => (handMark .rope seen m u).1)
        (s.updatePackage k.number fun r =>
          { r with
            state := .feeding, seat := some (i.val, false), feedStart := some pOld
            consumed := 0 })).act .rope ∧
      t.pack .rope
        = (if coil.state = .noCoil ∨ k.number ∈ coil.packages then coil
          else if coil.packages.length < 8 then { coil with packages := coil.packages ++ [k.number] }
          else { coil with more := true }))) ∧
  (∀ (start feed lay : Nat) (k : Package),
    let x := fun w => min (start + feed + (k.wound - w) * 10000 / lay) 4294967295
    (∀ m : NewMark, m ∈ projection start feed lay k ↔
      (∃ sp ∈ k.spans,
        m = { x := x sp.stop, span := min (x sp.start - x sp.stop) 1000000, kind := .strandFault
              source := some k.number, count := 1 }) ∨
      (∃ w ∈ k.splices,
        m = { x := x w, span := 0, kind := .splice, source := some k.number, count := 1 })) ∧
    (projection start feed lay k).length = k.spans.length + k.splices.length ∧
    (projection start feed lay k).Pairwise fun a b => a.x ≤ b.x) ∧
  (∀ (p : Nat) (i : Fin 4) (s : State),
    ((∀ k, s.currentPackage i = some k → k.state = .feeding → (s.place i).runout = true) →
      consume p s i = s) ∧
    (∀ k, s.currentPackage i = some k → k.state = .feeding → (s.place i).runout = false →
      let used := min (((p : Int) - (k.feedStart.getD 0 : Nat)) * s.layFactor / 10000).toNat k.wound
      let left := k.wound - used
      let t := consume p s i
      let near := be 1 i.val ++ be 2 k.number ++ be 4 left ++ be 4 p
      let warned :=
        if k.warned = false ∧ left ≤ s.warningLength then
          enterReport .runoutNear (some 8) near
            (s.updatePackage k.number fun r => { r with consumed := used, warned := true })
        else s.updatePackage k.number fun r => { r with consumed := used }
      t.package k.number
        = some { k with consumed := used, warned := k.warned || decide (left ≤ s.warningLength) } ∧
      (∀ n, n ≠ k.number → t.package n = s.package n) ∧
      (∀ q, t.place q
        = if q = i ∧ used = k.wound then { s.place i with runout := true } else s.place q) ∧
      t.hasCause 8 .runout = (s.hasCause 8 .runout || decide (used = k.wound)) ∧
      (used ≠ k.wound → t = warned) ∧
      (used = k.wound →
        t = enterReport .runout (some 8) (be 1 i.val ++ be 2 k.number ++ be 4 p)
          (setCause 8 .runout (warned.setPlace i { s.place i with runout := true })))))

/-- UNPLACE_PACKAGE: a number out of range is refused with FIELD (1) (log 21); it is refused by the record's state, or for
a FEEDING record by the line's motion. A PLACED record is DOFFED and leaves its slot; out of the current slot, the
reserve takes it; CREEL is judged.
A FEEDING record with strand left is DOFFED at that length, its lists cut back to it; with nothing left it is SPENT with
a leftover of 0, the next in order. The reserve takes the current slot, the place stands at no runout, the FUTURE marks
of the package leave the rope list, MARKS_FULL is cleared where that brings the list to 112 or below, RUNOUT stands only
where another place is at runout, and CREEL is judged. The other packages, places and lines stay as they are. -/
def Obligations.UnplacePackageReturnsRecord : Prop :=
  (∀ (tag : Byte) (n : Nat) (s : State), Ready s → n = 0 ∨ 65535 < n →
    exec (.unplacePackage tag n) s = .next (s.replied (.unplacePackage tag n) (.field 1))) ∧
  (∀ (tag : Byte) (n : Nat) (s : State), Ready s → 1 ≤ n → n ≤ 65535 →
    (s.package n = none →
      exec (.unplacePackage tag n) s = .next (s.replied (.unplacePackage tag n) (.state .notFound))) ∧
    (∀ k, s.package n = some k → k.state ≠ .placed → k.state ≠ .feeding →
      exec (.unplacePackage tag n) s
        = .next (s.replied (.unplacePackage tag n) (.state .wrongState))) ∧
    (∀ (k : Package) (i : Fin 4) (reserve : Bool), s.package n = some k → k.state = .placed →
      k.seat = some (i.val, reserve) →
      exec (.unplacePackage tag n) s
          = .next ((unplacePlaced i reserve n s).replied (.unplacePackage tag n) (.done [])) ∧
        ((s.place i).reserve ≠ some n ∨ reserve = true →
          (unplacePlaced i reserve n s).package n
            = some { k with state := .doffed, seat := none })) ∧
    (∀ (k : Package) (i : Fin 4) (reserve : Bool), s.package n = some k → k.state = .feeding →
      k.seat = some (i.val, reserve) → s.running .rope = true →
      exec (.unplacePackage tag n) s
        = .next (s.replied (.unplacePackage tag n) (.state .machineRunning))) ∧
    (∀ (k : Package) (i : Fin 4) (reserve : Bool), s.package n = some k → k.state = .feeding →
      k.seat = some (i.val, reserve) → s.running .rope = false →
      exec (.unplacePackage tag n) s
        = .next ((unplaceFeeding i k s).replied (.unplacePackage tag n) (.done [])))) ∧
  (∀ (n : Nat) (i : Fin 4) (reserve : Bool) (k : Package) (s : State), s.package n = some k →
    let t := unplacePlaced i reserve n s
    t.place i = (if reserve then { s.place i with reserve := none }
        else { s.place i with current := (s.place i).reserve, reserve := none }) ∧
    (∀ q, q ≠ i → t.place q = s.place q) ∧
    (∀ r, r ≠ n → t.package r
      = if reserve = false ∧ (s.place i).reserve = some r then
          (s.package r).map fun x => { x with seat := some (i.val, false) }
        else s.package r) ∧
    t.hasCause 8 .creel = t.creelLacks) ∧
  (∀ (n : Nat) (i : Fin 4) (k : Package) (s : State), s.package n = some k →
    (s.place i).reserve ≠ some n →
    let left := k.wound - k.consumed
    let t := unplaceFeeding i k s
    (0 < left → t.package n
      = some { k with
          state := .doffed, wound := left, consumed := 0, warned := false, seat := none
          feedStart := none
          spans := (k.spans.filter fun x => decide (x.start < left)).map fun x =>
            { x with stop := min x.stop left }
          splices := k.splices.filter fun w => decide (w < left) }) ∧
    (left = 0 → t.package n
        = some { k with
            state := .spent, seat := none, feedStart := none, leftover := some 0
            spentOrder := some s.table.nextSpent } ∧
      t.table.nextSpent = s.table.nextSpent + 1) ∧
    (∀ r, r ≠ n → t.package r
      = if (s.place i).reserve = some r then
          (s.package r).map fun x => { x with seat := some (i.val, false) }
        else s.package r) ∧
    t.place i = { current := (s.place i).reserve, reserve := none, runout := false } ∧
    (∀ q, q ≠ i → t.place q = s.place q) ∧
    let kept := (s.act .rope).marks.filter fun m => m.made || m.source != some n
    (t.act .rope).marks = kept ∧
    t.hasCause 8 .marksFull
      = (s.hasCause 8 .marksFull
          && !(decide (kept.length < (s.act .rope).marks.length) && decide (kept.length ≤ 112))) ∧
    t.hasCause 8 .runout
      = (s.hasCause 8 .runout && ([0, 1, 2, 3] : List (Fin 4)).any fun q => q != i && (s.place q).runout) ∧
    t.hasCause 8 .creel = t.creelLacks ∧
    t.len .rope = s.len .rope ∧ t.net = s.net ∧ t.jobs = s.jobs ∧ t.orders = s.orders) ∧
  (∀ s : State, s.creelLacks = true ↔
    ∃ c i, s.ropeCopy = some c ∧ i.val < c.recipe.strands ∧ (s.place i).current = none)

/-- SPLICE_FEED: its checks in order; the package in the current slot is SPENT with what it has left over, its FUTURE
marks leave the rope list, and the one in reserve is FEEDING from the present position: its spans and splices are
projected, then a SPLICE mark is set at the feed offset beyond the position, and its warning is judged. The place stands
at no runout, and RUNOUT stands only where another does.
In order: the FUTURE marks that leave clear MARKS_FULL where they bring the list to 112 or below; the number of the package
that takes over goes to the open coil, unless it is there already, or sets packages-more where eight are; RUNOUT_NEAR is
entered where all of its strand is within the warning length. -/
def Obligations.SpliceFeedTakesOver : Prop :=
  (∀ (tag : Byte) (i : Fin 4) (old next : Package) (s : State), Ready s → s.plant.isSome = true →
    s.ropeCopy.isSome = true → s.used i = true →
    s.currentPackage i = some old → old.state = .feeding →
    s.reservePackage i = some next → next.state = .placed →
    exec (.spliceFeed tag i.val) s
        = .next ((spliceFeed i old next s).replied (.spliceFeed tag i.val) (.done [])) ∧
      (spliceFeed i old next s).place i
        = { current := some next.number, reserve := none, runout := false } ∧
      (∀ q, q ≠ i → (spliceFeed i old next s).place q = s.place q) ∧
      (spliceFeed i old next s).len .rope = s.len .rope) ∧
  (∀ (tag : Byte) (i : Fin 4) (s : State), Ready s → s.plant.isSome = true →
    (s.ropeCopy.isSome && s.used i && (s.currentPackage i).map Package.state == some .feeding
      && (s.reservePackage i).map Package.state == some .placed) = false →
    exec (.spliceFeed tag i.val) s
      = .next (s.replied (.spliceFeed tag i.val) (.state .wrongState))) ∧
  (∀ (tag : Byte) (i : Nat) (s : State), Ready s → 3 < i →
    exec (.spliceFeed tag i) s = .next (s.replied (.spliceFeed tag i) (.field 1))) ∧
  (∀ (tag : Byte) (i : Fin 4) (s : State), Ready s → s.plant = none →
    exec (.spliceFeed tag i.val) s
      = .next (s.replied (.spliceFeed tag i.val) (.state .notConfigured))) ∧
  (∀ (i : Fin 4) (old next : Package) (s : State), s.currentPackage i = some old →
    s.reservePackage i = some next → old.number ≠ next.number →
    let p := (s.len .rope).p
    let t := spliceFeed i old next s
    t.package old.number
      = some { old with
          state := .spent, seat := none, feedStart := none
          leftover := some (old.wound - old.consumed), spentOrder := some s.table.nextSpent } ∧
    t.table.nextSpent = s.table.nextSpent + 1 ∧
    t.package next.number
      = some { next with
          state := .feeding, seat := some (i.val, false), feedStart := some p, consumed := 0
          warned := next.warned || decide (next.wound ≤ s.warningLength) } ∧
    (∀ n, n ≠ old.number → n ≠ next.number → t.package n = s.package n) ∧
    t.hasCause 8 .runout
      = (s.hasCause 8 .runout && ([0, 1, 2, 3] : List (Fin 4)).any fun q => q != i && (s.place q).runout) ∧
    (∃ u : State,
      u.act .rope = { s.act .rope with
        marks := (s.act .rope).marks.filter fun m => m.made || m.source != some old.number } ∧
      u.len .rope = s.len .rope ∧ u.plant = s.plant ∧ u.ropeCopy = s.ropeCopy ∧
      t.act .rope
        = ((handMark .rope p
            { x := min (p + s.plantD.feedOffset) 4294967295, span := 0, kind := .splice
              source := some next.number, count := 1 }
            ((projection p s.plantD.feedOffset s.layFactor next).foldl
              (fun v m => (handMark .rope p m v).1) u)).1).act .rope)) ∧
  (∀ (i : Fin 4) (old next : Package) (s : State), s.currentPackage i = some old →
    s.reservePackage i = some next → old.number ≠ next.number →
    let p := (s.len .rope).p
    let marks := (s.act .rope).marks
    let kept := marks.filter fun m => m.made || m.source != some old.number
    let spent := (({ s with table := { s.table with nextSpent := s.table.nextSpent + 1 } } : State)
      |>.updatePackage old.number fun r =>
        { r with
          state := .spent, seat := none, feedStart := none
          leftover := some (old.wound - old.consumed), spentOrder := some s.table.nextSpent })
      |>.setMarks .rope kept
    let cleared :=
      if kept.length < marks.length ∧ kept.length ≤ 112 then clearCause 8 .marksFull spent else spent
    let moved := (cleared.setPlace i { s.place i with current := some next.number, reserve := none })
      |>.updatePackage next.number fun r =>
        { r with state := .feeding, seat := some (i.val, false), feedStart := some p, consumed := 0 }
    let marked := (projection p s.plantD.feedOffset s.layFactor next).foldl
      (fun u m => (handMark .rope p m u).1) moved
    let coil := marked.pack .rope
    let recorded :=
      if coil.state = .noCoil ∨ next.number ∈ coil.packages then marked
      else marked.setPack .rope
        (if coil.packages.length < 8 then { coil with packages := coil.packages ++ [next.number] }
        else { coil with more := true })
    let spliced := (handMark .rope p
      { x := min (p + s.plantD.feedOffset) 4294967295, span := 0, kind := .splice
        source := some next.number, count := 1 } recorded).1
    let warned :=
      if next.warned = false ∧ next.wound ≤ s.warningLength then
        enterReport .runoutNear (some 8)
          (be 1 i.val ++ be 2 next.number ++ be 4 next.wound ++ be 4 p)
          (spliced.updatePackage next.number fun r => { r with warned := true })
      else spliced
    let rested := warned.setPlace i
      { current := some next.number, reserve := none, runout := false }
    spliceFeed i old next s
      = if (∃ q, (rested.place q).runout = true) then rested else clearCause 8 .runout rested)

/-! ### Line length -/

/-- A pulse of the wheel of a loaded line moves the segment pulse total by one and the position to
clamp(B + floor(Q K / (N x 10^9)), 0, 4,294,967,295), whatever the rise or the fall makes the blocks do; a line not
loaded is left as it is.
A rise is taken by each block once, in an order the event names, the blocks it does not name after those (log 4): the
Package Table and the Twist Monitor on the rope line, and on each line the Line Action Unit, the Pack Planner's planning
event, and the tally of the line where the position passes its highest. A block that hands a mark over does so with the
line at the old position where the Line Action Unit has not taken the rise, at the new one where it has. A fall reaches
the Package Table and the lay window of the rope line, which starts again at the new position. -/
def Obligations.PositionFollowsPulses : Prop :=
  (∀ (l : LineId) (forward : Bool) (order : List RiseBlock) (s : State) (c : Constants),
    (s.len l).constants = some c →
    let q := if forward then min ((s.len l).q + 1) 140737488355327
      else max ((s.len l).q - 1) (-140737488355328)
    let value : Int := (s.len l).base + q * c.k / ((c.n * 10 ^ 9 : Nat) : Int)
    let t := linePulse l forward order s
    (t.len l).q = q ∧
    (t.len l).p = (max 0 (min value 4294967295)).toNat ∧
    (t.len l).saturated = ((s.len l).saturated || decide (4294967295 ≤ value)) ∧
    (t.len l).base = (s.len l).base ∧ (t.len l).constants = some c ∧
    (t.len l).speed = (s.len l).speed) ∧
  (∀ (l : LineId) (forward : Bool) (order : List RiseBlock) (s : State),
    (s.len l).constants = none → linePulse l forward order s = s) ∧
  (∀ (l : LineId) (forward : Bool) (order : List RiseBlock) (s : State) (c : Constants),
    (s.len l).constants = some c →
    let q := if forward then min ((s.len l).q + 1) 140737488355327
      else max ((s.len l).q - 1) (-140737488355328)
    let value : Int := (s.len l).base + q * c.k / ((c.n * 10 ^ 9 : Nat) : Int)
    let old := (s.len l).p
    let new := (max 0 (min value 4294967295)).toNat
    let moved := s.setLen l
      { s.len l with
        q := q, p := new, saturated := (s.len l).saturated || decide (4294967295 ≤ value) }
    (old < new →
      linePulse l forward order s = ((blockOrder order).foldl (takeRise l old new) (moved, old)).1) ∧
    (new < old → l = .rope → linePulse l forward order s = layFall new (packageFall new moved)) ∧
    (new = old ∨ (new < old ∧ l = .net) → linePulse l forward order s = moved)) ∧
  (∀ order : List RiseBlock,
    (blockOrder order).Nodup ∧ (∀ b, b ∈ blockOrder order) ∧
    ∃ rest, blockOrder order = order.eraseDups ++ rest) ∧
  (∀ (old new seen : Nat) (s : State),
    takeRise .rope old new (s, seen) .packageTable = (packageRise old new seen s, seen) ∧
    takeRise .rope old new (s, seen) .twistMonitor = (layRise new seen s, seen) ∧
    takeRise .net old new (s, seen) .packageTable = (s, seen) ∧
    takeRise .net old new (s, seen) .twistMonitor = (s, seen) ∧
    ∀ l, takeRise l old new (s, seen) .lineActions = (actionsRise l new s, new) ∧
      takeRise l old new (s, seen) .packPlanner = (planningEvent l new s, seen) ∧
      takeRise l old new (s, seen) .storeController
        = (if (s.len l).highMark < new then
            tallyAdd (machineOf l) (new - (s.len l).highMark)
              (s.setLen l { s.len l with highMark := new })
          else s, seen)) ∧
  (∀ (new : Nat) (s : State),
    layFall new s
      = if s.ropeCopy.isSome then { s with lay := { s.lay with head := 0, windowStart := new } } else s)

/-- LOAD_LINE_RECIPE: its checks in order, a slot EMPTY or of an unsuited kind refused with SLOT_EMPTY and a CORRUPT one
with SLOT_CORRUPT; and the line with the recipe of the slot as its working copy, its constants computed and a new
segment begun at its present position.
First a lay or mesh span open under the old recipe is closed at its last out end, with its mark and report. On the rope
line the lay window then restarts at the position, and CREEL is judged last; on the net line a scan in progress is no longer
kept. At the pack point a coil opens at the position where there is none, with the packages FEEDING on the rope line; a
coil OPEN or BOUND is unbound, and a binding is tried afresh. The pack point takes a load in NONE, and in OPEN or BOUND
while the coil's length so far is 0; a net recipe fits where every step's last hook is below eight times the drive lines.
The side and the ends of an out-run of count 0 are the
model's (log 9); a lay span whose end lies below its start is log 35's. -/
def Obligations.LoadLineRecipeBeginsSegment : Prop :=
  (∀ (tag : Byte) (l : LineId) (slot check : Nat) (body : RecipeBody) (s : State), Ready s →
    judgeSlot s.flash slot = .valid body check → suitsLine l body = true →
    exec (.loadLineRecipe tag (machineOf l).val slot) s
      = .next (s.judged (.loadLineRecipe tag (machineOf l).val slot)
          [inField 2 0 31 slot, (s.plant.isSome, .state .notConfigured),
            (!s.running l, .state .machineRunning),
            (l == .net || !s.anyFeeding, .state .wrongState),
            (packTakesLoad l s, .state .wrongState),
            (!s.slotWritten slot, .state .slotBeingWritten),
            (fitsGrid body s, .state .plantMismatch)]
          (loadLine l slot check body s) [])) ∧
  (∀ (tag : Byte) (l : LineId) (slot : Nat) (s : State), Ready s →
    let checks : List Check :=
      [inField 2 0 31 slot, (s.plant.isSome, .state .notConfigured),
        (!s.running l, .state .machineRunning), (l == .net || !s.anyFeeding, .state .wrongState),
        (packTakesLoad l s, .state .wrongState), (!s.slotWritten slot, .state .slotBeingWritten)]
    ((judgeSlot s.flash slot = .empty ∨
        ∃ body check, judgeSlot s.flash slot = .valid body check ∧ suitsLine l body = false) →
      exec (.loadLineRecipe tag (machineOf l).val slot) s
        = .next (s.judged (.loadLineRecipe tag (machineOf l).val slot)
            (checks ++ [(false, .state .slotEmpty)]) s [])) ∧
    (∀ check, judgeSlot s.flash slot = .corrupt check →
      exec (.loadLineRecipe tag (machineOf l).val slot) s
        = .next (s.judged (.loadLineRecipe tag (machineOf l).val slot)
            (checks ++ [(false, .state .slotCorrupt)]) s []))) ∧
  (∀ (slot check : Nat) (r : RopeRecipe) (s : State),
    let t := loadLine .rope slot check (.rope r) s
    t.ropeCopy = some ⟨slot, check, r⟩ ∧ t.netCopy = s.netCopy ∧
    t.len .rope
      = { s.len .rope with
          constants := some
            { n := s.plantD.nm
              cEff := s.plantD.cm + (2 * (r.diameter * 355) + 113) / (2 * 113)
              stretch := r.stretch
              k := (s.plantD.cm + (2 * (r.diameter * 355) + 113) / (2 * 113))
                * (1000000 - r.stretch) }
          base := (s.len .rope).p, q := 0
          saturated := decide ((s.len .rope).p = 4294967295) } ∧
    t.net = s.net) ∧
  (∀ (slot check : Nat) (r : NetRecipe) (s : State),
    let t := loadLine .net slot check (.net r) s
    t.netCopy = some ⟨slot, check, r⟩ ∧ t.ropeCopy = s.ropeCopy ∧
    t.len .net
      = { s.len .net with
          constants := some
            { n := s.plantD.nn, cEff := s.plantD.cn, stretch := r.stretch
              k := s.plantD.cn * (1000000 - r.stretch) }
          base := (s.len .net).p, q := 0
          saturated := decide ((s.len .net).p = 4294967295) } ∧
    t.knot.ring = [] ∧ t.knot.step = 0 ∧ t.knot.rowsDone = 0 ∧
    t.knot.counters = Vector.replicate 64 0 ∧ t.rope = s.rope) ∧
  (∀ (slot check : Nat) (r : RopeRecipe) (s : State),
    let p := (s.len .rope).p
    let ended : State := { s with lay := { s.lay with span := none } }
    let closed :=
      match s.lay.span with
      | some x => handLaySpan p ⟨x.side, x.start, s.lay.outRun.lastEnd⟩ ended
      | none => ended
    let cEff := s.plantD.cm + (2 * (r.diameter * 355) + 113) / (2 * 113)
    let copied := ({ closed with ropeCopy := some ⟨slot, check, r⟩ } : State).setLen .rope
      { closed.len .rope with
        constants := some
          { n := s.plantD.nm, cEff := cEff, stretch := r.stretch, k := cEff * (1000000 - r.stretch) }
        base := p, q := 0, saturated := decide (p = 4294967295) }
    let restarted : State :=
      { copied with
        lay :=
          { head := 0, windowStart := p, filter := none, last := none
            outRun := { side := .low, count := 0, runStart := 0, lastEnd := 0 }, span := none } }
    loadLine .rope slot check (.rope r) s = checkCreel (packLoads .rope restarted)) ∧
  (∀ (slot check : Nat) (r : NetRecipe) (s : State),
    let p := (s.len .net).p
    let ended : State := { s with knot := { s.knot with span := none } }
    let closed :=
      match s.knot.span with
      | some x => handMeshSpan ⟨x.side, x.start, s.knot.outRun.lastEnd⟩ ended
      | none => ended
    let copied := ({ closed with netCopy := some ⟨slot, check, r⟩ } : State).setLen .net
      { closed.len .net with
        constants := some
          { n := s.plantD.nn, cEff := s.plantD.cn, stretch := r.stretch
            k := s.plantD.cn * (1000000 - r.stretch) }
        base := p, q := 0, saturated := decide (p = 4294967295) }
    let restarted : State :=
      { copied with
        knot := { closed.knot with
          grid := some ⟨s.plantD.driveLines, s.plantD.settleTime⟩, step := 0, rowsDone := 0
          counters := Vector.replicate 64 0, faultHook := none, extrasLast := false, ring := []
          last := none, outRun := { side := .low, count := 0, runStart := 0, lastEnd := 0 }
          span := none, scan := closed.knot.scan.map fun x => { x with kept := false } } }
    loadLine .net slot check (.net r) s = packLoads .net restarted) ∧
  (∀ (seen : Nat) (x : ClosedSpan) (s : State), x.start ≤ x.stop →
    let place := min (x.start + s.plantD.feedOffset) 4294967295
    let span := min (x.stop - x.start) 1000000
    let kind : MarkKind := if x.side = .low then .layLow else .layHigh
    handLaySpan seen x s
      = enterReport .laySpan (some 8) (be 1 kind.code ++ be 4 place ++ be 4 span)
          (handMark .rope seen ⟨place, span, kind, none, 1⟩ s).1) ∧
  (∀ (x : ClosedSpan) (s : State),
    let span := min (x.stop - x.start) 1000000
    let kind : MarkKind := if x.side = .low then .meshShort else .meshLong
    handMeshSpan x s
      = enterReport .meshSpan (some 9)
          (be 1 kind.code ++ be 4 x.start ++ be 4 span ++ be 4 s.knot.row.toNat)
          (handMark .net (s.len .net).p ⟨x.start, span, kind, none, 1⟩ s).1) ∧
  (∀ s : State,
    checkCreel s = if s.creelLacks then setCause 8 .creel s else clearCause 8 .creel s) ∧
  (∀ (l : LineId) (s : State),
    ((s.pack l).state = .noCoil → packLoads l s = openCoil l (s.len l).p s) ∧
    ((s.pack l).state = .opened ∨ (s.pack l).state = .bound →
      packLoads l s
        = tryBinding l (s.setPack l { s.pack l with state := .opened, bound := none })) ∧
    ((s.pack l).state = .planned ∨ (s.pack l).state = .cutting ∨ (s.pack l).state = .cutFail →
      packLoads l s = s)) ∧
  (∀ (l : LineId) (x0 : Nat) (s : State),
    openCoil l x0 s
      = tryBinding l (s.setPack l
          { s.pack l with
            state := .opened, coilStart := some x0, bound := none, plan := none, nearSplice := false
            phase := none
            packages := match l with
              | .rope => ([0, 1, 2, 3] : List (Fin 4)).filterMap fun i =>
                  (s.place i).current.filter fun n => (s.package n).map Package.state == some .feeding
              | .net => []
            more := false })) ∧
  (∀ (l : LineId) (s : State),
    packTakesLoad l s = true ↔
      (s.pack l).state = .noCoil ∨
        (((s.pack l).state = .opened ∨ (s.pack l).state = .bound) ∧
          ∀ x0, (s.pack l).coilStart = some x0 → (s.len l).p ≤ s.cutterOffset l + x0)) ∧
  (∀ (body : RecipeBody) (s : State),
    fitsGrid body s = true ↔
      ∀ r, body = .net r → ∀ x ∈ r.pattern, x.last < 8 * s.plantD.driveLines)

/-- SET_POSITION: its checks in order (the value has index 2, though its four bytes hold no value out of range: the model's
reading, log 21, DEDUCED), and the line at the value set with everything timed by the old positions gone: marks, actions,
watches, the coil's start and packages; on the rope line the lay window and its span begin afresh at the value; on the net
line the ring is empty, mesh and span begin afresh and a scan in progress is no longer kept, the pattern and the counters
standing. The side and the ends of an out-run of count 0 are the model's (log 9). The other line is left as it is. -/
def Obligations.SetPositionRestartsLine : Prop :=
  (∀ (tag : Byte) (l : LineId) (v : Nat) (s : State), Ready s →
    exec (.setPosition tag (machineOf l).val v) s
      = .next (s.judged (.setPosition tag (machineOf l).val v)
          [inField 2 0 4294967295 v, (s.plant.isSome, .state .notConfigured),
            (!s.running l, .state .machineRunning),
            (l == .net || !s.anyFeeding, .state .wrongState),
            (!(s.pack l).state.underWay, .state .wrongState),
            ((s.pack l).record.isNone, .state .recordPending)]
          (setPosition l v s) [])) ∧
  (∀ (l other : LineId) (v : Nat) (s : State), other ≠ l →
    let t := setPosition l v s
    t.len l
      = { s.len l with
          base := v, q := 0, p := v, highMark := v, saturated := decide (v = 4294967295) } ∧
    (t.act l).marks = [] ∧ (t.act l).actions = [] ∧ (t.act l).onCount = 0 ∧
    (t.act l).marker = false ∧ (∀ i : Fin 4, (t.act l).watches[i] = none) ∧
    t.hasCause (machineOf l) .marksFull = false ∧ t.hasCause (machineOf l) .watch = false ∧
    ((s.pack l).state ≠ .noCoil → (t.pack l).coilStart = some v ∧ (t.pack l).packages = []) ∧
    t.line other = s.line other) ∧
  (∀ (v : Nat) (s : State),
    let fresh : OutRun := { side := .low, count := 0, runStart := 0, lastEnd := 0 }
    (setPosition .rope v s).lay
      = { head := 0, windowStart := v, filter := none, last := none, outRun := fresh, span := none } ∧
    (setPosition .rope v s).knot = s.knot ∧
    (setPosition .net v s).lay = s.lay ∧
    (setPosition .net v s).knot
      = { s.knot with
          ring := [], last := none, outRun := fresh, span := none
          scan := s.knot.scan.map fun x => { x with kept := false } })

/-! ### Marks, watches and stops -/

/-- ADD_MARK: its checks in order, and the mark handed to the line's list; a mark that merges with none and finds room
goes behind every mark at or below its position.
A mark overlapping or touching a FUTURE one of its kind and source is merged into it, and the grown mark absorbs the
first other mark it then takes, until it takes none. With 128 marks in the list one that merges with none is folded into
the last mark at or before its position, or the first of all, which is MIXED. An insertion that brings the count to 120
sets MARKS_FULL and enters MARKS_HIGH, with the position the line stands at (the model's choice, log 39); an absorption
that brings it to 112 or below clears it.
A mark at or below the position the line stands at for the Line Action Unit is MADE at once. A mark made is judged by the
spray set: its pair of spray actions is queued where there is room, and fires where it is reached; where there is none, or
a mark made at once has its on-trigger behind the line, it is MISSED. -/
def Obligations.AddMarkPlacesMark : Prop :=
  (∀ (tag : Byte) (l : LineId) (x span : Nat) (s : State), Ready s →
    let mark : NewMark := { x := x, span := span, kind := .operator, source := none, count := 1 }
    exec (.addMark tag (machineOf l).val x span) s
      = .next (s.judged (.addMark tag (machineOf l).val x span)
          [inField 3 0 1000000 span, (s.plant.isSome, .state .notConfigured),
            ((s.len l).constants.isSome, .state .wrongState)]
          (handMark l (s.len l).p mark s).1
          (addMarkFields l (handMark l (s.len l).p mark s).2.1 (handMark l (s.len l).p mark s).2.2
            (handMark l (s.len l).p mark s).1))) ∧
  (∀ (sprayed : Bool) (ref : Nat) (n : NewMark) (marks : List Mark),
    (∀ m ∈ marks, m.takes n.kind n.source n.x (n.x + n.span) = false) → marks.length < 128 →
    addMark sprayed ref n marks
      = (marks.takeWhile (fun m => decide (m.x ≤ n.x))
          ++ { ref := ref, x := n.x, span := n.span, kind := n.kind, source := n.source
               count := n.count, made := false, spray := .none }
          :: marks.dropWhile (fun m => decide (m.x ≤ n.x)), ref, .inserted)) ∧
  (∀ (m : Mark) (kind : MarkKind) (source : Option Nat) (x stop : Nat),
    m.takes kind source x stop = true ↔
      m.made = false ∧ m.kind = kind ∧ m.source = source ∧ x ≤ m.x + m.span ∧ m.x ≤ stop) ∧
  (∀ (sprayed : Bool) (ref : Nat) (n : NewMark) (marks : List Mark) (m : Mark),
    marks.find? (fun k => k.takes n.kind n.source n.x (n.x + n.span)) = some m →
    let grown := { m with
      x := min m.x n.x
      span := min (max (m.x + m.span) (n.x + n.span) - min m.x n.x) 1000000
      count := min (m.count + n.count) 255 }
    let others := marks.filter fun k => k.ref != m.ref
    let merged :=
      if n.x < m.x then
        others.takeWhile (fun k => decide (k.x ≤ grown.x)) ++ grown
          :: others.dropWhile (fun k => decide (k.x ≤ grown.x))
      else marks.map fun k => if k.ref = m.ref then grown else k
    addMark sprayed ref n marks = (absorb marks.length m.ref merged, m.ref, .merged)) ∧
  (∀ (fuel ref : Nat) (marks : List Mark) (g : Mark), marks.find? (fun k => k.ref == ref) = some g →
    let taken := marks.find? fun k => k.ref != ref && k.takes g.kind g.source g.x (g.x + g.span)
    (taken = none → absorb fuel ref marks = marks) ∧
    (∀ m, taken = some m →
      let grown := { g with
        x := min g.x m.x
        span := min (max (g.x + g.span) (m.x + m.span) - min g.x m.x) 1000000
        count := min (g.count + m.count) 255 }
      let left := marks.filter fun k => k.ref != m.ref
      let others := left.filter fun k => k.ref != ref
      absorb (fuel + 1) ref marks
        = absorb fuel ref
          (if m.x < g.x then
            others.takeWhile (fun k => decide (k.x ≤ grown.x)) ++ grown
              :: others.dropWhile (fun k => decide (k.x ≤ grown.x))
          else left.map fun k => if k.ref = ref then grown else k))) ∧
  (∀ (sprayed : Bool) (ref : Nat) (n : NewMark) (marks : List Mark) (m : Mark),
    (∀ k ∈ marks, k.takes n.kind n.source n.x (n.x + n.span) = false) → 128 ≤ marks.length →
    ((marks.filter fun k => decide (k.x ≤ n.x)).getLast? = some m ∨
      ((∀ k ∈ marks, n.x < k.x) ∧ marks.head? = some m)) →
    let folded := fun k : Mark =>
      let start := min k.x n.x
      let span := min (max (k.x + k.span) (n.x + n.span) - start) 1000000
      { k with
        kind := .mixed, x := start, span := span, count := min (k.count + n.count) 255
        source := if k.source = n.source then k.source else none
        spray := if k.made = true ∧ k.x + k.span < start + span ∧ sprayed = true then .missed
          else k.spray }
    addMark sprayed ref n marks
      = (marks.map (fun k => if k.ref = m.ref then folded k else k), m.ref, .folded)) ∧
  (∀ (l : LineId) (p : Nat) (n : NewMark) (s : State),
    let a := s.act l
    let r := addMark (MarkKind.mixed.isIn (s.spraySet l)) a.nextRef n a.marks
    let placed := s.setAct l { a with marks := r.1, nextRef := a.nextRef + 1 }
    let judged :=
      if r.2.2 = .inserted ∧ r.1.length = 120 ∧ s.hasCause (machineOf l) .marksFull = false then
        enterReport .marksHigh (some (machineOf l).val) (be 1 120 ++ be 4 (s.len l).p)
          (setCause (machineOf l) .marksFull placed)
      else if r.2.2 = .merged ∧ r.1.length < a.marks.length ∧ r.1.length ≤ 112 then
        clearCause (machineOf l) .marksFull placed
      else placed
    let made :=
      match (judged.act l).marks.find? fun m => m.ref == r.2.1 with
      | some m => if m.made = false ∧ m.x ≤ p then makeMark l (.atOnce p) m judged else judged
      | none => judged
    handMark l p n s = (made, r.2.1, r.2.2)) ∧
  (∀ (l : LineId) (how : Making) (m : Mark) (s : State),
    let made := s.setMarks l
      ((s.act l).marks.map fun k => if k.ref = m.ref then { k with made := true } else k)
    let sprayAs := fun v : SprayState =>
      made.setMarks l ((made.act l).marks.map fun k => if k.ref = m.ref then { k with spray := v } else k)
    let on := min (m.x + s.markerOffset l) 4294967295
    let off := min (m.x + max m.span 50 + s.markerOffset l) 4294967295
    let room : Prop := ((s.act l).actions.filter fun a => a.act.isSpray).length ≤ 29
    (m.kind.isIn (s.spraySet l) = false → makeMark l how m s = made) ∧
    (m.kind.isIn (s.spraySet l) = true →
      ((∃ p, how = .atOnce p ∧ on < p) ∨ ¬room → makeMark l how m s = sprayAs .missed) ∧
      (how = .atRise → room →
        makeMark l how m s
          = (sprayAs .pending).setActions l
              (placeAction ⟨off, .sprayOff m.ref⟩
                (placeAction ⟨on, .sprayOn m.ref⟩ (s.act l).actions))) ∧
      (∀ p, how = .atOnce p → p ≤ on → room →
        makeMark l how m s
          = queueAction l p ⟨off, .sprayOff m.ref⟩
              (queueAction l p ⟨on, .sprayOn m.ref⟩ (sprayAs .pending))))) ∧
  (∀ (l : LineId) (p : Nat) (a : Action) (s : State),
    queueAction l p a s
      = if a.trigger ≤ p then fireAct l a.act s
        else s.setActions l (placeAction a (s.act l).actions)) ∧
  (∀ (a : Action) (queue : List Action),
    placeAction a queue
      = queue.takeWhile (fun k => decide (k.trigger ≤ a.trigger)) ++ a
        :: queue.dropWhile (fun k => decide (k.trigger ≤ a.trigger)))

/-- SET_WATCH: refused where the position has been reached or no watch is clear; otherwise the clear watch of lowest
number is set.
At a rise of the line the marks reached are MADE, in list order; then the actions reached fire, in queue order, and leave
the queue, but for a CUT while the line's pack point holds a pending record; then the watches reached are hit, by position
and number. An on-action raises the marker on-count and an off-action lowers it, the marker output following it, and a
mark still PENDING is DONE. A watch that is hit is clear, sets WATCH and enters WATCH_HIT. -/
def Obligations.SetWatchSetsLowest : Prop :=
  (∀ (tag : Byte) (l : LineId) (x : Nat) (s : State), Ready s → s.plant.isSome = true →
    (x ≤ (s.len l).p →
      exec (.setWatch tag (machineOf l).val x) s
        = .next (s.replied (.setWatch tag (machineOf l).val x) (.state .passed))) ∧
    ((s.len l).p < x → (∀ i : Fin 4, ((s.act l).watches[i]).isSome = true) →
      exec (.setWatch tag (machineOf l).val x) s
        = .next (s.replied (.setWatch tag (machineOf l).val x) (.state .queueFull))) ∧
    (∀ i : Fin 4, (s.len l).p < x → (s.act l).watches[i] = none →
      (∀ k : Fin 4, k < i → ((s.act l).watches[k]).isSome = true) →
      exec (.setWatch tag (machineOf l).val x) s
        = .next ((s.setAct l { s.act l with watches := (s.act l).watches.set i (some x) }).replied
            (.setWatch tag (machineOf l).val x) (.done (be 1 i.val))))) ∧
  (∀ (l : LineId) (pNew : Nat) (s : State),
    let made := ((s.act l).marks.filter fun m => !m.made && decide (m.x ≤ pNew)).foldl
      (fun u m => makeMark l .atRise m u) s
    let fires := fun a : Action =>
      decide (a.trigger ≤ pNew) && (a.act != .cut || (made.pack l).record.isNone)
    let fired := ((made.act l).actions.filter fires).foldl (fun u a => fireAct l a.act u)
      (made.setActions l ((made.act l).actions.filter fun a => !fires a))
    actionsRise l pNew s
      = (watchesReached pNew (fired.act l).watches).foldl (fun u w => hitWatch l pNew w u) fired) ∧
  (∀ (l : LineId) (s : State),
    (∀ ref, fireAct l (.sprayOn ref) s
      = s.setAct l { s.act l with onCount := (s.act l).onCount + 1, marker := true }) ∧
    (∀ ref, fireAct l (.sprayOff ref) s
      = s.setAct l { s.act l with
          onCount := (s.act l).onCount - 1
          marker := decide (0 < (s.act l).onCount - 1)
          marks := (s.act l).marks.map fun m =>
            if m.ref = ref ∧ m.spray = .pending then { m with spray := .done } else m }) ∧
    fireAct l .cut s = cutFires l s ∧
    (∀ (pNew x : Nat) (i : Fin 4),
      hitWatch l pNew (x, i) s
        = enterReport .watchHit (some (machineOf l).val) (be 1 i.val ++ be 4 x ++ be 4 pNew)
            (setCause (machineOf l) .watch
              (s.setAct l { s.act l with watches := (s.act l).watches.set i none })))) ∧
  (∀ (p : Nat) (watches : Vector (Option Nat) 4),
    (∀ (x : Nat) (i : Fin 4), (x, i) ∈ watchesReached p watches ↔ watches[i] = some x ∧ x ≤ p) ∧
    (watchesReached p watches).Pairwise fun a b => a.1 < b.1 ∨ (a.1 = b.1 ∧ a.2 < b.2))

/-- R97: CLEAR_WATCH makes the watch named clear and touches nothing else. -/
def Obligations.ClearWatchClears : Prop :=
  (∀ (tag : Byte) (m w : Nat) (s : State), Ready s → m ≠ 8 → m ≠ 9 →
    exec (.clearWatch tag m w) s = .next (s.replied (.clearWatch tag m w) (.field 1))) ∧
  (∀ (tag : Byte) (l : LineId) (w : Nat) (s : State), Ready s → 3 < w →
    exec (.clearWatch tag (machineOf l).val w) s
      = .next (s.replied (.clearWatch tag (machineOf l).val w) (.field 2))) ∧
  (∀ (tag : Byte) (l : LineId) (w : Fin 4) (s : State), Ready s →
    exec (.clearWatch tag (machineOf l).val w.val) s
      = .next ((s.setAct l { s.act l with watches := (s.act l).watches.set w none }).replied
          (.clearWatch tag (machineOf l).val w.val) (.done [])))

/-- R98: a stop output is asserted exactly when its cause set is not empty, after every command if before; both resets
leave every set empty, every output released and no report queued, and STARTED is the first record after them. -/
def Obligations.StopOutputsFollowCauses : Prop :=
  (∀ (c : Instr) (s t : State), Inv s → exec c s = .next t →
    ∀ m, (t.stop m).asserted = true ↔ (t.stop m).causes ≠ 0) ∧
  (∀ (br1 br0 : Bool) (steps : Nat) (faults : List StepFault) (s : State),
    ∃ t u : State, exec (.powerOnReset br1 br0 steps faults) s = .next t ∧
      t.link.reports = [] ∧ t.link.held = [] ∧
      (∀ m, (t.stop m).causes = 0 ∧ (t.stop m).asserted = false) ∧
      exec .startSequenceEnd t = .next u ∧ u.link.reports.head?.map Report.kind = some .started) ∧
  (∀ (br1 br0 : Bool) (s : State), s.restartDue = true →
    ∃ t u : State, exec (.restartReset br1 br0) s = .next t ∧
      t.link.reports = [] ∧ t.link.held = s.link.held ∧
      (∀ m, (t.stop m).causes = 0 ∧ (t.stop m).asserted = false) ∧
      exec .startSequenceEnd t = .next u ∧ u.link.reports.head?.map Report.kind = some .started)

/-- A notice that changes a machine's set is one change, judged at the output and reported; one that changes nothing
does nothing; other machines' sets are left as they are.
STOP_MACHINE sets COMMANDED on the machine, asserts its output, and touches neither positions nor lines. -/
def Obligations.StopNoticesChangeOneSet : Prop :=
  (∀ (m : Fin 10) (set clear : CauseSet) (s : State),
      let before := (s.stop m).causes
      let after := (before ||| set) &&& ~~~clear
      (after = before → stopNotice m set clear s = s) ∧
      ((stopNotice m set clear s).stop m).causes = after ∧
      (after ≠ before → ((stopNotice m set clear s).stop m).asserted = (after != 0)) ∧
      (∀ k, k ≠ m → (stopNotice m set clear s).stop k = s.stop k) ∧
      (after ≠ before → (after &&& ~~~before) = 0 → stopNotice m set clear s
        = enterReport .stopChange (some m.val)
            (be 2 after.toNat ++ be 2 0 ++ be 2 (before &&& ~~~after).toNat ++ yesNo (after != 0))
            { s with stops := s.stops.set m { causes := after, asserted := after != 0 } }) ∧
      (after ≠ before → (after &&& ~~~before) ≠ 0 → stopNotice m set clear s
        = enterReport .stopChange (some m.val)
            (be 2 after.toNat ++ be 2 (after &&& ~~~before).toNat
              ++ be 2 (before &&& ~~~after).toNat ++ yesNo (after != 0))
            { s with
              stops := s.stops.set m { causes := after, asserted := after != 0 }
              link := { s.link with
                latches := s.link.latches.set m { steady := false, stopSeen := true } } })) ∧
  (∀ (tag : Byte) (m : Fin 10) (s : State), Ready s →
    ∃ t : State, exec (.stopMachine tag m.val) s = .next (t.replied (.stopMachine tag m.val) (.done [])) ∧
      t = stopNotice m (StopCause.only .commanded) 0 s ∧
      t.hasCause m .commanded = true ∧
      (∀ k, k ≠ m → t.stop k = s.stop k) ∧
      t.jobs = s.jobs ∧ t.rope = s.rope ∧ t.net = s.net ∧ t.table = s.table ∧
      t.orders = s.orders ∧ t.flash = s.flash ∧ t.queue = s.queue ∧ t.inputs = s.inputs) ∧
  (∀ (tag : Byte) (m : Nat) (s : State), Ready s → 9 < m →
    exec (.stopMachine tag m) s = .next (s.replied (.stopMachine tag m) (.field 1)))

/-- R101: RELEASE clears a cause that the host may release on the machine, changes nothing where it is not set, releases
the output where it was the last, and tells the Knot Scanner of a HOOK_FAULT that was set; any other cause is refused
with FIELD (2). A block that sets the cause after the release stops the machine again. -/
def Obligations.ReleaseClearsCause : Prop :=
  let mayRelease := fun (m : Fin 10) =>
    if m = 9 then [StopCause.commanded, .watch, .hookFault, .sensor, .panelEnd]
    else if m = 8 then [StopCause.commanded, .watch]
    else [StopCause.commanded]
  (∀ (tag : Byte) (m : Nat) (c : Nat) (s : State), Ready s → 9 < m →
    exec (.release tag m c) s = .next (s.replied (.release tag m c) (.field 1))) ∧
  (∀ (tag : Byte) (m : Fin 10) (code : Nat) (s : State), Ready s →
    (∀ c ∈ mayRelease m, c.code ≠ code) →
    exec (.release tag m.val code) s = .next (s.replied (.release tag m.val code) (.field 2))) ∧
  (∀ (tag : Byte) (m : Fin 10) (c : StopCause) (s : State), Ready s → c ∈ mayRelease m →
    ∃ t : State, exec (.release tag m.val c.code) s
        = .next (t.replied (.release tag m.val c.code) (.done [])) ∧
      t.hasCause m c = false ∧ (s.hasCause m c = false → t = s) ∧
      (StopsAgree s → (t.stop m).asserted = ((s.stop m).causes &&& ~~~c.only != 0)) ∧
      (∀ k, k ≠ m → t.stop k = s.stop k) ∧
      (t.stop m).causes = (s.stop m).causes &&& ~~~c.only ∧
      (c = .hookFault → s.hasCause m c = true →
        t = { stopNotice m 0 c.only s with
          knot := { s.knot with counters := Vector.replicate 64 0, faultHook := none } }) ∧
      ((c ≠ .hookFault ∨ s.hasCause m c = false) → t = stopNotice m 0 c.only s)) ∧
  (∀ (m : Fin 10) (c : StopCause) (s : State), StopsAgree s →
    (setCause m c s).hasCause m c = true ∧ ((setCause m c s).stop m).asserted = true)

/-! ### The knotting machine -/

/-- A row event with a net recipe loaded: the row number rises, the row enters the ring at the net position, the pattern
advances by one row, and a scan of the row begins where the scanner is idle; with none loaded it does nothing.
A row that finds a scan in progress is UNSCANNED, with its mark and ROW_FAULT. The last row of the pattern ends the panel.
The mesh check holds the row against the one the recipe's count of rows back, its out-run and span by the rules of O33;
a span that closes goes to the mark list and to MESH_SPAN.
The settle time of a driven line: the next line is driven with the samples kept, or the scan ends; a scan no longer
kept ends without a finding, and so does one whose row has left the ring (log 42). The clock stands at its end (log 2); a
scan running over a load goes by the grid of that load (log 25).
A kept scan gives the row its sets, a KNOT_MISSING mark where knots are missing, and each hook its counter; a hook whose
counter rises to the limit sets HOOK_FAULT; extras in two rows running set SENSOR; a row with findings enters
ROW_FAULT. -/
def Obligations.RowsAreCountedAndScanned : Prop :=
  (∀ s : State, s.netCopy = none → rowEvent s = s) ∧
  (∀ (s : State) (c : Copy NetRecipe), s.netCopy = some c →
    let k := s.knot
    let t := rowEvent s
    let stepDone : Prop := k.rowsDone + 1 = (stepOf c.recipe.pattern k.step).rows
    t.knot.row = k.row + 1 ∧
    (stepDone → k.step + 1 < c.recipe.pattern.length →
      t.knot.step = k.step + 1 ∧ t.knot.rowsDone = 0 ∧ t.knot.panels = k.panels) ∧
    (stepDone → c.recipe.pattern.length ≤ k.step + 1 →
      t.knot.step = 0 ∧ t.knot.rowsDone = 0 ∧ t.knot.panels = min (k.panels + 1) 65535 ∧
      t.hasCause 9 .panelEnd = true) ∧
    (¬stepDone →
      t.knot.step = k.step ∧ t.knot.rowsDone = k.rowsDone + 1 ∧ t.knot.panels = k.panels) ∧
    t.knot.ring
      = (if k.ring.length < 32 then k.ring else k.ring.tail)
        ++ [{ number := k.row + 1, step := k.step, position := (s.len .net).p
              scan := if k.scan.isNone then .scanning else .unscanned }] ∧
    (k.scan = none →
      t.knot.scan
          = some { row := k.row + 1, kept := true, line := 0, samples := 0
                   deadline := s.now + (k.grid.map Grid.settle).getD 0 } ∧
        t.knot.driven = some 0) ∧
    (k.scan.isSome = true → t.knot.scan = k.scan ∧ t.knot.driven = k.driven) ∧
    t.knot.counters = k.counters) ∧
  (∀ (samples : Byte) (s : State) (x : ScanInProgress) (g : Grid),
    s.knot.scan = some x → s.knot.grid = some g →
    let now := max s.now x.deadline
    let known := x.samples ||| (samples.zeroExtend 64 <<< (8 * x.line))
    (x.line + 1 < g.lines →
      exec (.scanSettleElapsed samples) s
        = .next { s with
            now := now
            knot := { s.knot with
              scan := some { x with line := x.line + 1, samples := known, deadline := now + g.settle }
              driven := some (x.line + 1) } }) ∧
    (g.lines ≤ x.line + 1 → x.kept = false →
      exec (.scanSettleElapsed samples) s
        = .next { s with now := now, knot := { s.knot with scan := none, driven := none } }) ∧
    (g.lines ≤ x.line + 1 → ∃ t : State, exec (.scanSettleElapsed samples) s = .next t ∧
      t.now = now ∧ t.knot.scan = none ∧ t.knot.driven = none ∧
      t.knot.step = s.knot.step ∧ t.knot.rowsDone = s.knot.rowsDone ∧ t.knot.row = s.knot.row ∧
      (∀ (c : Copy NetRecipe) (e : RowEntry), x.kept = true → s.netCopy = some c →
        (s.knot.ring.find? fun e => e.number == x.row && e.scan == .scanning) = some e →
        t.knot.ring = s.knot.ring.map fun r =>
          if r.number = e.number ∧ r.scan = .scanning then
            { r with
              scan := .scanned
                { present := known
                  missing := expectedSet (stepOf c.recipe.pattern e.step) &&& ~~~known
                  extra := known &&& ~~~expectedSet (stepOf c.recipe.pattern e.step) } }
          else r))) ∧
  (∀ (s : State) (c : Copy NetRecipe), s.netCopy = some c →
    let k := s.knot
    let checked := checkMesh c.recipe (s.len .net).p { s with knot := { k with row := k.row + 1 } }
    let e : RowEntry :=
      { number := k.row + 1, step := k.step, position := (s.len .net).p
        scan := if checked.knot.scan.isNone then .scanning else .unscanned }
    let entered : State :=
      { checked with
        knot := { checked.knot with
          ring := (if checked.knot.ring.length < 32 then checked.knot.ring
            else checked.knot.ring.tail) ++ [e] } }
    let expected := stepOf c.recipe.pattern e.step
    (checked.knot.scan = none →
      rowEvent s = advancePattern c.recipe e
        { entered with
          knot := { entered.knot with
            scan := some { row := k.row + 1, kept := true, line := 0, samples := 0
                           deadline := entered.now + (entered.knot.grid.map Grid.settle).getD 0 }
            driven := some 0 } }) ∧
    (checked.knot.scan.isSome = true →
      rowEvent s = advancePattern c.recipe e
        (enterReport .rowFault (some 9)
          (be 4 e.number.toNat ++ be 4 e.position ++ be 1 e.step ++ be 1 0
            ++ be 1 expected.first ++ be 1 expected.last ++ hookBytes 0)
          (handMark .net (entered.len .net).p
            { x := e.position, span := 0, kind := .unscanned, source := none, count := 1 }
            entered).1))) ∧
  (∀ (r : NetRecipe) (e : RowEntry) (s : State),
    let k := s.knot
    let panels := min (k.panels + 1) 65535
    let ended := panelEnds e.position
      (enterReport .panelEnd (some 9) (be 4 e.number.toNat ++ be 4 e.position ++ be 2 panels)
        (setCause 9 .panelEnd { s with knot := { k with panels := panels } }))
    k.rowsDone + 1 = (stepOf r.pattern k.step).rows → r.pattern.length ≤ k.step + 1 →
    advancePattern r e s = { ended with knot := { ended.knot with rowsDone := 0, step := 0 } }) ∧
  (∀ (r : NetRecipe) (position : Nat) (s : State),
    let k := s.knot
    (k.ring.length < r.rowsPerCheck → checkMesh r position s = s) ∧
    (∀ back, r.rowsPerCheck ≤ k.ring.length →
      k.ring[k.ring.length - r.rowsPerCheck]? = some back →
      let exact := (40 * (position - back.position) + r.rowsPerCheck) / (2 * r.rowsPerCheck)
      let mesh := min exact 65535
      let verdict : Verdict :=
        if mesh < r.nominal - r.tolLow then .low
        else if r.nominal + r.tolHigh < mesh then .high
        else .inBand
      let step := outRunStep r.outRun verdict back.position position k.outRun k.span
      let checked : State :=
        { s with
          knot := { k with
            last := some { mesh := mesh, isOver := decide (65535 < exact), verdict := verdict }
            outRun := step.outRun, span := step.span } }
      (step.closed = none → checkMesh r position s = checked) ∧
      (∀ x, step.closed = some x →
        let span := min (x.stop - x.start) 1000000
        let kind : MarkKind := if x.side = .low then .meshShort else .meshLong
        checkMesh r position s
          = enterReport .meshSpan (some 9)
              (be 1 kind.code ++ be 4 x.start ++ be 4 span ++ be 4 k.row.toNat)
              (handMark .net (s.len .net).p ⟨x.start, span, kind, none, 1⟩ checked).1))) ∧
  (∀ (samples : Byte) (s : State) (x : ScanInProgress) (g : Grid) (c : Copy NetRecipe) (e : RowEntry),
    s.knot.scan = some x → s.knot.grid = some g → g.lines ≤ x.line + 1 → x.kept = true →
    s.netCopy = some c →
    (s.knot.ring.find? fun e => e.number == x.row && e.scan == .scanning) = some e →
    let known := x.samples ||| (samples.zeroExtend 64 <<< (8 * x.line))
    let judged := judgeRow c.recipe e known { s with now := max s.now x.deadline }
    exec (.scanSettleElapsed samples) s
      = .next { judged with knot := { judged.knot with scan := none, driven := none } }) ∧
  (∀ (samples : Byte) (s : State) (x : ScanInProgress) (g : Grid),
    s.knot.scan = some x → s.knot.grid = some g → g.lines ≤ x.line + 1 →
    (s.knot.ring.find? fun e => e.number == x.row && e.scan == .scanning) = none →
    exec (.scanSettleElapsed samples) s
      = .next { s with
          now := max s.now x.deadline, knot := { s.knot with scan := none, driven := none } }) ∧
  (∀ (r : NetRecipe) (e : RowEntry) (present : HookSet) (s : State),
    let step := stepOf r.pattern e.step
    let missing := expectedSet step &&& ~~~present
    let extra := present &&& ~~~expectedSet step
    let sets : RowSets := { present := present, missing := missing, extra := extra }
    let ringed : State :=
      { s with
        knot := { s.knot with
          ring := s.knot.ring.map fun k =>
            if k.number = e.number ∧ k.scan = .scanning then { k with scan := .scanned sets } else k } }
    let marked :=
      if hookCount missing = 0 then ringed
      else (handMark .net (s.len .net).p
        { x := e.position, span := 0, kind := .knotMissing
          source := if hookCount missing = 1 then lowestHook missing else none
          count := hookCount missing } ringed).1
    let before := marked.knot.counters
    let after := countMisses (expectedSet step) sets before
    let counted : State := { marked with knot := { marked.knot with counters := after } }
    let hooked :=
      match hooksAtLimit r.hookLimit missing before after with
      | [] => counted
      | h :: rest =>
        if counted.hasCause 9 .hookFault then counted
        else
          enterReport .hookFault (some 9)
            (be 1 h.val ++ be 1 after[h] ++ be 4 e.number.toNat ++ be 4 e.position
              ++ be 1 (rest.length + 1))
            (setCause 9 .hookFault
              { counted with knot := { counted.knot with faultHook := some h.val } })
    let sensor := extra != 0 && hooked.knot.extrasLast && !hooked.hasCause 9 .sensor
    let sensed := if sensor then setCause 9 .sensor hooked else hooked
    let known : State := { sensed with knot := { sensed.knot with extrasLast := extra != 0 } }
    judgeRow r e present s
      = if missing ||| extra = 0 then known
        else enterReport .rowFault (some 9)
          (be 4 e.number.toNat ++ be 4 e.position ++ be 1 e.step
            ++ be 1 (1 + if sensor then 2 else 0) ++ be 1 step.first ++ be 1 step.last
            ++ hookBytes (missing ||| extra)) known) ∧
  (∀ (step : PatternStep) (h : Fin 64),
    (expectedSet step).getLsbD h.val = (decide (step.first ≤ h.val) && decide (h.val ≤ step.last))) ∧
  (∀ (expected : HookSet) (sets : RowSets) (counters : Vector Nat 64) (h : Fin 64),
    (countMisses expected sets counters)[h]
      = if sets.missing.getLsbD h.val then min (counters[h] + 1) 15
        else if expected.getLsbD h.val then 0
        else counters[h]) ∧
  (∀ (limit : Nat) (missing : HookSet) (before after : Vector Nat 64),
    (∀ h : Fin 64, h ∈ hooksAtLimit limit missing before after ↔
      missing.getLsbD h.val = true ∧ before[h] ≠ limit ∧ after[h] = limit) ∧
    (hooksAtLimit limit missing before after).Pairwise (fun a b => a < b)) ∧
  (∀ missing : HookSet,
    hookCount missing = ((List.range 64).filter fun i => missing.getLsbD i).length ∧
    lowestHook missing = (List.range 64).find? fun i => missing.getLsbD i)

/-- R125: READ_ROWS carries rows of the ring from the newest backward. -/
def Obligations.ReadRowsNewestFirst : Prop :=
  ∀ (tag : Byte) (a n : Nat) (s : State), Ready s →
    exec (.readRows tag a n) s
      = .next (s.judged (.readRows tag a n) [inField 1 0 31 a, inField 2 1 7 n] s
          (be 1 s.knot.ring.length ++ be 1 ((s.knot.ring.reverse.drop a).take n).length
            ++ ((s.knot.ring.reverse.drop a).take n).flatMap RowEntry.bytes))

/-! ### Orders and cuts -/

/-- ADD_ORDER: its checks in order, a slot EMPTY or of a kind that does not suit the line refused with SLOT_EMPTY and a
CORRUPT one with SLOT_CORRUPT; the order goes to the end of the queue with the slot's check word, and a binding is
tried.
A binding is made on an OPEN line with its oldest order, where the line's working copy is of that order's slot and check
word and the coil is not yet longer than its shortest length; otherwise ORDER_BLOCKED is entered with the reason. A
binding made is planned at once where it is due.
CANCEL_ORDER: refused where no order has the number, and where its coil's cut is under way; otherwise the order
leaves the queue, and a binding is tried where its line is OPEN. -/
def Obligations.OrdersAreAddedAndCancelled : Prop :=
  (∀ (tag : Byte) (e : OrderEntry) (body : RecipeBody) (check : Nat) (s : State), Ready s →
      judgeSlot s.flash e.slot = .valid body check →
      let line : LineId := if e.line = 8 then .rope else .net
      let order : Order :=
        { number := e.number, line := line, slot := e.slot, check := check
          rule := if e.rule = 2 then .panel else .length
          target := e.target, low := e.low, high := e.high, count := e.count, done := 0
          minGrade := Grade.ofCode e.minGrade }
      exec (.addOrder tag e) s
        = .next (s.judged (.addOrder tag e)
            [inField 1 1 65535 e.number, inField 2 8 9 e.line, inField 3 0 31 e.slot,
              (e.rule == 1 || (e.rule == 2 && e.line == 9), .field 4),
              inField 5 1000 2000000 e.target,
              (decide (e.low ≤ 50000) && decide (e.low < e.target), .field 6),
              inField 7 0 50000 e.high, inField 8 1 255 e.count, inField 9 1 3 e.minGrade,
              (s.plant.isSome, .state .notConfigured),
              ((s.order e.number).isNone, .state .duplicate),
              (decide (s.orders.length < 16), .state .queueFull),
              (!s.slotWritten e.slot, .state .slotBeingWritten),
              (suitsLine line body, .state .slotEmpty)]
            (tryBinding line { s with orders := s.orders ++ [order] }) []) ∧
      (tryBinding line { s with orders := s.orders ++ [order] }).orders = s.orders ++ [order]) ∧
  (∀ (tag : Byte) (e : OrderEntry) (s : State), Ready s →
      let line : LineId := if e.line = 8 then .rope else .net
      let checks : List Check :=
        [inField 1 1 65535 e.number, inField 2 8 9 e.line, inField 3 0 31 e.slot,
          (e.rule == 1 || (e.rule == 2 && e.line == 9), .field 4), inField 5 1000 2000000 e.target,
          (decide (e.low ≤ 50000) && decide (e.low < e.target), .field 6),
          inField 7 0 50000 e.high, inField 8 1 255 e.count, inField 9 1 3 e.minGrade,
          (s.plant.isSome, .state .notConfigured), ((s.order e.number).isNone, .state .duplicate),
          (decide (s.orders.length < 16), .state .queueFull),
          (!s.slotWritten e.slot, .state .slotBeingWritten)]
      ((judgeSlot s.flash e.slot = .empty ∨
          ∃ body check, judgeSlot s.flash e.slot = .valid body check ∧ suitsLine line body = false) →
        exec (.addOrder tag e) s
          = .next (s.judged (.addOrder tag e) (checks ++ [(false, .state .slotEmpty)]) s [])) ∧
      (∀ check, judgeSlot s.flash e.slot = .corrupt check →
        exec (.addOrder tag e) s
          = .next (s.judged (.addOrder tag e) (checks ++ [(false, .state .slotCorrupt)]) s []))) ∧
  (∀ (l : LineId) (s : State),
    (((s.pack l).state ≠ .opened ∨ (s.orders.find? fun o => o.line == l) = none) →
      tryBinding l s = s) ∧
    (∀ o, (s.pack l).state = .opened → (s.orders.find? fun o => o.line == l) = some o →
      (s.copyOf l ≠ some (o.slot, o.check) →
        tryBinding l s
          = enterReport .orderBlocked (some (machineOf l).val)
              (be 2 o.number ++ be 1 1 ++ be 4 (s.len l).p) s) ∧
      (s.copyOf l = some (o.slot, o.check) → o.target - o.low < s.lengthSoFar l →
        tryBinding l s
          = enterReport .orderBlocked (some (machineOf l).val)
              (be 2 o.number ++ be 1 2 ++ be 4 (s.len l).p) s) ∧
      (s.copyOf l = some (o.slot, o.check) → s.lengthSoFar l ≤ o.target - o.low →
        tryBinding l s
          = planningEvent l (s.len l).p
              (s.setPack l { s.pack l with state := .bound, bound := some o.number })))) ∧
  (∀ (tag : Byte) (n : Nat) (s : State), Ready s → 1 ≤ n → n ≤ 65535 →
      (s.order n = none →
        exec (.cancelOrder tag n) s
          = .next (s.replied (.cancelOrder tag n) (.state .notFound))) ∧
      (∀ o : Order, s.order n = some o → (s.pack .rope).bound ≠ some n → (s.pack .net).bound ≠ some n →
        ∃ t : State, exec (.cancelOrder tag n) s = .next (t.replied (.cancelOrder tag n) (.done [])) ∧
          t.orders = s.orders.filter (fun o => o.number != n) ∧
          t = tryBinding o.line { s with orders := s.orders.filter fun o => o.number != n } ∧
          ((s.pack o.line).state ≠ .opened →
            t = { s with orders := s.orders.filter fun o => o.number != n })) ∧
      (∀ l : LineId, (s.order n).isSome = true → (s.pack l).bound = some n →
        (l = .net → (s.pack .rope).bound ≠ some n) →
        ((s.pack l).state = .planned ∨ (s.pack l).state = .cutting ∨ (s.pack l).state = .cutFail) →
        exec (.cancelOrder tag n) s
          = .next (s.replied (.cancelOrder tag n) (.state .wrongState))) ∧
      (∀ l : LineId, (s.order n).isSome = true → (s.pack l).bound = some n →
        (l = .net → (s.pack .rope).bound ≠ some n) → (s.pack l).state = .bound →
        ∃ t : State, exec (.cancelOrder tag n) s = .next (t.replied (.cancelOrder tag n) (.done [])) ∧
          t.orders = s.orders.filter (fun o => o.number != n) ∧
          t = tryBinding l (({ s with orders := s.orders.filter fun o => o.number != n } : State).setPack l
            { s.pack l with state := .opened, bound := none })))

/-- R134: READ_ORDERS carries orders in queue order, passing over the first ones. -/
def Obligations.ReadOrdersInQueueOrder : Prop :=
  ∀ (tag : Byte) (k n : Nat) (s : State), Ready s →
    exec (.readOrders tag k n) s
      = .next (s.judged (.readOrders tag k n) [inField 1 0 15 k, inField 2 1 8 n] s
          (be 1 s.orders.length ++ be 1 ((s.orders.drop k).take n).length
            ++ ((s.orders.drop k).take n).flatMap (orderBytes s)))

/-- END_COIL: its checks in order, and the cut planned where the coil stands.
The planning event of a bound LENGTH order is due where the line has carried the shortest coil to the cutter: of the
points in the window and clear of every splice by the guard (the nominal one, and before and after each mark) the one of
the best grade is planned, of these the nearest to the nominal point, of these the smaller; where none is clear, the
nominal point. A panel end plans the cut of a bound PANEL order at the panel tail beyond it. A plan puts its CUT in the
place of one queued, its trigger held at 4,294,967,295 (for a panel too: log 38), and it fires at once where it is
reached and no record is pending. A CUT that fires sets CUT, and begins the stroke on a line that stands, else when it
stands. -/
def Obligations.EndCoilPlansCut : Prop :=
  (∀ (tag : Byte) (l : LineId) (s : State), Ready s →
    exec (.endCoil tag (machineOf l).val) s
      = .next (s.judged (.endCoil tag (machineOf l).val)
          [(s.plant.isSome, .state .notConfigured),
            ((s.pack l).record.isNone, .state .recordPending),
            ((s.pack l).state == .opened || (s.pack l).state == .bound
              || (s.pack l).state == .planned, .state .wrongState),
            (decide (0 < s.lengthSoFar l), .state .wrongState)]
          (endCoil l s) [])) ∧
  (∀ (l : LineId) (s : State), (s.pack l).record = none →
    let t := endCoil l s
    (t.pack l).plan = some ⟨(s.len l).p - s.cutterOffset l, (s.len l).p, none, .endCoil⟩ ∧
    (t.pack l).state = .cutting ∧ t.hasCause (machineOf l) .cut = true ∧
    (s.running l = false → (t.pack l).phase = some .stroke ∧ (t.pack l).cutter = true) ∧
    (s.running l = true → (t.pack l).phase = some .wait ∧ (t.pack l).cutter = (s.pack l).cutter) ∧
    (∀ a ∈ (t.act l).actions, a.act ≠ .cut)) ∧
  (∀ (l : LineId) (p : Nat) (s : State),
    let due := fun (x0 : Nat) (o : Order) =>
      o.rule = .length ∧ x0 + o.target - o.low + s.cutterOffset l ≤ p
    ((∀ x0 o, (s.pack l).state = .bound → (s.pack l).coilStart = some x0 →
        (s.pack l).bound.bind s.order = some o → ¬due x0 o) → planningEvent l p s = s) ∧
    (∀ x0 o, (s.pack l).state = .bound → (s.pack l).coilStart = some x0 →
      (s.pack l).bound.bind s.order = some o → due x0 o →
      let choice := cutChoice (s.bKinds l) (s.bLimit l) (s.guardOf l) x0 o (s.act l).marks
      planningEvent l p s = placePlan l choice.1 (some choice.2.1) .planned choice.2.2 s)) ∧
  (∀ (kinds : KindSet) (limit guard x0 : Nat) (o : Order) (marks : List Mark),
    let nominal := x0 + o.target
    let grade := fun c => gradeOfMarks kinds limit
      (marks.filter fun m => decide (m.x < c) && decide (x0 ≤ m.x + m.span))
    let near := fun c => marks.any fun m =>
      m.kind == .splice && decide (m.x < c + guard) && decide (c < m.x + m.span + guard)
    let kept := fun c : Nat =>
      nominal - o.low ≤ c ∧ c ≤ nominal + o.high ∧ near c = false ∧
      (c = nominal ∨ ∃ m ∈ marks, (c : Int) = m.x - guard ∨ c = m.x + m.span + guard)
    let far := fun c => (c - nominal) + (nominal - c)
    let choice := cutChoice kinds limit guard x0 o marks
    ((∀ c, ¬kept c) → choice = (nominal, grade nominal, true)) ∧
    (∀ b, kept b →
      kept choice.1 ∧ choice.2 = (grade choice.1, false) ∧
      ((grade choice.1).code < (grade b).code ∨
        ((grade choice.1).code = (grade b).code ∧
          (far choice.1 < far b ∨ (far choice.1 = far b ∧ choice.1 ≤ b)))))) ∧
  (∀ (l : LineId) (cut : Nat) (grade : Option Grade) (origin : CutOrigin) (near : Bool) (s : State),
    let trigger := min (cut + s.cutterOffset l) 4294967295
    let sprays := (s.act l).actions.filter fun a => a.act.isSpray
    let planned := (s.setPack l
        { s.pack l with
          state := .planned, plan := some ⟨cut, trigger, grade, origin⟩
          nearSplice := near }).setActions l sprays
    (trigger ≤ (s.len l).p → (s.pack l).record = none →
      placePlan l cut grade origin near s = cutFires l planned) ∧
    ((s.len l).p < trigger ∨ (s.pack l).record.isSome = true →
      placePlan l cut grade origin near s
        = planned.setActions l (placeAction ⟨trigger, .cut⟩ sprays))) ∧
  (∀ (e : Nat) (s : State),
    ((∀ o, (s.pack .net).state = .bound → (s.pack .net).bound.bind s.order = some o →
      o.rule ≠ .panel) → panelEnds e s = s) ∧
    (∀ o c, (s.pack .net).state = .bound → (s.pack .net).bound.bind s.order = some o →
      o.rule = .panel → s.netCopy = some c →
      panelEnds e s = placePlan .net (e + c.recipe.panelTail) none .panel false s)) ∧
  (∀ (l : LineId) (s : State),
    let firing := setCause (machineOf l) .cut
      (s.setPack l { s.pack l with state := .cutting, phase := some .wait })
    let stroke := fun u : State => u.setPack l
      { u.pack l with
        phase := some .stroke, cutter := true
        timer := some (u.now + u.plantD.cutTimeout * 100000) }
    cutFires l s = (if s.running l then firing else stroke firing) ∧
    lineStands l s
      = (if (s.pack l).state = .cutting ∧ (s.pack l).phase = some .wait then stroke s else s))

/-- CUT_MANUAL, in CUTTING or CUT_FAIL, and a cutter-done edge in a stroke or in CUT_FAIL complete the cut: the record
is pending with its length, the next coil opens at the cut, the cutter is released with its timer stopped, and CUT and
CUT_FAIL are cleared. The coil that opens has no plan and no flag, its package list is that of the packages FEEDING on the
rope line and empty on the net line, and it is BOUND to the line's oldest order where that is of the recipe in force, else
OPEN.
The marks before the cut are the coil's, those that straddle it divided there; the rest stay, and MARKS_FULL is cleared
where they have come to 112 or below. The record carries the marks of the coil, its grade by the B-kind set and limit,
its flags, and NOT_COUNTED unless it is of its order's length and grade. A coil that counts raises the coils done of its
order, and COIL_CUT carries them; an order it fills enters ORDER_DONE and leaves the queue.
The write of the record goes to the end of the store operation queue, and runs at once where none is in flight (the model's
choice, log 30).
The cut timer of a line in CUTTING: the stroke has failed, CUT_FAIL stands in place of CUT, the cutter is released,
the line's lengths and marks are as they were, and a CUT_FAIL report carries the planned cut and the position. A
cutter-done edge in NONE, OPEN, BOUND, PLANNED, and in CUTTING outside a stroke, does nothing further. The clock stands at the end of the hold and at the deadline (the
model's choice, log 2). -/
def Obligations.CutsCompleteOrFail : Prop :=
  (∀ (tag : Byte) (l : LineId) (s : State), Ready s →
    exec (.cutManual tag (machineOf l).val) s
      = .next (s.judged (.cutManual tag (machineOf l).val)
          [(s.plant.isSome, .state .notConfigured),
            ((s.pack l).state == .cutting || (s.pack l).state == .cutFail, .state .wrongState)]
          (completeCut l true s) [])) ∧
  (∀ (l : LineId) (manual : Bool) (x0 : Nat) (s : State), (s.pack l).coilStart = some x0 →
    let cut := max x0 ((s.len l).p - s.cutterOffset l)
    let t := completeCut l manual s
    (t.pack l).coilStart = some cut ∧
    (∃ r, (t.pack l).record = some r ∧ r.write = .queued ∧ r.coil.line = l ∧ r.coil.start = x0 ∧
      r.coil.length = cut - x0 ∧ r.coil.order = ((s.pack l).bound).getD 0 ∧
      r.coil.flags.getLsbD 5 = manual) ∧
    t.hasCause (machineOf l) .cut = false ∧ t.hasCause (machineOf l) .cutFail = false) ∧
  (∀ (l : LineId) (s : State) (began : Nat),
    let done : LevelInput := match l with
      | .rope => .cdr
      | .net => .cdn
    (s.inputs.level done).hold = some began → (s.inputs.level done).pin = true →
    ((s.pack l).state = .cutting ∧ (s.pack l).phase = some .stroke) ∨ (s.pack l).state = .cutFail →
    exec (.levelFilterSettled done) s
      = .next (completeCut l false
          (({ s with now := max s.now (began + 100) } : State).setLevel done
            { s.inputs.level done with level := true, hold := none }))) ∧
  (∀ (l : LineId) (s : State) (d : Nat), (s.pack l).state = .cutting → (s.pack l).timer = some d →
      ∃ t : State, exec (.cutTimerDeadline l) s = .next t ∧ t.now = max s.now d ∧
        t.pack l
          = { s.pack l with state := .cutFail, phase := none, timer := none, cutter := false } ∧
        t.hasCause (machineOf l) .cutFail = true ∧ t.hasCause (machineOf l) .cut = false ∧
        t.len l = s.len l ∧ t.act l = s.act l ∧ t.orders = s.orders ∧ t.jobs = s.jobs ∧
        t = enterReport .cutFail (some (machineOf l).val)
          (be 4 (((s.pack l).plan.map CutPlan.cut).getD 0) ++ be 4 (s.len l).p)
          (stopNotice (machineOf l) (StopCause.only .cutFail) (StopCause.only .cut)
            (({ s with now := max s.now d } : State).setPack l
              { s.pack l with state := .cutFail, phase := none, timer := none, cutter := false }))) ∧
  (∀ (l : LineId) (s : State) (began : Nat),
    let done : LevelInput := match l with
      | .rope => .cdr
      | .net => .cdn
    (s.inputs.level done).hold = some began → (s.inputs.level done).pin = true →
    (s.pack l).state ≠ .cutFail → ¬((s.pack l).state = .cutting ∧ (s.pack l).phase = some .stroke) →
    exec (.levelFilterSettled done) s
      = .next (({ s with now := max s.now (began + 100) } : State).setLevel done
          { s.inputs.level done with level := true, hold := none })) ∧
  (∀ (l : LineId) (manual : Bool) (s : State),
    let idle := s.runningOp.isNone && !s.link.restarting
    (∀ e ∈ s.queue, e.state = .waiting → idle = false) →
    (completeCut l manual s).queue
      = s.queue ++ [⟨.coilWrite l, if idle then .running else .waiting⟩]) ∧
  (∀ (l : LineId) (manual : Bool) (x0 : Nat) (s : State), (s.pack l).coilStart = some x0 →
    let cut := max x0 ((s.len l).p - s.cutterOffset l)
    let length := cut - x0
    let handed := (takeCoilMarks l cut s).2
    let marks := (handed.filter fun m => decide (x0 ≤ m.x + m.span)).map fun m =>
      if m.x < x0 then { m with x := x0, span := m.x + m.span - x0 } else m
    let order := (s.pack l).bound.bind s.order
    let grade := gradeOfMarks (s.bKinds l) (s.bLimit l) marks
    let t := completeCut l manual s
    ∃ r, (t.pack l).record = some r ∧ r.coil.grade = grade ∧
      r.coil.slot = ((s.copyOf l).map Prod.fst).getD 0 ∧
      r.coil.check = ((s.copyOf l).map Prod.snd).getD 0 ∧ r.coil.packages = (s.pack l).packages ∧
      r.coil.entries = (marks.take 7).map (fun m =>
        { offset := m.x - x0, span := m.span, kind := m.kind, source := m.source }) ∧
      r.coil.kindCounts = ([.splice, .strandFault, .layLow, .layHigh, .knotMissing, .meshLong,
        .meshShort, .unscanned, .operator, .mixed] : List MarkKind).map (fun k =>
          min ((marks.filter fun m => m.kind == k).map Mark.count).sum 255) ∧
      r.coil.flags.getLsbD 0 = order.any (fun o => decide (length < o.target - o.low)) ∧
      r.coil.flags.getLsbD 1 = order.any (fun o => decide (o.target + o.high < length)) ∧
      r.coil.flags.getLsbD 2 = !coilCounts order grade length ∧
      r.coil.flags.getLsbD 3 = (s.pack l).nearSplice ∧
      r.coil.flags.getLsbD 4 = ((s.pack l).plan.map CutPlan.origin == some .endCoil) ∧
      r.coil.flags.getLsbD 6 = marks.any (fun m => m.kind == .mixed) ∧
      r.coil.flags.getLsbD 7 = (s.pack l).more ∧
      t.orders = (countAndReport l r.coil s).orders ∧
      (t.act l).marks = ((takeCoilMarks l cut s).1.act l).marks) ∧
  (∀ (l : LineId) (cut : Nat) (s : State),
    let marks := (s.act l).marks
    let kept :=
      ((marks.filter fun m => decide (m.x < cut) && decide (cut < m.x + m.span)).map fun m =>
        { m with x := cut, span := m.x + m.span - cut })
        ++ marks.filter fun m => decide (cut ≤ m.x)
    (takeCoilMarks l cut s).2 = ((marks.filter fun m => decide (m.x < cut)).map fun m =>
      if m.x + m.span ≤ cut then m else { m with span := cut - m.x }) ∧
    (kept.length < marks.length → kept.length ≤ 112 →
      (takeCoilMarks l cut s).1 = clearCause (machineOf l) .marksFull (s.setMarks l kept)) ∧
    (kept.length = marks.length ∨ 112 < kept.length →
      (takeCoilMarks l cut s).1 = s.setMarks l kept)) ∧
  (∀ (kinds : KindSet) (limit : Nat) (marks : List Mark),
    (marks = [] → gradeOfMarks kinds limit marks = .a) ∧
    (marks ≠ [] → (∀ m ∈ marks, m.kind.isIn kinds = true) → marks.length ≤ limit →
      gradeOfMarks kinds limit marks = .b) ∧
    (marks ≠ [] → (∃ m ∈ marks, m.kind.isIn kinds = false) ∨ limit < marks.length →
      gradeOfMarks kinds limit marks = .c)) ∧
  (∀ (order : Option Order) (grade : Grade) (length : Nat),
    coilCounts order grade length = true ↔
      ∃ o, order = some o ∧ grade.code ≤ o.minGrade.code ∧
        (o.rule = .panel ∨ (o.target - o.low ≤ length ∧ length ≤ o.target + o.high))) ∧
  (∀ (l : LineId) (r : CoilRecord) (s : State),
    let report := fun (n : Nat) (u : State) => enterReport .coilCut (some (machineOf r.line).val)
      (be 2 r.order ++ be 4 r.start ++ be 4 r.length ++ be 1 r.grade.code ++ be 1 r.flags.toNat
        ++ be 1 n) u
    let counted : State :=
      { s with
        orders := s.orders.map fun o => if o.number = r.order then { o with done := o.done + 1 } else o }
    (r.flags.getLsbD 2 = true → countAndReport l r s = report 0 s) ∧
    (r.flags.getLsbD 2 = false → s.order r.order = none → countAndReport l r s = report 0 counted) ∧
    (∀ o, r.flags.getLsbD 2 = false → s.order r.order = some o →
      (o.done + 1 ≠ o.count → countAndReport l r s = report (o.done + 1) counted) ∧
      (o.done + 1 = o.count →
        let t := enterReport .orderDone (some (machineOf l).val) (be 2 r.order ++ be 1 o.count)
          (report (o.done + 1) counted)
        countAndReport l r s = { t with orders := s.orders.filter fun x => x.number != r.order }))) ∧
  (∀ (l : LineId) (manual : Bool) (x0 : Nat) (s : State), (s.pack l).coilStart = some x0 →
    (∀ o ∈ s.orders, o.low < o.target) →
    let t := completeCut l manual s
    let bound := (t.orders.find? fun o => o.line == l).filter fun o =>
      s.copyOf l == some (o.slot, o.check)
    t.pack l
      = { state := if bound.isSome then .bound else .opened
          coilStart := some (max x0 ((s.len l).p - s.cutterOffset l))
          bound := bound.map Order.number
          plan := none, nearSplice := false, phase := none, timer := none, cutter := false
          packages := match l with
            | .rope => ([0, 1, 2, 3] : List (Fin 4)).filterMap fun i =>
                (s.place i).current.filter fun n => (s.package n).map Package.state == some .feeding
            | .net => []
          more := false, record := (t.pack l).record })

/-! ### The store -/

/-- The requests that take time, each with its checks in order: accepted, the operation is placed at the end of the
store operation queue, and runs at once where none is in flight (the model's choice, log 30). The index of the field that
a FIELD refusal names is that of the first field out of range (the model's reading, log 21, DEDUCED).
When the operation in flight ends, its entry is free, or HELD for a write that was not done, and the oldest WAITING one
becomes RUNNING; with none WAITING, or a RESTART accepted (log 17), none does. -/
def Obligations.StoreRequestsAreQueued : Prop :=
  (∀ (tag : Byte) (s : State), Ready s →
    (∀ slot body, body.firstBad = none →
      exec (.storeRecipe tag slot body) s
        = .next (s.judged (.storeRecipe tag slot body)
            [inField 1 0 31 slot, (!s.slotOrdered slot, .state .slotInOrder),
              (!s.slotWritten slot, .state .slotBeingWritten), (s.generalFree, .state .storeBusy)]
            (placeOp (.storeRecipe slot body) s) [])) ∧
    (∀ slot body i, slot ≤ 31 → body.firstBad = some i →
      exec (.storeRecipe tag slot body) s
        = .next (s.replied (.storeRecipe tag slot body) (.field i))) ∧
    (∀ slot,
      exec (.eraseRecipe tag slot) s
        = .next (s.judged (.eraseRecipe tag slot)
            [inField 1 0 31 slot, (!s.slotOrdered slot, .state .slotInOrder),
              (!s.slotWritten slot, .state .slotBeingWritten), (s.generalFree, .state .storeBusy)]
            (placeOp (.eraseRecipe slot) s) [])) ∧
    (∀ plant, firstBad 1 plant.fields = none →
      exec (.storePlant tag plant) s
        = .next (s.judged (.storePlant tag plant)
            [(positionsStand s, .state .machineRunning),
              (!(s.running .rope || s.running .net), .state .machineRunning),
              (!s.plantWritten, .state .slotBeingWritten), (s.generalFree, .state .storeBusy)]
            (placeOp (.storePlant plant) s) [])) ∧
    (∀ plant i, firstBad 1 plant.fields = some i →
      exec (.storePlant tag plant) s = .next (s.replied (.storePlant tag plant) (.field i))) ∧
    (∀ t,
      exec (.logTake tag t) s
        = .next (s.judged (.logTake tag t) [(s.generalFree, .state .storeBusy)]
            (placeOp (.logTake t) s) [])) ∧
    (∀ n,
      exec (.logVoid tag n) s
        = .next (s.judged (.logVoid tag n)
            [inField 1 1 4294967295 n, ((findRecord s.flash n).isSome, .state .notFound),
              (s.generalFree, .state .storeBusy)]
            (placeOp (.logVoid n) s) []))) ∧
  (∀ (op : StoreOp) (s : State), s.runningOp.isSome = true →
    placeOp op s = { s with queue := s.queue ++ [⟨op, .waiting⟩] }) ∧
  (∀ (op : StoreOp) (s : State), s.runningOp = none → s.link.restarting = false →
    (∀ e ∈ s.queue, e.state = .held) →
    placeOp op s = { s with queue := s.queue ++ [⟨op, .running⟩] }) ∧
  (∀ s : State,
    let next := fun q q' : List StoreEntry =>
      ((s.link.restarting = true ∨ ∀ e ∈ q, e.state ≠ .waiting) → q' = q) ∧
      (∀ before e after, s.link.restarting = false → q = before ++ e :: after →
        (∀ x ∈ before, x.state ≠ .waiting) → e.state = .waiting →
        q' = before ++ { e with state := .running } :: after)
    (∃ q, endOp s = { s with queue := q } ∧ next (s.queue.filter fun e => e.state != .running) q) ∧
    (∃ q, holdOp s = { s with queue := q } ∧
      next (s.queue.map fun e => if e.state = .running then { e with state := .held } else e) q))

/-- A STORE_RECIPE operation writes its own page alone; where every step is verified, the slot reads as the recipe
stored with its check word, and STORE_DONE is entered; else STORE_FAILED. With no step failing every step is
verified. Where the read-back of the fields fails the slot is EMPTY, and where that of the check word and written flag
fails it is EMPTY or CORRUPT (log 36). Where the page does not read all 1s after its erase the operation ends there, and
the slot reads as its page reads. What a step fails by is the operand `faults` (the model's, log 5).
An ERASE_RECIPE operation erases its own page alone; where the page reads all 1s the slot is EMPTY and STORE_DONE is
entered, else STORE_FAILED. With nothing failing the page reads all 1s.
STORE_DONE carries the area, the slot, coil number or tally, and the records taken; STORE_FAILED carries the reason before
the records taken, VERIFY (1) where a step was not verified and GONE (2) for a record that has left the log. -/
def Obligations.StoredRecipesReadBack : Prop :=
  (∀ (faults : List StepFault) (slot : Nat) (body : RecipeBody) (s : State),
      s.runningOp = some (.storeRecipe slot body) → body.firstBad = none → body.fits = true →
      s.flash.wf = true →
      ∃ (m : Memory) (ok : Bool),
        exec (.storeRecipeOperation faults) s
          = .next (endOp (reportEnd ok .recipe slot 0 { s with flash := m })) ∧
        (ok = true → judgeSlot m slot = .valid body (crc16 (be 1 body.code ++ body.fieldBytes))) ∧
        (faults = [] → ok = true) ∧
        (ok = false → (Memory.erase (faults.headD []) slot s.flash).pageErased slot = true →
          ∀ b c, judgeSlot m slot ≠ .valid b c) ∧
        (ok = false → (Memory.erase (faults.headD []) slot s.flash).pageErased slot = true →
          (Memory.program (faults.tail.headD []) slot 3 (be 1 body.code ++ body.fieldBytes)
              (Memory.erase (faults.headD []) slot s.flash)).bytes slot 3 (1 + body.fieldBytes.length)
            ≠ be 1 body.code ++ body.fieldBytes →
          judgeSlot m slot = .empty) ∧
        ((Memory.erase (faults.headD []) slot s.flash).pageErased slot = false →
          ok = false ∧ m = Memory.erase (faults.headD []) slot s.flash) ∧
        (∀ a, a < 512 * slot ∨ 512 * (slot + 1) ≤ a → Memory.read m a = Memory.read s.flash a)) ∧
  (∀ (faults : List StepFault) (slot : Nat) (s : State),
      s.runningOp = some (.eraseRecipe slot) → s.flash.wf = true →
      ∃ (m : Memory) (ok : Bool),
        exec (.eraseRecipeOperation faults) s
          = .next (endOp (reportEnd ok .recipe slot 0 { s with flash := m })) ∧
        (ok = true ↔ ∀ i, i < 512 → Memory.read m (512 * slot + i) = 0xFF) ∧
        (ok = true → judgeSlot m slot = .empty) ∧ (faults = [] → ok = true) ∧
        (∀ a, a < 512 * slot ∨ 512 * (slot + 1) ≤ a → Memory.read m a = Memory.read s.flash a)) ∧
  (∀ (ok : Bool) (area : Area) (number taken : Nat) (s : State),
    let code := match area with
      | .recipe => 1
      | .plant => 2
      | .log => 3
      | .tally => 4
    reportDone area number taken s
      = enterReport .storeDone none (be 1 code ++ be 4 number ++ be 2 taken) s ∧
    (∀ reason, reportFailed area number reason taken s
      = enterReport .storeFailed none
          (be 1 code ++ be 4 number ++ be 1 (match reason with | .verify => 1 | .gone => 2)
            ++ be 2 taken) s) ∧
    reportEnd ok area number taken s
      = if ok = true then reportDone area number taken s
        else reportFailed area number .verify taken s)

/-- A STORE_PLANT operation writes page 32 alone; where every step is verified, the stored record reads as the one sent,
it is in force, an UNCONFIGURED part is READY, every LOADED line begins a new segment at its present position with the
constants of the new record, nothing else changes, and STORE_DONE is entered; else the record in force stays, the store holds
no valid record (log 36) and STORE_FAILED is entered. -/
def Obligations.StoredPlantComesIntoForce : Prop :=
  ∀ (faults : List StepFault) (plant : PlantRecord) (s : State),
    s.runningOp = some (.storePlant plant) → firstBad 1 plant.fields = none →
    fieldsFit plant.fields = true → s.flash.wf = true →
    ∃ (m : Memory) (ok : Bool) (t : State),
      exec (.storePlantOperation faults) s = .next (endOp (reportEnd ok .plant 0 0 t)) ∧
      t.flash = m ∧
      (ok = true → storedPlant m = some plant ∧ t.plant = some plant ∧
        (s.link.start = .unconfigured → t.link.start = .ready)) ∧
      (ok = true →
        let diameter := (s.ropeCopy.map fun c => c.recipe.diameter).getD 0
        let ropeStretch := (s.ropeCopy.map fun c => c.recipe.stretch).getD 0
        let netStretch := (s.netCopy.map fun c => c.recipe.stretch).getD 0
        let cEff := plant.cm + (2 * (diameter * 355) + 113) / (2 * 113)
        let segment := fun (k : Constants) (x : LengthMeter) =>
          if x.constants.isSome then
            { x with constants := some k, base := x.p, q := 0, saturated := decide (x.p = 4294967295) }
          else x
        t = { s with
              flash := m
              plant := some plant
              rope := { s.rope with
                len := segment { n := plant.nm, cEff := cEff, stretch := ropeStretch
                                 k := cEff * (1000000 - ropeStretch) } s.rope.len }
              net := { s.net with
                len := segment { n := plant.nn, cEff := plant.cn, stretch := netStretch
                                 k := plant.cn * (1000000 - netStretch) } s.net.len }
              link := { s.link with
                start := if s.link.start = .unconfigured then .ready else s.link.start } }) ∧
      (ok = false → t = { s with flash := m } ∧ storedPlant m = none) ∧ (faults = [] → ok = true) ∧
      (∀ a, a < 512 * 32 ∨ 512 * 33 ≤ a → Memory.read m a = Memory.read s.flash a)

/-- A tally step clears one bit of the tally's page: with no fault, the first byte of the page with a bit at 1 loses its
highest such bit (the order is the model's choice, log 20), and the tally's stored steps rise by one. A step that is not
verified enters STORE_FAILED, its metres go back to the fine part and the stored steps are counted again. A tally whose
stored steps come to 4,096 holds its fine part at 9,999,999 (deferred metres above it are cut off: the model's choice,
log 43). After either end a step that is due is placed.
An addition to a tally goes to its fine part; a step is placed where 10,000,000 mm have come together and a multiple of
1,000 mm is passed, and is deferred where one is queued or no general entry is free. A full tally enters TALLY_FULL once.
SERVICE_DUE is entered where the value comes from below the service limit to it or beyond. What a step fails by is the
operand `faults` (log 5). -/
def Obligations.TallyStepClearsOneBit : Prop :=
  (∀ (m : Fin 10) (i : Nat) (s : State),
    s.runningOp = some (.tallyStep m) → i < 512 →
    Memory.read s.flash (512 * (33 + m.val) + i) ≠ 0 →
    (∀ k, k < i → Memory.read s.flash (512 * (33 + m.val) + k) = 0) →
    ∃ f : Memory,
      exec (.tallyStep []) s
        = .next (placeStep m (endOp (({ s with flash := f } : State).setTally m
            (s.tally m).stepVerified))) ∧
      Memory.read f (512 * (33 + m.val) + i)
        = clearFirstBit (Memory.read s.flash (512 * (33 + m.val) + i)) ∧
      (∀ a, a ≠ 512 * (33 + m.val) + i → Memory.read f a = Memory.read s.flash a) ∧
      (s.tally m).stepVerified.stored = (s.tally m).stored + 1 ∧
      (s.tally m).stepVerified.queued = false) ∧
  (∀ (faults : List StepFault) (m : Fin 10) (s : State), s.runningOp = some (.tallyStep m) →
    let read := fun (f : Memory) (i : Nat) => Memory.read f (512 * (33 + m.val) + i)
    ∃ (f : Memory) (ok : Bool),
      exec (.tallyStep faults) s
        = .next (placeStep m (endOp
            (if ok then ({ s with flash := f } : State).setTally m (s.tally m).stepVerified
            else reportFailed .tally m.val .verify 0
              (({ s with flash := f } : State).setTally m
                ((s.tally m).stepFailed (countSteps (33 + m.val) f)))))) ∧
      (faults = [] → (∃ i, i < 512 ∧ read s.flash i ≠ 0) → ok = true) ∧
      ((∀ i, i < 512 → read s.flash i = 0) → ok = false ∧ f = s.flash) ∧
      (∀ i, i < 512 → read s.flash i ≠ 0 → (∀ k, k < i → read s.flash k = 0) →
        (ok = true ↔ read f i = clearFirstBit (read s.flash i)) ∧
        (∀ a, a ≠ 512 * (33 + m.val) + i → Memory.read f a = Memory.read s.flash a))) ∧
  (∀ (counted : Nat) (t : Tally),
    t.stepFailed counted
      = { t with
          stored := counted, queued := false
          fine := if counted = 4096 then min (min (t.fine + 10000000) 4294967295) 9999999
            else min (t.fine + 10000000) 4294967295 } ∧
    t.stepVerified
      = { t with
          stored := t.stored + 1, queued := false
          fine := if t.stored + 1 = 4096 then min t.fine 9999999 else t.fine }) ∧
  (∀ (m : Fin 10) (s : State),
    let t := s.tally m
    placeStep m s
      = if 10000000 ≤ t.fine ∧ t.queued = false ∧ t.stored < 4096 ∧ s.generalFree = true then
          placeOp (.tallyStep m) (s.setTally m { t with queued := true, fine := t.fine - 10000000 })
        else s) ∧
  (∀ (m : Fin 10) (mm : Nat) (s : State),
    let t := s.tally m
    let fine := min (t.fine + mm) 4294967295
    let judged := fun u : State =>
      let limit := 1000 * s.plantD.serviceLimit[m]
      let value := (u.tally m).metres
      if 0 < limit ∧ t.metres < limit ∧ limit ≤ value then
        enterReport .serviceDue (some m.val) (be 4 value ++ be 2 s.plantD.serviceLimit[m]) u
      else u
    (mm = 0 → tallyAdd m mm s = s) ∧
    (0 < mm → t.stored = 4096 →
      let held := { t with fine := min (t.fine + mm) 9999999 }
      tallyAdd m mm s
        = judged (if 9999999 < t.fine + mm ∧ t.fullReported = false then
            enterReport .tallyFull none (be 1 m.val)
              (s.setTally m { held with fullReported := true })
          else s.setTally m held)) ∧
    (0 < mm → t.stored ≠ 4096 →
      tallyAdd m mm s
        = judged (if 10000000 ≤ fine ∧ t.fine / 1000 < fine / 1000 ∧ t.queued = false ∧
              t.stored < 4096 ∧ s.generalFree = true then
            placeOp (.tallyStep m)
              (s.setTally m { t with fine := fine - 10000000, queued := true })
          else s.setTally m { t with fine := fine }))) ∧
  (∀ t : Tally,
    t.metres = 10000 * (t.stored + if t.queued = true then 1 else 0) + t.fine / 1000) ∧
  (∀ b : Byte, b ≠ 0 →
    ∃ i, i < 8 ∧ b.getLsbD i = true ∧ (∀ j, i < j → b.getLsbD j = false) ∧
      ∀ j, (clearFirstBit b).getLsbD j = (b.getLsbD j && j != i))

/-- A coil record write into a FREE slot of a page begun, with no fault: the slot reads as a record with the next coil
number, not TAKEN, nothing else in the store changes, and the line's record is no longer pending. With the log closed,
or the next page the oldest with a record not TAKEN on it, the record is held and LOG_FULL is set.
Where the page of the write point is to be begun, with no fault it is erased and given its header, and the record goes
to its first slot; no other page changes. A slot whose body does not read back is spoiled, and the record goes to the
next slot with the same number. A page whose erase or header is not verified has no valid header (which bytes it holds is
logs 5 and 45), stays the one to be begun, and the oldest and newest pages are those of the headers then valid (log 26). In
general an attempt is a try, and after a failure one more; two failures leave the record held with FAULT and STORE_FAILED
with the coil number that the last try had (log 27). What a step fails by is the operand `faults` (log 5).
The outcome Written leaves the line no pending record, clears LOG_FULL and fires a CUT that waits with its trigger reached;
FULL and FAULT leave the record's write HELD, set LOG_FULL and enter LOG_FULL with their detail (under a RESTART see
ReportsAreEntered).
The contents of the slot are those of chapter 11, each number and list at its offset of the slot: coil number 3, line and
grade 7, order 8, recipe slot 10, slot check word 11, start 13, length 17, flags 21, kind counts 22, packages 32, mark
entries 48, places and entries beyond the lists 0; before them stand the state byte and their check word. -/
def Obligations.CoilWritesRecord : Prop :=
  let contents := fun (number : Nat) (r : CoilRecord) =>
    let padded := fun (n : Nat) (x : List Byte) => (x ++ List.replicate n (0 : Byte)).take n
    be 4 number
      ++ be 1 (16 * (match r.line with | .rope => 8 | .net => 9)
        + (match r.grade with | .a => 1 | .b => 2 | .c => 3))
      ++ be 2 r.order ++ be 1 r.slot ++ be 2 r.check ++ be 4 r.start ++ be 4 r.length ++ [r.flags]
      ++ padded 10 (r.kindCounts.flatMap (be 1)) ++ padded 16 (r.packages.flatMap (be 2))
      ++ padded 70 (r.entries.flatMap fun e =>
        be 4 e.offset ++ be 3 e.span ++ be 1 (e.kind.code + if e.source.isSome then 128 else 0)
          ++ be 2 (e.source.getD 0))
  (∀ (l : LineId) (r : PendingRecord) (s : State),
    s.runningOp = some (.coilWrite l) → (s.pack l).record = some r →
    s.log.closed = false → s.log.toBegin = false → s.log.next ≤ 4294967295 →
    isFree s.flash ⟨s.log.page, s.log.slot⟩ = true → s.flash.wf = true →
    ∃ f : Memory,
      exec (.coilWriteAttempt []) s
        = .next (endOp (recordWritten l { s with flash := f, log := s.log.spend.advance })) ∧
      isRecord f ⟨s.log.page, s.log.slot⟩ = true ∧
      coilNumber f ⟨s.log.page, s.log.slot⟩ = s.log.next ∧
      isTaken f ⟨s.log.page, s.log.slot⟩ = false ∧
      slotBytes f ⟨s.log.page, s.log.slot⟩ 3 115 = contents s.log.next r.coil ∧
      (∀ a, a < 512 * s.log.page + 128 * s.log.slot ∨
          512 * s.log.page + 128 * s.log.slot + 118 ≤ a →
        Memory.read f a = Memory.read s.flash a)) ∧
  (∀ (faults : List StepFault) (l : LineId) (r : PendingRecord) (s : State),
    s.runningOp = some (.coilWrite l) → (s.pack l).record = some r →
    (s.log.closed = true ∨ nextIsFull s.flash s.log = true) →
    exec (.coilWriteAttempt faults) s = .next (holdOp (recordHeld l .full s))) ∧
  (∀ (l : LineId) (s : State), ((recordWritten l s).pack l).record = none) ∧
  (∀ (l : LineId) (s : State), (recordHeld l .full s).hasCause (machineOf l) .logFull = true) ∧
  (∀ (l : LineId) (r : PendingRecord) (s : State),
    s.runningOp = some (.coilWrite l) → (s.pack l).record = some r →
    s.log.closed = false → s.log.toBegin = true → s.log.slot = 0 → s.log.next ≤ 4294967295 →
    nextIsFull s.flash s.log = false → s.flash.wf = true →
    let sequence := (s.log.newest.map (sequenceOf s.flash)).elim 1 (· + 1)
    sequence ≤ 4294967295 →
    ∃ f : Memory,
      exec (.coilWriteAttempt []) s
        = .next (endOp (recordWritten l
            { s with
              flash := f
              log := LogState.spend
                { s.log with
                  oldest := oldestPage f, newest := newestPage f, toBegin := false, slot := 1 } })) ∧
      headerValid f s.log.page = true ∧ sequenceOf f s.log.page = sequence ∧
      firstCoilOf f s.log.page = s.log.next ∧
      isRecord f ⟨s.log.page, 0⟩ = true ∧ coilNumber f ⟨s.log.page, 0⟩ = s.log.next ∧
      isTaken f ⟨s.log.page, 0⟩ = false ∧
      slotBytes f ⟨s.log.page, 0⟩ 3 115 = contents s.log.next r.coil ∧
      (∀ k, 1 ≤ k → k ≤ 3 → isFree f ⟨s.log.page, k⟩ = true) ∧
      (∀ a, a < 512 * s.log.page ∨ 512 * (s.log.page + 1) ≤ a →
        Memory.read f a = Memory.read s.flash a)) ∧
  (∀ (fault : StepFault) (l : LineId) (r : PendingRecord) (s : State),
    s.runningOp = some (.coilWrite l) → (s.pack l).record = some r →
    s.log.closed = false → s.log.toBegin = false → s.log.slot < 3 → s.log.next ≤ 4294967295 →
    isFree s.flash ⟨s.log.page, s.log.slot + 1⟩ = true → s.flash.wf = true →
    let body := recordBody s.log.next r.coil
    (Memory.program fault s.log.page (128 * s.log.slot + 1) body s.flash).bytes s.log.page
      (128 * s.log.slot + 1) body.length ≠ body →
    ∃ f : Memory,
      exec (.coilWriteAttempt [fault]) s
        = .next (endOp (recordWritten l
            { s with
              flash := f
              log := ({ s.log with slot := s.log.slot + 1 } : LogState).spend.advance })) ∧
      Memory.read f (512 * s.log.page + 128 * s.log.slot) = 0 ∧
      isRecord f ⟨s.log.page, s.log.slot + 1⟩ = true ∧
      coilNumber f ⟨s.log.page, s.log.slot + 1⟩ = s.log.next ∧
      isTaken f ⟨s.log.page, s.log.slot + 1⟩ = false ∧
      slotBytes f ⟨s.log.page, s.log.slot + 1⟩ 3 115 = contents s.log.next r.coil) ∧
  (∀ (faults : List StepFault) (l : LineId) (r : PendingRecord) (s : State),
    s.runningOp = some (.coilWrite l) → (s.pack l).record = some r →
    let start : Attempt := ⟨{ mem := s.flash, faults := faults, budget := none }, s.log⟩
    let first := tryWrite r.coil start
    let second := tryWrite r.coil first.1
    let left := fun a : Attempt => { s with flash := a.x.mem, log := a.log }
    exec (.coilWriteAttempt faults) s
      = .next
        (match first.2, second.2 with
        | .passed, _ => endOp (recordWritten l (left first.1))
        | .full, _ => holdOp (recordHeld l .full (left first.1))
        | .failed, .passed => endOp (recordWritten l (left second.1))
        | .failed, .full => holdOp (recordHeld l .full (left second.1))
        | .failed, .failed =>
          holdOp (reportFailed .log first.1.log.next .verify 0
            (recordHeld l .fault (left second.1))))) ∧
  (∀ (r : CoilRecord) (a : Attempt),
    let body := a.x.program a.log.page (128 * a.log.slot + 1) (recordBody a.log.next r)
    let valid := body.1.program a.log.page (128 * a.log.slot) [0x7F]
    (a.log.closed = true → tryWrite r a = (a, .full)) ∧
    (a.log.closed = false → a.log.toBegin = false →
      (body.2 = true → valid.2 = true →
        tryWrite r a = (⟨valid.1, a.log.spend.advance⟩, .passed)) ∧
      (body.2 = false → tryWrite r a = (spoil ⟨body.1, a.log⟩, .failed)) ∧
      (body.2 = true → valid.2 = false → tryWrite r a = (spoil ⟨valid.1, a.log⟩, .failed)))) ∧
  (∀ (r : CoilRecord) (a : Attempt), a.log.closed = false → a.log.toBegin = true →
    let sequence := (a.log.newest.map (sequenceOf a.x.mem)).elim 1 (· + 1)
    let full := nextIsFull a.x.mem a.log || decide (4294967295 < sequence)
    let erased := a.x.erase a.log.page
    let headed := erased.1.program a.log.page 118 (headerBytes sequence a.log.next)
    let log := fun m : Memory => { a.log with oldest := oldestPage m, newest := newestPage m }
    (full = true → tryWrite r a = (a, .full)) ∧
    (full = false → a.x.budget = none → erased.2 = false ∨ headed.2 = false →
      let left := if erased.2 then headed.1 else erased.1
      ∃ x : Progress, tryWrite r a = (⟨x, log x.mem⟩, .failed) ∧
        headerValid x.mem a.log.page = false ∧
        (headerValid left.mem a.log.page = false → x = left) ∧
        (∀ b, b < 512 * a.log.page + 118 ∨ 512 * a.log.page + 128 ≤ b →
          Memory.read x.mem b = Memory.read left.mem b)) ∧
    (full = false → erased.2 = true → headed.2 = true →
      tryWrite r a = tryWrite r ⟨headed.1, { log headed.1.mem with toBegin := false }⟩)) ∧
  (∀ (l : LineId) (s : State), s.link.restarting = false →
    let written := clearCause (machineOf l) .logFull (s.setPack l { s.pack l with record := none })
    let reached := fun a : Action => a.act == .cut && decide (a.trigger ≤ (s.len l).p)
    recordWritten l s
      = if (s.act l).actions.any reached then
          cutFires l (written.setActions l ((s.act l).actions.filter fun a => !reached a))
        else written) ∧
  (∀ (l : LineId) (d : LogDetail) (s : State), s.link.restarting = false →
    recordHeld l d s
      = enterReport .logFull (some (machineOf l).val) (be 1 (match d with | .full => 1 | .fault => 2))
          (setCause (machineOf l) .logFull
            (s.setPack l
              { s.pack l with record := (s.pack l).record.map fun r => { r with write := .held } }))) ∧
  (∀ a : Attempt,
    let clear := fun x : Progress => x.program a.log.page (128 * a.log.slot) [0]
    let once := clear a.x
    let x := if once.2 then once.1 else (clear once.1).1
    let log := if isRecord x.mem ⟨a.log.page, a.log.slot⟩ then a.log.spend else a.log
    spoil a = ⟨x, log.advance⟩) ∧
  (∀ x : LogState,
    x.advance
      = (if x.slot < 3 then { x with slot := x.slot + 1 }
        else { x with page := if x.page = 138 then 43 else x.page + 1, slot := 0, toBegin := true }) ∧
    x.spend
      = if x.next = 4294967295 then { x with closed := true } else { x with next := x.next + 1 }) ∧
  (∀ (number : Nat) (r : CoilRecord),
    recordBody number r = be 2 (crc16 (contents number r)) ++ contents number r ∧
    (contents number r).length = 115) ∧
  (∀ (m : Memory) (p : SlotPlace) (i count : Nat),
    slotBytes m p i count
      = (List.range count).map fun k => Memory.read m (512 * p.page + 128 * p.slot + i + k))

/-- A LOG_TAKE operation changes nothing of the store but the state bytes of records in the log not TAKEN, of numbers at
or below the one named; it ends with its report, and the writes held are queued again. With no fault every such
record reads TAKEN afterwards, the records in the log and their numbers are as they were, and STORE_DONE carries how many
flags were cleared.
A LOG_VOID operation: with no record of the number it ends with GONE; a record VOID already is left as it is, with
STORE_DONE and nothing handed over; with no fault the VOID flag of another is cleared and no other byte changes, and the
coil is taken off its order; where the clearing is not verified it ends with STORE_FAILED and the order keeps the
coil. What a step fails by is the operand `faults` (the model's, log 5).
The writes HELD become WAITING at the end of the queue, the rope line's before the net line's; the write state of a pending
record stays HELD meanwhile (the model's reading, log 24, DEDUCED). -/
def Obligations.LogOperationsClearFlags : Prop :=
  (∀ (faults : List StepFault) (upTo : Nat) (s : State), s.runningOp = some (.logTake upTo) →
      ∃ (f : Memory) (x : LogState) (count : Nat) (ok : Bool),
        exec (.logTakeOperation faults) s
          = .next (endOp (requeueHeld (reportEnd ok .log upTo count { s with flash := f, log := x }))) ∧
        x = { s.log with oldest := oldestPage f, newest := newestPage f } ∧
        (∀ a, (∀ p ∈ recordsInLog s.flash, coilNumber s.flash p ≤ upTo → isTaken s.flash p = false →
            a ≠ 512 * p.page + 128 * p.slot) → Memory.read f a = Memory.read s.flash a)) ∧
  (∀ (n : Nat) (s : State), s.runningOp = some (.logVoid n) →
      (∀ faults, findRecord s.flash n = none →
        exec (.logVoidOperation faults) s = .next (endOp (reportFailed .log n .gone 0 s))) ∧
      (∀ p, findRecord s.flash n = some p → isVoid s.flash p = false →
        ∃ f : Memory,
          exec (.logVoidOperation []) s
            = .next (endOp (reportDone .log n 0
                (voidCoil (recordOrder s.flash p) (recordNotCounted s.flash p)
                  { s with
                    flash := f
                    log := { s.log with oldest := oldestPage f, newest := newestPage f } }))) ∧
          isVoid f p = true ∧
          (∀ a, a ≠ 512 * p.page + 128 * p.slot → Memory.read f a = Memory.read s.flash a))) ∧
  (∀ (upTo : Nat) (s : State), s.runningOp = some (.logTake upTo) →
    ∃ f : Memory,
      exec (.logTakeOperation []) s
        = .next (endOp (requeueHeld (reportDone .log upTo
            ((recordsInLog s.flash).filter fun p =>
              decide (coilNumber s.flash p ≤ upTo) && !isTaken s.flash p).length
            { s with
              flash := f
              log := { s.log with
                oldest := oldestPage s.flash, newest := newestPage s.flash } }))) ∧
      recordsInLog f = recordsInLog s.flash ∧
      (∀ p ∈ recordsInLog s.flash,
        coilNumber f p = coilNumber s.flash p ∧
        (coilNumber s.flash p ≤ upTo → isTaken f p = true) ∧
        (upTo < coilNumber s.flash p → isTaken f p = isTaken s.flash p) ∧
        isVoid f p = isVoid s.flash p)) ∧
  (∀ (faults : List StepFault) (n : Nat) (s : State) (p : SlotPlace),
    s.runningOp = some (.logVoid n) → findRecord s.flash n = some p →
    (isVoid s.flash p = true →
      exec (.logVoidOperation faults) s
        = .next (endOp (reportDone .log n 0
            { s with
              log := { s.log with
                oldest := oldestPage s.flash, newest := newestPage s.flash } }))) ∧
    (isVoid s.flash p = false →
      ∃ (f : Memory) (ok : Bool),
        let t : State :=
          { s with flash := f, log := { s.log with oldest := oldestPage f, newest := newestPage f } }
        exec (.logVoidOperation faults) s
          = .next (endOp (reportEnd ok .log n 0
              (if ok then voidCoil (recordOrder s.flash p) (recordNotCounted s.flash p) t else t))) ∧
        (ok = true → isVoid f p = true) ∧ (faults = [] → ok = true) ∧
        (∀ a, a ≠ 512 * p.page + 128 * p.slot → Memory.read f a = Memory.read s.flash a))) ∧
  (∀ (number : Nat) (notCounted : Bool) (s : State),
    voidCoil number notCounted s
      = if number = 0 ∨ notCounted = true then s
        else
          { s with
            orders := s.orders.map fun o =>
              if o.number = number then { o with done := o.done - 1 } else o }) ∧
  (∀ s : State,
    let again := fun l : LineId =>
      (s.queue.filter fun e => e.op == .coilWrite l && e.state == .held).map fun e =>
        { e with state := .waiting }
    requeueHeld s
      = { s with
          queue := (s.queue.filter fun e => e.state != .held) ++ again .rope ++ again .net })

end
end

