-- ==== Sys2Proof/Laws/State.lean ====
section
/-! SUPPORT. What each named update leaves of every other field of State, and what it makes of its own. -/

namespace Sys2Proof.Machine

variable (s : State)

/-! ### setPulse -/

@[simp] theorem setPulse_pending (k : PulseInput) (x : PulseIn) : (State.setPulse k x s).pending = s.pending := rfl
@[simp] theorem setPulse_now (k : PulseInput) (x : PulseIn) : (State.setPulse k x s).now = s.now := rfl
@[simp] theorem setPulse_jobs (k : PulseInput) (x : PulseIn) : (State.setPulse k x s).jobs = s.jobs := rfl
@[simp] theorem setPulse_lay (k : PulseInput) (x : PulseIn) : (State.setPulse k x s).lay = s.lay := rfl
@[simp] theorem setPulse_table (k : PulseInput) (x : PulseIn) : (State.setPulse k x s).table = s.table := rfl
@[simp] theorem setPulse_rope (k : PulseInput) (x : PulseIn) : (State.setPulse k x s).rope = s.rope := rfl
@[simp] theorem setPulse_net (k : PulseInput) (x : PulseIn) : (State.setPulse k x s).net = s.net := rfl
@[simp] theorem setPulse_ropeCopy (k : PulseInput) (x : PulseIn) : (State.setPulse k x s).ropeCopy = s.ropeCopy := rfl
@[simp] theorem setPulse_netCopy (k : PulseInput) (x : PulseIn) : (State.setPulse k x s).netCopy = s.netCopy := rfl
@[simp] theorem setPulse_stops (k : PulseInput) (x : PulseIn) : (State.setPulse k x s).stops = s.stops := rfl
@[simp] theorem setPulse_knot (k : PulseInput) (x : PulseIn) : (State.setPulse k x s).knot = s.knot := rfl
@[simp] theorem setPulse_orders (k : PulseInput) (x : PulseIn) : (State.setPulse k x s).orders = s.orders := rfl
@[simp] theorem setPulse_flash (k : PulseInput) (x : PulseIn) : (State.setPulse k x s).flash = s.flash := rfl
@[simp] theorem setPulse_queue (k : PulseInput) (x : PulseIn) : (State.setPulse k x s).queue = s.queue := rfl
@[simp] theorem setPulse_log (k : PulseInput) (x : PulseIn) : (State.setPulse k x s).log = s.log := rfl
@[simp] theorem setPulse_tallies (k : PulseInput) (x : PulseIn) : (State.setPulse k x s).tallies = s.tallies := rfl
@[simp] theorem setPulse_plant (k : PulseInput) (x : PulseIn) : (State.setPulse k x s).plant = s.plant := rfl
@[simp] theorem setPulse_link (k : PulseInput) (x : PulseIn) : (State.setPulse k x s).link = s.link := rfl

/-! ### setLevel -/

@[simp] theorem setLevel_pending (k : LevelInput) (x : LevelIn) : (State.setLevel k x s).pending = s.pending := rfl
@[simp] theorem setLevel_now (k : LevelInput) (x : LevelIn) : (State.setLevel k x s).now = s.now := rfl
@[simp] theorem setLevel_jobs (k : LevelInput) (x : LevelIn) : (State.setLevel k x s).jobs = s.jobs := rfl
@[simp] theorem setLevel_lay (k : LevelInput) (x : LevelIn) : (State.setLevel k x s).lay = s.lay := rfl
@[simp] theorem setLevel_table (k : LevelInput) (x : LevelIn) : (State.setLevel k x s).table = s.table := rfl
@[simp] theorem setLevel_rope (k : LevelInput) (x : LevelIn) : (State.setLevel k x s).rope = s.rope := rfl
@[simp] theorem setLevel_net (k : LevelInput) (x : LevelIn) : (State.setLevel k x s).net = s.net := rfl
@[simp] theorem setLevel_ropeCopy (k : LevelInput) (x : LevelIn) : (State.setLevel k x s).ropeCopy = s.ropeCopy := rfl
@[simp] theorem setLevel_netCopy (k : LevelInput) (x : LevelIn) : (State.setLevel k x s).netCopy = s.netCopy := rfl
@[simp] theorem setLevel_stops (k : LevelInput) (x : LevelIn) : (State.setLevel k x s).stops = s.stops := rfl
@[simp] theorem setLevel_knot (k : LevelInput) (x : LevelIn) : (State.setLevel k x s).knot = s.knot := rfl
@[simp] theorem setLevel_orders (k : LevelInput) (x : LevelIn) : (State.setLevel k x s).orders = s.orders := rfl
@[simp] theorem setLevel_flash (k : LevelInput) (x : LevelIn) : (State.setLevel k x s).flash = s.flash := rfl
@[simp] theorem setLevel_queue (k : LevelInput) (x : LevelIn) : (State.setLevel k x s).queue = s.queue := rfl
@[simp] theorem setLevel_log (k : LevelInput) (x : LevelIn) : (State.setLevel k x s).log = s.log := rfl
@[simp] theorem setLevel_tallies (k : LevelInput) (x : LevelIn) : (State.setLevel k x s).tallies = s.tallies := rfl
@[simp] theorem setLevel_plant (k : LevelInput) (x : LevelIn) : (State.setLevel k x s).plant = s.plant := rfl
@[simp] theorem setLevel_link (k : LevelInput) (x : LevelIn) : (State.setLevel k x s).link = s.link := rfl

/-! ### setJob -/

@[simp] theorem setJob_pending (p : Fin 8) (j : Option Job) : (State.setJob p j s).pending = s.pending := rfl
@[simp] theorem setJob_now (p : Fin 8) (j : Option Job) : (State.setJob p j s).now = s.now := rfl
@[simp] theorem setJob_inputs (p : Fin 8) (j : Option Job) : (State.setJob p j s).inputs = s.inputs := rfl
@[simp] theorem setJob_lay (p : Fin 8) (j : Option Job) : (State.setJob p j s).lay = s.lay := rfl
@[simp] theorem setJob_table (p : Fin 8) (j : Option Job) : (State.setJob p j s).table = s.table := rfl
@[simp] theorem setJob_rope (p : Fin 8) (j : Option Job) : (State.setJob p j s).rope = s.rope := rfl
@[simp] theorem setJob_net (p : Fin 8) (j : Option Job) : (State.setJob p j s).net = s.net := rfl
@[simp] theorem setJob_ropeCopy (p : Fin 8) (j : Option Job) : (State.setJob p j s).ropeCopy = s.ropeCopy := rfl
@[simp] theorem setJob_netCopy (p : Fin 8) (j : Option Job) : (State.setJob p j s).netCopy = s.netCopy := rfl
@[simp] theorem setJob_stops (p : Fin 8) (j : Option Job) : (State.setJob p j s).stops = s.stops := rfl
@[simp] theorem setJob_knot (p : Fin 8) (j : Option Job) : (State.setJob p j s).knot = s.knot := rfl
@[simp] theorem setJob_orders (p : Fin 8) (j : Option Job) : (State.setJob p j s).orders = s.orders := rfl
@[simp] theorem setJob_flash (p : Fin 8) (j : Option Job) : (State.setJob p j s).flash = s.flash := rfl
@[simp] theorem setJob_queue (p : Fin 8) (j : Option Job) : (State.setJob p j s).queue = s.queue := rfl
@[simp] theorem setJob_log (p : Fin 8) (j : Option Job) : (State.setJob p j s).log = s.log := rfl
@[simp] theorem setJob_tallies (p : Fin 8) (j : Option Job) : (State.setJob p j s).tallies = s.tallies := rfl
@[simp] theorem setJob_plant (p : Fin 8) (j : Option Job) : (State.setJob p j s).plant = s.plant := rfl
@[simp] theorem setJob_link (p : Fin 8) (j : Option Job) : (State.setJob p j s).link = s.link := rfl

/-! ### setLay -/

@[simp] theorem setLay_pending (x : Lay) : (State.setLay x s).pending = s.pending := rfl
@[simp] theorem setLay_now (x : Lay) : (State.setLay x s).now = s.now := rfl
@[simp] theorem setLay_inputs (x : Lay) : (State.setLay x s).inputs = s.inputs := rfl
@[simp] theorem setLay_jobs (x : Lay) : (State.setLay x s).jobs = s.jobs := rfl
@[simp] theorem setLay_table (x : Lay) : (State.setLay x s).table = s.table := rfl
@[simp] theorem setLay_rope (x : Lay) : (State.setLay x s).rope = s.rope := rfl
@[simp] theorem setLay_net (x : Lay) : (State.setLay x s).net = s.net := rfl
@[simp] theorem setLay_ropeCopy (x : Lay) : (State.setLay x s).ropeCopy = s.ropeCopy := rfl
@[simp] theorem setLay_netCopy (x : Lay) : (State.setLay x s).netCopy = s.netCopy := rfl
@[simp] theorem setLay_stops (x : Lay) : (State.setLay x s).stops = s.stops := rfl
@[simp] theorem setLay_knot (x : Lay) : (State.setLay x s).knot = s.knot := rfl
@[simp] theorem setLay_orders (x : Lay) : (State.setLay x s).orders = s.orders := rfl
@[simp] theorem setLay_flash (x : Lay) : (State.setLay x s).flash = s.flash := rfl
@[simp] theorem setLay_queue (x : Lay) : (State.setLay x s).queue = s.queue := rfl
@[simp] theorem setLay_log (x : Lay) : (State.setLay x s).log = s.log := rfl
@[simp] theorem setLay_tallies (x : Lay) : (State.setLay x s).tallies = s.tallies := rfl
@[simp] theorem setLay_plant (x : Lay) : (State.setLay x s).plant = s.plant := rfl
@[simp] theorem setLay_link (x : Lay) : (State.setLay x s).link = s.link := rfl

/-! ### setKnot -/

@[simp] theorem setKnot_pending (x : Knot) : (State.setKnot x s).pending = s.pending := rfl
@[simp] theorem setKnot_now (x : Knot) : (State.setKnot x s).now = s.now := rfl
@[simp] theorem setKnot_inputs (x : Knot) : (State.setKnot x s).inputs = s.inputs := rfl
@[simp] theorem setKnot_jobs (x : Knot) : (State.setKnot x s).jobs = s.jobs := rfl
@[simp] theorem setKnot_lay (x : Knot) : (State.setKnot x s).lay = s.lay := rfl
@[simp] theorem setKnot_table (x : Knot) : (State.setKnot x s).table = s.table := rfl
@[simp] theorem setKnot_rope (x : Knot) : (State.setKnot x s).rope = s.rope := rfl
@[simp] theorem setKnot_net (x : Knot) : (State.setKnot x s).net = s.net := rfl
@[simp] theorem setKnot_ropeCopy (x : Knot) : (State.setKnot x s).ropeCopy = s.ropeCopy := rfl
@[simp] theorem setKnot_netCopy (x : Knot) : (State.setKnot x s).netCopy = s.netCopy := rfl
@[simp] theorem setKnot_stops (x : Knot) : (State.setKnot x s).stops = s.stops := rfl
@[simp] theorem setKnot_orders (x : Knot) : (State.setKnot x s).orders = s.orders := rfl
@[simp] theorem setKnot_flash (x : Knot) : (State.setKnot x s).flash = s.flash := rfl
@[simp] theorem setKnot_queue (x : Knot) : (State.setKnot x s).queue = s.queue := rfl
@[simp] theorem setKnot_log (x : Knot) : (State.setKnot x s).log = s.log := rfl
@[simp] theorem setKnot_tallies (x : Knot) : (State.setKnot x s).tallies = s.tallies := rfl
@[simp] theorem setKnot_plant (x : Knot) : (State.setKnot x s).plant = s.plant := rfl
@[simp] theorem setKnot_link (x : Knot) : (State.setKnot x s).link = s.link := rfl

/-! ### setLink -/

@[simp] theorem setLink_pending (x : Link) : (State.setLink x s).pending = s.pending := rfl
@[simp] theorem setLink_now (x : Link) : (State.setLink x s).now = s.now := rfl
@[simp] theorem setLink_inputs (x : Link) : (State.setLink x s).inputs = s.inputs := rfl
@[simp] theorem setLink_jobs (x : Link) : (State.setLink x s).jobs = s.jobs := rfl
@[simp] theorem setLink_lay (x : Link) : (State.setLink x s).lay = s.lay := rfl
@[simp] theorem setLink_table (x : Link) : (State.setLink x s).table = s.table := rfl
@[simp] theorem setLink_rope (x : Link) : (State.setLink x s).rope = s.rope := rfl
@[simp] theorem setLink_net (x : Link) : (State.setLink x s).net = s.net := rfl
@[simp] theorem setLink_ropeCopy (x : Link) : (State.setLink x s).ropeCopy = s.ropeCopy := rfl
@[simp] theorem setLink_netCopy (x : Link) : (State.setLink x s).netCopy = s.netCopy := rfl
@[simp] theorem setLink_stops (x : Link) : (State.setLink x s).stops = s.stops := rfl
@[simp] theorem setLink_knot (x : Link) : (State.setLink x s).knot = s.knot := rfl
@[simp] theorem setLink_orders (x : Link) : (State.setLink x s).orders = s.orders := rfl
@[simp] theorem setLink_flash (x : Link) : (State.setLink x s).flash = s.flash := rfl
@[simp] theorem setLink_queue (x : Link) : (State.setLink x s).queue = s.queue := rfl
@[simp] theorem setLink_log (x : Link) : (State.setLink x s).log = s.log := rfl
@[simp] theorem setLink_tallies (x : Link) : (State.setLink x s).tallies = s.tallies := rfl
@[simp] theorem setLink_plant (x : Link) : (State.setLink x s).plant = s.plant := rfl

/-! ### setLatches -/

@[simp] theorem setLatches_pending (m : Fin 10) (x : Latches) : (State.setLatches m x s).pending = s.pending := rfl
@[simp] theorem setLatches_now (m : Fin 10) (x : Latches) : (State.setLatches m x s).now = s.now := rfl
@[simp] theorem setLatches_inputs (m : Fin 10) (x : Latches) : (State.setLatches m x s).inputs = s.inputs := rfl
@[simp] theorem setLatches_jobs (m : Fin 10) (x : Latches) : (State.setLatches m x s).jobs = s.jobs := rfl
@[simp] theorem setLatches_lay (m : Fin 10) (x : Latches) : (State.setLatches m x s).lay = s.lay := rfl
@[simp] theorem setLatches_table (m : Fin 10) (x : Latches) : (State.setLatches m x s).table = s.table := rfl
@[simp] theorem setLatches_rope (m : Fin 10) (x : Latches) : (State.setLatches m x s).rope = s.rope := rfl
@[simp] theorem setLatches_net (m : Fin 10) (x : Latches) : (State.setLatches m x s).net = s.net := rfl
@[simp] theorem setLatches_ropeCopy (m : Fin 10) (x : Latches) : (State.setLatches m x s).ropeCopy = s.ropeCopy := rfl
@[simp] theorem setLatches_netCopy (m : Fin 10) (x : Latches) : (State.setLatches m x s).netCopy = s.netCopy := rfl
@[simp] theorem setLatches_stops (m : Fin 10) (x : Latches) : (State.setLatches m x s).stops = s.stops := rfl
@[simp] theorem setLatches_knot (m : Fin 10) (x : Latches) : (State.setLatches m x s).knot = s.knot := rfl
@[simp] theorem setLatches_orders (m : Fin 10) (x : Latches) : (State.setLatches m x s).orders = s.orders := rfl
@[simp] theorem setLatches_flash (m : Fin 10) (x : Latches) : (State.setLatches m x s).flash = s.flash := rfl
@[simp] theorem setLatches_queue (m : Fin 10) (x : Latches) : (State.setLatches m x s).queue = s.queue := rfl
@[simp] theorem setLatches_log (m : Fin 10) (x : Latches) : (State.setLatches m x s).log = s.log := rfl
@[simp] theorem setLatches_tallies (m : Fin 10) (x : Latches) : (State.setLatches m x s).tallies = s.tallies := rfl
@[simp] theorem setLatches_plant (m : Fin 10) (x : Latches) : (State.setLatches m x s).plant = s.plant := rfl

/-! ### setTally -/

@[simp] theorem setTally_pending (m : Fin 10) (t : Tally) : (State.setTally m t s).pending = s.pending := rfl
@[simp] theorem setTally_now (m : Fin 10) (t : Tally) : (State.setTally m t s).now = s.now := rfl
@[simp] theorem setTally_inputs (m : Fin 10) (t : Tally) : (State.setTally m t s).inputs = s.inputs := rfl
@[simp] theorem setTally_jobs (m : Fin 10) (t : Tally) : (State.setTally m t s).jobs = s.jobs := rfl
@[simp] theorem setTally_lay (m : Fin 10) (t : Tally) : (State.setTally m t s).lay = s.lay := rfl
@[simp] theorem setTally_table (m : Fin 10) (t : Tally) : (State.setTally m t s).table = s.table := rfl
@[simp] theorem setTally_rope (m : Fin 10) (t : Tally) : (State.setTally m t s).rope = s.rope := rfl
@[simp] theorem setTally_net (m : Fin 10) (t : Tally) : (State.setTally m t s).net = s.net := rfl
@[simp] theorem setTally_ropeCopy (m : Fin 10) (t : Tally) : (State.setTally m t s).ropeCopy = s.ropeCopy := rfl
@[simp] theorem setTally_netCopy (m : Fin 10) (t : Tally) : (State.setTally m t s).netCopy = s.netCopy := rfl
@[simp] theorem setTally_stops (m : Fin 10) (t : Tally) : (State.setTally m t s).stops = s.stops := rfl
@[simp] theorem setTally_knot (m : Fin 10) (t : Tally) : (State.setTally m t s).knot = s.knot := rfl
@[simp] theorem setTally_orders (m : Fin 10) (t : Tally) : (State.setTally m t s).orders = s.orders := rfl
@[simp] theorem setTally_flash (m : Fin 10) (t : Tally) : (State.setTally m t s).flash = s.flash := rfl
@[simp] theorem setTally_queue (m : Fin 10) (t : Tally) : (State.setTally m t s).queue = s.queue := rfl
@[simp] theorem setTally_log (m : Fin 10) (t : Tally) : (State.setTally m t s).log = s.log := rfl
@[simp] theorem setTally_plant (m : Fin 10) (t : Tally) : (State.setTally m t s).plant = s.plant := rfl
@[simp] theorem setTally_link (m : Fin 10) (t : Tally) : (State.setTally m t s).link = s.link := rfl

/-! ### setPackages -/

@[simp] theorem setPackages_pending (ks : List Package) : (State.setPackages ks s).pending = s.pending := rfl
@[simp] theorem setPackages_now (ks : List Package) : (State.setPackages ks s).now = s.now := rfl
@[simp] theorem setPackages_inputs (ks : List Package) : (State.setPackages ks s).inputs = s.inputs := rfl
@[simp] theorem setPackages_jobs (ks : List Package) : (State.setPackages ks s).jobs = s.jobs := rfl
@[simp] theorem setPackages_lay (ks : List Package) : (State.setPackages ks s).lay = s.lay := rfl
@[simp] theorem setPackages_rope (ks : List Package) : (State.setPackages ks s).rope = s.rope := rfl
@[simp] theorem setPackages_net (ks : List Package) : (State.setPackages ks s).net = s.net := rfl
@[simp] theorem setPackages_ropeCopy (ks : List Package) : (State.setPackages ks s).ropeCopy = s.ropeCopy := rfl
@[simp] theorem setPackages_netCopy (ks : List Package) : (State.setPackages ks s).netCopy = s.netCopy := rfl
@[simp] theorem setPackages_stops (ks : List Package) : (State.setPackages ks s).stops = s.stops := rfl
@[simp] theorem setPackages_knot (ks : List Package) : (State.setPackages ks s).knot = s.knot := rfl
@[simp] theorem setPackages_orders (ks : List Package) : (State.setPackages ks s).orders = s.orders := rfl
@[simp] theorem setPackages_flash (ks : List Package) : (State.setPackages ks s).flash = s.flash := rfl
@[simp] theorem setPackages_queue (ks : List Package) : (State.setPackages ks s).queue = s.queue := rfl
@[simp] theorem setPackages_log (ks : List Package) : (State.setPackages ks s).log = s.log := rfl
@[simp] theorem setPackages_tallies (ks : List Package) : (State.setPackages ks s).tallies = s.tallies := rfl
@[simp] theorem setPackages_plant (ks : List Package) : (State.setPackages ks s).plant = s.plant := rfl
@[simp] theorem setPackages_link (ks : List Package) : (State.setPackages ks s).link = s.link := rfl

/-! ### updatePackage -/

@[simp] theorem updatePackage_pending (n : Nat) (f : Package → Package) : (State.updatePackage n f s).pending = s.pending := rfl
@[simp] theorem updatePackage_now (n : Nat) (f : Package → Package) : (State.updatePackage n f s).now = s.now := rfl
@[simp] theorem updatePackage_inputs (n : Nat) (f : Package → Package) : (State.updatePackage n f s).inputs = s.inputs := rfl
@[simp] theorem updatePackage_jobs (n : Nat) (f : Package → Package) : (State.updatePackage n f s).jobs = s.jobs := rfl
@[simp] theorem updatePackage_lay (n : Nat) (f : Package → Package) : (State.updatePackage n f s).lay = s.lay := rfl
@[simp] theorem updatePackage_rope (n : Nat) (f : Package → Package) : (State.updatePackage n f s).rope = s.rope := rfl
@[simp] theorem updatePackage_net (n : Nat) (f : Package → Package) : (State.updatePackage n f s).net = s.net := rfl
@[simp] theorem updatePackage_ropeCopy (n : Nat) (f : Package → Package) : (State.updatePackage n f s).ropeCopy = s.ropeCopy := rfl
@[simp] theorem updatePackage_netCopy (n : Nat) (f : Package → Package) : (State.updatePackage n f s).netCopy = s.netCopy := rfl
@[simp] theorem updatePackage_stops (n : Nat) (f : Package → Package) : (State.updatePackage n f s).stops = s.stops := rfl
@[simp] theorem updatePackage_knot (n : Nat) (f : Package → Package) : (State.updatePackage n f s).knot = s.knot := rfl
@[simp] theorem updatePackage_orders (n : Nat) (f : Package → Package) : (State.updatePackage n f s).orders = s.orders := rfl
@[simp] theorem updatePackage_flash (n : Nat) (f : Package → Package) : (State.updatePackage n f s).flash = s.flash := rfl
@[simp] theorem updatePackage_queue (n : Nat) (f : Package → Package) : (State.updatePackage n f s).queue = s.queue := rfl
@[simp] theorem updatePackage_log (n : Nat) (f : Package → Package) : (State.updatePackage n f s).log = s.log := rfl
@[simp] theorem updatePackage_tallies (n : Nat) (f : Package → Package) : (State.updatePackage n f s).tallies = s.tallies := rfl
@[simp] theorem updatePackage_plant (n : Nat) (f : Package → Package) : (State.updatePackage n f s).plant = s.plant := rfl
@[simp] theorem updatePackage_link (n : Nat) (f : Package → Package) : (State.updatePackage n f s).link = s.link := rfl

/-! ### setPlace -/

@[simp] theorem setPlace_pending (i : Fin 4) (x : Place) : (State.setPlace i x s).pending = s.pending := rfl
@[simp] theorem setPlace_now (i : Fin 4) (x : Place) : (State.setPlace i x s).now = s.now := rfl
@[simp] theorem setPlace_inputs (i : Fin 4) (x : Place) : (State.setPlace i x s).inputs = s.inputs := rfl
@[simp] theorem setPlace_jobs (i : Fin 4) (x : Place) : (State.setPlace i x s).jobs = s.jobs := rfl
@[simp] theorem setPlace_lay (i : Fin 4) (x : Place) : (State.setPlace i x s).lay = s.lay := rfl
@[simp] theorem setPlace_rope (i : Fin 4) (x : Place) : (State.setPlace i x s).rope = s.rope := rfl
@[simp] theorem setPlace_net (i : Fin 4) (x : Place) : (State.setPlace i x s).net = s.net := rfl
@[simp] theorem setPlace_ropeCopy (i : Fin 4) (x : Place) : (State.setPlace i x s).ropeCopy = s.ropeCopy := rfl
@[simp] theorem setPlace_netCopy (i : Fin 4) (x : Place) : (State.setPlace i x s).netCopy = s.netCopy := rfl
@[simp] theorem setPlace_stops (i : Fin 4) (x : Place) : (State.setPlace i x s).stops = s.stops := rfl
@[simp] theorem setPlace_knot (i : Fin 4) (x : Place) : (State.setPlace i x s).knot = s.knot := rfl
@[simp] theorem setPlace_orders (i : Fin 4) (x : Place) : (State.setPlace i x s).orders = s.orders := rfl
@[simp] theorem setPlace_flash (i : Fin 4) (x : Place) : (State.setPlace i x s).flash = s.flash := rfl
@[simp] theorem setPlace_queue (i : Fin 4) (x : Place) : (State.setPlace i x s).queue = s.queue := rfl
@[simp] theorem setPlace_log (i : Fin 4) (x : Place) : (State.setPlace i x s).log = s.log := rfl
@[simp] theorem setPlace_tallies (i : Fin 4) (x : Place) : (State.setPlace i x s).tallies = s.tallies := rfl
@[simp] theorem setPlace_plant (i : Fin 4) (x : Place) : (State.setPlace i x s).plant = s.plant := rfl
@[simp] theorem setPlace_link (i : Fin 4) (x : Place) : (State.setPlace i x s).link = s.link := rfl

/-! ### setCauses -/

@[simp] theorem setCauses_pending (m : Fin 10) (c : CauseSet) : (State.setCauses m c s).pending = s.pending := rfl
@[simp] theorem setCauses_now (m : Fin 10) (c : CauseSet) : (State.setCauses m c s).now = s.now := rfl
@[simp] theorem setCauses_inputs (m : Fin 10) (c : CauseSet) : (State.setCauses m c s).inputs = s.inputs := rfl
@[simp] theorem setCauses_jobs (m : Fin 10) (c : CauseSet) : (State.setCauses m c s).jobs = s.jobs := rfl
@[simp] theorem setCauses_lay (m : Fin 10) (c : CauseSet) : (State.setCauses m c s).lay = s.lay := rfl
@[simp] theorem setCauses_table (m : Fin 10) (c : CauseSet) : (State.setCauses m c s).table = s.table := rfl
@[simp] theorem setCauses_rope (m : Fin 10) (c : CauseSet) : (State.setCauses m c s).rope = s.rope := rfl
@[simp] theorem setCauses_net (m : Fin 10) (c : CauseSet) : (State.setCauses m c s).net = s.net := rfl
@[simp] theorem setCauses_ropeCopy (m : Fin 10) (c : CauseSet) : (State.setCauses m c s).ropeCopy = s.ropeCopy := rfl
@[simp] theorem setCauses_netCopy (m : Fin 10) (c : CauseSet) : (State.setCauses m c s).netCopy = s.netCopy := rfl
@[simp] theorem setCauses_knot (m : Fin 10) (c : CauseSet) : (State.setCauses m c s).knot = s.knot := rfl
@[simp] theorem setCauses_orders (m : Fin 10) (c : CauseSet) : (State.setCauses m c s).orders = s.orders := rfl
@[simp] theorem setCauses_flash (m : Fin 10) (c : CauseSet) : (State.setCauses m c s).flash = s.flash := rfl
@[simp] theorem setCauses_queue (m : Fin 10) (c : CauseSet) : (State.setCauses m c s).queue = s.queue := rfl
@[simp] theorem setCauses_log (m : Fin 10) (c : CauseSet) : (State.setCauses m c s).log = s.log := rfl
@[simp] theorem setCauses_tallies (m : Fin 10) (c : CauseSet) : (State.setCauses m c s).tallies = s.tallies := rfl
@[simp] theorem setCauses_plant (m : Fin 10) (c : CauseSet) : (State.setCauses m c s).plant = s.plant := rfl
@[simp] theorem setCauses_link (m : Fin 10) (c : CauseSet) : (State.setCauses m c s).link = s.link := rfl

/-! ### reach -/

@[simp] theorem reach_pending (d : Nat) : (State.reach d s).pending = s.pending := rfl
@[simp] theorem reach_inputs (d : Nat) : (State.reach d s).inputs = s.inputs := rfl
@[simp] theorem reach_jobs (d : Nat) : (State.reach d s).jobs = s.jobs := rfl
@[simp] theorem reach_lay (d : Nat) : (State.reach d s).lay = s.lay := rfl
@[simp] theorem reach_table (d : Nat) : (State.reach d s).table = s.table := rfl
@[simp] theorem reach_rope (d : Nat) : (State.reach d s).rope = s.rope := rfl
@[simp] theorem reach_net (d : Nat) : (State.reach d s).net = s.net := rfl
@[simp] theorem reach_ropeCopy (d : Nat) : (State.reach d s).ropeCopy = s.ropeCopy := rfl
@[simp] theorem reach_netCopy (d : Nat) : (State.reach d s).netCopy = s.netCopy := rfl
@[simp] theorem reach_stops (d : Nat) : (State.reach d s).stops = s.stops := rfl
@[simp] theorem reach_knot (d : Nat) : (State.reach d s).knot = s.knot := rfl
@[simp] theorem reach_orders (d : Nat) : (State.reach d s).orders = s.orders := rfl
@[simp] theorem reach_flash (d : Nat) : (State.reach d s).flash = s.flash := rfl
@[simp] theorem reach_queue (d : Nat) : (State.reach d s).queue = s.queue := rfl
@[simp] theorem reach_log (d : Nat) : (State.reach d s).log = s.log := rfl
@[simp] theorem reach_tallies (d : Nat) : (State.reach d s).tallies = s.tallies := rfl
@[simp] theorem reach_plant (d : Nat) : (State.reach d s).plant = s.plant := rfl
@[simp] theorem reach_link (d : Nat) : (State.reach d s).link = s.link := rfl

/-! ### judgeCall -/

@[simp] theorem judgeCall_pending : (judgeCall s).pending = s.pending := rfl
@[simp] theorem judgeCall_now : (judgeCall s).now = s.now := rfl
@[simp] theorem judgeCall_inputs : (judgeCall s).inputs = s.inputs := rfl
@[simp] theorem judgeCall_jobs : (judgeCall s).jobs = s.jobs := rfl
@[simp] theorem judgeCall_lay : (judgeCall s).lay = s.lay := rfl
@[simp] theorem judgeCall_table : (judgeCall s).table = s.table := rfl
@[simp] theorem judgeCall_rope : (judgeCall s).rope = s.rope := rfl
@[simp] theorem judgeCall_net : (judgeCall s).net = s.net := rfl
@[simp] theorem judgeCall_ropeCopy : (judgeCall s).ropeCopy = s.ropeCopy := rfl
@[simp] theorem judgeCall_netCopy : (judgeCall s).netCopy = s.netCopy := rfl
@[simp] theorem judgeCall_stops : (judgeCall s).stops = s.stops := rfl
@[simp] theorem judgeCall_knot : (judgeCall s).knot = s.knot := rfl
@[simp] theorem judgeCall_orders : (judgeCall s).orders = s.orders := rfl
@[simp] theorem judgeCall_flash : (judgeCall s).flash = s.flash := rfl
@[simp] theorem judgeCall_queue : (judgeCall s).queue = s.queue := rfl
@[simp] theorem judgeCall_log : (judgeCall s).log = s.log := rfl
@[simp] theorem judgeCall_tallies : (judgeCall s).tallies = s.tallies := rfl
@[simp] theorem judgeCall_plant : (judgeCall s).plant = s.plant := rfl

/-! ### attachReply -/

@[simp] theorem attachReply_pending (r : Reply) : (attachReply r s).pending = s.pending := rfl
@[simp] theorem attachReply_now (r : Reply) : (attachReply r s).now = s.now := rfl
@[simp] theorem attachReply_inputs (r : Reply) : (attachReply r s).inputs = s.inputs := rfl
@[simp] theorem attachReply_jobs (r : Reply) : (attachReply r s).jobs = s.jobs := rfl
@[simp] theorem attachReply_lay (r : Reply) : (attachReply r s).lay = s.lay := rfl
@[simp] theorem attachReply_table (r : Reply) : (attachReply r s).table = s.table := rfl
@[simp] theorem attachReply_rope (r : Reply) : (attachReply r s).rope = s.rope := rfl
@[simp] theorem attachReply_net (r : Reply) : (attachReply r s).net = s.net := rfl
@[simp] theorem attachReply_ropeCopy (r : Reply) : (attachReply r s).ropeCopy = s.ropeCopy := rfl
@[simp] theorem attachReply_netCopy (r : Reply) : (attachReply r s).netCopy = s.netCopy := rfl
@[simp] theorem attachReply_stops (r : Reply) : (attachReply r s).stops = s.stops := rfl
@[simp] theorem attachReply_knot (r : Reply) : (attachReply r s).knot = s.knot := rfl
@[simp] theorem attachReply_orders (r : Reply) : (attachReply r s).orders = s.orders := rfl
@[simp] theorem attachReply_flash (r : Reply) : (attachReply r s).flash = s.flash := rfl
@[simp] theorem attachReply_queue (r : Reply) : (attachReply r s).queue = s.queue := rfl
@[simp] theorem attachReply_log (r : Reply) : (attachReply r s).log = s.log := rfl
@[simp] theorem attachReply_tallies (r : Reply) : (attachReply r s).tallies = s.tallies := rfl
@[simp] theorem attachReply_plant (r : Reply) : (attachReply r s).plant = s.plant := rfl

/-! ### setLine -/

@[simp] theorem setLine_pending (l : LineId) (x : Line) : (State.setLine l x s).pending = s.pending := by cases l <;> rfl
@[simp] theorem setLine_now (l : LineId) (x : Line) : (State.setLine l x s).now = s.now := by cases l <;> rfl
@[simp] theorem setLine_inputs (l : LineId) (x : Line) : (State.setLine l x s).inputs = s.inputs := by cases l <;> rfl
@[simp] theorem setLine_jobs (l : LineId) (x : Line) : (State.setLine l x s).jobs = s.jobs := by cases l <;> rfl
@[simp] theorem setLine_lay (l : LineId) (x : Line) : (State.setLine l x s).lay = s.lay := by cases l <;> rfl
@[simp] theorem setLine_table (l : LineId) (x : Line) : (State.setLine l x s).table = s.table := by cases l <;> rfl
@[simp] theorem setLine_ropeCopy (l : LineId) (x : Line) : (State.setLine l x s).ropeCopy = s.ropeCopy := by cases l <;> rfl
@[simp] theorem setLine_netCopy (l : LineId) (x : Line) : (State.setLine l x s).netCopy = s.netCopy := by cases l <;> rfl
@[simp] theorem setLine_stops (l : LineId) (x : Line) : (State.setLine l x s).stops = s.stops := by cases l <;> rfl
@[simp] theorem setLine_knot (l : LineId) (x : Line) : (State.setLine l x s).knot = s.knot := by cases l <;> rfl
@[simp] theorem setLine_orders (l : LineId) (x : Line) : (State.setLine l x s).orders = s.orders := by cases l <;> rfl
@[simp] theorem setLine_flash (l : LineId) (x : Line) : (State.setLine l x s).flash = s.flash := by cases l <;> rfl
@[simp] theorem setLine_queue (l : LineId) (x : Line) : (State.setLine l x s).queue = s.queue := by cases l <;> rfl
@[simp] theorem setLine_log (l : LineId) (x : Line) : (State.setLine l x s).log = s.log := by cases l <;> rfl
@[simp] theorem setLine_tallies (l : LineId) (x : Line) : (State.setLine l x s).tallies = s.tallies := by cases l <;> rfl
@[simp] theorem setLine_plant (l : LineId) (x : Line) : (State.setLine l x s).plant = s.plant := by cases l <;> rfl
@[simp] theorem setLine_link (l : LineId) (x : Line) : (State.setLine l x s).link = s.link := by cases l <;> rfl

/-! ### setLen -/

@[simp] theorem setLen_pending (l : LineId) (x : LengthMeter) : (State.setLen l x s).pending = s.pending := by cases l <;> rfl
@[simp] theorem setLen_now (l : LineId) (x : LengthMeter) : (State.setLen l x s).now = s.now := by cases l <;> rfl
@[simp] theorem setLen_inputs (l : LineId) (x : LengthMeter) : (State.setLen l x s).inputs = s.inputs := by cases l <;> rfl
@[simp] theorem setLen_jobs (l : LineId) (x : LengthMeter) : (State.setLen l x s).jobs = s.jobs := by cases l <;> rfl
@[simp] theorem setLen_lay (l : LineId) (x : LengthMeter) : (State.setLen l x s).lay = s.lay := by cases l <;> rfl
@[simp] theorem setLen_table (l : LineId) (x : LengthMeter) : (State.setLen l x s).table = s.table := by cases l <;> rfl
@[simp] theorem setLen_ropeCopy (l : LineId) (x : LengthMeter) : (State.setLen l x s).ropeCopy = s.ropeCopy := by cases l <;> rfl
@[simp] theorem setLen_netCopy (l : LineId) (x : LengthMeter) : (State.setLen l x s).netCopy = s.netCopy := by cases l <;> rfl
@[simp] theorem setLen_stops (l : LineId) (x : LengthMeter) : (State.setLen l x s).stops = s.stops := by cases l <;> rfl
@[simp] theorem setLen_knot (l : LineId) (x : LengthMeter) : (State.setLen l x s).knot = s.knot := by cases l <;> rfl
@[simp] theorem setLen_orders (l : LineId) (x : LengthMeter) : (State.setLen l x s).orders = s.orders := by cases l <;> rfl
@[simp] theorem setLen_flash (l : LineId) (x : LengthMeter) : (State.setLen l x s).flash = s.flash := by cases l <;> rfl
@[simp] theorem setLen_queue (l : LineId) (x : LengthMeter) : (State.setLen l x s).queue = s.queue := by cases l <;> rfl
@[simp] theorem setLen_log (l : LineId) (x : LengthMeter) : (State.setLen l x s).log = s.log := by cases l <;> rfl
@[simp] theorem setLen_tallies (l : LineId) (x : LengthMeter) : (State.setLen l x s).tallies = s.tallies := by cases l <;> rfl
@[simp] theorem setLen_plant (l : LineId) (x : LengthMeter) : (State.setLen l x s).plant = s.plant := by cases l <;> rfl
@[simp] theorem setLen_link (l : LineId) (x : LengthMeter) : (State.setLen l x s).link = s.link := by cases l <;> rfl

/-! ### setAct -/

@[simp] theorem setAct_pending (l : LineId) (x : LineActions) : (State.setAct l x s).pending = s.pending := by cases l <;> rfl
@[simp] theorem setAct_now (l : LineId) (x : LineActions) : (State.setAct l x s).now = s.now := by cases l <;> rfl
@[simp] theorem setAct_inputs (l : LineId) (x : LineActions) : (State.setAct l x s).inputs = s.inputs := by cases l <;> rfl
@[simp] theorem setAct_jobs (l : LineId) (x : LineActions) : (State.setAct l x s).jobs = s.jobs := by cases l <;> rfl
@[simp] theorem setAct_lay (l : LineId) (x : LineActions) : (State.setAct l x s).lay = s.lay := by cases l <;> rfl
@[simp] theorem setAct_table (l : LineId) (x : LineActions) : (State.setAct l x s).table = s.table := by cases l <;> rfl
@[simp] theorem setAct_ropeCopy (l : LineId) (x : LineActions) : (State.setAct l x s).ropeCopy = s.ropeCopy := by cases l <;> rfl
@[simp] theorem setAct_netCopy (l : LineId) (x : LineActions) : (State.setAct l x s).netCopy = s.netCopy := by cases l <;> rfl
@[simp] theorem setAct_stops (l : LineId) (x : LineActions) : (State.setAct l x s).stops = s.stops := by cases l <;> rfl
@[simp] theorem setAct_knot (l : LineId) (x : LineActions) : (State.setAct l x s).knot = s.knot := by cases l <;> rfl
@[simp] theorem setAct_orders (l : LineId) (x : LineActions) : (State.setAct l x s).orders = s.orders := by cases l <;> rfl
@[simp] theorem setAct_flash (l : LineId) (x : LineActions) : (State.setAct l x s).flash = s.flash := by cases l <;> rfl
@[simp] theorem setAct_queue (l : LineId) (x : LineActions) : (State.setAct l x s).queue = s.queue := by cases l <;> rfl
@[simp] theorem setAct_log (l : LineId) (x : LineActions) : (State.setAct l x s).log = s.log := by cases l <;> rfl
@[simp] theorem setAct_tallies (l : LineId) (x : LineActions) : (State.setAct l x s).tallies = s.tallies := by cases l <;> rfl
@[simp] theorem setAct_plant (l : LineId) (x : LineActions) : (State.setAct l x s).plant = s.plant := by cases l <;> rfl
@[simp] theorem setAct_link (l : LineId) (x : LineActions) : (State.setAct l x s).link = s.link := by cases l <;> rfl

/-! ### setPack -/

@[simp] theorem setPack_pending (l : LineId) (x : PackPoint) : (State.setPack l x s).pending = s.pending := by cases l <;> rfl
@[simp] theorem setPack_now (l : LineId) (x : PackPoint) : (State.setPack l x s).now = s.now := by cases l <;> rfl
@[simp] theorem setPack_inputs (l : LineId) (x : PackPoint) : (State.setPack l x s).inputs = s.inputs := by cases l <;> rfl
@[simp] theorem setPack_jobs (l : LineId) (x : PackPoint) : (State.setPack l x s).jobs = s.jobs := by cases l <;> rfl
@[simp] theorem setPack_lay (l : LineId) (x : PackPoint) : (State.setPack l x s).lay = s.lay := by cases l <;> rfl
@[simp] theorem setPack_table (l : LineId) (x : PackPoint) : (State.setPack l x s).table = s.table := by cases l <;> rfl
@[simp] theorem setPack_ropeCopy (l : LineId) (x : PackPoint) : (State.setPack l x s).ropeCopy = s.ropeCopy := by cases l <;> rfl
@[simp] theorem setPack_netCopy (l : LineId) (x : PackPoint) : (State.setPack l x s).netCopy = s.netCopy := by cases l <;> rfl
@[simp] theorem setPack_stops (l : LineId) (x : PackPoint) : (State.setPack l x s).stops = s.stops := by cases l <;> rfl
@[simp] theorem setPack_knot (l : LineId) (x : PackPoint) : (State.setPack l x s).knot = s.knot := by cases l <;> rfl
@[simp] theorem setPack_orders (l : LineId) (x : PackPoint) : (State.setPack l x s).orders = s.orders := by cases l <;> rfl
@[simp] theorem setPack_flash (l : LineId) (x : PackPoint) : (State.setPack l x s).flash = s.flash := by cases l <;> rfl
@[simp] theorem setPack_queue (l : LineId) (x : PackPoint) : (State.setPack l x s).queue = s.queue := by cases l <;> rfl
@[simp] theorem setPack_log (l : LineId) (x : PackPoint) : (State.setPack l x s).log = s.log := by cases l <;> rfl
@[simp] theorem setPack_tallies (l : LineId) (x : PackPoint) : (State.setPack l x s).tallies = s.tallies := by cases l <;> rfl
@[simp] theorem setPack_plant (l : LineId) (x : PackPoint) : (State.setPack l x s).plant = s.plant := by cases l <;> rfl
@[simp] theorem setPack_link (l : LineId) (x : PackPoint) : (State.setPack l x s).link = s.link := by cases l <;> rfl

/-! ### setMarks -/

@[simp] theorem setMarks_pending (l : LineId) (x : List Mark) : (State.setMarks l x s).pending = s.pending := by cases l <;> rfl
@[simp] theorem setMarks_now (l : LineId) (x : List Mark) : (State.setMarks l x s).now = s.now := by cases l <;> rfl
@[simp] theorem setMarks_inputs (l : LineId) (x : List Mark) : (State.setMarks l x s).inputs = s.inputs := by cases l <;> rfl
@[simp] theorem setMarks_jobs (l : LineId) (x : List Mark) : (State.setMarks l x s).jobs = s.jobs := by cases l <;> rfl
@[simp] theorem setMarks_lay (l : LineId) (x : List Mark) : (State.setMarks l x s).lay = s.lay := by cases l <;> rfl
@[simp] theorem setMarks_table (l : LineId) (x : List Mark) : (State.setMarks l x s).table = s.table := by cases l <;> rfl
@[simp] theorem setMarks_ropeCopy (l : LineId) (x : List Mark) : (State.setMarks l x s).ropeCopy = s.ropeCopy := by cases l <;> rfl
@[simp] theorem setMarks_netCopy (l : LineId) (x : List Mark) : (State.setMarks l x s).netCopy = s.netCopy := by cases l <;> rfl
@[simp] theorem setMarks_stops (l : LineId) (x : List Mark) : (State.setMarks l x s).stops = s.stops := by cases l <;> rfl
@[simp] theorem setMarks_knot (l : LineId) (x : List Mark) : (State.setMarks l x s).knot = s.knot := by cases l <;> rfl
@[simp] theorem setMarks_orders (l : LineId) (x : List Mark) : (State.setMarks l x s).orders = s.orders := by cases l <;> rfl
@[simp] theorem setMarks_flash (l : LineId) (x : List Mark) : (State.setMarks l x s).flash = s.flash := by cases l <;> rfl
@[simp] theorem setMarks_queue (l : LineId) (x : List Mark) : (State.setMarks l x s).queue = s.queue := by cases l <;> rfl
@[simp] theorem setMarks_log (l : LineId) (x : List Mark) : (State.setMarks l x s).log = s.log := by cases l <;> rfl
@[simp] theorem setMarks_tallies (l : LineId) (x : List Mark) : (State.setMarks l x s).tallies = s.tallies := by cases l <;> rfl
@[simp] theorem setMarks_plant (l : LineId) (x : List Mark) : (State.setMarks l x s).plant = s.plant := by cases l <;> rfl
@[simp] theorem setMarks_link (l : LineId) (x : List Mark) : (State.setMarks l x s).link = s.link := by cases l <;> rfl

/-! ### setActions -/

@[simp] theorem setActions_pending (l : LineId) (x : List Action) : (State.setActions l x s).pending = s.pending := by cases l <;> rfl
@[simp] theorem setActions_now (l : LineId) (x : List Action) : (State.setActions l x s).now = s.now := by cases l <;> rfl
@[simp] theorem setActions_inputs (l : LineId) (x : List Action) : (State.setActions l x s).inputs = s.inputs := by cases l <;> rfl
@[simp] theorem setActions_jobs (l : LineId) (x : List Action) : (State.setActions l x s).jobs = s.jobs := by cases l <;> rfl
@[simp] theorem setActions_lay (l : LineId) (x : List Action) : (State.setActions l x s).lay = s.lay := by cases l <;> rfl
@[simp] theorem setActions_table (l : LineId) (x : List Action) : (State.setActions l x s).table = s.table := by cases l <;> rfl
@[simp] theorem setActions_ropeCopy (l : LineId) (x : List Action) : (State.setActions l x s).ropeCopy = s.ropeCopy := by cases l <;> rfl
@[simp] theorem setActions_netCopy (l : LineId) (x : List Action) : (State.setActions l x s).netCopy = s.netCopy := by cases l <;> rfl
@[simp] theorem setActions_stops (l : LineId) (x : List Action) : (State.setActions l x s).stops = s.stops := by cases l <;> rfl
@[simp] theorem setActions_knot (l : LineId) (x : List Action) : (State.setActions l x s).knot = s.knot := by cases l <;> rfl
@[simp] theorem setActions_orders (l : LineId) (x : List Action) : (State.setActions l x s).orders = s.orders := by cases l <;> rfl
@[simp] theorem setActions_flash (l : LineId) (x : List Action) : (State.setActions l x s).flash = s.flash := by cases l <;> rfl
@[simp] theorem setActions_queue (l : LineId) (x : List Action) : (State.setActions l x s).queue = s.queue := by cases l <;> rfl
@[simp] theorem setActions_log (l : LineId) (x : List Action) : (State.setActions l x s).log = s.log := by cases l <;> rfl
@[simp] theorem setActions_tallies (l : LineId) (x : List Action) : (State.setActions l x s).tallies = s.tallies := by cases l <;> rfl
@[simp] theorem setActions_plant (l : LineId) (x : List Action) : (State.setActions l x s).plant = s.plant := by cases l <;> rfl
@[simp] theorem setActions_link (l : LineId) (x : List Action) : (State.setActions l x s).link = s.link := by cases l <;> rfl

/-! ### What the updates make of their own fields -/

@[simp] theorem pulse_setPulse (k : PulseInput) (x : PulseIn) : (s.setPulse k x).pulse k = x := by
  cases k <;> simp [State.pulse, State.setPulse, Inputs.pulse, Inputs.setPulse]
@[simp] theorem level_setLevel (k : LevelInput) (x : LevelIn) :
    (s.setLevel k x).inputs.level k = x := by
  cases k <;> simp [State.setLevel, Inputs.level, Inputs.setLevel]
@[simp] theorem job_setJob (p : Fin 8) (j : Option Job) : (s.setJob p j).job p = j := by
  simp [State.job, State.setJob]
@[simp] theorem setLay_lay (x : Lay) : (s.setLay x).lay = x := rfl
@[simp] theorem setKnot_knot (x : Knot) : (s.setKnot x).knot = x := rfl
@[simp] theorem setLink_link (x : Link) : (s.setLink x).link = x := rfl
@[simp] theorem latches_setLatches (m : Fin 10) (x : Latches) : (s.setLatches m x).latches m = x := by
  simp [State.latches, State.setLatches]
@[simp] theorem tally_setTally (m : Fin 10) (t : Tally) : (s.setTally m t).tally m = t := by
  simp [State.tally, State.setTally]
@[simp] theorem packages_setPackages (ks : List Package) : (s.setPackages ks).table.packages = ks :=
  rfl
@[simp] theorem place_setPlace (i : Fin 4) (x : Place) : (s.setPlace i x).place i = x := by
  simp [State.place, State.setPlace]
@[simp] theorem stop_setCauses (m : Fin 10) (c : CauseSet) :
    (s.setCauses m c).stop m = { causes := c, asserted := c != 0 } := by
  simp [State.stop, State.setCauses]
theorem stop_setCauses_of_ne {m k : Fin 10} (h : k ≠ m) (c : CauseSet) :
    (s.setCauses m c).stop k = s.stop k := by
  have : (m : Nat) ≠ k := fun e => h (Fin.ext e.symm)
  simp [State.stop, State.setCauses, this]
@[simp] theorem line_setLine (l : LineId) (x : Line) : (s.setLine l x).line l = x := by
  cases l <;> rfl
@[simp] theorem len_setLen (l : LineId) (x : LengthMeter) : (s.setLen l x).len l = x := by
  cases l <;> rfl
@[simp] theorem act_setAct (l : LineId) (x : LineActions) : (s.setAct l x).act l = x := by
  cases l <;> rfl
@[simp] theorem pack_setPack (l : LineId) (x : PackPoint) : (s.setPack l x).pack l = x := by
  cases l <;> rfl
@[simp] theorem act_setLen (l k : LineId) (x : LengthMeter) : (s.setLen l x).act k = s.act k := by
  cases l <;> cases k <;> rfl
@[simp] theorem pack_setLen (l k : LineId) (x : LengthMeter) : (s.setLen l x).pack k = s.pack k := by
  cases l <;> cases k <;> rfl
@[simp] theorem len_setAct (l k : LineId) (x : LineActions) : (s.setAct l x).len k = s.len k := by
  cases l <;> cases k <;> rfl
@[simp] theorem pack_setAct (l k : LineId) (x : LineActions) : (s.setAct l x).pack k = s.pack k := by
  cases l <;> cases k <;> rfl
@[simp] theorem len_setPack (l k : LineId) (x : PackPoint) : (s.setPack l x).len k = s.len k := by
  cases l <;> cases k <;> rfl
@[simp] theorem act_setPack (l k : LineId) (x : PackPoint) : (s.setPack l x).act k = s.act k := by
  cases l <;> cases k <;> rfl
@[simp] theorem setLatches_reports (m : Fin 10) (x : Latches) :
    (s.setLatches m x).link.reports = s.link.reports := rfl

end Sys2Proof.Machine
end

