-- ==== Sys2Proof/Laws/Outer.lean ====
section
/-! SUPPORT. What the part does rests neither on the commands that wait nor on the frames of the receive queue, and
changes neither, the Link Port's own commands apart. -/

namespace Sys2Proof.Machine

variable (q : List Instr) (fs : List Frame) (s : State)

/-- The state with other commands waiting and other frames in the receive queue. -/
def State.outer (q : List Instr) (fs : List Frame) (s : State) : State :=
  { s with pending := q, link := { s.link with frames := fs } }

theorem outer_self : s.outer s.pending s.link.frames = s := rfl

theorem outer_outer (q' : List Instr) (fs' : List Frame) :
    (s.outer q fs).outer q' fs' = s.outer q' fs' := rfl

theorem outer_ite {c : Prop} [Decidable c] (a b : State) :
    (if c then a else b).outer q fs = if c then a.outer q fs else b.outer q fs := by
  split <;> rfl

theorem foldl_outer {α : Type} {f : State → α → State}
    (hf : ∀ x a, f (x.outer q fs) a = (f x a).outer q fs) (l : List α) (x : State) :
    l.foldl f (x.outer q fs) = (l.foldl f x).outer q fs := by
  induction l generalizing x with
  | nil => rfl
  | cons a rest ih => rw [List.foldl_cons, hf, ih, List.foldl_cons]

/-! ### Parts and views of the state -/

@[simp] theorem outer_now : (s.outer q fs).now = s.now := rfl
@[simp] theorem outer_inputs : (s.outer q fs).inputs = s.inputs := rfl
@[simp] theorem outer_jobs : (s.outer q fs).jobs = s.jobs := rfl
@[simp] theorem outer_lay : (s.outer q fs).lay = s.lay := rfl
@[simp] theorem outer_table : (s.outer q fs).table = s.table := rfl
@[simp] theorem outer_rope : (s.outer q fs).rope = s.rope := rfl
@[simp] theorem outer_net : (s.outer q fs).net = s.net := rfl
@[simp] theorem outer_ropeCopy : (s.outer q fs).ropeCopy = s.ropeCopy := rfl
@[simp] theorem outer_netCopy : (s.outer q fs).netCopy = s.netCopy := rfl
@[simp] theorem outer_stops : (s.outer q fs).stops = s.stops := rfl
@[simp] theorem outer_knot : (s.outer q fs).knot = s.knot := rfl
@[simp] theorem outer_orders : (s.outer q fs).orders = s.orders := rfl
@[simp] theorem outer_flash : (s.outer q fs).flash = s.flash := rfl
@[simp] theorem outer_queue : (s.outer q fs).queue = s.queue := rfl
@[simp] theorem outer_log : (s.outer q fs).log = s.log := rfl
@[simp] theorem outer_tallies : (s.outer q fs).tallies = s.tallies := rfl
@[simp] theorem outer_plant : (s.outer q fs).plant = s.plant := rfl
@[simp] theorem outer_link_br1 : (s.outer q fs).link.br1 = s.link.br1 := rfl
@[simp] theorem outer_link_br0 : (s.outer q fs).link.br0 = s.link.br0 := rfl
@[simp] theorem outer_link_receive : (s.outer q fs).link.receive = s.link.receive := rfl
@[simp] theorem outer_link_gap : (s.outer q fs).link.gap = s.link.gap := rfl
@[simp] theorem outer_link_badFrames : (s.outer q fs).link.badFrames = s.link.badFrames := rfl
@[simp] theorem outer_link_overruns : (s.outer q fs).link.overruns = s.link.overruns := rfl
@[simp] theorem outer_link_reports : (s.outer q fs).link.reports = s.link.reports := rfl
@[simp] theorem outer_link_settings : (s.outer q fs).link.settings = s.link.settings := rfl
@[simp] theorem outer_link_mask : (s.outer q fs).link.mask = s.link.mask := rfl
@[simp] theorem outer_link_lost : (s.outer q fs).link.lost = s.link.lost := rfl
@[simp] theorem outer_link_call : (s.outer q fs).link.call = s.link.call := rfl
@[simp] theorem outer_link_latches : (s.outer q fs).link.latches = s.link.latches := rfl
@[simp] theorem outer_link_start : (s.outer q fs).link.start = s.link.start := rfl
@[simp] theorem outer_link_resetKind : (s.outer q fs).link.resetKind = s.link.resetKind := rfl
@[simp] theorem outer_link_held : (s.outer q fs).link.held = s.link.held := rfl
@[simp] theorem outer_link_restarting : (s.outer q fs).link.restarting = s.link.restarting := rfl
@[simp] theorem outer_pulse (k : PulseInput) : State.pulse (s.outer q fs) k = State.pulse s k := rfl
@[simp] theorem outer_job (p : Fin 8) : State.job (s.outer q fs) p = State.job s p := rfl
@[simp] theorem outer_line  (x : LineId) : State.line (s.outer q fs) x = State.line s x := rfl
@[simp] theorem outer_len (l : LineId) : State.len (s.outer q fs) l = State.len s l := rfl
@[simp] theorem outer_act (l : LineId) : State.act (s.outer q fs) l = State.act s l := rfl
@[simp] theorem outer_pack (l : LineId) : State.pack (s.outer q fs) l = State.pack s l := rfl
@[simp] theorem outer_tally (m : Fin 10) : State.tally (s.outer q fs) m = State.tally s m := rfl
@[simp] theorem outer_stop (m : Fin 10) : State.stop (s.outer q fs) m = State.stop s m := rfl
@[simp] theorem outer_hasCause (m : Fin 10) (c : StopCause) : State.hasCause (s.outer q fs) m c = State.hasCause s m c := rfl
@[simp] theorem outer_latches (m : Fin 10) : State.latches (s.outer q fs) m = State.latches s m := rfl
@[simp] theorem outer_package (number : Nat) : State.package (s.outer q fs) number = State.package s number := rfl
@[simp] theorem outer_place (i : Fin 4) : State.place (s.outer q fs) i = State.place s i := rfl
@[simp] theorem outer_reportTime  : State.reportTime (s.outer q fs) = State.reportTime s := rfl
@[simp] theorem outer_plantD  : State.plantD (s.outer q fs) = State.plantD s := rfl
@[simp] theorem outer_filterWidth (k : PulseInput) : State.filterWidth (s.outer q fs) k = State.filterWidth s k := rfl
@[simp] theorem outer_stallTime (k : PulseInput) : State.stallTime (s.outer q fs) k = State.stallTime s k := rfl
@[simp] theorem outer_markerOffset  (x : LineId) : State.markerOffset (s.outer q fs) x = State.markerOffset s x := rfl
@[simp] theorem outer_cutterOffset  (x : LineId) : State.cutterOffset (s.outer q fs) x = State.cutterOffset s x := rfl
@[simp] theorem outer_feedOffset  : State.feedOffset (s.outer q fs) = State.feedOffset s := rfl
@[simp] theorem outer_running (l : LineId) : State.running (s.outer q fs) l = State.running s l := rfl
@[simp] theorem outer_copyOf  (x : LineId) : State.copyOf (s.outer q fs) x = State.copyOf s x := rfl
@[simp] theorem outer_spraySet  (x : LineId) : State.spraySet (s.outer q fs) x = State.spraySet s x := rfl
@[simp] theorem outer_bKinds  (x : LineId) : State.bKinds (s.outer q fs) x = State.bKinds s x := rfl
@[simp] theorem outer_bLimit  (x : LineId) : State.bLimit (s.outer q fs) x = State.bLimit s x := rfl
@[simp] theorem outer_guardOf  (x : LineId) : State.guardOf (s.outer q fs) x = State.guardOf s x := rfl
@[simp] theorem outer_isHeld (kind : ReportKind) : isHeld kind (s.outer q fs) = isHeld kind s := rfl
@[simp] theorem outer_configured  : configured (s.outer q fs) = configured s := rfl
@[simp] theorem outer_cutWaits (l : LineId) : cutWaits l (s.outer q fs) = cutWaits l s := rfl
@[simp] theorem outer_addMarkFields (l : LineId) (ref : Nat) (how : Placing) : addMarkFields l ref how (s.outer q fs) = addMarkFields l ref how s := rfl
@[simp] theorem outer_generalFree  : State.generalFree (s.outer q fs) = State.generalFree s := rfl
@[simp] theorem outer_runningOp  : State.runningOp (s.outer q fs) = State.runningOp s := rfl
@[simp] theorem outer_slotWritten (n : Nat) : State.slotWritten (s.outer q fs) n = State.slotWritten s n := rfl
@[simp] theorem outer_plantWritten  : State.plantWritten (s.outer q fs) = State.plantWritten s := rfl
@[simp] theorem outer_slotChecks (suits : RecipeBody → Bool) (slot : Nat) : slotChecks suits slot (s.outer q fs) = slotChecks suits slot s := rfl
@[simp] theorem outer_limitMetres (m : Fin 10) : limitMetres m (s.outer q fs) = limitMetres m s := rfl
@[simp] theorem outer_tallyFields (m : Fin 10) : tallyFields m (s.outer q fs) = tallyFields m s := rfl
@[simp] theorem outer_oldestOrder (l : LineId) : State.oldestOrder (s.outer q fs) l = State.oldestOrder s l := rfl
@[simp] theorem outer_order (number : Nat) : State.order (s.outer q fs) number = State.order s number := rfl
@[simp] theorem outer_boundOrder (l : LineId) : State.boundOrder (s.outer q fs) l = State.boundOrder s l := rfl
@[simp] theorem outer_lengthFrom (l : LineId) (x0 : Nat) : State.lengthFrom (s.outer q fs) l x0 = State.lengthFrom s l x0 := rfl
@[simp] theorem outer_lengthSoFar (l : LineId) : State.lengthSoFar (s.outer q fs) l = State.lengthSoFar s l := rfl
@[simp] theorem outer_planningDue (l : LineId) (p x0 : Nat) (o : Order) : planningDue l p x0 o (s.outer q fs) = planningDue l p x0 o s := rfl
@[simp] theorem outer_feedingNumbers  : feedingNumbers (s.outer q fs) = feedingNumbers s := rfl
@[simp] theorem outer_openingPackages (l : LineId) : openingPackages l (s.outer q fs) = openingPackages l s := rfl
@[simp] theorem outer_buildRecord (l : LineId) (x0 length : Nat) (manual : Bool) (handed : List Mark) : buildRecord l x0 length manual handed (s.outer q fs) = buildRecord l x0 length manual handed s := rfl
@[simp] theorem outer_cutPosition (l : LineId) (x0 : Nat) : cutPosition l x0 (s.outer q fs) = cutPosition l x0 s := rfl
@[simp] theorem outer_slotCheck (slot : Nat) : slotCheck slot (s.outer q fs) = slotCheck slot s := rfl
@[simp] theorem outer_boundLine (number : Nat) : boundLine number (s.outer q fs) = boundLine number s := rfl
@[simp] theorem outer_orderBytes (o : Order) : orderBytes (s.outer q fs) o = orderBytes s o := rfl
@[simp] theorem outer_packFields (l : LineId) : packFields l (s.outer q fs) = packFields l s := rfl
@[simp] theorem outer_entryFree  : entryFree (s.outer q fs) = entryFree s := rfl
@[simp] theorem outer_entryFound  : State.entryFound (s.outer q fs) = State.entryFound s := rfl
@[simp] theorem outer_strands  : State.strands (s.outer q fs) = State.strands s := rfl
@[simp] theorem outer_layFactor  : State.layFactor (s.outer q fs) = State.layFactor s := rfl
@[simp] theorem outer_warningLength  : State.warningLength (s.outer q fs) = State.warningLength s := rfl
@[simp] theorem outer_used (i : Fin 4) : State.used (s.outer q fs) i = State.used s i := rfl
@[simp] theorem outer_creelLacks  : State.creelLacks (s.outer q fs) = State.creelLacks s := rfl
@[simp] theorem outer_currentPackage (i : Fin 4) : State.currentPackage (s.outer q fs) i = State.currentPackage s i := rfl
@[simp] theorem outer_reservePackage (i : Fin 4) : State.reservePackage (s.outer q fs) i = State.reservePackage s i := rfl
@[simp] theorem outer_minGrade  : State.minGrade (s.outer q fs) = State.minGrade s := rfl
@[simp] theorem outer_feedingFigure (f : Package → Nat) (i : Fin 4) : feedingFigure f (s.outer q fs) i = feedingFigure f s i := rfl
@[simp] theorem outer_creelFields  : creelFields (s.outer q fs) = creelFields s := rfl
@[simp] theorem outer_spRuns (p : Fin 8) : spRuns p (s.outer q fs) = spRuns p s := rfl
@[simp] theorem outer_jamTime  : State.jamTime (s.outer q fs) = State.jamTime s := rfl
@[simp] theorem outer_enterRun (p : Fin 8) (j : Job) : enterRun p (s.outer q fs) j = enterRun p s j := rfl
@[simp] theorem outer_breakCause (j : Job) : breakCause j (s.outer q fs) = breakCause j s := rfl
@[simp] theorem outer_machineRuns (m : Fin 10) : machineRuns m (s.outer q fs) = machineRuns m s := rfl
@[simp] theorem outer_positionFields (p : Fin 8) : positionFields p (s.outer q fs) = positionFields p s := rfl
@[simp] theorem outer_knotFields  : knotFields (s.outer q fs) = knotFields s := rfl
@[simp] theorem outer_constantsOf (l : LineId) : constantsOf l (s.outer q fs) = constantsOf l s := rfl
@[simp] theorem outer_anyFeeding  : State.anyFeeding (s.outer q fs) = State.anyFeeding s := rfl
@[simp] theorem outer_noneFeeding (l : LineId) : noneFeeding l (s.outer q fs) = noneFeeding l s := rfl
@[simp] theorem outer_lineStill (l : LineId) : lineStill l (s.outer q fs) = lineStill l s := rfl
@[simp] theorem outer_lengthFields (l : LineId) : lengthFields l (s.outer q fs) = lengthFields l s := rfl
@[simp] theorem outer_layFields  : layFields (s.outer q fs) = layFields s := rfl
@[simp] theorem outer_lineInputs (l : LineId) : lineInputs l (s.outer q fs) = lineInputs l s := rfl
@[simp] theorem outer_cutIsWaiting (l : LineId) : cutIsWaiting l (s.outer q fs) = cutIsWaiting l s := rfl
@[simp] theorem outer_actionFields (l : LineId) : actionFields l (s.outer q fs) = actionFields l s := rfl
@[simp] theorem outer_lineFields (l : LineId) : lineFields l (s.outer q fs) = lineFields l s := rfl
@[simp] theorem outer_isForward (i : PulseInput) : isForward i (s.outer q fs) = isForward i s := rfl
@[simp] theorem outer_slotOrdered (slot : Nat) : State.slotOrdered (s.outer q fs) slot = State.slotOrdered s slot := rfl
@[simp] theorem outer_slotStoreChecks (slot : Nat) : slotStoreChecks slot (s.outer q fs) = slotStoreChecks slot s := rfl
@[simp] theorem outer_slotLoaded (slot : Nat) : State.slotLoaded (s.outer q fs) slot = State.slotLoaded s slot := rfl
@[simp] theorem outer_fitsGrid (body : RecipeBody) : fitsGrid body (s.outer q fs) = fitsGrid body s := rfl
@[simp] theorem outer_packTakesLoad (l : LineId) : packTakesLoad l (s.outer q fs) = packTakesLoad l s := rfl
@[simp] theorem outer_positionsStand  : positionsStand (s.outer q fs) = positionsStand s := rfl
@[simp] theorem outer_plantFields  : plantFields (s.outer q fs) = plantFields s := rfl
@[simp] theorem outer_statusFields  : statusFields (s.outer q fs) = statusFields s := rfl
@[simp] theorem outer_startedBody  : startedBody (s.outer q fs) = startedBody s := rfl
@[simp] theorem outer_dlRuns (p : Fin 8) : dlRuns p (s.outer q fs) = dlRuns p s := rfl
@[simp] theorem outer_detectorTime  : State.detectorTime (s.outer q fs) = State.detectorTime s := rfl

/-! ### What the blocks do -/

@[simp] theorem outer_setPulse (k : PulseInput) (x : PulseIn) :
    State.setPulse k x (s.outer q fs) = (State.setPulse k x s).outer q fs := rfl
@[simp] theorem outer_setLevel (k : LevelInput) (x : LevelIn) :
    State.setLevel k x (s.outer q fs) = (State.setLevel k x s).outer q fs := rfl
@[simp] theorem outer_setJob (p : Fin 8) (j : Option Job) :
    State.setJob p j (s.outer q fs) = (State.setJob p j s).outer q fs := rfl
@[simp] theorem outer_setLine (l : LineId) (x : Line) :
    State.setLine l x (s.outer q fs) = (State.setLine l x s).outer q fs := by
  unfold State.setLine
  cases l <;> rfl
@[simp] theorem outer_setLen (l : LineId) (x : LengthMeter) :
    State.setLen l x (s.outer q fs) = (State.setLen l x s).outer q fs := by
  unfold State.setLen
  simp
@[simp] theorem outer_setAct (l : LineId) (x : LineActions) :
    State.setAct l x (s.outer q fs) = (State.setAct l x s).outer q fs := by
  unfold State.setAct
  simp
@[simp] theorem outer_setPack (l : LineId) (x : PackPoint) :
    State.setPack l x (s.outer q fs) = (State.setPack l x s).outer q fs := by
  unfold State.setPack
  simp
@[simp] theorem outer_setMarks (l : LineId) (marks : List Mark) :
    State.setMarks l marks (s.outer q fs) = (State.setMarks l marks s).outer q fs := by
  unfold State.setMarks
  simp
@[simp] theorem outer_setTally (m : Fin 10) (t : Tally) :
    State.setTally m t (s.outer q fs) = (State.setTally m t s).outer q fs := rfl
@[simp] theorem outer_setLatches (m : Fin 10) (x : Latches) :
    State.setLatches m x (s.outer q fs) = (State.setLatches m x s).outer q fs := rfl
@[simp] theorem outer_setPackages (packages : List Package) :
    State.setPackages packages (s.outer q fs) = (State.setPackages packages s).outer q fs := rfl
@[simp] theorem outer_updatePackage (number : Nat) (f : Package → Package) :
    State.updatePackage number f (s.outer q fs) = (State.updatePackage number f s).outer q fs := rfl
@[simp] theorem outer_setPlace (i : Fin 4) (x : Place) :
    State.setPlace i x (s.outer q fs) = (State.setPlace i x s).outer q fs := rfl
@[simp] theorem outer_reach (deadline : Nat) :
    State.reach deadline (s.outer q fs) = (State.reach deadline s).outer q fs := rfl
@[simp] theorem outer_queueReport (kind : ReportKind) (machine : Option Nat) (body : List Byte) :
    queueReport kind machine body (s.outer q fs) = (queueReport kind machine body s).outer q fs := by
  unfold queueReport
  rw [outer_ite, outer_ite]
  rfl
@[simp] theorem outer_enterReport (kind : ReportKind) (machine : Option Nat) (body : List Byte) :
    enterReport kind machine body (s.outer q fs) = (enterReport kind machine body s).outer q fs := by
  unfold enterReport
  rw [outer_isHeld]
  split
  · rfl
  · exact outer_queueReport ..
@[simp] theorem outer_clearSteady (m : Fin 10) :
    clearSteady m (s.outer q fs) = (clearSteady m s).outer q fs := rfl
@[simp] theorem outer_latchStop (m : Fin 10) :
    latchStop m (s.outer q fs) = (latchStop m s).outer q fs := rfl
@[simp] theorem outer_setCauses (m : Fin 10) (causes : CauseSet) :
    State.setCauses m causes (s.outer q fs) = (State.setCauses m causes s).outer q fs := rfl
@[simp] theorem outer_stopNotice (m : Fin 10) (set clear : CauseSet) :
    stopNotice m set clear (s.outer q fs) = (stopNotice m set clear s).outer q fs := by
  by_cases h : ((s.stop m).causes ||| set) &&& ~~~clear = (s.stop m).causes
  · exact (if_pos h).trans (congrArg (State.outer q fs) (if_pos h).symm)
  · refine (if_neg h).trans (Eq.trans ?_ (congrArg (State.outer q fs) (if_neg h).symm))
    rw [← outer_enterReport, outer_ite]
    rfl
@[simp] theorem outer_setCause (m : Fin 10) (c : StopCause) :
    setCause m c (s.outer q fs) = (setCause m c s).outer q fs := by
  unfold setCause
  simp
@[simp] theorem outer_clearCause (m : Fin 10) (c : StopCause) :
    clearCause m c (s.outer q fs) = (clearCause m c s).outer q fs := by
  unfold clearCause
  simp
@[simp] theorem outer_beginStroke (l : LineId) :
    beginStroke l (s.outer q fs) = (beginStroke l s).outer q fs := by
  unfold beginStroke
  simp
@[simp] theorem outer_cutFires (l : LineId) :
    cutFires l (s.outer q fs) = (cutFires l s).outer q fs := by
  unfold cutFires
  simp [outer_ite]
@[simp] theorem outer_lineStands (l : LineId) :
    lineStands l (s.outer q fs) = (lineStands l s).outer q fs := by
  unfold lineStands
  simp [outer_ite]
@[simp] theorem outer_judgeHighWater (l : LineId) :
    judgeHighWater l (s.outer q fs) = (judgeHighWater l s).outer q fs := by
  unfold judgeHighWater
  simp [outer_ite]
@[simp] theorem outer_judgeLowWater (l : LineId) :
    judgeLowWater l (s.outer q fs) = (judgeLowWater l s).outer q fs := by
  unfold judgeLowWater
  simp [outer_ite]
@[simp] theorem outer_setActions (l : LineId) (actions : List Action) :
    State.setActions l actions (s.outer q fs) = (State.setActions l actions s).outer q fs := by
  unfold State.setActions
  simp
@[simp] theorem outer_setOnCount (l : LineId) (n : Nat) :
    State.setOnCount l n (s.outer q fs) = (State.setOnCount l n s).outer q fs := by
  unfold State.setOnCount
  simp
@[simp] theorem outer_fireAct (l : LineId) (a : Act) :
    fireAct l a (s.outer q fs) = (fireAct l a s).outer q fs := by
  unfold fireAct
  split <;> simp
@[simp] theorem outer_queueAction (l : LineId) (p : Nat) (a : Action) :
    queueAction l p a (s.outer q fs) = (queueAction l p a s).outer q fs := by
  unfold queueAction
  simp [outer_ite]
@[simp] theorem outer_setSpray (l : LineId) (ref : Nat) (v : SprayState) :
    setSpray l ref v (s.outer q fs) = (setSpray l ref v s).outer q fs := by
  unfold setSpray
  simp
@[simp] theorem outer_queuePair (l : LineId) (how : Making) (on off : Action) :
    queuePair l how on off (s.outer q fs) = (queuePair l how on off s).outer q fs := by
  unfold queuePair
  split <;> simp
@[simp] theorem outer_judgeSpray (l : LineId) (how : Making) (m : Mark) :
    judgeSpray l how m (s.outer q fs) = (judgeSpray l how m s).outer q fs := by
  unfold judgeSpray
  simp [outer_ite]
@[simp] theorem outer_makeMark (l : LineId) (how : Making) (m : Mark) :
    makeMark l how m (s.outer q fs) = (makeMark l how m s).outer q fs := by
  unfold makeMark
  simp
@[simp] theorem outer_makeAtOnce (l : LineId) (p ref : Nat) :
    makeAtOnce l p ref (s.outer q fs) = (makeAtOnce l p ref s).outer q fs := by
  unfold makeAtOnce
  simp
  (repeat' split) <;> simp_all
@[simp] theorem outer_handMark (l : LineId) (p : Nat) (n : NewMark) :
    handMark l p n (s.outer q fs) = ((handMark l p n s).1.outer q fs, (handMark l p n s).2) := by
  unfold handMark
  simp
  (repeat' split) <;> simp_all
@[simp] theorem outer_insertMark (l : LineId) (p : Nat) (n : NewMark) :
    insertMark l p n (s.outer q fs) = (insertMark l p n s).outer q fs := by
  unfold insertMark
  simp
@[simp] theorem outer_insertMarks (l : LineId) (p : Nat) (ns : List NewMark) :
    insertMarks l p ns (s.outer q fs) = (insertMarks l p ns s).outer q fs :=
  foldl_outer q fs (fun _ _ => outer_insertMark ..) ns s
@[simp] theorem outer_makeReached (l : LineId) (pNew : Nat) :
    makeReached l pNew (s.outer q fs) = (makeReached l pNew s).outer q fs :=
  foldl_outer q fs (fun _ _ => outer_makeMark ..) _ s
@[simp] theorem outer_fireReached (l : LineId) (p : Nat) :
    fireReached l p (s.outer q fs) = (fireReached l p s).outer q fs := by
  unfold fireReached
  simp only [outer_cutWaits, outer_act, outer_setActions]
  exact foldl_outer q fs (fun _ _ => outer_fireAct ..) _ _
@[simp] theorem outer_setWatch (l : LineId) (i : Fin 4) (x : Option Nat) :
    State.setWatch l i x (s.outer q fs) = (State.setWatch l i x s).outer q fs := by
  unfold State.setWatch
  simp
@[simp] theorem outer_hitWatch (l : LineId) (pNew : Nat) (w : Nat × Fin 4) :
    hitWatch l pNew w (s.outer q fs) = (hitWatch l pNew w s).outer q fs := by
  unfold hitWatch
  simp
@[simp] theorem outer_actionsRise (l : LineId) (pNew : Nat) :
    actionsRise l pNew (s.outer q fs) = (actionsRise l pNew s).outer q fs := by
  unfold actionsRise
  simp only [outer_makeReached, outer_fireReached, outer_act]
  exact foldl_outer q fs (fun _ _ => outer_hitWatch ..) _ _
@[simp] theorem outer_placeCut (l : LineId) (trigger : Nat) :
    placeCut l trigger (s.outer q fs) = (placeCut l trigger s).outer q fs := by
  unfold placeCut
  simp [outer_ite]
@[simp] theorem outer_releaseCut (l : LineId) :
    releaseCut l (s.outer q fs) = (releaseCut l s).outer q fs := by
  have h : ∀ (r : Action → Bool),
      (if (s.act l).actions.any r then cutFires l
          ((s.outer q fs).setActions l ((s.act l).actions.filter fun a => !r a)) else s.outer q fs)
        = (if (s.act l).actions.any r then cutFires l
          (s.setActions l ((s.act l).actions.filter fun a => !r a)) else s).outer q fs := by
    intro r
    rw [outer_ite, outer_setActions, outer_cutFires]
  have e : (s.outer q fs).len l = s.len l := rfl
  unfold releaseCut
  rw [e]
  exact h fun a => a.act == .cut && decide (a.trigger ≤ (s.len l).p)
@[simp] theorem outer_removePackageMarks (number : Nat) :
    removePackageMarks number (s.outer q fs) = (removePackageMarks number s).outer q fs := by
  unfold removePackageMarks
  simp [outer_ite]
@[simp] theorem outer_takeCoilMarks (l : LineId) (cut : Nat) :
    takeCoilMarks l cut (s.outer q fs)
      = ((takeCoilMarks l cut s).1.outer q fs, (takeCoilMarks l cut s).2) := by
  unfold takeCoilMarks
  simp [outer_ite]
@[simp] theorem outer_startNext : startNext (s.outer q fs) = (startNext s).outer q fs := by
  unfold startNext
  rw [outer_ite]
  rfl
@[simp] theorem outer_placeOp (op : StoreOp) :
    placeOp op (s.outer q fs) = (placeOp op s).outer q fs :=
  outer_startNext q fs { s with queue := s.queue ++ [⟨op, .waiting⟩] }
@[simp] theorem outer_endOp : endOp (s.outer q fs) = (endOp s).outer q fs :=
  outer_startNext q fs { s with queue := s.queue.filter fun e => e.state != .running }
@[simp] theorem outer_holdOp : holdOp (s.outer q fs) = (holdOp s).outer q fs :=
  outer_startNext q fs
    { s with
      queue := s.queue.map fun e => if e.state = .running then { e with state := .held } else e }
@[simp] theorem outer_requeueHeld : requeueHeld (s.outer q fs) = (requeueHeld s).outer q fs := rfl
@[simp] theorem outer_reportDone (area : Area) (number taken : Nat) :
    reportDone area number taken (s.outer q fs) = (reportDone area number taken s).outer q fs := by
  unfold reportDone
  simp
@[simp] theorem outer_reportFailed (area : Area) (number : Nat) (reason : FailReason) (taken : Nat) :
    reportFailed area number reason taken (s.outer q fs)
      = (reportFailed area number reason taken s).outer q fs := by
  unfold reportFailed
  simp
@[simp] theorem outer_reportEnd (ok : Bool) (area : Area) (number taken : Nat) :
    reportEnd ok area number taken (s.outer q fs) = (reportEnd ok area number taken s).outer q fs := by
  unfold reportEnd
  simp [outer_ite]
@[simp] theorem outer_placeStep (m : Fin 10) :
    placeStep m (s.outer q fs) = (placeStep m s).outer q fs := by
  unfold placeStep
  simp [outer_ite]
@[simp] theorem outer_reportFull (m : Fin 10) :
    reportFull m (s.outer q fs) = (reportFull m s).outer q fs := by
  unfold reportFull
  simp [outer_ite]
@[simp] theorem outer_addFine (m : Fin 10) (mm : Nat) :
    addFine m mm (s.outer q fs) = (addFine m mm s).outer q fs := by
  unfold addFine
  simp [outer_ite]
@[simp] theorem outer_judgeService (m : Fin 10) (before : Nat) :
    judgeService m before (s.outer q fs) = (judgeService m before s).outer q fs := by
  unfold judgeService
  simp [outer_ite]
@[simp] theorem outer_tallyAdd (m : Fin 10) (mm : Nat) :
    tallyAdd m mm (s.outer q fs) = (tallyAdd m mm s).outer q fs := by
  unfold tallyAdd
  simp [outer_ite]
@[simp] theorem outer_tallyStepEnds (m : Fin 10) (ok : Bool) :
    tallyStepEnds m ok (s.outer q fs) = (tallyStepEnds m ok s).outer q fs := by
  unfold tallyStepEnds
  split <;> simp
@[simp] theorem outer_placePlan (l : LineId) (cut : Nat) (grade : Option Grade) (origin : CutOrigin) (near : Bool) :
    placePlan l cut grade origin near (s.outer q fs)
      = (placePlan l cut grade origin near s).outer q fs := by
  unfold placePlan
  simp
@[simp] theorem outer_planningEvent (l : LineId) (p : Nat) :
    planningEvent l p (s.outer q fs) = (planningEvent l p s).outer q fs := by
  unfold planningEvent
  (repeat' split) <;> simp_all
@[simp] theorem outer_panelEnds (e : Nat) :
    panelEnds e (s.outer q fs) = (panelEnds e s).outer q fs := by
  unfold panelEnds
  (repeat' split) <;> simp_all
@[simp] theorem outer_reportBlocked (l : LineId) (o : Order) (reason : BlockReason) :
    reportBlocked l o reason (s.outer q fs) = (reportBlocked l o reason s).outer q fs := by
  unfold reportBlocked
  simp
@[simp] theorem outer_tryBinding (l : LineId) :
    tryBinding l (s.outer q fs) = (tryBinding l s).outer q fs := by
  unfold tryBinding
  simp
  (repeat' split) <;> simp_all
@[simp] theorem outer_openCoil (l : LineId) (x0 : Nat) :
    openCoil l x0 (s.outer q fs) = (openCoil l x0 s).outer q fs := by
  unfold openCoil
  simp
@[simp] theorem outer_packLoads (l : LineId) :
    packLoads l (s.outer q fs) = (packLoads l s).outer q fs := by
  unfold packLoads
  simp
  split <;> simp
@[simp] theorem outer_packRestarts (l : LineId) (v : Nat) :
    packRestarts l v (s.outer q fs) = (packRestarts l v s).outer q fs := by
  unfold packRestarts
  simp [outer_ite]
@[simp] theorem outer_recordPackage (number : Nat) :
    recordPackage number (s.outer q fs) = (recordPackage number s).outer q fs := by
  unfold recordPackage
  simp [outer_ite]
@[simp] theorem outer_countCoil (number : Nat) :
    countCoil number (s.outer q fs) = (countCoil number s).outer q fs := rfl
@[simp] theorem outer_removeOrder (number : Nat) :
    removeOrder number (s.outer q fs) = (removeOrder number s).outer q fs := rfl
@[simp] theorem outer_reportCoil (r : CoilRecord) (done : Nat) :
    reportCoil r done (s.outer q fs) = (reportCoil r done s).outer q fs := by
  unfold reportCoil
  simp
@[simp] theorem outer_fillOrder (l : LineId) (r : CoilRecord) :
    fillOrder l r (s.outer q fs) = (fillOrder l r s).outer q fs := by
  unfold fillOrder
  (repeat' split) <;> simp_all
@[simp] theorem outer_countAndReport (l : LineId) (r : CoilRecord) :
    countAndReport l r (s.outer q fs) = (countAndReport l r s).outer q fs := by
  unfold countAndReport
  split <;> simp
@[simp] theorem outer_queueRecord (l : LineId) (r : CoilRecord) :
    queueRecord l r (s.outer q fs) = (queueRecord l r s).outer q fs := by
  unfold queueRecord
  simp
@[simp] theorem outer_completeCut (l : LineId) (manual : Bool) :
    completeCut l manual (s.outer q fs) = (completeCut l manual s).outer q fs := by
  unfold completeCut
  simp
@[simp] theorem outer_cutterDone (l : LineId) :
    cutterDone l (s.outer q fs) = (cutterDone l s).outer q fs := by
  unfold cutterDone
  (repeat' split) <;> simp_all
@[simp] theorem outer_strokeFails (l : LineId) :
    strokeFails l (s.outer q fs) = (strokeFails l s).outer q fs := by
  unfold strokeFails
  simp
@[simp] theorem outer_cutTimerEvent (l : LineId) :
    cutTimerEvent l (s.outer q fs) = (cutTimerEvent l s).outer q fs := by
  unfold cutTimerEvent
  simp
  split <;> simp
theorem outer_onOutcome {act : State → State} (h : ∀ x : State, act (x.outer q fs) = (act x).outer q fs) :
    onOutcome act (s.outer q fs) = (onOutcome act s).outer q fs := by
  unfold onOutcome
  by_cases hr : s.link.restarting = true
  · have hr' : (s.outer q fs).link.restarting = true := hr
    have e : act { s.outer q fs with link := { (s.outer q fs).link with start := .starting } }
        = (act { s with link := { s.link with start := .starting } }).outer q fs :=
      h { s with link := { s.link with start := .starting } }
    rw [if_pos hr, if_pos hr']
    simp only [e]
    rfl
  · have hr' : ¬(s.outer q fs).link.restarting = true := hr
    rw [if_neg hr, if_neg hr']
    exact h s
@[simp] theorem outer_recordWritten (l : LineId) :
    recordWritten l (s.outer q fs) = (recordWritten l s).outer q fs := by
  unfold recordWritten
  exact outer_onOutcome q fs s fun x => by simp
@[simp] theorem outer_recordHeld (l : LineId) (detail : LogDetail) :
    recordHeld l detail (s.outer q fs) = (recordHeld l detail s).outer q fs := by
  unfold recordHeld
  exact outer_onOutcome q fs s fun x => by simp
@[simp] theorem outer_voidCoil (number : Nat) (notCounted : Bool) :
    voidCoil number notCounted (s.outer q fs) = (voidCoil number notCounted s).outer q fs := by
  unfold voidCoil
  split <;> rfl
@[simp] theorem outer_endCoil (l : LineId) :
    endCoil l (s.outer q fs) = (endCoil l s).outer q fs := by
  unfold endCoil
  simp
@[simp] theorem outer_attemptEnds (l : LineId) (e : WriteEnd) :
    attemptEnds l e (s.outer q fs) = (attemptEnds l e s).outer q fs := by
  unfold attemptEnds
  split <;> simp
@[simp] theorem outer_createPackage (k : Package) :
    createPackage k (s.outer q fs) = (createPackage k s).outer q fs := by
  unfold createPackage
  (repeat' split) <;> simp_all
@[simp] theorem outer_deletePackage (number : Nat) :
    deletePackage number (s.outer q fs) = (deletePackage number s).outer q fs := rfl
@[simp] theorem outer_checkCreel : checkCreel (s.outer q fs) = (checkCreel s).outer q fs := by
  unfold checkCreel
  simp [outer_ite]
@[simp] theorem outer_beginFeeding (i : Fin 4) (start seen : Nat) (k : Package) :
    beginFeeding i start seen k (s.outer q fs) = (beginFeeding i start seen k s).outer q fs := by
  unfold beginFeeding
  simp
@[simp] theorem outer_compareWarning (i : Fin 4) (p number : Nat) :
    compareWarning i p number (s.outer q fs) = (compareWarning i p number s).outer q fs := by
  unfold compareWarning
  simp
  (repeat' split) <;> simp_all
@[simp] theorem outer_compareRunout (i : Fin 4) (p number : Nat) :
    compareRunout i p number (s.outer q fs) = (compareRunout i p number s).outer q fs := by
  unfold compareRunout
  (repeat' split) <;> simp_all
@[simp] theorem outer_consume (p : Nat) (i : Fin 4) :
    consume p (s.outer q fs) i = (consume p s i).outer q fs := by
  unfold consume
  (repeat' split) <;> simp_all
@[simp] theorem outer_feedAtRise (pOld seen : Nat) (i : Fin 4) :
    feedAtRise pOld seen (s.outer q fs) i = (feedAtRise pOld seen s i).outer q fs := by
  unfold feedAtRise
  (repeat' split) <;> simp_all
@[simp] theorem outer_packageRise (pOld pNew seen : Nat) :
    packageRise pOld pNew seen (s.outer q fs) = (packageRise pOld pNew seen s).outer q fs := by
  unfold packageRise
  rw [foldl_outer q fs (fun _ _ => outer_feedAtRise ..)]
  exact foldl_outer q fs (fun _ _ => outer_consume ..) _ _
@[simp] theorem outer_packageFall (pNew : Nat) :
    packageFall pNew (s.outer q fs) = (packageFall pNew s).outer q fs :=
  foldl_outer q fs (fun _ _ => outer_consume ..) _ s
@[simp] theorem outer_spend (number leftover : Nat) :
    spend number leftover (s.outer q fs) = (spend number leftover s).outer q fs := rfl
@[simp] theorem outer_judgeRunout : judgeRunout (s.outer q fs) = (judgeRunout s).outer q fs := by
  unfold judgeRunout
  simp [outer_ite]
@[simp] theorem outer_moveReserve (i : Fin 4) :
    moveReserve i (s.outer q fs) = (moveReserve i s).outer q fs := by
  unfold moveReserve
  simp
  split <;> simp
@[simp] theorem outer_spliceFeed (i : Fin 4) (old next : Package) :
    spliceFeed i old next (s.outer q fs) = (spliceFeed i old next s).outer q fs := by
  unfold spliceFeed
  simp
@[simp] theorem outer_unplacePlaced (i : Fin 4) (reserve : Bool) (number : Nat) :
    unplacePlaced i reserve number (s.outer q fs) = (unplacePlaced i reserve number s).outer q fs := by
  unfold unplacePlaced
  split <;> simp
@[simp] theorem outer_unplaceFeeding (i : Fin 4) (k : Package) :
    unplaceFeeding i k (s.outer q fs) = (unplaceFeeding i k s).outer q fs := by
  unfold unplaceFeeding
  simp only
  split <;> simp
@[simp] theorem outer_placePackage (number : Nat) (i : Fin 4) :
    placePackage number i (s.outer q fs) = (placePackage number i s).outer q fs := by
  unfold placePackage
  simp [outer_ite]
@[simp] theorem outer_handSpan (p : Fin 8) (number : Nat) (c : ClosedSpan) :
    handSpan p number c (s.outer q fs) = (handSpan p number c s).outer q fs := by
  unfold handSpan
  simp
@[simp] theorem outer_handSpanQ (p : Fin 8) (number : Nat) (c : Option ClosedSpan) :
    handSpan? p number c (s.outer q fs) = (handSpan? p number c s).outer q fs := by
  unfold handSpan?
  split <;> simp
@[simp] theorem outer_enterFault (p : Fin 8) (c : FaultCause) (j : Job) :
    enterFault p c j (s.outer q fs) = (enterFault p c j s).outer q fs := by
  unfold enterFault
  simp
@[simp] theorem outer_enterTarget (p : Fin 8) (j : Job) :
    enterTarget p j (s.outer q fs) = (enterTarget p j s).outer q fs := by
  unfold enterTarget
  simp
@[simp] theorem outer_enterStill (p : Fin 8) (j : Job) :
    enterStill p j (s.outer q fs) = (enterStill p j s).outer q fs := rfl
@[simp] theorem outer_drivesChanged (p : Fin 8) :
    drivesChanged p (s.outer q fs) = (drivesChanged p s).outer q fs := by
  unfold drivesChanged
  (repeat' split) <;> simp_all
@[simp] theorem outer_detectorChanged (p : Fin 8) :
    detectorChanged p (s.outer q fs) = (detectorChanged p s).outer q fs := by
  unfold detectorChanged
  (repeat' split) <;> simp_all
@[simp] theorem outer_spindlePulse (p : Fin 8) :
    spindlePulse p (s.outer q fs) = (spindlePulse p s).outer q fs := by
  unfold spindlePulse
  (repeat' split) <;> simp_all
@[simp] theorem outer_windPulse (p : Fin 8) (j : Job) :
    windPulse p j (s.outer q fs) = ((windPulse p j s).1, (windPulse p j s).2.outer q fs) := by
  unfold windPulse
  simp
@[simp] theorem outer_closeWindow (p : Fin 8) (j : Job) :
    closeWindow p j (s.outer q fs) = (closeWindow p j s).outer q fs := by
  unfold closeWindow
  simp
@[simp] theorem outer_windowPulse (p : Fin 8) (j : Job) :
    windowPulse p j (s.outer q fs) = (windowPulse p j s).outer q fs := by
  unfold windowPulse
  simp [outer_ite]
@[simp] theorem outer_checkTarget (p : Fin 8) :
    checkTarget p (s.outer q fs) = (checkTarget p s).outer q fs := by
  unfold checkTarget
  simp
  (repeat' split) <;> simp_all
@[simp] theorem outer_runPulse (p : Fin 8) (j : Job) :
    runPulse p j (s.outer q fs) = (runPulse p j s).outer q fs := by
  unfold runPulse
  simp
@[simp] theorem outer_deliveryPulse (p : Fin 8) :
    deliveryPulse p (s.outer q fs) = (deliveryPulse p s).outer q fs := by
  unfold deliveryPulse
  (repeat' split) <;> simp_all
@[simp] theorem outer_motionEvent (p : Fin 8) :
    motionEvent p (s.outer q fs) = (motionEvent p s).outer q fs := by
  unfold motionEvent
  (repeat' split) <;> simp_all
@[simp] theorem outer_detectorEvent (p : Fin 8) :
    detectorEvent p (s.outer q fs) = (detectorEvent p s).outer q fs := by
  unfold detectorEvent
  (repeat' split) <;> simp_all
@[simp] theorem outer_doffRecord (p : Fin 8) (j : Job) :
    doffRecord p j (s.outer q fs) = (doffRecord p j s).outer q fs := by
  unfold doffRecord
  split <;> simp
@[simp] theorem outer_doff (p : Fin 8) (j : Job) :
    doff p j (s.outer q fs) = (doff p j s).outer q fs := by
  unfold doff
  simp
@[simp] theorem outer_settleLatches (m : Fin 10) :
    settleLatches m (s.outer q fs) = (settleLatches m s).outer q fs := rfl
@[simp] theorem outer_setLay (x : Lay) :
    State.setLay x (s.outer q fs) = (State.setLay x s).outer q fs := rfl
@[simp] theorem outer_layPulse : layPulse (s.outer q fs) = (layPulse s).outer q fs := by
  unfold layPulse
  rw [outer_ite]
  rfl
@[simp] theorem outer_handLaySpan (seen : Nat) (c : ClosedSpan) :
    handLaySpan seen c (s.outer q fs) = (handLaySpan seen c s).outer q fs := by
  unfold handLaySpan
  simp
@[simp] theorem outer_handLaySpanQ (seen : Nat) (c : Option ClosedSpan) :
    handLaySpan? seen c (s.outer q fs) = (handLaySpan? seen c s).outer q fs := by
  unfold handLaySpan?
  split <;> simp
@[simp] theorem outer_closeLayWindow (r : RopeRecipe) (p seen : Nat) :
    closeLayWindow r p seen (s.outer q fs) = (closeLayWindow r p seen s).outer q fs := by
  unfold closeLayWindow
  simp
@[simp] theorem outer_layRise (pNew seen : Nat) :
    layRise pNew seen (s.outer q fs) = (layRise pNew seen s).outer q fs := by
  unfold layRise
  simp
  (repeat' split) <;> simp_all
@[simp] theorem outer_layFall (pNew : Nat) :
    layFall pNew (s.outer q fs) = (layFall pNew s).outer q fs := by
  unfold layFall
  rw [outer_ite]
  rfl
@[simp] theorem outer_layRestart (x : Nat) :
    layRestart x (s.outer q fs) = (layRestart x s).outer q fs := rfl
@[simp] theorem outer_closeLaySpan : closeLaySpan (s.outer q fs) = (closeLaySpan s).outer q fs := by
  unfold closeLaySpan
  simp
@[simp] theorem outer_setKnot (x : Knot) :
    State.setKnot x (s.outer q fs) = (State.setKnot x s).outer q fs := rfl
@[simp] theorem outer_handMeshSpan (c : ClosedSpan) :
    handMeshSpan c (s.outer q fs) = (handMeshSpan c s).outer q fs := by
  unfold handMeshSpan
  simp
@[simp] theorem outer_handMeshSpanQ (c : Option ClosedSpan) :
    handMeshSpan? c (s.outer q fs) = (handMeshSpan? c s).outer q fs := by
  unfold handMeshSpan?
  split <;> simp
@[simp] theorem outer_meshCheck (r : NetRecipe) (position : Nat) (back : RowEntry) :
    meshCheck r position back (s.outer q fs) = (meshCheck r position back s).outer q fs := by
  unfold meshCheck
  simp
@[simp] theorem outer_checkMesh (r : NetRecipe) (position : Nat) :
    checkMesh r position (s.outer q fs) = (checkMesh r position s).outer q fs := by
  unfold checkMesh
  simp
  (repeat' split) <;> simp_all
@[simp] theorem outer_reportRow (e : RowEntry) (step : PatternStep) (scanned sensor : Bool) (changed : HookSet) :
    reportRow e step scanned sensor changed (s.outer q fs)
      = (reportRow e step scanned sensor changed s).outer q fs := by
  unfold reportRow
  simp
@[simp] theorem outer_beginScan (row : BitVec 32) :
    beginScan row (s.outer q fs) = (beginScan row s).outer q fs := rfl
@[simp] theorem outer_unscannedRow (e : RowEntry) (step : PatternStep) :
    unscannedRow e step (s.outer q fs) = (unscannedRow e step s).outer q fs := by
  unfold unscannedRow
  simp
@[simp] theorem outer_endPanel (e : RowEntry) :
    endPanel e (s.outer q fs) = (endPanel e s).outer q fs := by
  unfold endPanel
  simp
@[simp] theorem outer_advancePattern (r : NetRecipe) (e : RowEntry) :
    advancePattern r e (s.outer q fs) = (advancePattern r e s).outer q fs := by
  unfold advancePattern
  simp [outer_ite]
@[simp] theorem outer_countRow (r : NetRecipe) :
    countRow r (s.outer q fs) = (countRow r s).outer q fs := by
  unfold countRow
  simp
  split <;> simp
@[simp] theorem outer_rowEvent : rowEvent (s.outer q fs) = (rowEvent s).outer q fs := by
  unfold rowEvent
  simp
  split <;> simp
@[simp] theorem outer_markMissing (e : RowEntry) (missing : HookSet) :
    markMissing e missing (s.outer q fs) = (markMissing e missing s).outer q fs := by
  unfold markMissing
  split <;> simp
@[simp] theorem outer_judgeHooks (r : NetRecipe) (e : RowEntry) (expected : HookSet) (sets : RowSets) :
    judgeHooks r e expected sets (s.outer q fs)
      = (judgeHooks r e expected sets s).outer q fs := by
  unfold judgeHooks
  simp
  (repeat' split) <;> simp_all
@[simp] theorem outer_judgeExtras (extra : HookSet) :
    judgeExtras extra (s.outer q fs)
      = ((judgeExtras extra s).1.outer q fs, (judgeExtras extra s).2) := by
  unfold judgeExtras
  simp
  split <;> simp
@[simp] theorem outer_judgeRow (r : NetRecipe) (e : RowEntry) (present : HookSet) :
    judgeRow r e present (s.outer q fs) = (judgeRow r e present s).outer q fs := by
  unfold judgeRow
  simp [outer_ite]
@[simp] theorem outer_completeScan (x : ScanInProgress) (present : HookSet) :
    completeScan x present (s.outer q fs) = (completeScan x present s).outer q fs := by
  unfold completeScan
  simp
  split <;> simp
@[simp] theorem outer_settleEvent (samples : Byte) :
    settleEvent samples (s.outer q fs) = (settleEvent samples s).outer q fs := by
  unfold settleEvent
  simp
  (repeat' split) <;> simp_all
@[simp] theorem outer_closeMeshSpan :
    closeMeshSpan (s.outer q fs) = (closeMeshSpan s).outer q fs := by
  unfold closeMeshSpan
  simp
@[simp] theorem outer_knotLoads : knotLoads (s.outer q fs) = (knotLoads s).outer q fs := rfl
@[simp] theorem outer_knotSegment : knotSegment (s.outer q fs) = (knotSegment s).outer q fs := rfl
@[simp] theorem outer_hooksReleased :
    hooksReleased (s.outer q fs) = (hooksReleased s).outer q fs := rfl
@[simp] theorem outer_tallyRise (l : LineId) (pNew : Nat) :
    tallyRise l pNew (s.outer q fs) = (tallyRise l pNew s).outer q fs := by
  unfold tallyRise
  simp [outer_ite]
@[simp] theorem outer_handRise (l : LineId) (order : List RiseBlock) (pOld pNew : Nat) :
    handRise l order pOld pNew (s.outer q fs) = (handRise l order pOld pNew s).outer q fs := by
  have key : ∀ (bs : List RiseBlock) (x : State) (n : Nat),
      bs.foldl (takeRise l pOld pNew) (x.outer q fs, n)
        = ((bs.foldl (takeRise l pOld pNew) (x, n)).1.outer q fs,
          (bs.foldl (takeRise l pOld pNew) (x, n)).2) := by
    intro bs
    induction bs with
    | nil => intro x n; rfl
    | cons b rest ih =>
      intro x n
      have hb : takeRise l pOld pNew (x.outer q fs, n) b
          = ((takeRise l pOld pNew (x, n) b).1.outer q fs, (takeRise l pOld pNew (x, n) b).2) := by
        cases b <;> cases l <;> simp [takeRise]
      rw [List.foldl_cons, hb, ih, List.foldl_cons]
  exact congrArg Prod.fst (key _ s pOld)
@[simp] theorem outer_handFall (pNew : Nat) :
    handFall pNew (s.outer q fs) = (handFall pNew s).outer q fs := by
  unfold handFall
  simp
@[simp] theorem outer_linePulse (l : LineId) (forward : Bool) (order : List RiseBlock) :
    linePulse l forward order (s.outer q fs) = (linePulse l forward order s).outer q fs := by
  unfold linePulse
  simp only [outer_len]
  split
  · simp only [outer_setLen, outer_handRise, outer_handFall, outer_ite]
  · rfl
@[simp] theorem outer_beginSegment (l : LineId) (c : Constants) :
    beginSegment l c (s.outer q fs) = (beginSegment l c s).outer q fs := by
  unfold beginSegment
  cases l <;> rfl
@[simp] theorem outer_takePlant (l : LineId) :
    takePlant l (s.outer q fs) = (takePlant l s).outer q fs := by
  unfold takePlant
  simp [outer_ite]
@[simp] theorem outer_takeSpeed (l : LineId) :
    takeSpeed l (s.outer q fs) = (takeSpeed l s).outer q fs := by
  unfold takeSpeed
  simp
@[simp] theorem outer_setPosition (l : LineId) (v : Nat) :
    setPosition l v (s.outer q fs) = (setPosition l v s).outer q fs := by
  unfold setPosition
  split <;> simp
@[simp] theorem outer_pulsePinEvent (i : PulseInput) :
    pulsePinEvent i (s.outer q fs) = (pulsePinEvent i s).outer q fs := rfl
@[simp] theorem outer_levelPinEvent (i : LevelInput) :
    levelPinEvent i (s.outer q fs) = (levelPinEvent i s).outer q fs := rfl
@[simp] theorem outer_handPulse (i : PulseInput) (forward : Bool) (order : List RiseBlock) :
    handPulse i forward order (s.outer q fs) = (handPulse i forward order s).outer q fs := by
  unfold handPulse
  split <;> simp
@[simp] theorem outer_lineGoesStill (l : LineId) :
    lineGoesStill l (s.outer q fs) = (lineGoesStill l s).outer q fs := by
  unfold lineGoesStill
  simp
@[simp] theorem outer_handRunning (i : PulseInput) :
    handRunning i (s.outer q fs) = (handRunning i s).outer q fs := by
  unfold handRunning
  (repeat' split) <;> simp_all
@[simp] theorem outer_pulseMoves (i : PulseInput) :
    pulseMoves i (s.outer q fs) = (pulseMoves i s).outer q fs := by
  unfold pulseMoves
  simp [outer_ite]
@[simp] theorem outer_countPulse (i : PulseInput) (order : List RiseBlock) :
    countPulse i order (s.outer q fs) = (countPulse i order s).outer q fs := by
  unfold countPulse
  simp
@[simp] theorem outer_pulseSettled (i : PulseInput) (order : List RiseBlock) :
    pulseSettled i order (s.outer q fs) = (pulseSettled i order s).outer q fs := by
  unfold pulseSettled
  simp
  (repeat' split) <;> simp_all
@[simp] theorem outer_handLevel (i : LevelInput) (level : Bool) :
    handLevel i level (s.outer q fs) = (handLevel i level s).outer q fs := by
  unfold handLevel
  (repeat' split) <;> simp_all
@[simp] theorem outer_levelSettled (i : LevelInput) :
    levelSettled i (s.outer q fs) = (levelSettled i s).outer q fs := by
  unfold levelSettled
  simp
  split <;> simp
@[simp] theorem outer_stallEvent (i : PulseInput) :
    stallEvent i (s.outer q fs) = (stallEvent i s).outer q fs := by
  unfold stallEvent
  simp
  (repeat' split) <;> simp_all
@[simp] theorem outer_intervalEvent :
    intervalEvent (s.outer q fs) = (intervalEvent s).outer q fs := rfl
@[simp] theorem outer_becomeReady : becomeReady (s.outer q fs) = (becomeReady s).outer q fs := by
  unfold becomeReady
  rw [outer_link_start]
  split <;> rfl
@[simp] theorem outer_plantInForce (plant : PlantRecord) :
    plantInForce plant (s.outer q fs) = (plantInForce plant s).outer q fs := by
  have h := outer_takePlant (s := { s with plant := some plant }) q fs .rope
  have e : ({ s.outer q fs with plant := some plant } : State)
      = ({ s with plant := some plant } : State).outer q fs := rfl
  unfold plantInForce
  rw [e, h]
  simp
@[simp] theorem outer_setCopy (l : LineId) (slot check : Nat) (body : RecipeBody) :
    setCopy l slot check body (s.outer q fs) = (setCopy l slot check body s).outer q fs := by
  cases l <;> cases body <;> rfl
@[simp] theorem outer_closeSpans (l : LineId) :
    closeSpans l (s.outer q fs) = (closeSpans l s).outer q fs := by
  unfold closeSpans
  split <;> simp
@[simp] theorem outer_machineryLoads (l : LineId) :
    machineryLoads l (s.outer q fs) = (machineryLoads l s).outer q fs := by
  unfold machineryLoads
  split <;> simp
@[simp] theorem outer_creelLoads (l : LineId) :
    creelLoads l (s.outer q fs) = (creelLoads l s).outer q fs := by
  unfold creelLoads
  split <;> simp
@[simp] theorem outer_loadLine (l : LineId) (slot check : Nat) (body : RecipeBody) :
    loadLine l slot check body (s.outer q fs) = (loadLine l slot check body s).outer q fs := by
  unfold loadLine
  simp
@[simp] theorem outer_releaseStop (m : Fin 10) (c : StopCause) :
    releaseStop m c (s.outer q fs) = (releaseStop m c s).outer q fs := by
  unfold releaseStop
  simp [outer_ite]
@[simp] theorem outer_countTallies : countTallies (s.outer q fs) = (countTallies s).outer q fs := rfl

/-! ### What the requests do -/

/-- Views of pending and of frames under an update that rests on neither. -/
theorem pending_of_outer {f : State → State}
    (h : ∀ q fs s, f (State.outer q fs s) = (f s).outer q fs) (s : State) :
    (f s).pending = s.pending ∧ (f s).link.frames = s.link.frames := by
  have e := h s.pending s.link.frames s
  rw [outer_self] at e
  have h1 := congrArg State.pending e
  have h2 := congrArg (fun t : State => t.link.frames) e
  exact ⟨h1, h2⟩

theorem outer_guarded {cs : List Check} {act : State → State × Answer}
    (h : act (s.outer q fs) = ((act s).1.outer q fs, (act s).2)) :
    guarded cs act (s.outer q fs) = ((guarded cs act s).1.outer q fs, (guarded cs act s).2) := by
  unfold guarded
  split
  · rfl
  · exact h

theorem outer_onLine {m : Nat} {act : LineId → State → State × Answer}
    (h : ∀ l, act l (s.outer q fs) = ((act l s).1.outer q fs, (act l s).2)) :
    onLine m act (s.outer q fs) = ((onLine m act s).1.outer q fs, (onLine m act s).2) := by
  unfold onLine
  split
  · exact h _
  · rfl

theorem outer_addMarkAct (machine position span : Nat) :
    addMarkAct machine position span (s.outer q fs)
      = ((addMarkAct machine position span s).1.outer q fs, (addMarkAct machine position span s).2) := by
  refine outer_guarded q fs s (outer_onLine q fs s fun l => outer_guarded q fs s ?_)
  simp
theorem outer_readMarksAct (machine start skip count : Nat) :
    readMarksAct machine start skip count (s.outer q fs)
      = ((readMarksAct machine start skip count s).1.outer q fs, (readMarksAct machine start skip count s).2) := by
  refine outer_guarded q fs s (outer_onLine q fs s fun l => ?_)
  rfl
theorem outer_setWatchAct (machine position : Nat) :
    setWatchAct machine position (s.outer q fs)
      = ((setWatchAct machine position s).1.outer q fs, (setWatchAct machine position s).2) := by
  refine outer_guarded q fs s (outer_onLine q fs s fun l => outer_guarded q fs s ?_)
  simp
  split <;> simp
theorem outer_clearWatchAct (machine watch : Nat) :
    clearWatchAct machine watch (s.outer q fs)
      = ((clearWatchAct machine watch s).1.outer q fs, (clearWatchAct machine watch s).2) := by
  refine outer_guarded q fs s (outer_onLine q fs s fun l => ?_)
  simp
theorem outer_readTallyAct (tally : Nat) :
    readTallyAct tally (s.outer q fs)
      = ((readTallyAct tally s).1.outer q fs, (readTallyAct tally s).2) := by
  unfold readTallyAct
  refine outer_guarded q fs s ?_
  simp
theorem outer_addOrderAct (e : OrderEntry) :
    addOrderAct e (s.outer q fs) = ((addOrderAct e s).1.outer q fs, (addOrderAct e s).2) := by
  refine outer_guarded q fs s ?_
  rw [← outer_tryBinding]
  rfl
theorem outer_cancelOrder (o : Order) :
    cancelOrder o (s.outer q fs) = (cancelOrder o s).outer q fs := by
  unfold cancelOrder
  simp
  split <;> simp
theorem outer_cancelOrderAct (number : Nat) :
    cancelOrderAct number (s.outer q fs)
      = ((cancelOrderAct number s).1.outer q fs, (cancelOrderAct number s).2) := by
  unfold cancelOrderAct
  refine outer_guarded q fs s ?_
  simp
  split <;> simp [outer_cancelOrder]
theorem outer_readOrdersAct (skip count : Nat) :
    readOrdersAct skip count (s.outer q fs)
      = ((readOrdersAct skip count s).1.outer q fs, (readOrdersAct skip count s).2) := by
  refine outer_guarded q fs s ?_
  rfl
theorem outer_endCoilAct (machine : Nat) :
    endCoilAct machine (s.outer q fs)
      = ((endCoilAct machine s).1.outer q fs, (endCoilAct machine s).2) := by
  refine outer_guarded q fs s (outer_onLine q fs s fun l => outer_guarded q fs s ?_)
  simp
theorem outer_cutManualAct (machine : Nat) :
    cutManualAct machine (s.outer q fs)
      = ((cutManualAct machine s).1.outer q fs, (cutManualAct machine s).2) := by
  refine outer_guarded q fs s (outer_onLine q fs s fun l => outer_guarded q fs s ?_)
  simp
theorem outer_packStatusAct (machine : Nat) :
    packStatusAct machine (s.outer q fs)
      = ((packStatusAct machine s).1.outer q fs, (packStatusAct machine s).2) := by
  refine outer_guarded q fs s (outer_onLine q fs s fun l => ?_)
  rfl
theorem outer_logReadAct (first count : Nat) :
    logReadAct first count (s.outer q fs)
      = ((logReadAct first count s).1.outer q fs, (logReadAct first count s).2) := by
  refine outer_guarded q fs s ?_
  rfl
theorem outer_logTakeAct (upTo : Nat) :
    logTakeAct upTo (s.outer q fs) = ((logTakeAct upTo s).1.outer q fs, (logTakeAct upTo s).2) := by
  unfold logTakeAct
  refine outer_guarded q fs s ?_
  simp
theorem outer_logVoidAct (coil : Nat) :
    logVoidAct coil (s.outer q fs) = ((logVoidAct coil s).1.outer q fs, (logVoidAct coil s).2) := by
  unfold logVoidAct
  refine outer_guarded q fs s ?_
  simp
theorem outer_addPackageAct (e : PackageEntry) :
    addPackageAct e (s.outer q fs) = ((addPackageAct e s).1.outer q fs, (addPackageAct e s).2) := by
  unfold addPackageAct
  refine outer_guarded q fs s ?_
  simp
theorem outer_readPackageAct (number : Nat) :
    readPackageAct number (s.outer q fs)
      = ((readPackageAct number s).1.outer q fs, (readPackageAct number s).2) := by
  unfold readPackageAct
  refine outer_guarded q fs s ?_
  simp
  split <;> simp
theorem outer_removePackageAct (number : Nat) :
    removePackageAct number (s.outer q fs)
      = ((removePackageAct number s).1.outer q fs, (removePackageAct number s).2) := by
  unfold removePackageAct
  refine outer_guarded q fs s ?_
  simp
theorem outer_placePackageAct (number place : Nat) :
    placePackageAct number place (s.outer q fs)
      = ((placePackageAct number place s).1.outer q fs, (placePackageAct number place s).2) := by
  unfold placePackageAct
  refine outer_guarded q fs s ?_
  simp
theorem outer_spliceFeedAct (place : Nat) :
    spliceFeedAct place (s.outer q fs)
      = ((spliceFeedAct place s).1.outer q fs, (spliceFeedAct place s).2) := by
  unfold spliceFeedAct
  refine outer_guarded q fs s ?_
  simp
  split <;> simp
theorem outer_unplacePackageAct (number : Nat) :
    unplacePackageAct number (s.outer q fs)
      = ((unplacePackageAct number s).1.outer q fs, (unplacePackageAct number s).2) := by
  unfold unplacePackageAct
  refine outer_guarded q fs s ?_
  simp
  (repeat' split) <;> simp_all
theorem outer_creelStatusAct :
    creelStatusAct (s.outer q fs) = ((creelStatusAct s).1.outer q fs, (creelStatusAct s).2) := rfl
theorem outer_startPackageAct (position number slot : Nat) :
    startPackageAct position number slot (s.outer q fs)
      = ((startPackageAct position number slot s).1.outer q fs, (startPackageAct position number slot s).2) := by
  unfold startPackageAct
  refine outer_guarded q fs s ?_
  simp
  split <;> simp
theorem outer_resumePositionAct (position : Nat) :
    resumePositionAct position (s.outer q fs)
      = ((resumePositionAct position s).1.outer q fs, (resumePositionAct position s).2) := by
  unfold resumePositionAct
  refine outer_guarded q fs s ?_
  simp
  (repeat' split) <;> simp_all
theorem outer_doffPackageAct (position : Nat) :
    doffPackageAct position (s.outer q fs)
      = ((doffPackageAct position s).1.outer q fs, (doffPackageAct position s).2) := by
  unfold doffPackageAct
  refine outer_guarded q fs s ?_
  simp
  (repeat' split) <;> simp_all
theorem outer_positionStatusAct (position : Nat) :
    positionStatusAct position (s.outer q fs)
      = ((positionStatusAct position s).1.outer q fs, (positionStatusAct position s).2) := by
  unfold positionStatusAct
  refine outer_guarded q fs s ?_
  simp
theorem outer_knotStatusAct :
    knotStatusAct (s.outer q fs) = ((knotStatusAct s).1.outer q fs, (knotStatusAct s).2) := rfl
theorem outer_readRowsAct (back count : Nat) :
    readRowsAct back count (s.outer q fs)
      = ((readRowsAct back count s).1.outer q fs, (readRowsAct back count s).2) := by
  unfold readRowsAct
  refine outer_guarded q fs s ?_
  simp
theorem outer_setPositionAct (machine value : Nat) :
    setPositionAct machine value (s.outer q fs)
      = ((setPositionAct machine value s).1.outer q fs, (setPositionAct machine value s).2) := by
  refine outer_guarded q fs s (outer_onLine q fs s fun l => outer_guarded q fs s ?_)
  simp
theorem outer_lineStatusAct (machine : Nat) :
    lineStatusAct machine (s.outer q fs)
      = ((lineStatusAct machine s).1.outer q fs, (lineStatusAct machine s).2) := by
  refine outer_guarded q fs s (outer_onLine q fs s fun l => ?_)
  rfl
theorem outer_storeRecipeAct (slot : Nat) (body : RecipeBody) :
    storeRecipeAct slot body (s.outer q fs)
      = ((storeRecipeAct slot body s).1.outer q fs, (storeRecipeAct slot body s).2) := by
  unfold storeRecipeAct
  refine outer_guarded q fs s ?_
  simp
theorem outer_eraseRecipeAct (slot : Nat) :
    eraseRecipeAct slot (s.outer q fs)
      = ((eraseRecipeAct slot s).1.outer q fs, (eraseRecipeAct slot s).2) := by
  unfold eraseRecipeAct
  refine outer_guarded q fs s ?_
  simp
theorem outer_readRecipeAct (slot : Nat) :
    readRecipeAct slot (s.outer q fs)
      = ((readRecipeAct slot s).1.outer q fs, (readRecipeAct slot s).2) := by
  unfold readRecipeAct
  refine outer_guarded q fs s ?_
  simp
theorem outer_loadLineRecipeAct (machine slot : Nat) :
    loadLineRecipeAct machine slot (s.outer q fs)
      = ((loadLineRecipeAct machine slot s).1.outer q fs, (loadLineRecipeAct machine slot s).2) := by
  refine outer_guarded q fs s (outer_onLine q fs s fun l => ?_)
  refine outer_guarded q fs s ?_
  simp only [outer_flash]
  split
  · refine outer_guarded q fs s ?_
    rw [outer_loadLine]
  · rfl
theorem outer_storePlantAct (plant : PlantRecord) :
    storePlantAct plant (s.outer q fs)
      = ((storePlantAct plant s).1.outer q fs, (storePlantAct plant s).2) := by
  unfold storePlantAct
  refine outer_guarded q fs s ?_
  simp
theorem outer_readPlantAct :
    readPlantAct (s.outer q fs) = ((readPlantAct s).1.outer q fs, (readPlantAct s).2) := by
  unfold readPlantAct
  refine outer_guarded q fs s ?_
  simp
theorem outer_stopMachineAct (machine : Nat) :
    stopMachineAct machine (s.outer q fs)
      = ((stopMachineAct machine s).1.outer q fs, (stopMachineAct machine s).2) := by
  unfold stopMachineAct
  refine outer_guarded q fs s ?_
  simp
theorem outer_releaseAct (machine code : Nat) :
    releaseAct machine code (s.outer q fs)
      = ((releaseAct machine code s).1.outer q fs, (releaseAct machine code s).2) := by
  unfold releaseAct
  refine outer_guarded q fs s ?_
  split <;> simp
theorem outer_statusAct :
    statusAct (s.outer q fs) = ((statusAct s).1.outer q fs, (statusAct s).2) := rfl

end Sys2Proof.Machine
end

