-- ==== Sys2Proof/Laws/Requests.lean ====
section
/-! SUPPORT. What a request does: its checks, its place in the receive queue and its reply. -/

namespace Sys2Proof.Machine

/-! ### Checks -/

theorem firstRefusal_eq_none {cs : List Check} :
    firstRefusal cs = none ↔ ∀ c ∈ cs, c.1 = true := by
  induction cs with
  | nil => simp [firstRefusal]
  | cons c rest ih =>
    obtain ⟨ok, a⟩ := c
    cases ok <;> simp [firstRefusal, ih]

/-- A request with every check passed acts. -/
theorem guarded_of_passed {cs : List Check} {act : State → State × Answer} {s : State}
    (h : firstRefusal cs = none) : guarded cs act s = act s := by
  simp [guarded, h]

/-- A request with a check that fails is answered so and changes nothing. -/
theorem guarded_of_failed {cs : List Check} {act : State → State × Answer} {s : State} {a : Answer}
    (h : firstRefusal cs = some a) : guarded cs act s = (s, a) := by
  simp [guarded, h]

/-- A property that the state has, and that the act gives it where every check has passed, is kept. -/
theorem guarded_keeps {P : State → Prop} {cs : List Check} {act : State → State × Answer} {s : State}
    (hs : P s) (hact : (∀ c ∈ cs, c.1 = true) → P (act s).1) : P (guarded cs act s).1 := by
  unfold guarded
  split
  · exact hs
  · next h => exact hact (firstRefusal_eq_none.mp h)

theorem onLine_keeps {P : State → Prop} {machine : Nat} {act : LineId → State → State × Answer}
    {s : State} (hs : P s) (hact : ∀ l, P (act l s).1) : P (onLine machine act s).1 := by
  unfold onLine
  split
  · exact hact _
  · exact hs

/-! ### The receive queue -/

@[simp] theorem giveReply_length (r : Reply) (fs : List Frame) :
    (giveReply r fs).length = fs.length := by
  induction fs with
  | nil => rfl
  | cons f rest ih =>
    obtain ⟨c, rep⟩ := f
    cases rep <;> simp [giveReply, ih]

/-- With nothing waiting, a frame at the end is the first one waiting. -/
theorem firstWaiting_append {fs : List Frame} (c : Instr) (h : firstWaiting fs = none) :
    firstWaiting (fs ++ [⟨c, none⟩]) = some c := by
  induction fs with
  | nil => rfl
  | cons f rest ih =>
    obtain ⟨d, rep⟩ := f
    cases rep with
    | none => simp [firstWaiting] at h
    | some r => exact ih h

theorem giveReply_append {fs : List Frame} (c : Instr) (r : Reply) (h : firstWaiting fs = none) :
    giveReply r (fs ++ [⟨c, none⟩]) = fs ++ [⟨c, some r⟩] := by
  induction fs with
  | nil => rfl
  | cons f rest ih =>
    obtain ⟨d, rep⟩ := f
    cases rep with
    | none => simp [firstWaiting] at h
    | some r' => simpa [giveReply] using ih h

/-- Nothing waits exactly where every frame has been answered. -/
theorem firstWaiting_eq_none {fs : List Frame} :
    firstWaiting fs = none ↔ ∀ f ∈ fs, f.reply ≠ none := by
  induction fs with
  | nil => simp [firstWaiting]
  | cons f rest ih =>
    obtain ⟨d, rep⟩ := f
    cases rep <;> simp [firstWaiting, ih]

/-- The first request waiting, with every frame before it answered. -/
theorem firstWaiting_behind {before : List Frame} (c : Instr) (behind : List Frame)
    (h : firstWaiting before = none) : firstWaiting (before ++ ⟨c, none⟩ :: behind) = some c := by
  induction before with
  | nil => rfl
  | cons f rest ih =>
    obtain ⟨d, rep⟩ := f
    cases rep with
    | none => simp [firstWaiting] at h
    | some r => exact ih h

/-- The first request waiting takes the reply in its place. -/
theorem giveReply_behind {before : List Frame} (c : Instr) (behind : List Frame) (r : Reply)
    (h : firstWaiting before = none) :
    giveReply r (before ++ ⟨c, none⟩ :: behind) = before ++ ⟨c, some r⟩ :: behind := by
  induction before with
  | nil => rfl
  | cons f rest ih =>
    obtain ⟨d, rep⟩ := f
    cases rep with
    | none => simp [firstWaiting] at h
    | some r' => simpa [giveReply] using ih h

theorem frameArrives_of_room {c : Instr} {s : State} (h : s.link.frames.length < frameCapacity) :
    frameArrives c s =
      { s with link := { s.link with frames := s.link.frames ++ [⟨c, none⟩] } } := by
  simp [frameArrives, h]

/-- A request that comes to a link with nothing waiting, room for its frame and no RESTART accepted is handled at
once: it acts on the state with its frame in the queue, and its frame takes the reply. -/
theorem request_of_free {c : Instr} {tag kind : Byte} {b : Bool} {act : State → State × Answer}
    {s : State} (hw : firstWaiting s.link.frames = none)
    (hroom : s.link.frames.length < frameCapacity) (hr : s.link.restarting = false) :
    request c tag kind b act s =
      attachReply ((answerOf b act (frameArrives c s)).2.reply tag kind)
        (answerOf b act (frameArrives c s)).1 := by
  have hf : firstWaiting (frameArrives c s).link.frames = some c := by
    rw [frameArrives_of_room hroom]; exact firstWaiting_append c hw
  have hr' : (frameArrives c s).link.restarting = false := by
    rw [frameArrives_of_room hroom]; exact hr
  simp [request, hw, hf, hr']

/-- After start a request's own checks and act answer it. -/
theorem answerOf_of_started {b : Bool} {act : State → State × Answer} {s : State}
    (h : s.link.start ≠ .starting) : answerOf b act s = act s := by
  simp [answerOf, h]

/-- A property that the arrival of a frame, the request's act and its reply keep is kept by the request. -/
theorem request_keeps {P : State → Prop} {c : Instr} {tag kind : Byte} {b : Bool}
    {act : State → State × Answer} {s : State} (harr : P (frameArrives c s)) (hs : P s)
    (hact : ∀ s, P s → P (act s).1) (hrep : ∀ r s, P s → P (attachReply r s)) :
    P (request c tag kind b act s) := by
  have h1 : P (if firstWaiting s.link.frames = some c then s else frameArrives c s) := by
    split <;> assumption
  have key : ∀ s1, P s1 →
      P (if firstWaiting s1.link.frames = some c ∧ s1.link.restarting = false then
        attachReply ((answerOf b act s1).2.reply tag kind) (answerOf b act s1).1 else s1) := by
    intro s1 h
    split
    · apply hrep
      unfold answerOf
      split
      · exact h
      · exact hact _ h
    · exact h
  exact key _ h1

end Sys2Proof.Machine
end

