-- ==== Sys2Proof/Laws/Effects.lean ====
section
/-! SUPPORT. What a request does that the part is ready for: one lemma per request, its act done and its frame at the
end of the receive queue with the reply. -/

namespace Sys2Proof.Machine

/-- A request that the part is ready for acts at once; its frame is the last of the receive queue, with the reply. -/
theorem request_of_ready {c : Instr} {tag kind : Byte} {rest : List Byte} {b : Bool}
    {act : State → State × Answer} {s : State} (hb : requestBody c = some (tag :: kind :: rest))
    (h : Ready s)
    (ho : ∀ q fs s, act (State.outer q fs s) = ((act s).1.outer q fs, (act s).2)) :
    request c tag kind b act s = (act s).1.replied c (act s).2 := by
  have hf : (act s).1.link.frames = s.link.frames := by
    have e := ho s.pending s.link.frames s
    rw [outer_self] at e
    exact congrArg (fun x : State × Answer => x.1.link.frames) e
  have hp : (act s).1.pending = s.pending := by
    have e := ho s.pending s.link.frames s
    rw [outer_self] at e
    exact congrArg (fun x : State × Answer => x.1.pending) e
  have hs : (frameArrives c s).link.start ≠ .starting := by
    rw [frameArrives_of_room h.room]
    exact h.started
  rw [request_of_free h.waiting h.room h.running, answerOf_of_started hs,
    frameArrives_of_room h.room]
  have e := ho s.pending (s.link.frames ++ [⟨c, none⟩]) s
  change act { s with link := { s.link with frames := s.link.frames ++ [⟨c, none⟩] } } = _ at e
  rw [e]
  unfold State.replied attachReply
  rw [hb]
  simp only [State.outer, giveReply_append c _ h.waiting, hf, ← hp]

/-- What answers a request rests neither on the commands that wait nor on the frames. -/
theorem answerOf_outer {b : Bool} {act : State → State × Answer}
    (ho : ∀ q fs s, act (State.outer q fs s) = ((act s).1.outer q fs, (act s).2))
    (q : List Instr) (fs : List Frame) (s : State) :
    answerOf b act (s.outer q fs) = ((answerOf b act s).1.outer q fs, (answerOf b act s).2) := by
  unfold answerOf
  by_cases h : (s.link.start == .starting && !b) = true
  · simp [h]
  · simp [h, ho]

/-- A request whose frame waits in the queue, every frame before it answered, is handled as one that comes to the part
with those frames alone, and its frame takes the reply in its place. -/
theorem request_of_waiting {c : Instr} {tag kind : Byte} {b : Bool} {act : State → State × Answer}
    {s : State} {before behind : List Frame} (hf : s.link.frames = before ++ ⟨c, none⟩ :: behind)
    (hb : firstWaiting before = none) (hroom : before.length < frameCapacity)
    (hr : s.link.restarting = false)
    (ho : ∀ q fs s, act (State.outer q fs s) = ((act s).1.outer q fs, (act s).2)) :
    ∃ r : Reply,
      (request c tag kind b act (s.outer s.pending before)).link.frames = before ++ [⟨c, some r⟩] ∧
      request c tag kind b act s
        = { request c tag kind b act (s.outer s.pending before) with
            link := { (request c tag kind b act (s.outer s.pending before)).link with
              frames := before ++ ⟨c, some r⟩ :: behind } } := by
  have h1 : request c tag kind b act s
      = attachReply ((answerOf b act s).2.reply tag kind) (answerOf b act s).1 := by
    simp [request, hf, firstWaiting_behind c behind hb, hr]
  have h2 : request c tag kind b act (s.outer s.pending before)
      = attachReply ((answerOf b act s).2.reply tag kind)
          ((answerOf b act s).1.outer s.pending (before ++ [⟨c, none⟩])) := by
    have e0 := request_of_free (c := c) (tag := tag) (kind := kind) (b := b) (act := act)
      (s := s.outer s.pending before) hb hroom hr
    rw [frameArrives_of_room (s := s.outer s.pending before) hroom] at e0
    rw [e0]
    have e := answerOf_outer (b := b) ho s.pending (before ++ [⟨c, none⟩]) s
    change answerOf b act _ = _ at e
    exact congrArg (fun x : State × Answer => attachReply (x.2.reply tag kind) x.1) e
  have h3 : answerOf b act s = ((answerOf b act s).1.outer s.pending s.link.frames, (answerOf b act s).2) := by
    have e := answerOf_outer (b := b) ho s.pending s.link.frames s
    rwa [outer_self] at e
  refine ⟨(answerOf b act s).2.reply tag kind, ?_, ?_⟩
  · rw [h2]
    exact giveReply_append c _ hb
  · rw [h1, h2]
    have e := congrArg (fun x : State × Answer => attachReply ((answerOf b act s).2.reply tag kind) x.1) h3
    rw [e]
    unfold attachReply State.outer
    simp only [hf, giveReply_behind c behind _ hb]

/-- A guarded act, as a statement says it. -/
theorem replied_guarded {c : Instr} {cs : List Check} {act : State → State × Answer} {s : State}
    {fields : List Byte} (h : (act s).2 = .done fields) :
    (guarded cs act s).1.replied c (guarded cs act s).2 = s.judged c cs (act s).1 fields := by
  unfold guarded State.judged
  split
  · simp [*]
  · simp [*]

/-- The same, where the act's answer matters only with every check passed. -/
theorem replied_guarded_of {c : Instr} {cs : List Check} {act : State → State × Answer} {s t : State}
    {fields : List Byte} (h : firstRefusal cs = none → act s = (t, .done fields)) :
    (guarded cs act s).1.replied c (guarded cs act s).2 = s.judged c cs t fields := by
  unfold guarded State.judged
  split
  · simp [*]
  · next hn => simp [hn, h hn]

/-- A request on a line, where the machine number is a line's. -/
theorem onLine_machineOf (l : LineId) (act : LineId → State → State × Answer) (s : State) :
    onLine (machineOf l).val act s = act l s := by
  cases l <;> rfl

/-- A request on a line, where the machine number is no line's (R68). -/
theorem onLine_of_other {machine : Nat} (act : LineId → State → State × Answer) (s : State)
    (h8 : machine ≠ 8) (h9 : machine ≠ 9) : onLine machine act s = (s, .field 1) := by
  simp [onLine, lineOf, h8, h9]

/-! ### Checks with known outcomes -/

theorem guarded_cons_true {a : Answer} {cs : List Check} {act : State → State × Answer} {s : State} :
    guarded ((true, a) :: cs) act s = guarded cs act s := by
  simp [guarded, firstRefusal]

theorem guarded_cons_false {a : Answer} {cs : List Check} {act : State → State × Answer} {s : State} :
    guarded ((false, a) :: cs) act s = (s, a) := by
  simp [guarded, firstRefusal]

theorem guarded_nil {act : State → State × Answer} {s : State} : guarded [] act s = act s := rfl

theorem firstRefusal_append (a b : List Check) :
    firstRefusal (a ++ b) = (firstRefusal a).or (firstRefusal b) := by
  induction a with
  | nil => rfl
  | cons c rest ih =>
    obtain ⟨ok, x⟩ := c
    cases ok <;> simp [firstRefusal, ih]

/-- Checks made in two parts are the checks of both, in order. -/
theorem guarded_append {a b : List Check} {f act : State → State × Answer} {s : State}
    (h : f s = guarded b act s) : guarded a f s = guarded (a ++ b) act s := by
  unfold guarded
  rw [firstRefusal_append]
  cases firstRefusal a
  · simpa [guarded] using h
  · simp

theorem lineField_machineOf (l : LineId) : lineField (machineOf l).val = (true, .field 1) := by
  cases l <;> rfl

theorem lineField_of_other {machine : Nat} (h8 : machine ≠ 8) (h9 : machine ≠ 9) :
    lineField machine = (false, .field 1) := by
  simp [lineField, lineOf, h8, h9]

theorem fin_ofNat_val {n : Nat} [NeZero n] (m : Fin n) : Fin.ofNat n m.val = m := by
  ext
  simp [Nat.mod_eq_of_lt m.isLt]

theorem inField_within {i lo hi n : Nat} (h : lo ≤ n) (h2 : n ≤ hi) :
    inField i lo hi n = (true, .field i) := by
  simp [inField, h, h2]

theorem inField_above {i lo hi n : Nat} (h : hi < n) : inField i lo hi n = (false, .field i) := by
  simp [inField]
  omega

theorem inField_below {i lo hi n : Nat} (h : n < lo) : inField i lo hi n = (false, .field i) := by
  simp [inField]
  omega

/-! ### Reports (R185) -/

/-- After STARTED, with no RESTART accepted, a report goes to the queue. -/
theorem enterReport_of_open {kind : ReportKind} {machine : Option Nat} {body : List Byte} {s : State}
    (hs : s.link.start ≠ .starting) (hr : s.link.restarting = false) :
    enterReport kind machine body s = queueReport kind machine body s := by
  have : isHeld kind s = false := by simp [isHeld, hs, hr]
  simp [enterReport, this]

theorem queueReport_of_off {kind : ReportKind} {machine : Option Nat} {body : List Byte} {s : State}
    (h : (s.link.settings[kind.index]).queued = false) : queueReport kind machine body s = s := by
  unfold queueReport
  simp only [h, Bool.not_false, if_true]

theorem queueReport_of_room {kind : ReportKind} {machine : Option Nat} {body : List Byte} {s : State}
    (h : (s.link.settings[kind.index]).queued = true) (hl : s.link.reports.length < reportCapacity) :
    queueReport kind machine body s =
      judgeCall
        { s with
          link := { s.link with
            reports := s.link.reports
              ++ [⟨kind, machine, s.reportTime, body, (s.link.settings[kind.index]).call,
                (s.link.settings[kind.index]).urgent⟩] } } := by
  unfold queueReport
  simp only [h, Bool.not_true, hl, if_true]
  rfl

theorem queueReport_of_full {kind : ReportKind} {machine : Option Nat} {body : List Byte} {s : State}
    (h : (s.link.settings[kind.index]).queued = true)
    (hl : reportCapacity ≤ s.link.reports.length) :
    queueReport kind machine body s =
      judgeCall { s with link := { s.link with lost := satAdd countTop s.link.lost 1 } } := by
  unfold queueReport
  simp only [h, Bool.not_true, Nat.not_lt.mpr hl, if_false]
  rfl

/-! ### What reports and notices leave -/

/-- A report changes nothing but the Link Port. -/
theorem queueReport_only (kind : ReportKind) (machine : Option Nat) (body : List Byte) (s : State) :
    queueReport kind machine body s
      = { s with link := (queueReport kind machine body s).link } := by
  unfold queueReport
  simp only
  (repeat' split) <;> rfl

theorem enterReport_only (kind : ReportKind) (machine : Option Nat) (body : List Byte) (s : State) :
    enterReport kind machine body s
      = { s with link := (enterReport kind machine body s).link } := by
  unfold enterReport
  split
  · rfl
  · exact queueReport_only ..

@[simp] theorem enterReport_pending (kind : ReportKind) (machine : Option Nat) (body : List Byte)
    (s : State) : (enterReport kind machine body s).pending = s.pending := by
  rw [enterReport_only]
@[simp] theorem enterReport_now (kind : ReportKind) (machine : Option Nat) (body : List Byte)
    (s : State) : (enterReport kind machine body s).now = s.now := by
  rw [enterReport_only]
@[simp] theorem enterReport_inputs (kind : ReportKind) (machine : Option Nat) (body : List Byte)
    (s : State) : (enterReport kind machine body s).inputs = s.inputs := by
  rw [enterReport_only]
@[simp] theorem enterReport_jobs (kind : ReportKind) (machine : Option Nat) (body : List Byte)
    (s : State) : (enterReport kind machine body s).jobs = s.jobs := by
  rw [enterReport_only]
@[simp] theorem enterReport_lay (kind : ReportKind) (machine : Option Nat) (body : List Byte)
    (s : State) : (enterReport kind machine body s).lay = s.lay := by
  rw [enterReport_only]
@[simp] theorem enterReport_table (kind : ReportKind) (machine : Option Nat) (body : List Byte)
    (s : State) : (enterReport kind machine body s).table = s.table := by
  rw [enterReport_only]
@[simp] theorem enterReport_rope (kind : ReportKind) (machine : Option Nat) (body : List Byte)
    (s : State) : (enterReport kind machine body s).rope = s.rope := by
  rw [enterReport_only]
@[simp] theorem enterReport_net (kind : ReportKind) (machine : Option Nat) (body : List Byte)
    (s : State) : (enterReport kind machine body s).net = s.net := by
  rw [enterReport_only]
@[simp] theorem enterReport_ropeCopy (kind : ReportKind) (machine : Option Nat) (body : List Byte)
    (s : State) : (enterReport kind machine body s).ropeCopy = s.ropeCopy := by
  rw [enterReport_only]
@[simp] theorem enterReport_netCopy (kind : ReportKind) (machine : Option Nat) (body : List Byte)
    (s : State) : (enterReport kind machine body s).netCopy = s.netCopy := by
  rw [enterReport_only]
@[simp] theorem enterReport_stops (kind : ReportKind) (machine : Option Nat) (body : List Byte)
    (s : State) : (enterReport kind machine body s).stops = s.stops := by
  rw [enterReport_only]
@[simp] theorem enterReport_knot (kind : ReportKind) (machine : Option Nat) (body : List Byte)
    (s : State) : (enterReport kind machine body s).knot = s.knot := by
  rw [enterReport_only]
@[simp] theorem enterReport_orders (kind : ReportKind) (machine : Option Nat) (body : List Byte)
    (s : State) : (enterReport kind machine body s).orders = s.orders := by
  rw [enterReport_only]
@[simp] theorem enterReport_flash (kind : ReportKind) (machine : Option Nat) (body : List Byte)
    (s : State) : (enterReport kind machine body s).flash = s.flash := by
  rw [enterReport_only]
@[simp] theorem enterReport_queue (kind : ReportKind) (machine : Option Nat) (body : List Byte)
    (s : State) : (enterReport kind machine body s).queue = s.queue := by
  rw [enterReport_only]
@[simp] theorem enterReport_log (kind : ReportKind) (machine : Option Nat) (body : List Byte)
    (s : State) : (enterReport kind machine body s).log = s.log := by
  rw [enterReport_only]
@[simp] theorem enterReport_tallies (kind : ReportKind) (machine : Option Nat) (body : List Byte)
    (s : State) : (enterReport kind machine body s).tallies = s.tallies := by
  rw [enterReport_only]
@[simp] theorem enterReport_plant (kind : ReportKind) (machine : Option Nat) (body : List Byte)
    (s : State) : (enterReport kind machine body s).plant = s.plant := by
  rw [enterReport_only]

/-- What a notice makes of a machine's set. -/
def noticed (set clear causes : CauseSet) : CauseSet :=
  (causes ||| set) &&& ~~~clear

/-- A notice changes nothing but the machine's set, its output, and the Link Port. -/
theorem stopNotice_only (m : Fin 10) (set clear : CauseSet) (s : State) :
    stopNotice m set clear s
      = { s with
          stops := (stopNotice m set clear s).stops
          link := (stopNotice m set clear s).link } := by
  unfold stopNotice
  simp only
  split
  · rfl
  · rw [enterReport_only]
    split <;> rfl

@[simp] theorem stopNotice_pending (m : Fin 10) (set clear : CauseSet) (s : State) :
    (stopNotice m set clear s).pending = s.pending := by
  rw [stopNotice_only]
@[simp] theorem setCause_pending (m : Fin 10) (c : StopCause) (s : State) :
    (setCause m c s).pending = s.pending := stopNotice_pending ..
@[simp] theorem clearCause_pending (m : Fin 10) (c : StopCause) (s : State) :
    (clearCause m c s).pending = s.pending := stopNotice_pending ..
@[simp] theorem stopNotice_now (m : Fin 10) (set clear : CauseSet) (s : State) :
    (stopNotice m set clear s).now = s.now := by
  rw [stopNotice_only]
@[simp] theorem setCause_now (m : Fin 10) (c : StopCause) (s : State) :
    (setCause m c s).now = s.now := stopNotice_now ..
@[simp] theorem clearCause_now (m : Fin 10) (c : StopCause) (s : State) :
    (clearCause m c s).now = s.now := stopNotice_now ..
@[simp] theorem stopNotice_inputs (m : Fin 10) (set clear : CauseSet) (s : State) :
    (stopNotice m set clear s).inputs = s.inputs := by
  rw [stopNotice_only]
@[simp] theorem setCause_inputs (m : Fin 10) (c : StopCause) (s : State) :
    (setCause m c s).inputs = s.inputs := stopNotice_inputs ..
@[simp] theorem clearCause_inputs (m : Fin 10) (c : StopCause) (s : State) :
    (clearCause m c s).inputs = s.inputs := stopNotice_inputs ..
@[simp] theorem stopNotice_jobs (m : Fin 10) (set clear : CauseSet) (s : State) :
    (stopNotice m set clear s).jobs = s.jobs := by
  rw [stopNotice_only]
@[simp] theorem setCause_jobs (m : Fin 10) (c : StopCause) (s : State) :
    (setCause m c s).jobs = s.jobs := stopNotice_jobs ..
@[simp] theorem clearCause_jobs (m : Fin 10) (c : StopCause) (s : State) :
    (clearCause m c s).jobs = s.jobs := stopNotice_jobs ..
@[simp] theorem stopNotice_lay (m : Fin 10) (set clear : CauseSet) (s : State) :
    (stopNotice m set clear s).lay = s.lay := by
  rw [stopNotice_only]
@[simp] theorem setCause_lay (m : Fin 10) (c : StopCause) (s : State) :
    (setCause m c s).lay = s.lay := stopNotice_lay ..
@[simp] theorem clearCause_lay (m : Fin 10) (c : StopCause) (s : State) :
    (clearCause m c s).lay = s.lay := stopNotice_lay ..
@[simp] theorem stopNotice_table (m : Fin 10) (set clear : CauseSet) (s : State) :
    (stopNotice m set clear s).table = s.table := by
  rw [stopNotice_only]
@[simp] theorem setCause_table (m : Fin 10) (c : StopCause) (s : State) :
    (setCause m c s).table = s.table := stopNotice_table ..
@[simp] theorem clearCause_table (m : Fin 10) (c : StopCause) (s : State) :
    (clearCause m c s).table = s.table := stopNotice_table ..
@[simp] theorem stopNotice_rope (m : Fin 10) (set clear : CauseSet) (s : State) :
    (stopNotice m set clear s).rope = s.rope := by
  rw [stopNotice_only]
@[simp] theorem setCause_rope (m : Fin 10) (c : StopCause) (s : State) :
    (setCause m c s).rope = s.rope := stopNotice_rope ..
@[simp] theorem clearCause_rope (m : Fin 10) (c : StopCause) (s : State) :
    (clearCause m c s).rope = s.rope := stopNotice_rope ..
@[simp] theorem stopNotice_net (m : Fin 10) (set clear : CauseSet) (s : State) :
    (stopNotice m set clear s).net = s.net := by
  rw [stopNotice_only]
@[simp] theorem setCause_net (m : Fin 10) (c : StopCause) (s : State) :
    (setCause m c s).net = s.net := stopNotice_net ..
@[simp] theorem clearCause_net (m : Fin 10) (c : StopCause) (s : State) :
    (clearCause m c s).net = s.net := stopNotice_net ..
@[simp] theorem stopNotice_ropeCopy (m : Fin 10) (set clear : CauseSet) (s : State) :
    (stopNotice m set clear s).ropeCopy = s.ropeCopy := by
  rw [stopNotice_only]
@[simp] theorem setCause_ropeCopy (m : Fin 10) (c : StopCause) (s : State) :
    (setCause m c s).ropeCopy = s.ropeCopy := stopNotice_ropeCopy ..
@[simp] theorem clearCause_ropeCopy (m : Fin 10) (c : StopCause) (s : State) :
    (clearCause m c s).ropeCopy = s.ropeCopy := stopNotice_ropeCopy ..
@[simp] theorem stopNotice_netCopy (m : Fin 10) (set clear : CauseSet) (s : State) :
    (stopNotice m set clear s).netCopy = s.netCopy := by
  rw [stopNotice_only]
@[simp] theorem setCause_netCopy (m : Fin 10) (c : StopCause) (s : State) :
    (setCause m c s).netCopy = s.netCopy := stopNotice_netCopy ..
@[simp] theorem clearCause_netCopy (m : Fin 10) (c : StopCause) (s : State) :
    (clearCause m c s).netCopy = s.netCopy := stopNotice_netCopy ..
@[simp] theorem stopNotice_knot (m : Fin 10) (set clear : CauseSet) (s : State) :
    (stopNotice m set clear s).knot = s.knot := by
  rw [stopNotice_only]
@[simp] theorem setCause_knot (m : Fin 10) (c : StopCause) (s : State) :
    (setCause m c s).knot = s.knot := stopNotice_knot ..
@[simp] theorem clearCause_knot (m : Fin 10) (c : StopCause) (s : State) :
    (clearCause m c s).knot = s.knot := stopNotice_knot ..
@[simp] theorem stopNotice_orders (m : Fin 10) (set clear : CauseSet) (s : State) :
    (stopNotice m set clear s).orders = s.orders := by
  rw [stopNotice_only]
@[simp] theorem setCause_orders (m : Fin 10) (c : StopCause) (s : State) :
    (setCause m c s).orders = s.orders := stopNotice_orders ..
@[simp] theorem clearCause_orders (m : Fin 10) (c : StopCause) (s : State) :
    (clearCause m c s).orders = s.orders := stopNotice_orders ..
@[simp] theorem stopNotice_flash (m : Fin 10) (set clear : CauseSet) (s : State) :
    (stopNotice m set clear s).flash = s.flash := by
  rw [stopNotice_only]
@[simp] theorem setCause_flash (m : Fin 10) (c : StopCause) (s : State) :
    (setCause m c s).flash = s.flash := stopNotice_flash ..
@[simp] theorem clearCause_flash (m : Fin 10) (c : StopCause) (s : State) :
    (clearCause m c s).flash = s.flash := stopNotice_flash ..
@[simp] theorem stopNotice_queue (m : Fin 10) (set clear : CauseSet) (s : State) :
    (stopNotice m set clear s).queue = s.queue := by
  rw [stopNotice_only]
@[simp] theorem setCause_queue (m : Fin 10) (c : StopCause) (s : State) :
    (setCause m c s).queue = s.queue := stopNotice_queue ..
@[simp] theorem clearCause_queue (m : Fin 10) (c : StopCause) (s : State) :
    (clearCause m c s).queue = s.queue := stopNotice_queue ..
@[simp] theorem stopNotice_log (m : Fin 10) (set clear : CauseSet) (s : State) :
    (stopNotice m set clear s).log = s.log := by
  rw [stopNotice_only]
@[simp] theorem setCause_log (m : Fin 10) (c : StopCause) (s : State) :
    (setCause m c s).log = s.log := stopNotice_log ..
@[simp] theorem clearCause_log (m : Fin 10) (c : StopCause) (s : State) :
    (clearCause m c s).log = s.log := stopNotice_log ..
@[simp] theorem stopNotice_tallies (m : Fin 10) (set clear : CauseSet) (s : State) :
    (stopNotice m set clear s).tallies = s.tallies := by
  rw [stopNotice_only]
@[simp] theorem setCause_tallies (m : Fin 10) (c : StopCause) (s : State) :
    (setCause m c s).tallies = s.tallies := stopNotice_tallies ..
@[simp] theorem clearCause_tallies (m : Fin 10) (c : StopCause) (s : State) :
    (clearCause m c s).tallies = s.tallies := stopNotice_tallies ..
@[simp] theorem stopNotice_plant (m : Fin 10) (set clear : CauseSet) (s : State) :
    (stopNotice m set clear s).plant = s.plant := by
  rw [stopNotice_only]
@[simp] theorem setCause_plant (m : Fin 10) (c : StopCause) (s : State) :
    (setCause m c s).plant = s.plant := stopNotice_plant ..
@[simp] theorem clearCause_plant (m : Fin 10) (c : StopCause) (s : State) :
    (clearCause m c s).plant = s.plant := stopNotice_plant ..

/-- The sets after a notice: the machine's where it changes, and no other. -/
theorem stopNotice_stop (m k : Fin 10) (set clear : CauseSet) (s : State) :
    (stopNotice m set clear s).stop k
      = if k = m ∧ noticed set clear (s.stop m).causes ≠ (s.stop m).causes then
          { causes := noticed set clear (s.stop m).causes
            asserted := noticed set clear (s.stop m).causes != 0 }
        else s.stop k := by
  unfold stopNotice noticed
  simp only
  split
  · simp [*]
  · next h =>
    have hx : ∀ x : State, x.stops = s.stops.set m
        { causes := ((s.stop m).causes ||| set) &&& ~~~clear
          asserted := (((s.stop m).causes ||| set) &&& ~~~clear) != 0 } →
        x.stop k = if k = m ∧ ((s.stop m).causes ||| set) &&& ~~~clear ≠ (s.stop m).causes then
          { causes := ((s.stop m).causes ||| set) &&& ~~~clear
            asserted := (((s.stop m).causes ||| set) &&& ~~~clear) != 0 }
          else s.stop k := by
      intro x hx
      unfold State.stop at *
      rw [hx]
      by_cases hk : k = m
      · subst hk
        simp
        exact fun e => absurd e h
      · have hne : m.val ≠ k.val := fun e => hk (Fin.ext e.symm)
        simp [hk, hne]
    apply hx
    rw [enterReport_stops]
    split <;> rfl

/-- The causes after a notice. -/
theorem stopNotice_causes (m : Fin 10) (set clear : CauseSet) (s : State) :
    ((stopNotice m set clear s).stop m).causes = noticed set clear (s.stop m).causes := by
  rw [stopNotice_stop]
  split
  · rfl
  · next h =>
    simp only [true_and, not_not] at h
    exact h.symm

theorem stopNotice_other (m k : Fin 10) (set clear : CauseSet) (s : State) (h : k ≠ m) :
    (stopNotice m set clear s).stop k = s.stop k := by
  simp [stopNotice_stop, h]

/-! ### Each request -/

theorem exec_addMark (tag : Byte) (machine position span : Nat) {s : State} (h : Ready s) :
    exec (.addMark tag machine position span) s
      = .next (((addMarkAct machine position span) s).1.replied (.addMark tag machine position span) ((addMarkAct machine position span) s).2) :=
  congrArg _ (request_of_ready rfl h fun q fs s => outer_addMarkAct q fs s machine position span)

theorem exec_readMarks (tag : Byte) (machine start skip count : Nat) {s : State} (h : Ready s) :
    exec (.readMarks tag machine start skip count) s
      = .next (((readMarksAct machine start skip count) s).1.replied (.readMarks tag machine start skip count) ((readMarksAct machine start skip count) s).2) :=
  congrArg _ (request_of_ready rfl h fun q fs s => outer_readMarksAct q fs s machine start skip count)

theorem exec_setWatch (tag : Byte) (machine position : Nat) {s : State} (h : Ready s) :
    exec (.setWatch tag machine position) s
      = .next (((setWatchAct machine position) s).1.replied (.setWatch tag machine position) ((setWatchAct machine position) s).2) :=
  congrArg _ (request_of_ready rfl h fun q fs s => outer_setWatchAct q fs s machine position)

theorem exec_clearWatch (tag : Byte) (machine watch : Nat) {s : State} (h : Ready s) :
    exec (.clearWatch tag machine watch) s
      = .next (((clearWatchAct machine watch) s).1.replied (.clearWatch tag machine watch) ((clearWatchAct machine watch) s).2) :=
  congrArg _ (request_of_ready rfl h fun q fs s => outer_clearWatchAct q fs s machine watch)

theorem exec_readTally (tag : Byte) (tally : Nat) {s : State} (h : Ready s) :
    exec (.readTally tag tally) s
      = .next (((readTallyAct tally) s).1.replied (.readTally tag tally) ((readTallyAct tally) s).2) :=
  congrArg _ (request_of_ready rfl h fun q fs s => outer_readTallyAct q fs s tally)

theorem exec_addOrder (tag : Byte) (e : OrderEntry) {s : State} (h : Ready s) :
    exec (.addOrder tag e) s
      = .next (((addOrderAct e) s).1.replied (.addOrder tag e) ((addOrderAct e) s).2) :=
  congrArg _ (request_of_ready rfl h fun q fs s => outer_addOrderAct q fs s e)

theorem exec_cancelOrder (tag : Byte) (number : Nat) {s : State} (h : Ready s) :
    exec (.cancelOrder tag number) s
      = .next (((cancelOrderAct number) s).1.replied (.cancelOrder tag number) ((cancelOrderAct number) s).2) :=
  congrArg _ (request_of_ready rfl h fun q fs s => outer_cancelOrderAct q fs s number)

theorem exec_readOrders (tag : Byte) (skip count : Nat) {s : State} (h : Ready s) :
    exec (.readOrders tag skip count) s
      = .next (((readOrdersAct skip count) s).1.replied (.readOrders tag skip count) ((readOrdersAct skip count) s).2) :=
  congrArg _ (request_of_ready rfl h fun q fs s => outer_readOrdersAct q fs s skip count)

theorem exec_endCoil (tag : Byte) (machine : Nat) {s : State} (h : Ready s) :
    exec (.endCoil tag machine) s
      = .next (((endCoilAct machine) s).1.replied (.endCoil tag machine) ((endCoilAct machine) s).2) :=
  congrArg _ (request_of_ready rfl h fun q fs s => outer_endCoilAct q fs s machine)

theorem exec_cutManual (tag : Byte) (machine : Nat) {s : State} (h : Ready s) :
    exec (.cutManual tag machine) s
      = .next (((cutManualAct machine) s).1.replied (.cutManual tag machine) ((cutManualAct machine) s).2) :=
  congrArg _ (request_of_ready rfl h fun q fs s => outer_cutManualAct q fs s machine)

theorem exec_packStatus (tag : Byte) (machine : Nat) {s : State} (h : Ready s) :
    exec (.packStatus tag machine) s
      = .next (((packStatusAct machine) s).1.replied (.packStatus tag machine) ((packStatusAct machine) s).2) :=
  congrArg _ (request_of_ready rfl h fun q fs s => outer_packStatusAct q fs s machine)

theorem exec_logRead (tag : Byte) (first count : Nat) {s : State} (h : Ready s) :
    exec (.logRead tag first count) s
      = .next (((logReadAct first count) s).1.replied (.logRead tag first count) ((logReadAct first count) s).2) :=
  congrArg _ (request_of_ready rfl h fun q fs s => outer_logReadAct q fs s first count)

theorem exec_logTake (tag : Byte) (upTo : Nat) {s : State} (h : Ready s) :
    exec (.logTake tag upTo) s
      = .next (((logTakeAct upTo) s).1.replied (.logTake tag upTo) ((logTakeAct upTo) s).2) :=
  congrArg _ (request_of_ready rfl h fun q fs s => outer_logTakeAct q fs s upTo)

theorem exec_logVoid (tag : Byte) (coil : Nat) {s : State} (h : Ready s) :
    exec (.logVoid tag coil) s
      = .next (((logVoidAct coil) s).1.replied (.logVoid tag coil) ((logVoidAct coil) s).2) :=
  congrArg _ (request_of_ready rfl h fun q fs s => outer_logVoidAct q fs s coil)

theorem exec_addPackage (tag : Byte) (e : PackageEntry) {s : State} (h : Ready s) :
    exec (.addPackage tag e) s
      = .next (((addPackageAct e) s).1.replied (.addPackage tag e) ((addPackageAct e) s).2) :=
  congrArg _ (request_of_ready rfl h fun q fs s => outer_addPackageAct q fs s e)

theorem exec_readPackage (tag : Byte) (number : Nat) {s : State} (h : Ready s) :
    exec (.readPackage tag number) s
      = .next (((readPackageAct number) s).1.replied (.readPackage tag number) ((readPackageAct number) s).2) :=
  congrArg _ (request_of_ready rfl h fun q fs s => outer_readPackageAct q fs s number)

theorem exec_removePackage (tag : Byte) (number : Nat) {s : State} (h : Ready s) :
    exec (.removePackage tag number) s
      = .next (((removePackageAct number) s).1.replied (.removePackage tag number) ((removePackageAct number) s).2) :=
  congrArg _ (request_of_ready rfl h fun q fs s => outer_removePackageAct q fs s number)

theorem exec_placePackage (tag : Byte) (number place : Nat) {s : State} (h : Ready s) :
    exec (.placePackage tag number place) s
      = .next (((placePackageAct number place) s).1.replied (.placePackage tag number place) ((placePackageAct number place) s).2) :=
  congrArg _ (request_of_ready rfl h fun q fs s => outer_placePackageAct q fs s number place)

theorem exec_unplacePackage (tag : Byte) (number : Nat) {s : State} (h : Ready s) :
    exec (.unplacePackage tag number) s
      = .next (((unplacePackageAct number) s).1.replied (.unplacePackage tag number) ((unplacePackageAct number) s).2) :=
  congrArg _ (request_of_ready rfl h fun q fs s => outer_unplacePackageAct q fs s number)

theorem exec_spliceFeed (tag : Byte) (place : Nat) {s : State} (h : Ready s) :
    exec (.spliceFeed tag place) s
      = .next (((spliceFeedAct place) s).1.replied (.spliceFeed tag place) ((spliceFeedAct place) s).2) :=
  congrArg _ (request_of_ready rfl h fun q fs s => outer_spliceFeedAct q fs s place)

theorem exec_creelStatus (tag : Byte) {s : State} (h : Ready s) :
    exec (.creelStatus tag) s
      = .next ((creelStatusAct s).1.replied (.creelStatus tag) (creelStatusAct s).2) :=
  congrArg _ (request_of_ready rfl h fun q fs s => outer_creelStatusAct q fs s)

theorem exec_startPackage (tag : Byte) (position package slot : Nat) {s : State} (h : Ready s) :
    exec (.startPackage tag position package slot) s
      = .next (((startPackageAct position package slot) s).1.replied (.startPackage tag position package slot) ((startPackageAct position package slot) s).2) :=
  congrArg _ (request_of_ready rfl h fun q fs s => outer_startPackageAct q fs s position package slot)

theorem exec_resumePosition (tag : Byte) (position : Nat) {s : State} (h : Ready s) :
    exec (.resumePosition tag position) s
      = .next (((resumePositionAct position) s).1.replied (.resumePosition tag position) ((resumePositionAct position) s).2) :=
  congrArg _ (request_of_ready rfl h fun q fs s => outer_resumePositionAct q fs s position)

theorem exec_doffPackage (tag : Byte) (position : Nat) {s : State} (h : Ready s) :
    exec (.doffPackage tag position) s
      = .next (((doffPackageAct position) s).1.replied (.doffPackage tag position) ((doffPackageAct position) s).2) :=
  congrArg _ (request_of_ready rfl h fun q fs s => outer_doffPackageAct q fs s position)

theorem exec_positionStatus (tag : Byte) (position : Nat) {s : State} (h : Ready s) :
    exec (.positionStatus tag position) s
      = .next (((positionStatusAct position) s).1.replied (.positionStatus tag position) ((positionStatusAct position) s).2) :=
  congrArg _ (request_of_ready rfl h fun q fs s => outer_positionStatusAct q fs s position)

theorem exec_knotStatus (tag : Byte) {s : State} (h : Ready s) :
    exec (.knotStatus tag) s
      = .next ((knotStatusAct s).1.replied (.knotStatus tag) (knotStatusAct s).2) :=
  congrArg _ (request_of_ready rfl h fun q fs s => outer_knotStatusAct q fs s)

theorem exec_readRows (tag : Byte) (back count : Nat) {s : State} (h : Ready s) :
    exec (.readRows tag back count) s
      = .next (((readRowsAct back count) s).1.replied (.readRows tag back count) ((readRowsAct back count) s).2) :=
  congrArg _ (request_of_ready rfl h fun q fs s => outer_readRowsAct q fs s back count)

theorem exec_setPosition (tag : Byte) (machine value : Nat) {s : State} (h : Ready s) :
    exec (.setPosition tag machine value) s
      = .next (((setPositionAct machine value) s).1.replied (.setPosition tag machine value) ((setPositionAct machine value) s).2) :=
  congrArg _ (request_of_ready rfl h fun q fs s => outer_setPositionAct q fs s machine value)

theorem exec_lineStatus (tag : Byte) (machine : Nat) {s : State} (h : Ready s) :
    exec (.lineStatus tag machine) s
      = .next (((lineStatusAct machine) s).1.replied (.lineStatus tag machine) ((lineStatusAct machine) s).2) :=
  congrArg _ (request_of_ready rfl h fun q fs s => outer_lineStatusAct q fs s machine)

theorem exec_readPlant (tag : Byte) {s : State} (h : Ready s) :
    exec (.readPlant tag) s
      = .next ((readPlantAct s).1.replied (.readPlant tag) (readPlantAct s).2) :=
  congrArg _ (request_of_ready rfl h fun q fs s => outer_readPlantAct q fs s)

theorem exec_storePlant (tag : Byte) (plant : PlantRecord) {s : State} (h : Ready s) :
    exec (.storePlant tag plant) s
      = .next (((storePlantAct plant) s).1.replied (.storePlant tag plant) ((storePlantAct plant) s).2) :=
  congrArg _ (request_of_ready rfl h fun q fs s => outer_storePlantAct q fs s plant)

theorem exec_readRecipe (tag : Byte) (slot : Nat) {s : State} (h : Ready s) :
    exec (.readRecipe tag slot) s
      = .next (((readRecipeAct slot) s).1.replied (.readRecipe tag slot) ((readRecipeAct slot) s).2) :=
  congrArg _ (request_of_ready rfl h fun q fs s => outer_readRecipeAct q fs s slot)

theorem exec_storeRecipe (tag : Byte) (slot : Nat) (body : RecipeBody) {s : State} (h : Ready s) :
    exec (.storeRecipe tag slot body) s
      = .next (((storeRecipeAct slot body) s).1.replied (.storeRecipe tag slot body) ((storeRecipeAct slot body) s).2) :=
  congrArg _ (request_of_ready rfl h fun q fs s => outer_storeRecipeAct q fs s slot body)

theorem exec_eraseRecipe (tag : Byte) (slot : Nat) {s : State} (h : Ready s) :
    exec (.eraseRecipe tag slot) s
      = .next (((eraseRecipeAct slot) s).1.replied (.eraseRecipe tag slot) ((eraseRecipeAct slot) s).2) :=
  congrArg _ (request_of_ready rfl h fun q fs s => outer_eraseRecipeAct q fs s slot)

theorem exec_loadLineRecipe (tag : Byte) (machine slot : Nat) {s : State} (h : Ready s) :
    exec (.loadLineRecipe tag machine slot) s
      = .next (((loadLineRecipeAct machine slot) s).1.replied (.loadLineRecipe tag machine slot) ((loadLineRecipeAct machine slot) s).2) :=
  congrArg _ (request_of_ready rfl h fun q fs s => outer_loadLineRecipeAct q fs s machine slot)

theorem exec_stopMachine (tag : Byte) (machine : Nat) {s : State} (h : Ready s) :
    exec (.stopMachine tag machine) s
      = .next (((stopMachineAct machine) s).1.replied (.stopMachine tag machine) ((stopMachineAct machine) s).2) :=
  congrArg _ (request_of_ready rfl h fun q fs s => outer_stopMachineAct q fs s machine)

theorem exec_release (tag : Byte) (machine cause : Nat) {s : State} (h : Ready s) :
    exec (.release tag machine cause) s
      = .next (((releaseAct machine cause) s).1.replied (.release tag machine cause) ((releaseAct machine cause) s).2) :=
  congrArg _ (request_of_ready rfl h fun q fs s => outer_releaseAct q fs s machine cause)

theorem exec_status (tag : Byte) {s : State} (h : Ready s) :
    exec (.status tag) s
      = .next ((statusAct s).1.replied (.status tag) (statusAct s).2) :=
  congrArg _ (request_of_ready rfl h fun q fs s => outer_statusAct q fs s)

theorem exec_restart (tag : Byte) {s : State} (h : Ready s) :
    exec (.restart tag) s
      = .next ((restartAct s).1.replied (.restart tag) (restartAct s).2) :=
  congrArg _ (request_of_ready rfl h fun q fs s => rfl)

theorem exec_reports (tag : Byte) (n : Nat) {s : State} (h : Ready s) :
    exec (.reports tag n) s
      = .next (((reportsAct n) s).1.replied (.reports tag n) ((reportsAct n) s).2) :=
  congrArg _ (request_of_ready rfl h fun q fs s => outer_guarded q fs s rfl)

theorem exec_setReports (tag : Byte) (kind queued call urgent : Nat) {s : State} (h : Ready s) :
    exec (.setReports tag kind queued call urgent) s
      = .next (((setReportsAct kind queued call urgent) s).1.replied (.setReports tag kind queued call urgent) ((setReportsAct kind queued call urgent) s).2) :=
  congrArg _ (request_of_ready rfl h fun q fs s => outer_guarded q fs s rfl)

theorem exec_callMask (tag : Byte) (setting : Nat) {s : State} (h : Ready s) :
    exec (.callMask tag setting) s
      = .next (((callMaskAct setting) s).1.replied (.callMask tag setting) ((callMaskAct setting) s).2) :=
  congrArg _ (request_of_ready rfl h fun q fs s => outer_guarded q fs s rfl)

end Sys2Proof.Machine
end

