-- ==== Sys2Proof/Laws/Ground.lean ====
section
/-! SUPPORT. What a counted pulse, a change of running state or of a level makes the blocks do leaves the inputs, the
clock, the plant record and the recipes in force, the lengths measured and the store's bytes as they are. -/

namespace Sys2Proof.Machine

variable (s : State)

/-- The inputs, the clock, the plant record and the recipes in force, the Length Meters, and the store's bytes. -/
def State.ground (s : State) :=
  (s.inputs, s.now, s.plant, s.ropeCopy, s.netCopy, s.rope.len, s.net.len, s.flash)

/-- The same but for the high marks. -/
def State.ground0 (s : State) :=
  (s.inputs, s.now, s.plant, s.ropeCopy, s.netCopy, { s.rope.len with highMark := 0 },
    { s.net.len with highMark := 0 }, s.flash)

theorem ground0_of_ground {s t : State} (h : t.ground = s.ground) : t.ground0 = s.ground0 := by
  simp only [State.ground, Prod.mk.injEq] at h
  obtain ⟨h1, h2, h3, h4, h5, h6, h7, h8⟩ := h
  simp only [State.ground0, h1, h2, h3, h4, h5, h6, h7, h8]

theorem foldl_ground {α : Type} {f : State → α → State}
    (hf : ∀ x a, (f x a).ground = x.ground) (l : List α) (x : State) :
    (l.foldl f x).ground = x.ground := by
  induction l generalizing x with
  | nil => rfl
  | cons a rest ih => rw [List.foldl_cons, ih, hf]

@[simp] theorem ground_setJob (p : Fin 8) (j : Option Job) :
    (State.setJob p j s).ground = s.ground := rfl
@[simp] theorem ground_setAct (l : LineId) (x : LineActions) :
    (State.setAct l x s).ground = s.ground := by
  unfold State.setAct
  cases l <;> rfl
@[simp] theorem ground_setPack (l : LineId) (x : PackPoint) :
    (State.setPack l x s).ground = s.ground := by
  unfold State.setPack
  cases l <;> rfl
@[simp] theorem ground_setMarks (l : LineId) (marks : List Mark) :
    (State.setMarks l marks s).ground = s.ground := by
  unfold State.setMarks
  simp
@[simp] theorem ground_setTally (m : Fin 10) (t : Tally) :
    (State.setTally m t s).ground = s.ground := rfl
@[simp] theorem ground_setLatches (m : Fin 10) (x : Latches) :
    (State.setLatches m x s).ground = s.ground := rfl
@[simp] theorem ground_setPackages (packages : List Package) :
    (State.setPackages packages s).ground = s.ground := rfl
@[simp] theorem ground_updatePackage (number : Nat) (f : Package → Package) :
    (State.updatePackage number f s).ground = s.ground := rfl
@[simp] theorem ground_setPlace (i : Fin 4) (x : Place) :
    (State.setPlace i x s).ground = s.ground := rfl
@[simp] theorem ground_queueReport (kind : ReportKind) (machine : Option Nat) (body : List Byte) :
    (queueReport kind machine body s).ground = s.ground := by
  unfold queueReport
  simp only
  (repeat' split) <;> (try rfl) <;> simp_all
@[simp] theorem ground_enterReport (kind : ReportKind) (machine : Option Nat) (body : List Byte) :
    (enterReport kind machine body s).ground = s.ground := by
  unfold enterReport
  (repeat' split) <;> first | rfl | simp
@[simp] theorem ground_clearSteady (m : Fin 10) : (clearSteady m s).ground = s.ground := rfl
@[simp] theorem ground_latchStop (m : Fin 10) : (latchStop m s).ground = s.ground := rfl
@[simp] theorem ground_setCauses (m : Fin 10) (causes : CauseSet) :
    (State.setCauses m causes s).ground = s.ground := rfl
@[simp] theorem ground_stopNotice (m : Fin 10) (set clear : CauseSet) :
    (stopNotice m set clear s).ground = s.ground := by
  unfold stopNotice
  simp only
  (repeat' split) <;> (try rfl) <;> simp_all
@[simp] theorem ground_setCause (m : Fin 10) (c : StopCause) :
    (setCause m c s).ground = s.ground := by
  unfold setCause
  simp
@[simp] theorem ground_clearCause (m : Fin 10) (c : StopCause) :
    (clearCause m c s).ground = s.ground := by
  unfold clearCause
  simp
@[simp] theorem ground_beginStroke (l : LineId) : (beginStroke l s).ground = s.ground := by
  unfold beginStroke
  simp
@[simp] theorem ground_cutFires (l : LineId) : (cutFires l s).ground = s.ground := by
  unfold cutFires
  simp only
  split <;> simp
@[simp] theorem ground_lineStands (l : LineId) : (lineStands l s).ground = s.ground := by
  unfold lineStands
  split <;> simp
@[simp] theorem ground_judgeHighWater (l : LineId) : (judgeHighWater l s).ground = s.ground := by
  unfold judgeHighWater
  split <;> simp
@[simp] theorem ground_judgeLowWater (l : LineId) : (judgeLowWater l s).ground = s.ground := by
  unfold judgeLowWater
  split <;> simp
@[simp] theorem ground_setActions (l : LineId) (actions : List Action) :
    (State.setActions l actions s).ground = s.ground := by
  unfold State.setActions
  simp
@[simp] theorem ground_setOnCount (l : LineId) (n : Nat) :
    (State.setOnCount l n s).ground = s.ground := by
  unfold State.setOnCount
  simp
@[simp] theorem ground_fireAct (l : LineId) (a : Act) : (fireAct l a s).ground = s.ground := by
  unfold fireAct
  split <;> simp
@[simp] theorem ground_queueAction (l : LineId) (p : Nat) (a : Action) :
    (queueAction l p a s).ground = s.ground := by
  unfold queueAction
  split <;> simp
@[simp] theorem ground_setSpray (l : LineId) (ref : Nat) (v : SprayState) :
    (setSpray l ref v s).ground = s.ground := by
  unfold setSpray
  simp
@[simp] theorem ground_queuePair (l : LineId) (how : Making) (on off : Action) :
    (queuePair l how on off s).ground = s.ground := by
  unfold queuePair
  split <;> simp
@[simp] theorem ground_judgeSpray (l : LineId) (how : Making) (m : Mark) :
    (judgeSpray l how m s).ground = s.ground := by
  unfold judgeSpray
  (repeat' split) <;> simp
@[simp] theorem ground_makeMark (l : LineId) (how : Making) (m : Mark) :
    (makeMark l how m s).ground = s.ground := by
  unfold makeMark
  simp
@[simp] theorem ground_makeAtOnce (l : LineId) (p ref : Nat) :
    (makeAtOnce l p ref s).ground = s.ground := by
  unfold makeAtOnce
  (repeat' split) <;> simp
@[simp] theorem ground_handMark (l : LineId) (p : Nat) (n : NewMark) :
    (handMark l p n s).1.ground = s.ground := by
  unfold handMark
  simp only
  (repeat' split) <;> (try rfl) <;> simp_all
@[simp] theorem ground_insertMark (l : LineId) (p : Nat) (n : NewMark) :
    (insertMark l p n s).ground = s.ground := by
  unfold insertMark
  simp
@[simp] theorem ground_insertMarks (l : LineId) (p : Nat) (ns : List NewMark) :
    (insertMarks l p ns s).ground = s.ground := by
  unfold insertMarks
  exact foldl_ground (fun _ _ => by simp) _ _
@[simp] theorem ground_makeReached (l : LineId) (pNew : Nat) :
    (makeReached l pNew s).ground = s.ground := by
  unfold makeReached
  exact foldl_ground (fun _ _ => by simp) _ _
@[simp] theorem ground_fireReached (l : LineId) (p : Nat) :
    (fireReached l p s).ground = s.ground := by
  unfold fireReached
  simp only
  rw [foldl_ground (fun _ _ => by simp)]
  simp
@[simp] theorem ground_setWatch (l : LineId) (i : Fin 4) (x : Option Nat) :
    (State.setWatch l i x s).ground = s.ground := by
  unfold State.setWatch
  simp
@[simp] theorem ground_hitWatch (l : LineId) (pNew : Nat) (w : Nat × Fin 4) :
    (hitWatch l pNew w s).ground = s.ground := by
  unfold hitWatch
  simp
@[simp] theorem ground_actionsRise (l : LineId) (pNew : Nat) :
    (actionsRise l pNew s).ground = s.ground := by
  unfold actionsRise
  simp only
  rw [foldl_ground (fun _ _ => by simp)]
  simp
@[simp] theorem ground_placeCut (l : LineId) (trigger : Nat) :
    (placeCut l trigger s).ground = s.ground := by
  unfold placeCut
  simp only
  split <;> simp
@[simp] theorem ground_releaseCut (l : LineId) : (releaseCut l s).ground = s.ground := by
  unfold releaseCut
  simp only
  split <;> simp
@[simp] theorem ground_removePackageMarks (number : Nat) :
    (removePackageMarks number s).ground = s.ground := by
  unfold removePackageMarks
  simp only
  split <;> simp
@[simp] theorem ground_takeCoilMarks (l : LineId) (cut : Nat) :
    (takeCoilMarks l cut s).1.ground = s.ground := by
  unfold takeCoilMarks
  simp only
  split <;> simp
@[simp] theorem ground_startNext : (startNext s).ground = s.ground := by
  unfold startNext
  (repeat' split) <;> first | rfl | simp
@[simp] theorem ground_placeOp (op : StoreOp) : (placeOp op s).ground = s.ground :=
  (ground_startNext _).trans rfl
@[simp] theorem ground_endOp : (endOp s).ground = s.ground :=
  (ground_startNext _).trans rfl
@[simp] theorem ground_holdOp : (holdOp s).ground = s.ground :=
  (ground_startNext _).trans rfl
@[simp] theorem ground_reportDone (area : Area) (number taken : Nat) :
    (reportDone area number taken s).ground = s.ground := by
  unfold reportDone
  simp
@[simp] theorem ground_reportFailed (area : Area) (number : Nat) (reason : FailReason) (taken : Nat) :
    (reportFailed area number reason taken s).ground = s.ground := by
  unfold reportFailed
  simp
@[simp] theorem ground_reportEnd (ok : Bool) (area : Area) (number taken : Nat) :
    (reportEnd ok area number taken s).ground = s.ground := by
  unfold reportEnd
  split <;> simp
@[simp] theorem ground_placeStep (m : Fin 10) : (placeStep m s).ground = s.ground := by
  unfold placeStep
  simp only
  split <;> simp
@[simp] theorem ground_reportFull (m : Fin 10) : (reportFull m s).ground = s.ground := by
  unfold reportFull
  split <;> simp
@[simp] theorem ground_addFine (m : Fin 10) (mm : Nat) : (addFine m mm s).ground = s.ground := by
  unfold addFine
  simp only
  (repeat' split) <;> (try rfl) <;> simp_all
@[simp] theorem ground_judgeService (m : Fin 10) (before : Nat) :
    (judgeService m before s).ground = s.ground := by
  unfold judgeService
  simp only
  split <;> simp
@[simp] theorem ground_tallyAdd (m : Fin 10) (mm : Nat) : (tallyAdd m mm s).ground = s.ground := by
  unfold tallyAdd
  split <;> simp
@[simp] theorem ground_placePlan (l : LineId) (cut : Nat) (grade : Option Grade) (origin : CutOrigin) (near : Bool) :
    (placePlan l cut grade origin near s).ground = s.ground := by
  unfold placePlan
  simp
@[simp] theorem ground_planningEvent (l : LineId) (p : Nat) :
    (planningEvent l p s).ground = s.ground := by
  unfold planningEvent
  (repeat' split) <;> simp
@[simp] theorem ground_panelEnds (e : Nat) : (panelEnds e s).ground = s.ground := by
  unfold panelEnds
  (repeat' split) <;> simp
@[simp] theorem ground_reportBlocked (l : LineId) (o : Order) (reason : BlockReason) :
    (reportBlocked l o reason s).ground = s.ground := by
  unfold reportBlocked
  simp
@[simp] theorem ground_tryBinding (l : LineId) : (tryBinding l s).ground = s.ground := by
  unfold tryBinding
  (repeat' split) <;> simp
@[simp] theorem ground_openCoil (l : LineId) (x0 : Nat) : (openCoil l x0 s).ground = s.ground := by
  unfold openCoil
  simp
@[simp] theorem ground_packRestarts (l : LineId) (v : Nat) :
    (packRestarts l v s).ground = s.ground := by
  unfold packRestarts
  split <;> simp
@[simp] theorem ground_recordPackage (number : Nat) :
    (recordPackage number s).ground = s.ground := by
  unfold recordPackage
  simp only
  (repeat' split) <;> (try rfl) <;> simp_all
@[simp] theorem ground_countCoil (number : Nat) : (countCoil number s).ground = s.ground := rfl
@[simp] theorem ground_removeOrder (number : Nat) : (removeOrder number s).ground = s.ground := rfl
@[simp] theorem ground_reportCoil (r : CoilRecord) (done : Nat) :
    (reportCoil r done s).ground = s.ground := by
  unfold reportCoil
  simp
@[simp] theorem ground_fillOrder (l : LineId) (r : CoilRecord) :
    (fillOrder l r s).ground = s.ground := by
  unfold fillOrder
  (repeat' split) <;> simp
@[simp] theorem ground_countAndReport (l : LineId) (r : CoilRecord) :
    (countAndReport l r s).ground = s.ground := by
  unfold countAndReport
  split <;> simp
@[simp] theorem ground_queueRecord (l : LineId) (r : CoilRecord) :
    (queueRecord l r s).ground = s.ground := by
  unfold queueRecord
  simp
@[simp] theorem ground_completeCut (l : LineId) (manual : Bool) :
    (completeCut l manual s).ground = s.ground := by
  unfold completeCut
  simp
@[simp] theorem ground_cutterDone (l : LineId) : (cutterDone l s).ground = s.ground := by
  unfold cutterDone
  (repeat' split) <;> simp
@[simp] theorem ground_strokeFails (l : LineId) : (strokeFails l s).ground = s.ground := by
  unfold strokeFails
  simp
theorem ground_onOutcome {act : State → State} (h : ∀ x : State, (act x).ground = x.ground) :
    (onOutcome act s).ground = s.ground := by
  unfold onOutcome
  split
  · exact h { s with link := { s.link with start := .starting } }
  · exact h s
@[simp] theorem ground_recordWritten (l : LineId) : (recordWritten l s).ground = s.ground := by
  unfold recordWritten
  exact ground_onOutcome s fun x => by simp
@[simp] theorem ground_recordHeld (l : LineId) (detail : LogDetail) :
    (recordHeld l detail s).ground = s.ground := by
  unfold recordHeld
  exact ground_onOutcome s fun x => by simp
@[simp] theorem ground_endCoil (l : LineId) : (endCoil l s).ground = s.ground := by
  unfold endCoil
  simp
@[simp] theorem ground_createPackage (k : Package) : (createPackage k s).ground = s.ground := by
  unfold createPackage
  (repeat' split) <;> simp
@[simp] theorem ground_deletePackage (number : Nat) :
    (deletePackage number s).ground = s.ground := rfl
@[simp] theorem ground_checkCreel : (checkCreel s).ground = s.ground := by
  unfold checkCreel
  split <;> simp
@[simp] theorem ground_beginFeeding (i : Fin 4) (start seen : Nat) (k : Package) :
    (beginFeeding i start seen k s).ground = s.ground := by
  unfold beginFeeding
  simp
@[simp] theorem ground_compareWarning (i : Fin 4) (p number : Nat) :
    (compareWarning i p number s).ground = s.ground := by
  unfold compareWarning
  (repeat' split) <;> simp
@[simp] theorem ground_compareRunout (i : Fin 4) (p number : Nat) :
    (compareRunout i p number s).ground = s.ground := by
  unfold compareRunout
  (repeat' split) <;> simp
@[simp] theorem ground_consume (p : Nat) (i : Fin 4) : (consume p s i).ground = s.ground := by
  unfold consume
  (repeat' split) <;> simp
@[simp] theorem ground_feedAtRise (pOld seen : Nat) (i : Fin 4) :
    (feedAtRise pOld seen s i).ground = s.ground := by
  unfold feedAtRise
  (repeat' split) <;> simp
@[simp] theorem ground_packageRise (pOld pNew seen : Nat) :
    (packageRise pOld pNew seen s).ground = s.ground := by
  unfold packageRise
  rw [foldl_ground (fun _ _ => by simp), foldl_ground (fun _ _ => by simp)]
@[simp] theorem ground_packageFall (pNew : Nat) : (packageFall pNew s).ground = s.ground := by
  unfold packageFall
  exact foldl_ground (fun _ _ => by simp) _ _
@[simp] theorem ground_spend (number leftover : Nat) :
    (spend number leftover s).ground = s.ground := rfl
@[simp] theorem ground_judgeRunout : (judgeRunout s).ground = s.ground := by
  unfold judgeRunout
  split <;> simp
@[simp] theorem ground_moveReserve (i : Fin 4) : (moveReserve i s).ground = s.ground := by
  unfold moveReserve
  split <;> simp
@[simp] theorem ground_spliceFeed (i : Fin 4) (old next : Package) :
    (spliceFeed i old next s).ground = s.ground := by
  unfold spliceFeed
  simp
@[simp] theorem ground_unplacePlaced (i : Fin 4) (reserve : Bool) (number : Nat) :
    (unplacePlaced i reserve number s).ground = s.ground := by
  unfold unplacePlaced
  split <;> simp
@[simp] theorem ground_unplaceFeeding (i : Fin 4) (k : Package) :
    (unplaceFeeding i k s).ground = s.ground := by
  unfold unplaceFeeding
  simp only
  split <;> simp
@[simp] theorem ground_placePackage (number : Nat) (i : Fin 4) :
    (placePackage number i s).ground = s.ground := by
  unfold placePackage
  split <;> simp
@[simp] theorem ground_handSpan (p : Fin 8) (number : Nat) (c : ClosedSpan) :
    (handSpan p number c s).ground = s.ground := by
  unfold handSpan
  simp
@[simp] theorem ground_handSpanQ (p : Fin 8) (number : Nat) (c : Option ClosedSpan) :
    (handSpan? p number c s).ground = s.ground := by
  unfold handSpan?
  split <;> simp
@[simp] theorem ground_enterFault (p : Fin 8) (c : FaultCause) (j : Job) :
    (enterFault p c j s).ground = s.ground := by
  unfold enterFault
  simp
@[simp] theorem ground_enterTarget (p : Fin 8) (j : Job) :
    (enterTarget p j s).ground = s.ground := by
  unfold enterTarget
  simp
@[simp] theorem ground_enterStill (p : Fin 8) (j : Job) :
    (enterStill p j s).ground = s.ground := rfl
@[simp] theorem ground_drivesChanged (p : Fin 8) : (drivesChanged p s).ground = s.ground := by
  unfold drivesChanged
  (repeat' split) <;> simp
@[simp] theorem ground_detectorChanged (p : Fin 8) : (detectorChanged p s).ground = s.ground := by
  unfold detectorChanged
  (repeat' split) <;> simp
@[simp] theorem ground_spindlePulse (p : Fin 8) : (spindlePulse p s).ground = s.ground := by
  unfold spindlePulse
  (repeat' split) <;> simp
@[simp] theorem ground_windPulse (p : Fin 8) (j : Job) :
    (windPulse p j s).2.ground = s.ground := by
  unfold windPulse
  simp
@[simp] theorem ground_closeWindow (p : Fin 8) (j : Job) :
    (closeWindow p j s).ground = s.ground := by
  unfold closeWindow
  simp
@[simp] theorem ground_windowPulse (p : Fin 8) (j : Job) :
    (windowPulse p j s).ground = s.ground := by
  unfold windowPulse
  simp only
  split <;> simp
@[simp] theorem ground_checkTarget (p : Fin 8) : (checkTarget p s).ground = s.ground := by
  unfold checkTarget
  (repeat' split) <;> simp
@[simp] theorem ground_runPulse (p : Fin 8) (j : Job) : (runPulse p j s).ground = s.ground := by
  unfold runPulse
  simp
@[simp] theorem ground_deliveryPulse (p : Fin 8) : (deliveryPulse p s).ground = s.ground := by
  unfold deliveryPulse
  (repeat' split) <;> simp
@[simp] theorem ground_doffRecord (p : Fin 8) (j : Job) :
    (doffRecord p j s).ground = s.ground := by
  unfold doffRecord
  split <;> simp
@[simp] theorem ground_doff (p : Fin 8) (j : Job) : (doff p j s).ground = s.ground := by
  unfold doff
  simp
@[simp] theorem ground_setLay (x : Lay) : (State.setLay x s).ground = s.ground := rfl
@[simp] theorem ground_layPulse : (layPulse s).ground = s.ground := by
  unfold layPulse
  split <;> simp
@[simp] theorem ground_handLaySpan (seen : Nat) (c : ClosedSpan) :
    (handLaySpan seen c s).ground = s.ground := by
  unfold handLaySpan
  simp
@[simp] theorem ground_handLaySpanQ (seen : Nat) (c : Option ClosedSpan) :
    (handLaySpan? seen c s).ground = s.ground := by
  unfold handLaySpan?
  split <;> simp
@[simp] theorem ground_closeLayWindow (r : RopeRecipe) (p seen : Nat) :
    (closeLayWindow r p seen s).ground = s.ground := by
  unfold closeLayWindow
  simp
@[simp] theorem ground_layRise (pNew seen : Nat) : (layRise pNew seen s).ground = s.ground := by
  unfold layRise
  (repeat' split) <;> simp
@[simp] theorem ground_layFall (pNew : Nat) : (layFall pNew s).ground = s.ground := by
  unfold layFall
  split <;> simp
@[simp] theorem ground_layRestart (x : Nat) : (layRestart x s).ground = s.ground := rfl
@[simp] theorem ground_closeLaySpan : (closeLaySpan s).ground = s.ground := by
  unfold closeLaySpan
  simp
@[simp] theorem ground_setKnot (x : Knot) : (State.setKnot x s).ground = s.ground := rfl
@[simp] theorem ground_handMeshSpan (c : ClosedSpan) : (handMeshSpan c s).ground = s.ground := by
  unfold handMeshSpan
  simp
@[simp] theorem ground_handMeshSpanQ (c : Option ClosedSpan) :
    (handMeshSpan? c s).ground = s.ground := by
  unfold handMeshSpan?
  split <;> simp
@[simp] theorem ground_meshCheck (r : NetRecipe) (position : Nat) (back : RowEntry) :
    (meshCheck r position back s).ground = s.ground := by
  unfold meshCheck
  simp
@[simp] theorem ground_checkMesh (r : NetRecipe) (position : Nat) :
    (checkMesh r position s).ground = s.ground := by
  unfold checkMesh
  simp only
  (repeat' split) <;> (try rfl) <;> simp_all
@[simp] theorem ground_reportRow (e : RowEntry) (step : PatternStep) (scanned sensor : Bool) (changed : HookSet) :
    (reportRow e step scanned sensor changed s).ground = s.ground := by
  unfold reportRow
  simp
@[simp] theorem ground_beginScan (row : BitVec 32) : (beginScan row s).ground = s.ground := rfl
@[simp] theorem ground_unscannedRow (e : RowEntry) (step : PatternStep) :
    (unscannedRow e step s).ground = s.ground := by
  unfold unscannedRow
  simp
@[simp] theorem ground_endPanel (e : RowEntry) : (endPanel e s).ground = s.ground := by
  unfold endPanel
  simp
@[simp] theorem ground_advancePattern (r : NetRecipe) (e : RowEntry) :
    (advancePattern r e s).ground = s.ground := by
  unfold advancePattern
  simp only
  (repeat' split) <;> (try rfl) <;> simp_all
@[simp] theorem ground_countRow (r : NetRecipe) : (countRow r s).ground = s.ground := by
  unfold countRow
  simp only
  split <;> simp
@[simp] theorem ground_rowEvent : (rowEvent s).ground = s.ground := by
  unfold rowEvent
  split <;> simp
@[simp] theorem ground_markMissing (e : RowEntry) (missing : HookSet) :
    (markMissing e missing s).ground = s.ground := by
  unfold markMissing
  split <;> simp
@[simp] theorem ground_judgeHooks (r : NetRecipe) (e : RowEntry) (expected : HookSet) (sets : RowSets) :
    (judgeHooks r e expected sets s).ground = s.ground := by
  unfold judgeHooks
  simp only
  split
  · simp
  · split <;> simp
@[simp] theorem ground_judgeExtras (extra : HookSet) :
    (judgeExtras extra s).1.ground = s.ground := by
  unfold judgeExtras
  simp only
  split <;> simp
@[simp] theorem ground_judgeRow (r : NetRecipe) (e : RowEntry) (present : HookSet) :
    (judgeRow r e present s).ground = s.ground := by
  unfold judgeRow
  simp only
  split <;> simp
@[simp] theorem ground_completeScan (x : ScanInProgress) (present : HookSet) :
    (completeScan x present s).ground = s.ground := by
  unfold completeScan
  split <;> simp
@[simp] theorem ground_closeMeshSpan : (closeMeshSpan s).ground = s.ground := by
  unfold closeMeshSpan
  simp
@[simp] theorem ground_knotSegment : (knotSegment s).ground = s.ground := rfl
@[simp] theorem ground_hooksReleased : (hooksReleased s).ground = s.ground := rfl
theorem ground0_tallyRise (l : LineId) (pNew : Nat) :
    (tallyRise l pNew s).ground0 = s.ground0 := by
  unfold tallyRise
  simp only
  split
  · rw [ground0_of_ground (ground_tallyAdd ..)]
    cases l <;> rfl
  · rfl
@[simp] theorem ground_handFall (pNew : Nat) : (handFall pNew s).ground = s.ground := by
  unfold handFall
  simp
@[simp] theorem ground_lineGoesStill (l : LineId) : (lineGoesStill l s).ground = s.ground := by
  unfold lineGoesStill
  simp
@[simp] theorem ground_handRunning (i : PulseInput) : (handRunning i s).ground = s.ground := by
  unfold handRunning
  (repeat' split) <;> simp
@[simp] theorem ground_handLevel (i : LevelInput) (level : Bool) :
    (handLevel i level s).ground = s.ground := by
  unfold handLevel
  (repeat' split) <;> simp
@[simp] theorem ground_releaseStop (m : Fin 10) (c : StopCause) :
    (releaseStop m c s).ground = s.ground := by
  unfold releaseStop
  split <;> simp

/-! ### Pulses of the line wheels -/

theorem ground0_takeRise (l : LineId) (pOld pNew : Nat) (x : State × Nat) (b : RiseBlock) :
    (takeRise l pOld pNew x b).1.ground0 = x.1.ground0 := by
  obtain ⟨s, seen⟩ := x
  unfold takeRise
  cases b
  case storeController => cases l <;> exact ground0_tallyRise ..
  all_goals cases l <;> exact ground0_of_ground (by simp)

theorem ground0_handRise (l : LineId) (order : List RiseBlock) (pOld pNew : Nat) :
    (handRise l order pOld pNew s).ground0 = s.ground0 := by
  unfold handRise
  generalize blockOrder order = blocks
  suffices h : ∀ x : State × Nat,
      (blocks.foldl (takeRise l pOld pNew) x).1.ground0 = x.1.ground0 from h _
  induction blocks with
  | nil => intro x; rfl
  | cons b rest ih => intro x; rw [List.foldl_cons, ih, ground0_takeRise]

/-- The inputs, the clock, the plant record in force and the store's bytes. -/
def State.base (s : State) :=
  (s.inputs, s.now, s.plant, s.flash)

theorem base_of_ground0 {s t : State} (h : t.ground0 = s.ground0) : t.base = s.base := by
  simp only [State.ground0, Prod.mk.injEq] at h
  obtain ⟨h1, h2, h3, -, -, -, -, h4⟩ := h
  simp only [State.base, h1, h2, h3, h4]

theorem base_of_ground {s t : State} (h : t.ground = s.ground) : t.base = s.base := by
  simp only [State.ground, Prod.mk.injEq] at h
  obtain ⟨h1, h2, h3, -, -, -, -, h4⟩ := h
  simp only [State.base, h1, h2, h3, h4]

theorem len_of_ground {s t : State} (h : t.ground = s.ground) (l : LineId) : t.len l = s.len l := by
  simp only [State.ground, Prod.mk.injEq] at h
  obtain ⟨-, -, -, -, -, h6, h7, -⟩ := h
  cases l
  · exact h6
  · exact h7

theorem len_of_ground0 {s t : State} (h : t.ground0 = s.ground0) (l : LineId) :
    { t.len l with highMark := 0 } = { s.len l with highMark := 0 } := by
  simp only [State.ground0, Prod.mk.injEq] at h
  obtain ⟨-, -, -, -, -, h6, h7, -⟩ := h
  cases l
  · exact h6
  · exact h7

@[simp] theorem base_setLen (l : LineId) (x : LengthMeter) : (State.setLen l x s).base = s.base := by
  cases l <;> rfl

@[simp] theorem base_linePulse (l : LineId) (forward : Bool) (order : List RiseBlock) :
    (linePulse l forward order s).base = s.base := by
  unfold linePulse
  simp only
  split
  · split
    · rw [base_of_ground0 (ground0_handRise ..), base_setLen]
    · split
      · rw [base_of_ground (ground_handFall ..), base_setLen]
      · rw [base_setLen]
  · rfl

@[simp] theorem base_handPulse (i : PulseInput) (forward : Bool) (order : List RiseBlock) :
    (handPulse i forward order s).base = s.base := by
  cases i
  · exact base_of_ground (ground_spindlePulse ..)
  · exact base_of_ground (ground_deliveryPulse ..)
  · exact base_of_ground (ground_layPulse ..)
  · exact base_linePulse ..
  · exact base_linePulse ..
  · exact base_of_ground (ground_rowEvent ..)

end Sys2Proof.Machine
end

