-- ==== Sys2Proof/Laws/Parts.lean ====
section
/-! SUPPORT. What a part of the state reads as after an update of any part of its kind. -/

namespace Sys2Proof.Machine

theorem setPulse_pulse_at (s : State) (i k : PulseInput) (x : PulseIn) :
    (s.setPulse i x).pulse k = if k = i then x else s.pulse k := by
  unfold State.setPulse State.pulse Inputs.setPulse Inputs.pulse
  cases i <;> cases k <;> simp
  all_goals
    rename_i a b
    by_cases h : b = a
    · subst h
      simp
    · have : a.val ≠ b.val := fun e => h (Fin.ext e.symm)
      simp [h, this]

theorem setPulse_level_at (s : State) (i : PulseInput) (k : LevelInput) (x : PulseIn) :
    (s.setPulse i x).inputs.level k = s.inputs.level k := by
  unfold State.setPulse Inputs.setPulse Inputs.level
  cases i <;> cases k <;> rfl

theorem setLevel_pulse_at (s : State) (i : LevelInput) (k : PulseInput) (x : LevelIn) :
    (s.setLevel i x).pulse k = s.pulse k := by
  unfold State.setLevel Inputs.setLevel State.pulse Inputs.pulse
  cases i <;> cases k <;> rfl

theorem setLevel_level_at (s : State) (i k : LevelInput) (x : LevelIn) :
    (s.setLevel i x).inputs.level k = if k = i then x else s.inputs.level k := by
  unfold State.setLevel Inputs.setLevel Inputs.level
  cases i <;> cases k <;> simp
  rename_i a b
  by_cases h : b = a
  · subst h
    simp
  · have : a.val ≠ b.val := fun e => h (Fin.ext e.symm)
    simp [h, this]

theorem setJob_job_at (s : State) (p q : Fin 8) (j : Option Job) :
    (s.setJob p j).job q = if q = p then j else s.job q := by
  unfold State.setJob State.job
  by_cases h : q = p
  · subst h
    simp
  · have : p.val ≠ q.val := fun e => h (Fin.ext e.symm)
    simp [h, this]

theorem setPlace_place_at (s : State) (i q : Fin 4) (x : Place) :
    (s.setPlace i x).place q = if q = i then x else s.place q := by
  unfold State.setPlace State.place
  by_cases h : q = i
  · subst h
    simp
  · have : i.val ≠ q.val := fun e => h (Fin.ext e.symm)
    simp [h, this]

theorem setLen_len_at (s : State) (l k : LineId) (x : LengthMeter) :
    (s.setLen l x).len k = if k = l then x else s.len k := by
  cases l <;> cases k <;> rfl

theorem setTally_tally_at (s : State) (m k : Fin 10) (t : Tally) :
    (s.setTally m t).tally k = if k = m then t else s.tally k := by
  unfold State.setTally State.tally
  by_cases h : k = m
  · subst h
    simp
  · have : m.val ≠ k.val := fun e => h (Fin.ext e.symm)
    simp [h, this]

/-- The record of a number after a change of the records of a number that keeps their numbers. -/
theorem updatePackage_package (s : State) (n m : Nat) (f : Package → Package)
    (hf : ∀ k, (f k).number = k.number) :
    (s.updatePackage n f).package m = (s.package m).map fun k => if m = n then f k else k := by
  unfold State.updatePackage State.setPackages State.package
  simp only
  generalize s.table.packages = packages
  induction packages with
  | nil => rfl
  | cons k rest ih =>
    have e : ((if (k.number == n) = true then f k else k).number == m) = (k.number == m) := by
      split <;> simp [hf]
    simp only [List.map_cons, List.find?_cons, e]
    by_cases h : k.number = m
    · have hb : (k.number == m) = true := by simpa using h
      rw [hb, ← h]
      simp
    · have hb : (k.number == m) = false := by simpa using h
      rw [hb]
      exact ih

end Sys2Proof.Machine
end

