-- ==== Sys2Proof/Laws/Notices.lean ====
section
/-! SUPPORT. What notices make of the cause sets, and the operations that do nothing but give notices and enter
reports. -/

namespace Sys2Proof.Machine

/-! ### One cause of one machine -/

theorem only_isIn (c d : StopCause) : c.isIn d.only = decide (c = d) := by
  cases c <;> cases d <;> decide

theorem isIn_zero (c : StopCause) : c.isIn 0 = false := by
  simp [StopCause.isIn]

theorem isIn_noticed (c : StopCause) (a b x : CauseSet) :
    c.isIn (noticed a b x) = ((c.isIn x || c.isIn a) && !c.isIn b) := by
  simp [StopCause.isIn, noticed]
  cases c <;> simp [StopCause.code]

theorem hasCause_congr {s t : State} (h : t.stops = s.stops) (m : Fin 10) (c : StopCause) :
    t.hasCause m c = s.hasCause m c := by
  unfold State.hasCause State.stop
  rw [h]

/-- A cause after a notice to a machine. -/
theorem hasCause_stopNotice (m k : Fin 10) (c : StopCause) (set clear : CauseSet) (s : State) :
    (stopNotice m set clear s).hasCause k c
      = if k = m then (s.hasCause m c || c.isIn set) && !c.isIn clear else s.hasCause k c := by
  unfold State.hasCause
  by_cases h : k = m
  · subst h
    rw [stopNotice_causes, isIn_noticed]
    simp
  · rw [stopNotice_other _ _ _ _ _ h]
    simp [h]

theorem hasCause_setCause (m k : Fin 10) (c d : StopCause) (s : State) :
    (setCause m d s).hasCause k c = (s.hasCause k c || decide (k = m ∧ c = d)) := by
  unfold setCause
  rw [hasCause_stopNotice, only_isIn, isIn_zero]
  by_cases h : k = m <;> simp [h]

theorem hasCause_clearCause (m k : Fin 10) (c d : StopCause) (s : State) :
    (clearCause m d s).hasCause k c = (s.hasCause k c && !decide (k = m ∧ c = d)) := by
  unfold clearCause
  rw [hasCause_stopNotice, only_isIn, isIn_zero]
  by_cases h : k = m <;> simp [h]

/-! ### Operations that do nothing else -/

/-- The second state is the first one after notices and reports: the Stop Unit and the Link Port alone may differ. -/
def NoticesOnly (s t : State) : Prop :=
  t = { s with stops := t.stops, link := t.link }

theorem noticesOnly_refl (s : State) : NoticesOnly s s := rfl

theorem noticesOnly_trans {s t u : State} (h : NoticesOnly s t) (g : NoticesOnly t u) :
    NoticesOnly s u := by
  unfold NoticesOnly at *
  rw [g, h]

theorem noticesOnly_stopNotice (m : Fin 10) (set clear : CauseSet) (s : State) :
    NoticesOnly s (stopNotice m set clear s) :=
  stopNotice_only ..

theorem noticesOnly_setCause (m : Fin 10) (c : StopCause) (s : State) :
    NoticesOnly s (setCause m c s) :=
  stopNotice_only ..

theorem noticesOnly_clearCause (m : Fin 10) (c : StopCause) (s : State) :
    NoticesOnly s (clearCause m c s) :=
  stopNotice_only ..

theorem noticesOnly_enterReport (kind : ReportKind) (machine : Option Nat) (body : List Byte)
    (s : State) : NoticesOnly s (enterReport kind machine body s) := by
  unfold NoticesOnly
  rw [enterReport_only]

theorem noticesOnly_checkCreel (s : State) : NoticesOnly s (checkCreel s) := by
  unfold checkCreel
  split
  · exact noticesOnly_setCause ..
  · exact noticesOnly_clearCause ..

theorem noticesOnly_judgeRunout (s : State) : NoticesOnly s (judgeRunout s) := by
  unfold judgeRunout
  split
  · exact noticesOnly_refl _
  · exact noticesOnly_clearCause ..

theorem noticesOnly_judgeLowWater (l : LineId) (s : State) : NoticesOnly s (judgeLowWater l s) := by
  unfold judgeLowWater
  split
  · exact noticesOnly_clearCause ..
  · exact noticesOnly_refl _

theorem noticesOnly_judgeHighWater (l : LineId) (s : State) : NoticesOnly s
    (judgeHighWater l s) := by
  unfold judgeHighWater
  split
  · exact noticesOnly_trans (noticesOnly_setCause ..) (noticesOnly_enterReport ..)
  · exact noticesOnly_refl _

/-! ### What a mark handed over leaves -/

/-- A part of the state that the marks of a line, its actions, MARKS_FULL and reports do not touch. -/
structure BesideMarks (α : Type) where
  part : State → α
  act : ∀ l x s, part (State.setAct l x s) = part s
  setFull : ∀ m s, part (setCause m .marksFull s) = part s
  clearFull : ∀ m s, part (clearCause m .marksFull s) = part s
  report : ∀ kind m body s, part (enterReport kind m body s) = part s

variable {α : Type} (v : BesideMarks α) (s : State)

theorem beside_judgeHighWater (l : LineId) : v.part (judgeHighWater l s) = v.part s := by
  unfold judgeHighWater
  split
  · rw [v.report, v.setFull]
  · rfl

theorem beside_judgeLowWater (l : LineId) : v.part (judgeLowWater l s) = v.part s := by
  unfold judgeLowWater
  split
  · rw [v.clearFull]
  · rfl

theorem beside_queueAction (l : LineId) (p : Nat) (a : Action) (h : a.act ≠ .cut) :
    v.part (queueAction l p a s) = v.part s := by
  unfold queueAction State.setActions fireAct State.setOnCount State.setMarks
  split
  · split <;> simp_all [v.act]
  · simp [v.act]

theorem beside_judgeSpray (l : LineId) (how : Making) (m : Mark) :
    v.part (judgeSpray l how m s) = v.part s := by
  unfold judgeSpray setSpray State.setMarks
  split
  · simp only
    split
    · simp [v.act]
    · split
      · unfold queuePair State.setActions
        split
        · simp [v.act]
        · rw [beside_queueAction v _ _ _ _ (by simp), beside_queueAction v _ _ _ _ (by simp)]
          simp [v.act]
      · simp [v.act]
  · rfl

theorem beside_makeMark (l : LineId) (how : Making) (m : Mark) :
    v.part (makeMark l how m s) = v.part s := by
  unfold makeMark State.setMarks
  rw [beside_judgeSpray, v.act]

/-- A mark handed to a list leaves all that is beside the marks as it was. -/
theorem beside_handMark (l : LineId) (p : Nat) (n : NewMark) :
    v.part (handMark l p n s).1 = v.part s := by
  unfold handMark
  simp only
  unfold makeAtOnce
  have h : ∀ t : State, v.part t = v.part s → ∀ ref,
      v.part (match findRef ref (t.act l).marks with
        | some m => if !m.made && decide (m.x ≤ p) then makeMark l (.atOnce p) m t else t
        | none => t) = v.part s := by
    intro t ht ref
    split
    · split
      · rw [beside_makeMark, ht]
      · exact ht
    · exact ht
  apply h
  split
  · rw [beside_judgeHighWater, v.act]
  · split
    · rw [beside_judgeLowWater, v.act]
    · rw [v.act]
  · rw [v.act]

theorem beside_insertMarks (l : LineId) (p : Nat) (ns : List NewMark) :
    v.part (insertMarks l p ns s) = v.part s := by
  unfold insertMarks
  induction ns generalizing s with
  | nil => rfl
  | cons n rest ih =>
    rw [List.foldl_cons, ih]
    exact beside_handMark v s l p n

/-- What neither marks nor any notice touches is beside the marks: the package table, the pack point of a line, the
Knot Scanner. -/
def besideNotices {α : Type} (part : State → α) (act : ∀ l x s, part (State.setAct l x s) = part s)
    (notices : ∀ s t, NoticesOnly s t → part t = part s) : BesideMarks α where
  part := part
  act := act
  setFull m s := notices _ _ (noticesOnly_setCause m _ s)
  clearFull m s := notices _ _ (noticesOnly_clearCause m _ s)
  report kind m body s := notices _ _ (noticesOnly_enterReport kind m body s)

def besideTable : BesideMarks Table :=
  besideNotices State.table (fun l _ _ => by cases l <;> rfl) (fun _ _ h => by rw [h])

def besidePack (l : LineId) : BesideMarks PackPoint :=
  besideNotices (fun s => s.pack l) (fun k _ _ => by cases k <;> cases l <;> rfl)
    (fun _ _ h => by rw [h]; rfl)

def besideKnot : BesideMarks Knot :=
  besideNotices State.knot (fun l _ _ => by cases l <;> rfl) (fun _ _ h => by rw [h])

/-- Every cause but MARKS_FULL is beside the marks. -/
def besideCause (m : Fin 10) (c : StopCause) (h : c ≠ .marksFull) : BesideMarks Bool where
  part s := s.hasCause m c
  act l _ _ := by cases l <;> rfl
  setFull k s := by rw [hasCause_setCause]; simp [h]
  clearFull k s := by rw [hasCause_clearCause]; simp [h]
  report kind k body s := hasCause_congr (enterReport_stops ..) m c

end Sys2Proof.Machine
end

