-- ==== Sys2Proof/Laws/Marks.lean ====
section
/-! SUPPORT. What the Line Action Unit does: mark lists, their fullness, spraying, actions and watches, each operation in
one lemma. -/

namespace Sys2Proof.Machine

/-! ### The mark list (R80, R81, R83) -/

theorem placeMark_eq (m : Mark) (marks : List Mark) :
    placeMark m marks
      = marks.takeWhile (fun k => decide (k.x ≤ m.x)) ++ m
        :: marks.dropWhile (fun k => decide (k.x ≤ m.x)) := by
  induction marks with
  | nil => rfl
  | cons h t ih => unfold placeMark; split <;> simp_all

theorem placeAction_eq (a : Action) (queue : List Action) :
    placeAction a queue
      = queue.takeWhile (fun k => decide (k.trigger ≤ a.trigger)) ++ a
        :: queue.dropWhile (fun k => decide (k.trigger ≤ a.trigger)) := by
  induction queue with
  | nil => rfl
  | cons h t ih => unfold placeAction; split <;> simp_all

theorem takes_iff (m : Mark) (kind : MarkKind) (source : Option Nat) (x stop : Nat) :
    m.takes kind source x stop = true ↔
      m.made = false ∧ m.kind = kind ∧ m.source = source ∧ x ≤ m.x + m.span ∧ m.x ≤ stop := by
  unfold Mark.takes Mark.stop
  simp only [Bool.and_eq_true, Bool.not_eq_true', beq_iff_eq, decide_eq_true_eq]
  tauto

/-- A new mark that a FUTURE one takes is merged into it. -/
theorem addMark_merged (sprayed : Bool) (ref : Nat) (n : NewMark) (marks : List Mark) (m : Mark)
    (h : marks.find? (fun k => k.takes n.kind n.source n.x (n.x + n.span)) = some m) :
    let grown := { m with
      x := min m.x n.x
      span := min (max (m.x + m.span) (n.x + n.span) - min m.x n.x) 1000000
      count := min (m.count + n.count) 255 }
    let others := marks.filter fun k => k.ref != m.ref
    let merged :=
      if n.x < m.x then
        others.takeWhile (fun k => decide (k.x ≤ grown.x)) ++ grown
          :: others.dropWhile (fun k => decide (k.x ≤ grown.x))
      else marks.map fun k => if k.ref = m.ref then grown else k
    addMark sprayed ref n marks = (absorb marks.length m.ref merged, m.ref, .merged) := by
  intro grown others merged
  have e : regrow m (m.grow n.x (n.x + n.span) n.count) marks = merged := by
    unfold regrow
    have hg : m.grow n.x (n.x + n.span) n.count = grown := rfl
    have hx : (grown.x < m.x) ↔ (n.x < m.x) := by simp only [grown]; omega
    rw [hg, placeMark_eq]
    simp only [hx, merged]
    rfl
  unfold addMark
  rw [h]
  simp only
  rw [e]

/-- A grown mark absorbs the first other mark that it takes. -/
theorem absorb_step (fuel ref : Nat) (marks : List Mark) (g : Mark)
    (hg : marks.find? (fun k => k.ref == ref) = some g) :
    let taken := marks.find? fun k => k.ref != ref && k.takes g.kind g.source g.x (g.x + g.span)
    (taken = none → absorb fuel ref marks = marks) ∧
    (∀ m, taken = some m →
      let grown := { g with
        x := min g.x m.x
        span := min (max (g.x + g.span) (m.x + m.span) - min g.x m.x) 1000000
        count := min (g.count + m.count) 255 }
      let left := marks.filter fun k => k.ref != m.ref
      let others := left.filter fun k => k.ref != ref
      absorb (fuel + 1) ref marks
        = absorb fuel ref
          (if m.x < g.x then
            others.takeWhile (fun k => decide (k.x ≤ grown.x)) ++ grown
              :: others.dropWhile (fun k => decide (k.x ≤ grown.x))
          else left.map fun k => if k.ref = ref then grown else k)) := by
  intro taken
  have hr : g.ref = ref := by have := List.find?_some hg; simpa using this
  have hg' : findRef ref marks = some g := hg
  refine ⟨fun h => ?_, ?_⟩
  · cases fuel with
    | zero => rfl
    | succ f =>
      unfold absorb
      rw [hg']
      simp only
      have h' : marks.find? (fun m => m.ref != ref && m.takes g.kind g.source g.x g.stop)
          = none := h
      rw [h']
  · intro m h grown left others
    rw [absorb, hg']
    simp only
    have h' : marks.find? (fun m => m.ref != ref && m.takes g.kind g.source g.x g.stop)
        = some m := h
    rw [h']
    simp only
    have e : regrow g (g.grow m.x m.stop m.count) (dropRef m.ref marks)
        = (if m.x < g.x then
            others.takeWhile (fun k => decide (k.x ≤ grown.x)) ++ grown
              :: others.dropWhile (fun k => decide (k.x ≤ grown.x))
          else left.map fun k => if k.ref = ref then grown else k) := by
      unfold regrow
      have hgr : g.grow m.x m.stop m.count = grown := rfl
      have hx : (grown.x < g.x) ↔ (m.x < g.x) := by simp only [grown]; omega
      rw [hgr, placeMark_eq]
      simp only [hx, dropRef, mapRef, hr]
      rfl
    rw [e]

/-- A full list folds a new mark that none takes. -/
theorem addMark_folded (sprayed : Bool) (ref : Nat) (n : NewMark) (marks : List Mark) (m : Mark)
    (h1 : ∀ k ∈ marks, k.takes n.kind n.source n.x (n.x + n.span) = false)
    (h2 : 128 ≤ marks.length)
    (h3 : (marks.filter fun k => decide (k.x ≤ n.x)).getLast? = some m ∨
      ((∀ k ∈ marks, n.x < k.x) ∧ marks.head? = some m)) :
    let folded := fun k : Mark =>
      let start := min k.x n.x
      let span := min (max (k.x + k.span) (n.x + n.span) - start) 1000000
      { k with
        kind := .mixed, x := start, span := span, count := min (k.count + n.count) 255
        source := if k.source = n.source then k.source else none
        spray := if k.made = true ∧ k.x + k.span < start + span ∧ sprayed = true then .missed
          else k.spray }
    addMark sprayed ref n marks
      = (marks.map (fun k => if k.ref = m.ref then folded k else k), m.ref, .folded) := by
  intro folded
  have hf : marks.find? (fun m => m.takes n.kind n.source n.x (n.x + n.span)) = none := by
    rw [List.find?_eq_none]
    intro k hk
    simp [h1 k hk]
  have ht : foldTarget n.x marks = some m := by
    unfold foldTarget
    rcases h3 with h | ⟨h, h'⟩
    · rw [h]
    · have : (marks.filter fun k => decide (k.x ≤ n.x)) = [] := by
        rw [List.filter_eq_nil_iff]
        intro k hk
        have := h k hk
        simp
        omega
      rw [this]
      exact h'
  have e : ∀ k : Mark, k.fold n sprayed = folded k := by
    intro k
    simp only [folded, Mark.fold, heldSpan, satAdd, Mark.stop, markCountTop]
    congr 1
    simp only [Bool.and_eq_true, and_assoc]
    exact if_congr (and_congr_right fun _ => and_congr_left fun _ => decide_eq_true_iff) rfl rfl
  unfold addMark
  rw [hf]
  simp only
  rw [if_neg (by unfold markCapacity; omega), ht]
  simp only [mapRef, e]

/-! ### A mark handed over (R82, R84, R85) -/

theorem handMark_eq (l : LineId) (p : Nat) (n : NewMark) (s : State) :
    let a := s.act l
    let r := addMark (MarkKind.mixed.isIn (s.spraySet l)) a.nextRef n a.marks
    let placed := s.setAct l { a with marks := r.1, nextRef := a.nextRef + 1 }
    let judged :=
      if r.2.2 = .inserted ∧ r.1.length = 120 ∧ s.hasCause (machineOf l) .marksFull = false then
        enterReport .marksHigh (some (machineOf l).val) (be 1 120 ++ be 4 (s.len l).p)
          (setCause (machineOf l) .marksFull placed)
      else if r.2.2 = .merged ∧ r.1.length < a.marks.length ∧ r.1.length ≤ 112 then
        clearCause (machineOf l) .marksFull placed
      else placed
    let made :=
      match (judged.act l).marks.find? fun m => m.ref == r.2.1 with
      | some m => if m.made = false ∧ m.x ≤ p then makeMark l (.atOnce p) m judged else judged
      | none => judged
    handMark l p n s = (made, r.2.1, r.2.2) := by
  intro a r placed judged made
  have hm : (placed.act l).marks = r.1 := by simp [placed]
  have hl : (placed.len l).p = (s.len l).p := by simp [placed]
  have hc : placed.hasCause (machineOf l) .marksFull = s.hasCause (machineOf l) .marksFull :=
    hasCause_congr (by simp [placed]) _ _
  have hj : (match r.2.2 with
      | .inserted => judgeHighWater l placed
      | .merged => if r.1.length < a.marks.length then judgeLowWater l placed else placed
      | .folded => placed) = judged := by
    simp only [judged]
    cases hr : r.2.2 <;>
      simp only [judgeHighWater, judgeLowWater, hm, hl, hc, highWater, lowWater]
    · by_cases h : r.1.length = 120 <;> simp [h]
    · by_cases h : r.1.length < a.marks.length <;> simp [h]
    · simp
  have e : handMark l p n s = (makeAtOnce l p r.2.1 (match r.2.2 with
      | .inserted => judgeHighWater l placed
      | .merged => if r.1.length < a.marks.length then judgeLowWater l placed else placed
      | .folded => placed), r.2.1, r.2.2) := rfl
  have hm2 : makeAtOnce l p r.2.1 judged = made := by
    unfold makeAtOnce findRef
    simp only [made]
    cases h : (judged.act l).marks.find? fun m => m.ref == r.2.1 with
    | none => rfl
    | some m => simp
  rw [e, hj, hm2]

theorem makeMark_cases (l : LineId) (how : Making) (m : Mark) (s : State) :
    let made := s.setMarks l
      ((s.act l).marks.map fun k => if k.ref = m.ref then { k with made := true } else k)
    let sprayAs := fun v : SprayState =>
      made.setMarks l ((made.act l).marks.map fun k => if k.ref
          = m.ref then { k with spray := v } else k)
    let on := min (m.x + s.markerOffset l) 4294967295
    let off := min (m.x + max m.span 50 + s.markerOffset l) 4294967295
    let room : Prop := ((s.act l).actions.filter fun a => a.act.isSpray).length ≤ 29
    (m.kind.isIn (s.spraySet l) = false → makeMark l how m s = made) ∧
    (m.kind.isIn (s.spraySet l) = true →
      ((∃ p, how = .atOnce p ∧ on < p) ∨ ¬room → makeMark l how m s = sprayAs .missed) ∧
      (how = .atRise → room →
        makeMark l how m s
          = (sprayAs .pending).setActions l
              (placeAction ⟨off, .sprayOff m.ref⟩
                (placeAction ⟨on, .sprayOn m.ref⟩ (s.act l).actions))) ∧
      (∀ p, how = .atOnce p → p ≤ on → room →
        makeMark l how m s
          = queueAction l p ⟨off, .sprayOff m.ref⟩
              (queueAction l p ⟨on, .sprayOn m.ref⟩ (sprayAs .pending)))) := by
  intro made sprayAs on off room
  have h1 : made.spraySet l = s.spraySet l := by cases l <;> rfl
  have h2 : made.markerOffset l = s.markerOffset l := by cases l <;> rfl
  have h3 : (made.act l).actions = (s.act l).actions := by simp [made, State.setMarks]
  have hs : ∀ v, setSpray l m.ref v made = sprayAs v := fun v => rfl
  have ha : ∀ v, ((sprayAs v).act l).actions = (s.act l).actions := by
    intro v
    simp [sprayAs, State.setMarks, made]
  have e : makeMark l how m s = if m.kind.isIn (s.spraySet l) then
      if how.isLate on then sprayAs .missed
      else if room then queuePair l how ⟨on, .sprayOn m.ref⟩ ⟨off, .sprayOff m.ref⟩
          (sprayAs .pending)
      else sprayAs .missed else made := by
    show judgeSpray l how m made = _
    unfold judgeSpray sprayTriggers
    simp only [h1, h2, h3, hs]
    rfl
  rw [e]
  refine ⟨fun h => by rw [if_neg (by simp [h])], fun h => ⟨fun hh => ?_, fun hh hr => ?_,
      fun p hh hp hr => ?_⟩⟩
  · rw [if_pos h]
    rcases hh with ⟨p, rfl, hp⟩ | hr
    · rw [if_pos]
      simpa [Making.isLate]
    · rw [if_neg hr]
      simp
  · subst hh
    rw [if_pos h, if_neg (by simp [Making.isLate]), if_pos hr]
    simp only [queuePair, ha]
  · subst hh
    rw [if_pos h, if_neg (by simp [Making.isLate]; omega), if_pos hr]
    rfl

/-! ### A rise of the line (R84, R90, R96) -/

theorem actionsRise_eq (l : LineId) (pNew : Nat) (s : State) :
    let made := ((s.act l).marks.filter fun m => !m.made && decide (m.x ≤ pNew)).foldl
      (fun u m => makeMark l .atRise m u) s
    let fires := fun a : Action =>
      decide (a.trigger ≤ pNew) && (a.act != .cut || (made.pack l).record.isNone)
    let fired := ((made.act l).actions.filter fires).foldl (fun u a => fireAct l a.act u)
      (made.setActions l ((made.act l).actions.filter fun a => !fires a))
    actionsRise l pNew s
      = (watchesReached pNew (fired.act l).watches).foldl
          (fun u w => hitWatch l pNew w u) fired := by
  intro made fires' fired
  have hf : fires (cutWaits l made) pNew = fires' := by
    funext a
    simp only [fires, fires', cutWaits]
    cases a.act <;> cases (made.pack l).record <;> rfl
  have hm : makeReached l pNew s = made := rfl
  unfold actionsRise fireReached
  simp only [hm, hf]
  rfl

theorem fireAct_sprayOn (l : LineId) (ref : Nat) (s : State) :
    fireAct l (.sprayOn ref) s
      = s.setAct l { s.act l with onCount := (s.act l).onCount + 1, marker := true } := by
  unfold fireAct State.setOnCount
  simp

theorem fireAct_sprayOff (l : LineId) (ref : Nat) (s : State) :
    fireAct l (.sprayOff ref) s
      = s.setAct l { s.act l with
          onCount := (s.act l).onCount - 1
          marker := decide (0 < (s.act l).onCount - 1)
          marks := (s.act l).marks.map fun m =>
            if m.ref = ref ∧ m.spray = .pending then { m with spray := .done } else m } := by
  have e : ∀ marks : List Mark, mapRef ref Mark.sprayEnds marks
      = marks.map fun m => if m.ref = ref ∧ m.spray
          = .pending then { m with spray := .done } else m := by
    intro marks
    unfold mapRef Mark.sprayEnds
    apply List.map_congr_left
    intro m _
    by_cases h : m.ref = ref <;> by_cases h2 : m.spray = .pending <;> simp [h, h2]
  unfold fireAct
  simp only [e]
  cases l <;> rfl

/-- The watches hit at a position: those set at or below it, by position, then by number. -/
theorem watchesReached_spec (p : Nat) (watches : Vector (Option Nat) 4) :
    (∀ (x : Nat) (i : Fin 4), (x, i) ∈ watchesReached p watches ↔ watches[i] = some x ∧ x ≤ p) ∧
    (watchesReached p watches).Pairwise fun a b => a.1 < b.1 ∨ (a.1 = b.1 ∧ a.2 < b.2) := by
  have hmem : ∀ (w : Nat × Fin 4) (l : List (Nat × Fin 4)) y,
      y ∈ insertWatch w l ↔ y = w ∨ y ∈ l := by
    intro w l y
    induction l with
    | nil => simp [insertWatch]
    | cons h t ih =>
      unfold insertWatch
      split
      · simp only [List.mem_cons, ih]
        exact or_left_comm
      · simp only [List.mem_cons]
  have hp : ∀ (w : Nat × Fin 4) (l : List (Nat × Fin 4)), (∀ y ∈ l, y.2 < w.2) →
      l.Pairwise (fun a b => a.1 < b.1 ∨ (a.1 = b.1 ∧ a.2 < b.2)) →
      (insertWatch w l).Pairwise (fun a b => a.1 < b.1 ∨ (a.1 = b.1 ∧ a.2 < b.2)) := by
    intro w l
    induction l with
    | nil => intros; simp [insertWatch]
    | cons h t ih =>
      intro h1 h2
      rw [List.pairwise_cons] at h2
      unfold insertWatch
      split
      · rw [List.pairwise_cons]
        refine ⟨fun y hy => ?_, ih (fun y hy => h1 y (by simp [hy])) h2.2⟩
        rcases (hmem _ _ _).mp hy with rfl | hy
        · have := h1 h (by simp)
          omega
        · exact h2.1 y hy
      · rw [List.pairwise_cons, List.pairwise_cons]
        refine ⟨fun y hy => ?_, h2⟩
        rcases List.mem_cons.mp hy with rfl | hy
        · left; omega
        · have := h2.1 y hy
          left; omega
  obtain ⟨step, hstep⟩ : ∃ step, step = (fun (acc : List (Nat × Fin 4)) (i : Fin 4) =>
      match watches[i] with
      | some x => if x ≤ p then insertWatch (x, i) acc else acc
      | none => acc) := ⟨_, rfl⟩
  have hw : watchesReached p watches = step (step (step (step [] 0) 1) 2) 3 := by rw [hstep]; rfl
  have hsm : ∀ acc i y, y ∈ step acc i ↔
      (y ∈ acc ∨ (y.2 = i ∧ watches[i] = some y.1 ∧ y.1 ≤ p)) := by
    intro acc i y
    rw [hstep]
    simp only
    obtain ⟨a, b⟩ := y
    cases h : watches[i] with
    | none => simp
    | some x =>
      simp only
      split
      · rw [hmem]
        simp only [Prod.mk.injEq, Option.some.injEq]
        constructor
        · rintro (⟨rfl, rfl⟩ | h)
          · exact Or.inr ⟨rfl, rfl, by assumption⟩
          · exact Or.inl h
        · rintro (h | ⟨rfl, rfl, _⟩)
          · exact Or.inr h
          · exact Or.inl ⟨rfl, rfl⟩
      · simp only [Option.some.injEq]
        constructor
        · exact Or.inl
        · rintro (h | ⟨rfl, rfl, _⟩)
          · exact h
          · omega
  have hsp : ∀ acc i, (∀ y ∈ acc, y.2 < i) →
      acc.Pairwise (fun a b => a.1 < b.1 ∨ (a.1 = b.1 ∧ a.2 < b.2)) →
      (step acc i).Pairwise (fun a b => a.1 < b.1 ∨ (a.1 = b.1 ∧ a.2 < b.2)) := by
    intro acc i h1 h2
    rw [hstep]
    simp only
    split
    · split
      · exact hp _ _ h1 h2
      · exact h2
    · exact h2
  rw [hw]
  constructor
  · intro x i
    simp only [hsm, List.not_mem_nil, false_or]
    fin_cases i <;> simp
  · apply hsp
    · intro y hy
      simp only [hsm, List.not_mem_nil, false_or] at hy
      rcases hy with (⟨h, _⟩ | ⟨h, _⟩) | ⟨h, _⟩ <;> rw [h] <;> decide
    apply hsp
    · intro y hy
      simp only [hsm, List.not_mem_nil, false_or] at hy
      rcases hy with ⟨h, _⟩ | ⟨h, _⟩ <;> rw [h] <;> decide
    apply hsp
    · intro y hy
      simp only [hsm, List.not_mem_nil, false_or] at hy
      rw [hy.1]
      decide
    apply hsp <;> simp

/-! ### What the marks of a line go by -/

/-- Two states in which a mark handed to a line's list makes the same of it: they agree in the line's marks, spray set
and marker offset. -/
structure SameMarking (l : LineId) (s t : State) : Prop where
  act : s.act l = t.act l
  spraySet : s.spraySet l = t.spraySet l
  markerOffset : s.markerOffset l = t.markerOffset l

theorem sameMarking_setAct {l : LineId} {s t : State} (h : SameMarking l s t) (x : LineActions) :
    SameMarking l (s.setAct l x) (t.setAct l x) := by
  obtain ⟨h1, h2, h3⟩ := h
  cases l <;> exact ⟨rfl, h2, h3⟩

theorem sameMarking_notices {l : LineId} {s t s' t' : State} (h : SameMarking l s t)
    (hs : NoticesOnly s s') (ht : NoticesOnly t t') : SameMarking l s' t' := by
  obtain ⟨h1, h2, h3⟩ := h
  refine ⟨?_, ?_, ?_⟩ <;> (rw [hs, ht]; first | exact h1 | (cases l <;> exact h2) |
      (cases l <;> exact h3))

theorem sameMarking_queueAction {l : LineId} {s t : State} (h : SameMarking l s t) (p : Nat)
    (a : Action) (ha : a.act ≠ .cut) :
    SameMarking l (queueAction l p a s) (queueAction l p a t) := by
  unfold queueAction State.setActions
  split
  · cases hact : a.act with
    | sprayOn ref =>
      rw [fireAct_sprayOn, fireAct_sprayOn, h.act]
      exact sameMarking_setAct h _
    | sprayOff ref =>
      rw [fireAct_sprayOff, fireAct_sprayOff, h.act]
      exact sameMarking_setAct h _
    | cut => exact absurd hact ha
  · rw [h.act]
    exact sameMarking_setAct h _

theorem sameMarking_setMarks {l : LineId} {s t : State} (h : SameMarking l s t)
    (f : List Mark → List Mark) :
    SameMarking l (s.setMarks l (f (s.act l).marks)) (t.setMarks l (f (t.act l).marks)) := by
  unfold State.setMarks
  rw [h.act]
  exact sameMarking_setAct h _

theorem sameMarking_makeMark {l : LineId} {s t : State} (h : SameMarking l s t) (how : Making)
    (m : Mark) : SameMarking l (makeMark l how m s) (makeMark l how m t) := by
  unfold makeMark
  have h' := sameMarking_setMarks h (mapRef m.ref fun k => { k with made := true })
  revert h'
  generalize s.setMarks l _ = s1
  generalize t.setMarks l _ = t1
  intro h'
  have hp : ∀ v, SameMarking l (setSpray l m.ref v s1) (setSpray l m.ref v t1) :=
    fun v => sameMarking_setMarks h' (mapRef m.ref fun m => { m with spray := v })
  unfold judgeSpray
  rw [h'.spraySet, h'.markerOffset, h'.act]
  split
  · simp only
    split
    · exact hp _
    · split
      · unfold queuePair
        split
        · unfold State.setActions
          rw [(hp _).act]
          exact sameMarking_setAct (hp _) _
        · exact sameMarking_queueAction (sameMarking_queueAction (hp _) _ _ (by simp)) _ _ (by simp)
      · exact hp _
  · exact h'

/-- A mark handed over makes the same of the marks of two states that agree in them. -/
theorem sameMarking_handMark {l : LineId} {s t : State} (h : SameMarking l s t) (p : Nat)
    (n : NewMark) : SameMarking l (handMark l p n s).1 (handMark l p n t).1 := by
  have key : ∀ s1 t1 : State, SameMarking l s1 t1 → ∀ ref,
      SameMarking l (makeAtOnce l p ref s1) (makeAtOnce l p ref t1) := by
    intro s1 t1 h1 ref
    unfold makeAtOnce
    rw [h1.act]
    split
    · split
      · exact sameMarking_makeMark h1 _ _
      · exact h1
    · exact h1
  unfold handMark
  simp only
  rw [h.act, h.spraySet]
  apply key
  generalize addMark _ _ _ _ = r
  have h1 := sameMarking_setAct h { t.act l with marks := r.1, nextRef := (t.act l).nextRef + 1 }
  split
  · exact sameMarking_notices h1 (noticesOnly_judgeHighWater ..) (noticesOnly_judgeHighWater ..)
  · split
    · exact sameMarking_notices h1 (noticesOnly_judgeLowWater ..) (noticesOnly_judgeLowWater ..)
    · exact h1
  · exact h1

theorem sameMarking_insertMarks {l : LineId} {s t : State} (h : SameMarking l s t) (p : Nat)
    (ns : List NewMark) : SameMarking l (insertMarks l p ns s) (insertMarks l p ns t) := by
  unfold insertMarks
  induction ns generalizing s t with
  | nil => exact h
  | cons n rest ih =>
    rw [List.foldl_cons, List.foldl_cons]
    exact ih (sameMarking_handMark h p n)

end Sys2Proof.Machine
end

