-- ==== Sys2Proof/Laws/Creel.lean ====
section
/-! SUPPORT. What the Package Table does: placing, feeding, consumption, splicing and unplacing, each operation in one
lemma. -/

namespace Sys2Proof.Machine

/-! ### Records and places -/

theorem package_of_table {s t : State} (h : t.table = s.table) (n : Nat) :
    t.package n = s.package n := by
  unfold State.package
  rw [h]

theorem place_of_table {s t : State} (h : t.table = s.table) (i : Fin 4) : t.place i
    = s.place i := by
  unfold State.place
  rw [h]

theorem number_of_package {s : State} {n : Nat} {k : Package} (h : s.package n = some k) :
    k.number = n := by
  have := List.find?_some h
  simpa using this

theorem package_of_current {s : State} {i : Fin 4} {k : Package} (h : s.currentPackage i = some k) :
    s.package k.number = some k := by
  unfold State.currentPackage at h
  cases hc : (s.place i).current with
  | none => simp [hc] at h
  | some n =>
    simp [hc] at h
    rw [number_of_package h]
    exact h

theorem creelLacks_iff (s : State) :
    s.creelLacks = true ↔
      ∃ c i, s.ropeCopy = some c ∧ i.val < c.recipe.strands ∧ (s.place i).current = none := by
  unfold State.creelLacks State.used State.strands places
  cases h : s.ropeCopy with
  | none => simp
  | some c =>
    simp only [List.any_eq_true, Option.map_some, Option.getD_some, Bool.and_eq_true,
      decide_eq_true_eq,
      Option.isNone_iff_eq_none]
    constructor
    · rintro ⟨i, _, h1, h2⟩
      exact ⟨c, i, rfl, h1, h2⟩
    · rintro ⟨d, i, hd, h1, h2⟩
      cases hd
      exact ⟨i, by fin_cases i <;> simp, h1, h2⟩

/-! ### Unplacing (R57, R58) -/

theorem unplacePlaced_spec (n : Nat) (i : Fin 4) (reserve : Bool) (s : State) :
    let t := unplacePlaced i reserve n s
    t.place i = (if reserve then { s.place i with reserve := none }
        else { s.place i with current := (s.place i).reserve, reserve := none }) ∧
    (∀ q, q ≠ i → t.place q = s.place q) ∧
    (∀ r, r ≠ n → t.package r
      = if reserve = false ∧ (s.place i).reserve = some r then
          (s.package r).map fun x => { x with seat := some (i.val, false) }
        else s.package r) ∧
    t.hasCause 8 .creel = t.creelLacks := by
  intro t
  have key : ∃ u : State, t = checkCreel u ∧ 
     u.place i = (if reserve then { s.place i with reserve := none }
        else { s.place i with current := (s.place i).reserve, reserve := none }) ∧
    (∀ q, q ≠ i → u.place q = s.place q) ∧
    (∀ r, r ≠ n → u.package r
      = if reserve = false ∧ (s.place i).reserve = some r then
          (s.package r).map fun x => { x with seat := some (i.val, false) }
        else s.package r) := by
    refine ⟨_, rfl, ?_⟩
    cases reserve
    · simp only [Bool.false_eq_true, if_false]
      unfold moveReserve
      have e : ((s.updatePackage n Package.unplaced).place i) = s.place i := rfl
      rw [e]
      cases hr : (s.place i).reserve with
      | none =>
        refine ⟨by simp [setPlace_place_at, hr], fun q hq => by simp [setPlace_place_at, hq]; rfl,
          fun r h => ?_⟩
        simp
        change (s.updatePackage n Package.unplaced).package r = _
        rw [updatePackage_package]; rotate_left; exact fun _ => rfl; simp [h]
      | some m =>
        refine ⟨?_, fun q hq => ?_, fun r h => ?_⟩
        · simp [setPlace_place_at, hr, State.updatePackage, State.setPackages, State.place,
            State.setPlace]
        · have := setPlace_place_at
            (s.updatePackage n Package.unplaced) i q
            { s.place i with current := some m, reserve := none }
          simp [hq] at this
          exact this
        · rw [updatePackage_package]; rotate_left; exact fun _ => rfl
          change ((s.updatePackage n Package.unplaced).package r).map _ = _
          rw [updatePackage_package]; rotate_left; exact fun _ => rfl
          by_cases hm : r = m
          · subst hm; simp [h]
          · have : m ≠ r := fun e => hm e.symm
            simp [h, hm, this]
    · simp only [if_true]
      have e : ((s.updatePackage n Package.unplaced).place i) = s.place i := rfl
      refine ⟨by simp [setPlace_place_at, e], fun q hq => by simp [setPlace_place_at, hq]; rfl,
        fun r h => ?_⟩
      change (s.updatePackage n Package.unplaced).package r = _
      rw [updatePackage_package]; rotate_left; exact fun _ => rfl; simp [h]
  obtain ⟨u, ht, h1, h2, h3⟩ := key
  have hn := noticesOnly_checkCreel u
  rw [ht]
  have hp : ∀ q, (checkCreel u).place q = u.place q := fun q => by rw [hn]; rfl
  have hq : ∀ q, (checkCreel u).package q = u.package q := fun q => by rw [hn]; rfl
  refine ⟨by rw [hp, h1], fun q hh => by rw [hp, h2 q hh], fun r hh => by rw [hq, h3 r hh], ?_⟩
  have : (checkCreel u).creelLacks = u.creelLacks := by rw [hn]; rfl
  rw [this]
  unfold checkCreel
  split
  · rw [hasCause_setCause]; simp [*]
  · rw [hasCause_clearCause]; simp [*]

theorem hasCause_judgeLowWater (m : Fin 10) (c : StopCause) (s : State) (hc : c ≠ .marksFull) :
   (judgeLowWater .rope s).hasCause m c = s.hasCause m c := by
  unfold judgeLowWater; split
  · rw [hasCause_clearCause]; simp [hc]
  · rfl

theorem removePackageMarks_eq (n : Nat) (s : State) :
    removePackageMarks n s
      = { s with
          stops := (removePackageMarks n s).stops
          link := (removePackageMarks n s).link
          rope := (s.setMarks .rope
            ((s.act .rope).marks.filter fun m => m.made || m.source != some n)).rope } := by
  unfold removePackageMarks
  simp only
  split
  · have := noticesOnly_judgeLowWater .rope (s.setMarks .rope
      ((s.act .rope).marks.filter fun m => m.made || m.source != some n))
    unfold NoticesOnly at this
    rw [this]; rfl
  · rfl

theorem hasCause_removePackageMarks (n : Nat) (s : State) (m : Fin 10) (c : StopCause)
    (hc : c ≠ .marksFull) :
   (removePackageMarks n s).hasCause m c = s.hasCause m c := by
  unfold removePackageMarks
  simp only
  split
  · rw [hasCause_judgeLowWater _ _ _ hc]; rfl
  · rfl

theorem unplaceFeeding_spec (n : Nat) (i : Fin 4) (k : Package) (s : State) (hk : s.package n
    = some k)
    (hres : (s.place i).reserve ≠ some n) :
    let left := k.wound - k.consumed
    let t := unplaceFeeding i k s
    (0 < left → t.package n
      = some { k with
          state := .doffed, wound := left, consumed := 0, warned := false, seat := none
          feedStart := none
          spans := (k.spans.filter fun x => decide (x.start < left)).map fun x =>
            { x with stop := min x.stop left }
          splices := k.splices.filter fun w => decide (w < left) }) ∧
    (left = 0 → t.package n
        = some { k with
            state := .spent, seat := none, feedStart := none, leftover := some 0
            spentOrder := some s.table.nextSpent } ∧
      t.table.nextSpent = s.table.nextSpent + 1) ∧
    (∀ r, r ≠ n → t.package r
      = if (s.place i).reserve = some r then
          (s.package r).map fun x => { x with seat := some (i.val, false) }
        else s.package r) ∧
    t.place i = { current := (s.place i).reserve, reserve := none, runout := false } ∧
    (∀ q, q ≠ i → t.place q = s.place q) ∧
    (t.act .rope).marks = (s.act .rope).marks.filter (fun m => m.made || m.source != some n) ∧
    t.hasCause 8 .runout
      = (s.hasCause 8 .runout && places.any fun q => q != i && (s.place q).runout) ∧
    t.hasCause 8 .creel = t.creelLacks ∧
    t.len .rope = s.len .rope ∧ t.net = s.net ∧ t.jobs = s.jobs ∧ t.orders = s.orders := by
  have hn := number_of_package hk
  subst hn
  intro left t
  have hs : s.updatePackage k.number = s.updatePackage k.number := rfl
  obtain ⟨s1, hs1, h1a, h1b, h1c, h1d, h1e⟩ : ∃ s1 : State, s1 =
    (if 0 < left then s.updatePackage k.number (Package.returned left) else spend k.number 0 s) ∧
     s1 = { s with table := s1.table } ∧ s1.table.creel = s.table.creel ∧
     (0 < left → s1.package k.number = some (Package.returned left k)) ∧
     (left = 0 → s1.package k.number = some { k with
            state := .spent, seat := none, feedStart := none, leftover := some 0
            spentOrder := some s.table.nextSpent } ∧ s1.table.nextSpent = s.table.nextSpent + 1) ∧
     (∀ r, r ≠ k.number → s1.package r = s.package r) := by
    refine ⟨_, rfl, ?_⟩
    split
    · next h =>
      refine ⟨rfl, rfl, fun _ => ?_, fun h0 => by omega, fun r hr => ?_⟩
      · rw [updatePackage_package]; rotate_left; exact fun _ => rfl; simp [hk]
      · rw [updatePackage_package]; rotate_left; exact fun _ => rfl; simp [hr]
    · next h =>
      have e : ∀ r, (spend k.number 0 s).package r = (s.updatePackage k.number fun r =>
    { r with
      state := .spent
      seat := none
      feedStart := none
      leftover := some 0
      spentOrder := some s.table.nextSpent }).package r := fun r => rfl
      refine ⟨rfl, rfl, fun h0 => by omega, fun h0 => ⟨?_, rfl⟩, fun r hr => ?_⟩
      · rw [e]; rw [updatePackage_package]; rotate_left; exact fun _ => rfl; simp [hk]
      · rw [e]; rw [updatePackage_package]; rotate_left; exact fun _ => rfl; simp [hr]
  let s2 := removePackageMarks k.number s1
  have hs2 : s2 = _ := removePackageMarks_eq k.number s1
  let s3 := moveReserve i s2
  have h3 : s3 = { s2 with table := s3.table } := by
    show moveReserve i s2 = { s2 with table := (moveReserve i s2).table }
    unfold moveReserve; split <;> rfl
  have p2 : ∀ q, s2.place q = s.place q := fun q => by
    have : s2.table = s1.table := by rw [hs2]
    unfold State.place; rw [this, h1b]
  have k2 : ∀ q, s2.package q = s1.package q := fun q => by
    have : s2.table = s1.table := by rw [hs2]
    unfold State.package; rw [this]
  have p3 : ∀ q, s3.place q = if q
    = i then { s.place i with current := (s.place i).reserve, reserve := none } else s.place q := by
    intro q
    show (moveReserve i s2).place q = _
    unfold moveReserve; rw [p2]
    cases hr : (s.place i).reserve with
    | none => simp only [setPlace_place_at, p2]; simp [hr]
    | some m => 
      show (s2.setPlace i { s.place i with current := some m, reserve := none }).place q = _
      simp only [setPlace_place_at, p2]
  have k3 : ∀ r, s3.package r = if (s.place i).reserve = some r then
          (s2.package r).map fun x => { x with seat := some (i.val, false) }
        else s2.package r := by
    intro r
    show (moveReserve i s2).package r = _
    unfold moveReserve; rw [p2]
    cases hr : (s.place i).reserve with
    | none => simp; rfl
    | some m => 
      show (State.updatePackage m _
        (s2.setPlace i { s.place i with current := some m, reserve := none })).package r = _
      rw [updatePackage_package]; rotate_left; exact fun _ => rfl
      show (s2.package r).map _ = _
      by_cases h : r = m
      · subst h; simp
      · have : m ≠ r := fun e => h e.symm
        simp [h, this]
  let s4 := s3.setPlace i { s3.place i with runout := false }
  have p4 : ∀ q, s4.place q = if q
    = i then { current := (s.place i).reserve, reserve := none, runout := false } else s.place q :=
    by
    intro q
    show (s3.setPlace i _).place q = _
    rw [setPlace_place_at, p3, p3]; by_cases h : q = i <;> simp [h]
  have ht : t = checkCreel (judgeRunout s4) := by
    show unplaceFeeding i k s = _
    unfold unplaceFeeding
    simp only
    rw [← hs1]
  have hno : NoticesOnly s4 t := by
    rw [ht]
    exact noticesOnly_trans (noticesOnly_judgeRunout _) (noticesOnly_checkCreel _)
  have k4 : ∀ r, t.package r = s3.package r := by intro r; rw [hno]; rfl
  have p5 : ∀ q, t.place q = s4.place q := by intro r; rw [hno]; rfl
  refine ⟨fun h => ?_, fun h => ?_, fun r hr => ?_, ?_, fun q hq => ?_, ?_, ?_, ?_, ?_, ?_, ?_, ?_⟩
  · rw [k4, k3, if_neg hres, k2, h1c h]; rfl
  · rw [k4, k3, if_neg hres, k2]
    refine ⟨(h1d h).1, ?_⟩
    rw [hno]
    show s3.table.nextSpent = _
    have : s3.table.nextSpent = s2.table.nextSpent := by
      show (moveReserve i s2).table.nextSpent = _
      unfold moveReserve; split <;> rfl
    rw [this, hs2]; exact (h1d h).2
  · rw [k4, k3, k2, h1e r hr]
  · rw [p5, p4]; simp
  · rw [p5, p4]; simp [hq]
  · rw [hno]
    show (s3.act .rope).marks = _
    rw [h3]
    show (s2.act .rope).marks = _
    rw [hs2, h1a]
    rfl
  · rw [ht]
    have hc : ∀ u : State, (checkCreel u).hasCause 8 .runout = u.hasCause 8 .runout := by
      intro u; unfold checkCreel; split
      · rw [hasCause_setCause]; simp
      · rw [hasCause_clearCause]; simp
    rw [hc]
    have h4 : s4.hasCause 8 .runout = s.hasCause 8 .runout := by
      show (s3.hasCause 8 .runout) = _
      rw [hasCause_congr (s := s2) (by rw [h3])]
      show (removePackageMarks k.number s1).hasCause 8 .runout = _
      rw [hasCause_removePackageMarks _ _ _ _ (by decide)]
      exact hasCause_congr (by rw [h1a]) _ _
    have ha : (places.any fun i => (s4.place i).runout) = places.any fun q => q != i &&
      (s.place q).runout := by
      congr 1; funext q; rw [p4]; by_cases h : q = i <;> simp [h]
    unfold judgeRunout
    rw [ha]
    split
    · simp [*]
    · rw [hasCause_clearCause]; simp [*]
  · rw [ht]
    have hn := noticesOnly_checkCreel (judgeRunout s4)
    have : (checkCreel (judgeRunout s4)).creelLacks = (judgeRunout s4).creelLacks := by rw [hn]; rfl
    rw [this]
    unfold checkCreel
    split
    · rw [hasCause_setCause]; simp [*]
    · rw [hasCause_clearCause]; simp [*]
  · rw [hno]
    show s3.len .rope = _
    rw [h3]
    show s2.len .rope = _
    rw [hs2, h1a]; rfl
  · rw [hno]; show s3.net = _; rw [h3]; show s2.net = _; rw [hs2, h1a]
  · rw [hno]; show s3.jobs = _; rw [h3]; show s2.jobs = _; rw [hs2, h1a]
  · rw [hno]; show s3.orders = _; rw [h3]; show s2.orders = _; rw [hs2, h1a]

/-! ### Feeding (R49, R50, R131) -/

theorem insertMarks_table (p : Nat) (ns : List NewMark) (s : State) :
    (insertMarks .rope p ns s).table = s.table :=
  beside_insertMarks besideTable s .rope p ns

theorem recordPackage_only (n : Nat) (s : State) :
    let coil := s.pack .rope
    recordPackage n s = s.setPack .rope
      (if coil.state = .noCoil ∨ n ∈ coil.packages then coil
        else if coil.packages.length < 8 then { coil with packages := coil.packages ++ [n] }
        else { coil with more := true }) := by
  intro coil
  unfold recordPackage
  simp only
  split
  · next h =>
    rfl
  · next h =>
    split
    · next h2 => rw [if_pos (show coil.packages.length < 8 from h2)]
    · next h2 => rw [if_neg (show ¬coil.packages.length < 8 from h2)]

theorem recordPackage_table (n : Nat) (s : State) : (recordPackage n s).table = s.table := by
  rw [recordPackage_only]
  rfl

theorem beginFeeding_table (i : Fin 4) (start seen : Nat) (k : Package) (s : State) :
    (beginFeeding i start seen k s).table
      = (s.updatePackage k.number fun r =>
          { r with
            state := .feeding, seat := some (i.val, false), feedStart := some start
            consumed := 0 }).table := by
  unfold beginFeeding
  rw [recordPackage_table, insertMarks_table]

theorem feedAtRise_spec : (∀ (pOld seen : Nat) (i : Fin 4) (s : State),
    ((∀ k, s.currentPackage i = some k → k.state = .placed → s.used i = false) →
      feedAtRise pOld seen s i = s) ∧
    (∀ k, s.currentPackage i = some k → k.state = .placed → s.used i = true →
      let t := feedAtRise pOld seen s i
      let coil := s.pack .rope
      t.package k.number
        = some { k with
            state := .feeding, seat := some (i.val, false), feedStart := some pOld,
              consumed := 0 } ∧
      (∀ n, n ≠ k.number → t.package n = s.package n) ∧ (∀ q, t.place q = s.place q) ∧
      t.len .rope = s.len .rope ∧
      t.act .rope = ((projection pOld s.plantD.feedOffset s.layFactor k).foldl
        (fun u m => (handMark .rope seen m u).1)
        (s.updatePackage k.number fun r =>
          { r with
            state := .feeding, seat := some (i.val, false), feedStart := some pOld
            consumed := 0 })).act .rope ∧
      t.pack .rope
        = (if coil.state = .noCoil ∨ k.number ∈ coil.packages then coil
          else if coil.packages.length < 8 then
            { coil with packages := coil.packages ++ [k.number] }
          else { coil with more := true }))) := by
  intro pOld seen i s
  refine ⟨fun h => ?_, fun k hk h1 h2 => ?_⟩
  · unfold feedAtRise; split
    · next k hk =>
      split
      · next hc => have := h k hk hc.1; simp_all
      · rfl
    · rfl
  · have e : feedAtRise pOld seen s i = beginFeeding i pOld seen k s := by
      unfold feedAtRise; rw [hk]; simp [h1, h2]
    simp only [e]
    have hpk := package_of_current hk
    have ht := beginFeeding_table i pOld seen k s
    refine ⟨?_, fun n hn => ?_, fun q => ?_, ?_, ?_, ?_⟩
    · rw [package_of_table ht]
      rw [updatePackage_package]
      rotate_left
      exact fun _ => rfl
      simp [hpk]
    · rw [package_of_table ht]
      rw [updatePackage_package]
      rotate_left
      exact fun _ => rfl
      simp [hn]
    · rw [place_of_table ht]; rfl
    · have := ground_beginFeeding s i pOld seen k
      simp only [State.ground, Prod.mk.injEq] at this
      exact this.2.2.2.2.2.1
    · unfold beginFeeding
      rw [recordPackage_only]
      rfl
    · unfold beginFeeding
      rw [recordPackage_only]
      have h : ∀ u : State, (insertMarks .rope seen
        (projection pOld s.feedOffset s.layFactor k) u).pack .rope
          = u.pack .rope := fun u => beside_insertMarks (besidePack .rope) u .rope seen _
      simp only [h]
      rfl

theorem mem_projection (start feed lay : Nat) (k : Package) (m : NewMark) :
  m ∈ projection start feed lay k ↔
    (∃ sp ∈ k.spans,
      let x := fun w => min (start + feed + (k.wound - w) * 10000 / lay) 4294967295
      m = { x := x sp.stop, span := min (x sp.start - x sp.stop) 1000000, kind := .strandFault
            source := some k.number, count := 1 }) ∨
    (∃ w ∈ k.splices, m =
      { x := min (start + feed + (k.wound - w) * 10000 / lay) 4294967295, span := 0
        kind := .splice, source := some k.number, count := 1 }) := by
  unfold projection
  simp only
  have key : ∀ (l acc : List (Nat × NewMark)) (y), y ∈ l.foldl
    (fun acc m => placeProjected m acc) acc ↔ y ∈ l ∨ y ∈ acc := by
    intro l
    have hp : ∀ (x : Nat × NewMark) (acc : List (Nat × NewMark)) y, y ∈ placeProjected x acc ↔ y
      = x ∨ y ∈ acc := by
      intro x acc y
      induction acc with
      | nil => simp [placeProjected]
      | cons h t ih => unfold placeProjected; split
                       · simp only [List.mem_cons, ih]; exact or_left_comm
                       · simp
    induction l with
    | nil => simp
    | cons h t ih => intro acc y; simp only [List.foldl_cons, ih, hp, List.mem_cons]; tauto
  simp only [List.mem_map, key, List.mem_append, List.not_mem_nil, or_false]
  constructor
  · rintro ⟨y, (⟨sp, hsp, rfl⟩ | ⟨w, hw, rfl⟩), rfl⟩
    · exact Or.inl ⟨sp, hsp, rfl⟩
    · exact Or.inr ⟨w, hw, rfl⟩
  · rintro (⟨sp, hsp, rfl⟩ | ⟨w, hw, rfl⟩)
    · exact ⟨_, Or.inl ⟨sp, hsp, rfl⟩, rfl⟩
    · exact ⟨_, Or.inr ⟨w, hw, rfl⟩, rfl⟩

theorem projection_length (start feed lay : Nat) (k : Package) :
    (projection start feed lay k).length = k.spans.length + k.splices.length := by
  unfold projection
  simp only
  have hp : ∀ (x : Nat × NewMark) (acc : List (Nat × NewMark)),
      (placeProjected x acc).length = acc.length + 1 := by
    intro x acc
    induction acc with
    | nil => rfl
    | cons h t ih =>
      unfold placeProjected
      split <;> simp_all
  have key : ∀ (l acc : List (Nat × NewMark)),
      (l.foldl (fun acc m => placeProjected m acc) acc).length = acc.length + l.length := by
    intro l
    induction l with
    | nil => simp
    | cons h t ih =>
      intro acc
      rw [List.foldl_cons, ih, hp, List.length_cons]
      omega
  rw [List.length_map, key]
  simp

theorem projection_sorted (start feed lay : Nat) (k : Package) :
   (projection start feed lay k).Pairwise fun a b => a.x ≤ b.x := by
  unfold projection
  simp only
  rw [List.pairwise_map]
  have hm : ∀ a b, b ≤ a →
    projected start feed lay k.wound a ≤ projected start feed lay k.wound b := by
    intro a b h; unfold projected held32
    have : (k.wound - a) * 10000 / lay ≤ (k.wound - b) * 10000 / lay := Nat.div_le_div_right
      (Nat.mul_le_mul_right _ (by omega))
    omega
  have key : ∀ (l acc : List (Nat × NewMark)), acc.Pairwise (fun a b => b.1 ≤ a.1) → (l.foldl
    (fun acc m => placeProjected m acc) acc).Pairwise (fun a b => b.1 ≤ a.1) := by
    have hmem : ∀ (x : Nat × NewMark) (acc : List (Nat × NewMark)) y, y ∈ placeProjected x acc → y
      = x ∨ y ∈ acc := by
      intro x acc y
      induction acc with
      | nil => simp [placeProjected]
      | cons h t ih => unfold placeProjected; split
                       · simp only [List.mem_cons]
                         rintro (h | h)
                         exact Or.inr (Or.inl h)
                         rcases ih h with h | h
                         exact Or.inl h
                         exact Or.inr (Or.inr h)
                       · simp
    intro l
    induction l with
    | nil => simp
    | cons h t ih =>
      intro acc ha
      simp only [List.foldl_cons]
      apply ih
      clear ih
      induction acc with
      | nil => simp [placeProjected]
      | cons g r ihr =>
        unfold placeProjected
        rw [List.pairwise_cons] at ha
        split
        · next hle =>
          rw [List.pairwise_cons]
          refine ⟨fun y hy => ?_, ihr ha.2⟩
          rcases hmem _ _ _ hy with rfl | hy
          · exact hle
          · exact ha.1 y hy
        · next hle =>
          rw [List.pairwise_cons, List.pairwise_cons]
          refine ⟨fun y hy => ?_, ha⟩
          rcases List.mem_cons.mp hy with rfl | hy
          · omega
          · have := ha.1 y hy; omega
  have hmk : ∀ (l acc : List (Nat × NewMark)),
      (∀ y ∈ l, y.2.x = projected start feed lay k.wound y.1) →
      (∀ y ∈ acc, y.2.x = projected start feed lay k.wound y.1) →
      ∀ y ∈ l.foldl (fun acc m => placeProjected m acc) acc,
        y.2.x = projected start feed lay k.wound y.1 := by
    have hmem : ∀ (x : Nat × NewMark) (acc : List (Nat × NewMark)) y,
        y ∈ placeProjected x acc → y = x ∨ y ∈ acc := by
      intro x acc y
      induction acc with
      | nil => simp [placeProjected]
      | cons h t ih =>
        unfold placeProjected
        split
        · simp only [List.mem_cons]
          rintro (h | h)
          · exact Or.inr (Or.inl h)
          · rcases ih h with h | h
            · exact Or.inl h
            · exact Or.inr (Or.inr h)
        · simp
    intro l
    induction l with
    | nil => intro acc _ h; exact h
    | cons h t ih =>
      intro acc h1 h2
      rw [List.foldl_cons]
      refine ih _ (fun y hy => h1 y (List.mem_cons_of_mem _ hy)) (fun y hy => ?_)
      rcases hmem _ _ _ hy with rfl | hy
      · exact h1 _ List.mem_cons_self
      · exact h2 y hy
  have hx := hmk ((k.spans.map fun sp => (sp.stop,
      { x := projected start feed lay k.wound sp.stop
        span := heldSpan (projected start feed lay k.wound sp.start - projected start feed lay
          k.wound sp.stop)
        kind := .strandFault, source := some k.number, count := 1 : NewMark })) ++
      k.splices.map fun w => (w,
        { x := projected start feed lay k.wound w, span := 0, kind := .splice
          source := some k.number, count := 1 : NewMark })) []
    (by
      intro y hy
      rcases List.mem_append.mp hy with hy | hy <;> obtain ⟨_, _,
        rfl⟩ := List.mem_map.mp hy <;> rfl)
    (by simp)
  have hs := key ((k.spans.map fun sp => (sp.stop,
      { x := projected start feed lay k.wound sp.stop
        span := heldSpan (projected start feed lay k.wound sp.start - projected start feed lay
          k.wound sp.stop)
        kind := .strandFault, source := some k.number, count := 1 : NewMark })) ++
      k.splices.map fun w => (w,
        { x := projected start feed lay k.wound w, span := 0, kind := .splice
          source := some k.number, count := 1 : NewMark })) [] (by simp)
  refine List.Pairwise.imp_of_mem ?_ hs
  intro a b ha hb hab
  rw [hx a ha, hx b hb]
  exact hm _ _ hab

theorem consume_spec (p : Nat) (i : Fin 4) (s : State) :
    ((∀ k, s.currentPackage i = some k → k.state = .feeding → (s.place i).runout = true) →
      consume p s i = s) ∧
    (∀ k, s.currentPackage i = some k → k.state = .feeding → (s.place i).runout = false →
      let used := min (((p : Int) - (k.feedStart.getD 0 : Nat)) * s.layFactor / 10000).toNat k.wound
      let left := k.wound - used
      let t := consume p s i
      let near := be 1 i.val ++ be 2 k.number ++ be 4 left ++ be 4 p
      let warned :=
        if k.warned = false ∧ left ≤ s.warningLength then
          enterReport .runoutNear (some 8) near
            (s.updatePackage k.number fun r => { r with consumed := used, warned := true })
        else s.updatePackage k.number fun r => { r with consumed := used }
      t.package k.number
        = some { k with consumed := used, warned := k.warned || decide (left ≤ s.warningLength) } ∧
      (∀ n, n ≠ k.number → t.package n = s.package n) ∧
      (∀ q, t.place q = if q = i ∧ used
        = k.wound then { s.place i with runout := true } else s.place q) ∧
      t.hasCause 8 .runout = (s.hasCause 8 .runout || decide (used = k.wound)) ∧
      (used ≠ k.wound → t = warned) ∧
      (used = k.wound →
        t = enterReport .runout (some 8) (be 1 i.val ++ be 2 k.number ++ be 4 p)
          (setCause 8 .runout (warned.setPlace i { s.place i with runout := true })))) := by
  refine ⟨fun h => ?_, fun k hk h1 h2 => ?_⟩
  · unfold consume; split
    · next k hk =>
      split
      · next hc => have := h k hk hc.1; simp_all
      · rfl
    · rfl
  · intro used left t near warned
    have hpk := package_of_current hk
    let s1 := s.updatePackage k.number fun r => { r with consumed := used }
    have hs1 : s1.package k.number = some { k with consumed := used } := by
      show (s.updatePackage _ _).package _ = _
      rw [updatePackage_package]; rotate_left; exact fun _ => rfl; simp [hpk]
    have ht : t = compareRunout i p k.number (compareWarning i p k.number s1) := by
      show consume p s i = _
      unfold consume; rw [hk]; simp only; rw [if_pos ⟨h1, h2⟩]; rfl
    have hw : compareWarning i p k.number s1 = if k.warned = false ∧ left ≤ s.warningLength then
       enterReport .runoutNear (some 8)
          (be 1 i.val ++ be 2 k.number ++ be 4 left ++ be 4 p)
          (s1.updatePackage k.number fun r => { r with warned := true }) else s1 := by
      unfold compareWarning; rw [hs1]; rfl
    have hdouble : s1.updatePackage k.number (fun r => { r with warned := true })
        = s.updatePackage k.number fun r => { r with consumed := used, warned := true } := by
      simp only [s1, State.updatePackage, State.setPackages, List.map_map]
      congr 2
      apply List.map_congr_left
      intro x _
      simp only [Function.comp]
      by_cases h : (x.number == k.number) = true <;> simp [h]
    have hwn : compareWarning i p k.number s1 = warned := by
      rw [hw, hdouble]
    have hwk : ∀ n, warned.package n
        = if n = k.number then some
          { k with consumed := used, warned := k.warned || decide (left ≤ s.warningLength) }
          else s.package n := by
      intro n
      simp only [warned]
      split
      · next h =>
        rw [package_of_table (enterReport_table _ _ _ _), updatePackage_package]
        rotate_left; exact fun _ => rfl
        by_cases hn : n = k.number
        · subst hn; simp [hpk, h.2]
        · simp [hn]
      · next h =>
        rw [updatePackage_package]
        rotate_left; exact fun _ => rfl
        by_cases hn : n = k.number
        · subst hn
          have e : k.warned = (k.warned || decide (left ≤ s.warningLength)) := by
            cases hk' : k.warned <;> simp_all
          simp [hpk, ← e]
        · simp [hn]
    have hwp : ∀ q, warned.place q = s.place q := by
      intro q
      simp only [warned]
      split
      · rw [place_of_table (enterReport_table _ _ _ _)]; rfl
      · rfl
    have hws : warned.stops = s.stops := by
      simp only [warned]
      split
      · rw [enterReport_stops]; rfl
      · rfl
    have ht2 : t = if used = k.wound then
        enterReport .runout (some 8) (be 1 i.val ++ be 2 k.number ++ be 4 p)
          (setCause 8 .runout (warned.setPlace i { s.place i with runout := true }))
        else warned := by
      rw [ht, hwn]
      unfold compareRunout
      rw [hwk, if_pos rfl, hwp]
    have hno : used = k.wound → NoticesOnly
      (warned.setPlace i { s.place i with runout := true }) t := by
      intro h
      rw [ht2, if_pos h]
      exact noticesOnly_trans (noticesOnly_setCause ..) (noticesOnly_enterReport ..)
    have htk : ∀ n, t.package n = warned.package n := by
      intro n
      by_cases h : used = k.wound
      · rw [hno h]; rfl
      · rw [ht2, if_neg h]
    refine ⟨?_, fun n hn => ?_, fun q => ?_, ?_, fun h => ?_, fun h => ?_⟩
    · rw [htk, hwk, if_pos rfl]
    · rw [htk, hwk, if_neg hn]
    · by_cases h : used = k.wound
      · rw [hno h]
        show (warned.setPlace i _).place q = _
        rw [setPlace_place_at, hwp]
        simp [h]
      · rw [ht2, if_neg h, hwp, if_neg (fun e => h e.2)]
    · by_cases h : used = k.wound
      · rw [ht2, if_pos h, hasCause_congr (enterReport_stops _ _ _ _), hasCause_setCause,
          hasCause_congr (s := s) (by rw [← hws]; rfl)]
        simp [h]
      · rw [ht2, if_neg h, hasCause_congr hws]
        simp [h]
    · rw [ht2, if_neg h]
    · rw [ht2, if_pos h]

/-! ### Splicing in the reserve (R55) -/

theorem compareWarning_spec (i : Fin 4) (p n : Nat) (k : Package) (s : State)
    (hk : s.package n = some k) :
    let t := compareWarning i p n s
    t = { s with table := t.table, link := t.link } ∧
    (∀ r, t.package r = (s.package r).map fun x =>
      if r = n then
        { x with warned := k.warned || decide (k.wound - k.consumed ≤ s.warningLength) }
      else x) ∧
    (∀ q, t.place q = s.place q) ∧ t.table.nextSpent = s.table.nextSpent := by
  intro t
  have e : t = if k.warned = false ∧ k.wound - k.consumed ≤ s.warningLength then
      enterReport .runoutNear (some 8)
        (be 1 i.val ++ be 2 n ++ be 4 (k.wound - k.consumed) ++ be 4 p)
        (s.updatePackage n fun r => { r with warned := true })
    else s := by
    show compareWarning i p n s = _
    unfold compareWarning
    rw [hk]
  rw [e]
  split
  · next h =>
    refine ⟨?_, fun r => ?_, fun q => ?_, ?_⟩
    · rw [enterReport_only]
      rfl
    · rw [package_of_table (enterReport_table _ _ _ _), updatePackage_package]
      rotate_left; exact fun _ => rfl
      cases s.package r with
      | none => rfl
      | some k => simp [h]
    · rw [place_of_table (enterReport_table _ _ _ _)]
      rfl
    · rw [enterReport_table]
      rfl
  · next h =>
    refine ⟨rfl, fun r => ?_, fun _ => rfl, rfl⟩
    by_cases hr : r = n
    · subst hr
      have e : k.warned = (k.warned || decide (k.wound - k.consumed ≤ s.warningLength)) := by
        cases hw : k.warned <;> simp_all
      rw [hk, Option.map_some, if_pos rfl, ← e]
    · simp [hr]

/-- What beginning to feed makes of the marks: the projection handed to the list. -/
theorem beginFeeding_marks (i : Fin 4) (start seen : Nat) (k : Package) (s u : State)
    (h : SameMarking .rope s u) :
    SameMarking .rope (beginFeeding i start seen k s)
      (insertMarks .rope seen (projection start s.feedOffset s.layFactor k) u) := by
  unfold beginFeeding
  rw [recordPackage_only]
  have h1 : SameMarking .rope (s.updatePackage k.number fun r =>
      { r with
        state := .feeding, seat := some (i.val, false), feedStart := some start,
          consumed := 0 }) u :=
    ⟨h.1, h.2, h.3⟩
  have h2 := sameMarking_insertMarks h1 seen (projection start s.feedOffset s.layFactor k)
  exact ⟨h2.1, h2.2, h2.3⟩

theorem hasCause_beginFeeding (i : Fin 4) (start seen : Nat) (k : Package) (s : State) (m : Fin 10)
    (c : StopCause) (h : c ≠ .marksFull) :
    (beginFeeding i start seen k s).hasCause m c = s.hasCause m c := by
  unfold beginFeeding
  rw [recordPackage_only]
  exact (beside_insertMarks (besideCause m c h) _ .rope seen _).trans (hasCause_congr rfl m c)

theorem spliceFeed_spec (i : Fin 4) (old next : Package) (s : State)
    (ho : s.currentPackage i = some old) (hn : s.reservePackage i = some next)
    (hne : old.number ≠ next.number) :
    let p := (s.len .rope).p
    let t := spliceFeed i old next s
    t.package old.number
      = some { old with
          state := .spent, seat := none, feedStart := none
          leftover := some (old.wound - old.consumed), spentOrder := some s.table.nextSpent } ∧
    t.table.nextSpent = s.table.nextSpent + 1 ∧
    t.package next.number
      = some { next with
          state := .feeding, seat := some (i.val, false), feedStart := some p, consumed := 0
          warned := next.warned || decide (next.wound ≤ s.warningLength) } ∧
    (∀ n, n ≠ old.number → n ≠ next.number → t.package n = s.package n) ∧
    t.hasCause 8 .runout
      = (s.hasCause 8 .runout && places.any fun q => q != i && (s.place q).runout) ∧
    (∃ u : State,
      u.act .rope = { s.act .rope with
        marks := (s.act .rope).marks.filter fun m => m.made || m.source != some old.number } ∧
      u.len .rope = s.len .rope ∧ u.plant = s.plant ∧ u.ropeCopy = s.ropeCopy ∧
      t.act .rope
        = ((handMark .rope p
            { x := min (p + s.plantD.feedOffset) 4294967295, span := 0, kind := .splice
              source := some next.number, count := 1 }
            ((projection p s.plantD.feedOffset s.layFactor next).foldl
              (fun v m => (handMark .rope p m v).1) u)).1).act .rope) := by
  intro p t
  have hop := package_of_current ho
  have hnp : s.package next.number = some next := by
    unfold State.reservePackage at hn
    cases hc : (s.place i).reserve with
    | none => simp [hc] at hn
    | some n =>
      simp [hc] at hn
      rw [number_of_package hn]
      exact hn
  -- the old record is spent
  obtain ⟨s0, d0⟩ : ∃ x, x = spend old.number (old.wound - old.consumed) s := ⟨_, rfl⟩
  have k0 : ∀ r, s0.package r = (s.package r).map fun k =>
      if r = old.number then { k with
        state := .spent, seat := none, feedStart := none
        leftover := some (old.wound - old.consumed), spentOrder := some s.table.nextSpent }
      else k := by
    intro r
    rw [d0]
    show (s.updatePackage old.number _).package r = _
    rw [updatePackage_package]
    exact fun _ => rfl
  have c0 : s0.table.nextSpent = s.table.nextSpent + 1 ∧ (∀ q, s0.place q = s.place q) ∧
      s0.stops = s.stops ∧ s0.plant = s.plant ∧ s0.ropeCopy = s.ropeCopy ∧ s0.len .rope
        = s.len .rope ∧
      s0.act .rope = s.act .rope := by
    rw [d0]
    exact ⟨rfl, fun _ => rfl, rfl, rfl, rfl, rfl, rfl⟩
  -- its marks are removed
  obtain ⟨s1, d1⟩ : ∃ x, x = removePackageMarks old.number s0 := ⟨_, rfl⟩
  have e1 := removePackageMarks_eq old.number s0
  rw [← d1] at e1
  have c1 : s1.table = s0.table ∧ s1.plant = s.plant ∧ s1.ropeCopy = s.ropeCopy ∧
      s1.len .rope = s.len .rope ∧
      s1.act .rope = { s.act .rope with
        marks := (s.act .rope).marks.filter fun m => m.made || m.source != some old.number } := by
    have h : s1.act .rope = { s0.act .rope with
        marks := (s0.act .rope).marks.filter fun m => m.made || m.source != some old.number } := by
      rw [e1]
      rfl
    have h2 : s1.len .rope = s0.len .rope := by rw [e1]; rfl
    refine ⟨by rw [e1], ?_, ?_, h2.trans c0.2.2.2.2.2.1, ?_⟩
    · rw [e1]; exact c0.2.2.2.1
    · rw [e1]; exact c0.2.2.2.2.1
    · rw [h, c0.2.2.2.2.2.2]
  have q1 : s1.hasCause 8 .runout = s.hasCause 8 .runout := by
    rw [d1, hasCause_removePackageMarks _ _ _ _ (by decide)]
    exact hasCause_congr c0.2.2.1 _ _
  -- the reserve takes the slot
  obtain ⟨s2, d2⟩ : ∃ x, x = s1.setPlace i
      { s1.place i with current := some next.number, reserve := none } := ⟨_, rfl⟩
  have k2 : ∀ r, s2.package r = s0.package r := by
    intro r
    rw [d2]
    exact package_of_table c1.1 r
  have c2 : s2.table.nextSpent = s.table.nextSpent + 1 ∧ (∀ q, q ≠ i → s2.place q = s.place q) := by
    rw [d2]
    refine ⟨?_, fun q hq => ?_⟩
    · show s1.table.nextSpent = _
      rw [c1.1, c0.1]
    · rw [setPlace_place_at, if_neg hq, place_of_table c1.1, c0.2.1]
  have m2 : s2.feedOffset = s.plantD.feedOffset ∧ s2.layFactor = s.layFactor := by
    rw [d2]
    refine ⟨?_, ?_⟩
    · show (s1.plant.getD _).feedOffset = _
      rw [c1.2.1]
      rfl
    · show (s1.ropeCopy.map _).getD 0 = _
      rw [c1.2.2.1]
      rfl
  have q2 : s2.hasCause 8 .runout = s.hasCause 8 .runout := by
    rw [d2, ← q1]
    exact hasCause_congr rfl _ _
  -- and feeds
  obtain ⟨s3, d3⟩ : ∃ x, x = beginFeeding i p p next s2 := ⟨_, rfl⟩
  obtain ⟨s4, d4⟩ : ∃ x, x = insertMark .rope p
    { x := held32 (p + s.feedOffset), span := 0, kind := .splice, source := some next.number
      count := 1 } s3 := ⟨_, rfl⟩
  have h4 : s4.table = (s2.updatePackage next.number fun r =>
      { r with
        state := .feeding, seat := some (i.val, false), feedStart := some p,
          consumed := 0 }).table := by
    rw [d4, d3]
    exact (insertMarks_table p [_] _).trans (beginFeeding_table i p p next s2)
  have k4 : ∀ r, s4.package r = (s0.package r).map fun k =>
      if r = next.number then
        { k with
          state := .feeding, seat := some (i.val, false), feedStart := some p, consumed := 0 }
      else k := by
    intro r
    rw [package_of_table h4, updatePackage_package, k2]
    exact fun _ => rfl
  have c4 : s4.table.nextSpent = s.table.nextSpent + 1 ∧ (∀ q, q ≠ i → s4.place q = s.place q) := by
    refine ⟨by rw [h4]; exact c2.1, fun q hq => ?_⟩
    rw [place_of_table h4]
    exact c2.2 q hq
  have k4n : s4.package next.number = some { next with
      state := .feeding, seat := some (i.val, false), feedStart := some p, consumed := 0 } := by
    rw [k4, k0, hnp]
    simp [Ne.symm hne]
  have q4 : s4.hasCause 8 .runout = s.hasCause 8 .runout := by
    rw [d4, ← q2]
    refine (beside_insertMarks (besideCause 8 .runout (by decide)) s3 .rope p [_]).trans ?_
    rw [d3]
    exact hasCause_beginFeeding _ _ _ _ _ _ _ (by decide)
  have w4 : s4.warningLength = s.warningLength := by
    have h : s4.ground = s3.ground := by rw [d4]; exact ground_insertMark ..
    have h' : s3.ground = s2.ground := by rw [d3]; exact ground_beginFeeding ..
    have h2 := h.trans h'
    simp only [State.ground, Prod.mk.injEq] at h2
    unfold State.warningLength
    rw [h2.2.2.2.1, d2]
    show (s1.ropeCopy.map _).getD 0 = _
    rw [c1.2.2.1]
  have a4 : s4.act .rope
      = ((handMark .rope p
          { x := min (p + s.plantD.feedOffset) 4294967295, span := 0, kind := .splice
            source := some next.number, count := 1 }
          (insertMarks .rope p (projection p s.plantD.feedOffset s.layFactor next) s2)).1).act .rope
            := by
    have h := beginFeeding_marks i p p next s2 s2 ⟨rfl, rfl, rfl⟩
    rw [m2.1, m2.2, ← d3] at h
    rw [d4]
    exact (sameMarking_handMark h p _).act
  -- its warning is judged
  obtain ⟨s5, d5⟩ : ∃ x, x = compareWarning i p next.number s4 := ⟨_, rfl⟩
  obtain ⟨n5, k5, p5, z5⟩ := compareWarning_spec i p next.number _ s4 k4n
  rw [← d5] at n5 k5 p5 z5
  have q5 : s5.hasCause 8 .runout = s.hasCause 8 .runout := by
    rw [← q4]
    exact hasCause_congr (by rw [n5]) _ _
  have ht : t = judgeRunout (s5.setPlace i { s5.place i with runout := false }) := by
    rw [d5, d4, d3, d2, d1, d0]
    rfl
  clear_value t
  have hno : NoticesOnly (s5.setPlace i { s5.place i with runout := false }) t := by
    rw [ht]
    exact noticesOnly_judgeRunout _
  have kt : ∀ r, t.package r = s5.package r := by
    intro r
    rw [hno]
    rfl
  refine ⟨?_, ?_, ?_, ?_, ?_, s2, ?_, ?_, ?_, ?_, ?_⟩
  · rw [kt, k5, k4, k0, hop]
    simp [hne]
  · rw [hno]
    show s5.table.nextSpent = _
    rw [z5, c4.1]
  · rw [kt, k5, k4n, w4]
    simp
  · intro n h1 h2
    rw [kt, k5, k4, k0]
    simp [h1, h2]
  · rw [ht]
    have ha : (places.any fun j =>
      ((s5.setPlace i { s5.place i with runout := false }).place j).runout)
        = places.any fun q => q != i && (s.place q).runout := by
      congr 1
      funext q
      rw [setPlace_place_at]
      by_cases h : q = i
      · simp [h]
      · simp [h, p5, c4.2 q h]
    have h6 : (s5.setPlace i { s5.place i with runout := false }).hasCause 8 .runout
        = s.hasCause 8 .runout := (hasCause_congr rfl _ _).trans q5
    unfold judgeRunout
    rw [ha]
    split
    · next hb => rw [h6]; simp [hb]
    · next hb => rw [hasCause_clearCause, h6]; simp [hb]
  · rw [d2]
    exact c1.2.2.2.2
  · rw [d2]
    exact c1.2.2.2.1
  · rw [d2]
    exact c1.2.1
  · rw [d2]
    exact c1.2.2.1
  · rw [hno]
    show s5.act .rope = _
    have h : s5.act .rope = s4.act .rope := by rw [n5]; rfl
    rw [h, a4]
    rfl

/-! ### The causes of the rope line (R48, R82), and SPLICE_FEED in order (R55) -/

/-- A cause that the CREEL check does not judge. -/
theorem hasCause_checkCreel (c : StopCause) (s : State) (h : c ≠ .creel) :
    (checkCreel s).hasCause 8 c = s.hasCause 8 c := by
  unfold checkCreel
  split
  · rw [hasCause_setCause]; simp [h]
  · rw [hasCause_clearCause]; simp [h]

/-- CREEL after its check. -/
theorem hasCause_creel (s : State) : (checkCreel s).hasCause 8 .creel = (checkCreel s).creelLacks := by
  have : (checkCreel s).creelLacks = s.creelLacks := by rw [noticesOnly_checkCreel s]; rfl
  rw [this]
  unfold checkCreel
  split
  · rw [hasCause_setCause]; simp [*]
  · rw [hasCause_clearCause]; simp [*]

/-- The causes of the rope line after a placement (R46, R48). -/
theorem placePackage_causes (n : Nat) (i : Fin 4) (s : State) :
    ((s.place i).current.isSome = false →
      (placePackage n i s).hasCause 8 .creel = (placePackage n i s).creelLacks) ∧
    ((s.place i).current.isSome = true →
      (placePackage n i s).hasCause 8 .creel = s.hasCause 8 .creel) ∧
    ∀ cause, cause ≠ .creel → (placePackage n i s).hasCause 8 cause = s.hasCause 8 cause := by
  unfold placePackage
  cases h : (s.place i).current with
  | none =>
    refine ⟨fun _ => ?_, fun h => by simp at h, fun c hc => ?_⟩
    · exact hasCause_creel _
    · simp only [Option.isNone_none, if_true]
      rw [hasCause_checkCreel c _ hc]
      exact hasCause_congr rfl _ _
  | some k =>
    refine ⟨fun h => by simp at h, fun _ => ?_, fun c hc => ?_⟩ <;> exact hasCause_congr rfl _ _

/-- MARKS_FULL after the FUTURE marks of a package have left the rope list (R82, R87). -/
theorem removePackageMarks_cases (n : Nat) (s : State) :
    let marks := (s.act .rope).marks
    let kept := marks.filter fun m => m.made || m.source != some n
    removePackageMarks n s
      = if kept.length < marks.length ∧ kept.length ≤ 112 then
          clearCause 8 .marksFull (s.setMarks .rope kept)
        else s.setMarks .rope kept := by
  intro marks kept
  have e : removePackageMarks n s
      = if kept.length < marks.length then judgeLowWater .rope (s.setMarks .rope kept)
        else s.setMarks .rope kept := rfl
  rw [e]
  unfold judgeLowWater
  have : ((s.setMarks .rope kept).act .rope).marks = kept := rfl
  rw [this]
  by_cases h1 : kept.length < marks.length <;> by_cases h2 : kept.length ≤ 112 <;>
    simp [h1, h2, lowWater, machineOf]

/-- MARKS_FULL after a FEEDING package has been unplaced (R82, R87). -/
theorem unplaceFeeding_marksFull (i : Fin 4) (k : Package) (s : State) :
    let kept := (s.act .rope).marks.filter fun m => m.made || m.source != some k.number
    (unplaceFeeding i k s).hasCause 8 .marksFull
      = (s.hasCause 8 .marksFull
          && !(decide (kept.length < (s.act .rope).marks.length) && decide (kept.length ≤ 112))) := by
  intro kept
  obtain ⟨s1, h1, h1s, h1a⟩ : ∃ s1 : State,
      s1 = (if 0 < k.wound - k.consumed then
        s.updatePackage k.number (Package.returned (k.wound - k.consumed)) else spend k.number 0 s) ∧
      s1.stops = s.stops ∧ s1.act .rope = s.act .rope := by
    refine ⟨_, rfl, ?_⟩
    split <;> exact ⟨rfl, rfl⟩
  have ht : unplaceFeeding i k s = checkCreel (judgeRunout
      ((moveReserve i (removePackageMarks k.number s1)).setPlace i
        { (moveReserve i (removePackageMarks k.number s1)).place i with runout := false })) := by
    rw [h1]; rfl
  have hr : ∀ u : State, (judgeRunout u).hasCause 8 .marksFull = u.hasCause 8 .marksFull := by
    intro u
    unfold judgeRunout
    split
    · rfl
    · rw [hasCause_clearCause]; simp
  have hm : ∀ u : State, (moveReserve i u).stops = u.stops := by
    intro u
    unfold moveReserve
    split <;> rfl
  have hc : (unplaceFeeding i k s).hasCause 8 .marksFull
      = (removePackageMarks k.number s1).hasCause 8 .marksFull := by
    rw [ht, hasCause_checkCreel _ _ (by decide), hr]
    exact hasCause_congr (hm _) _ _
  rw [hc]
  have e := removePackageMarks_cases k.number s1
  simp only [h1a] at e
  rw [e]
  have hk : (s1.setMarks .rope kept).hasCause 8 .marksFull = s.hasCause 8 .marksFull :=
    hasCause_congr (t := s1.setMarks .rope kept) h1s _ _
  by_cases h : kept.length < (s.act .rope).marks.length ∧ kept.length ≤ 112
  · rw [if_pos h, hasCause_clearCause, hk]
    simp [h.1, h.2]
  · rw [if_neg h, hk]
    have : (decide (kept.length < (s.act .rope).marks.length) && decide (kept.length ≤ 112)) = false := by
      simpa using h
    rw [this]; simp

/-- SPLICE_FEED, its effects in order (R55). -/
theorem spliceFeed_eq (i : Fin 4) (old next : Package) (s : State)
    (hn : s.reservePackage i = some next)
    (hne : old.number ≠ next.number) :
    let p := (s.len .rope).p
    let marks := (s.act .rope).marks
    let kept := marks.filter fun m => m.made || m.source != some old.number
    let spent := (({ s with table := { s.table with nextSpent := s.table.nextSpent + 1 } } : State)
      |>.updatePackage old.number fun r =>
        { r with
          state := .spent, seat := none, feedStart := none
          leftover := some (old.wound - old.consumed), spentOrder := some s.table.nextSpent })
      |>.setMarks .rope kept
    let cleared :=
      if kept.length < marks.length ∧ kept.length ≤ 112 then clearCause 8 .marksFull spent else spent
    let moved := (cleared.setPlace i { s.place i with current := some next.number, reserve := none })
      |>.updatePackage next.number fun r =>
        { r with state := .feeding, seat := some (i.val, false), feedStart := some p, consumed := 0 }
    let marked := (projection p s.plantD.feedOffset s.layFactor next).foldl
      (fun u m => (handMark .rope p m u).1) moved
    let coil := marked.pack .rope
    let recorded :=
      if coil.state = .noCoil ∨ next.number ∈ coil.packages then marked
      else marked.setPack .rope
        (if coil.packages.length < 8 then { coil with packages := coil.packages ++ [next.number] }
        else { coil with more := true })
    let spliced := (handMark .rope p
      { x := min (p + s.plantD.feedOffset) 4294967295, span := 0, kind := .splice
        source := some next.number, count := 1 } recorded).1
    let warned :=
      if next.warned = false ∧ next.wound ≤ s.warningLength then
        enterReport .runoutNear (some 8)
          (be 1 i.val ++ be 2 next.number ++ be 4 next.wound ++ be 4 p)
          (spliced.updatePackage next.number fun r => { r with warned := true })
      else spliced
    let rested := warned.setPlace i
      { current := some next.number, reserve := none, runout := false }
    spliceFeed i old next s
      = if (∃ q, (rested.place q).runout = true) then rested else clearCause 8 .runout rested := by
  intro p marks kept spent cleared moved marked coil recorded spliced warned rested
  have hnp : s.package next.number = some next := by
    unfold State.reservePackage at hn
    cases hc : (s.place i).reserve with
    | none => simp [hc] at hn
    | some n =>
      simp [hc] at hn
      rw [number_of_package hn]
      exact hn
  have e1 : removePackageMarks old.number (spend old.number (old.wound - old.consumed) s) = cleared :=
    removePackageMarks_cases old.number (spend old.number (old.wound - old.consumed) s)
  have c1 : cleared = { spent with stops := cleared.stops, link := cleared.link } := by
    simp only [cleared]
    split
    · exact noticesOnly_clearCause ..
    · rfl
  have p1 : cleared.place i = s.place i := by rw [c1]; rfl
  have f1 : cleared.feedOffset = s.plantD.feedOffset := by rw [c1]; rfl
  have l1 : cleared.layFactor = s.layFactor := by rw [c1]; rfl
  have w1 : cleared.warningLength = s.warningLength := by rw [c1]; rfl
  have e3 : beginFeeding i p p next
      (cleared.setPlace i { cleared.place i with current := some next.number, reserve := none })
      = recorded := by
    unfold beginFeeding
    have : ∀ u : State, recordPackage next.number u
        = if (u.pack .rope).state = .noCoil ∨ next.number ∈ (u.pack .rope).packages then u
          else u.setPack .rope
            (if (u.pack .rope).packages.length < 8 then
              { u.pack .rope with packages := (u.pack .rope).packages ++ [next.number] }
            else { u.pack .rope with more := true }) := by
      intro u
      unfold recordPackage
      simp only [coilPackages]
      split
      · rfl
      · by_cases h : (u.pack .rope).packages.length < 8 <;> simp only [h, if_true, if_false]
    have hm : insertMarks .rope p
        (projection p cleared.feedOffset cleared.layFactor next) moved = marked := by
      rw [f1, l1]
      rfl
    rw [p1, ← show _ = recorded from this marked, ← hm]
    rfl
  have moved_place : moved.place i
      = { s.place i with current := some next.number, reserve := none } := by
    have := setPlace_place_at cleared i i
      { s.place i with current := some next.number, reserve := none }
    rw [if_pos rfl] at this
    exact this
  have h4 : spliced.table = moved.table := by
    have ha : spliced.table = recorded.table := insertMarks_table p [_] recorded
    have hb : recorded.table = marked.table := by
      simp only [recorded]
      split <;> rfl
    exact ha.trans (hb.trans (insertMarks_table p _ moved))
  have hk : spliced.package next.number = some { next with
      state := .feeding, seat := some (i.val, false), feedStart := some p, consumed := 0 } := by
    rw [package_of_table h4]
    simp only [moved]
    rw [updatePackage_package]
    rotate_left; exact fun _ => rfl
    have : (State.setPlace i { s.place i with current := some next.number, reserve := none } cleared).package
        next.number = s.package next.number := by
      rw [c1]
      show (spent).package next.number = _
      show (State.updatePackage old.number _ _).package next.number = _
      rw [updatePackage_package]
      rotate_left; exact fun _ => rfl
      have hx : ({ s with table := { s.table with nextSpent := s.table.nextSpent + 1 } } : State).package
        next.number = s.package next.number := rfl
      rw [hx, hnp]
      simp [Ne.symm hne]
    rw [this, hnp]
    simp
  have hw : spliced.warningLength = s.warningLength := by
    have g1 : spliced.ground = recorded.ground := ground_handMark ..
    have g2 : recorded.ground = marked.ground := by
      simp only [recorded]
      split <;> rfl
    have g3 : marked.ground = moved.ground := ground_insertMarks ..
    have g4 : moved.ropeCopy = s.ropeCopy := by
      show cleared.ropeCopy = _
      rw [c1]
      rfl
    have g := g1.trans (g2.trans g3)
    simp only [State.ground, Prod.mk.injEq] at g
    unfold State.warningLength
    rw [g.2.2.2.1, g4]
  have e5 : compareWarning i p next.number spliced = warned := by
    unfold compareWarning
    rw [hk]
    simp only [hw]
    rfl
  have hp5 : ({ warned.place i with runout := false } : Place)
      = { current := some next.number, reserve := none, runout := false } := by
    obtain ⟨-, -, hx, -⟩ := compareWarning_spec i p next.number _ spliced hk
    have hs := place_of_table h4 i
    rw [← e5, hx, hs, moved_place]
  unfold spliceFeed
  simp only [e1]
  rw [show (s.len .rope).p = p from rfl, e3]
  rw [show insertMark .rope p { x := held32 (p + s.feedOffset), span := 0, kind := .splice, source := some next.number, count := 1 } recorded = spliced from rfl]
  rw [e5, hp5]
  unfold judgeRunout
  rw [show warned.setPlace i { current := some next.number, reserve := none, runout := false } = rested from rfl]
  by_cases h : ∃ q, (rested.place q).runout = true
  · rw [if_pos h, if_pos]
    obtain ⟨q, hq⟩ := h
    rw [List.any_eq_true]
    exact ⟨q, by fin_cases q <;> decide, hq⟩
  · rw [if_neg h, if_neg]
    intro hc
    obtain ⟨q, _, hq⟩ := List.any_eq_true.mp hc
    exact h ⟨q, hq⟩

/-! ### The lists of a record (R40, R41) -/

theorem placeSpan_eq (x : Span) (spans : List Span) :
    placeSpan x spans
      = spans.takeWhile (fun y => decide (y.start ≤ x.start)) ++ x ::
        spans.dropWhile (fun y => decide (y.start ≤ x.start)) := by
  induction spans with
  | nil => rfl
  | cons h t ih =>
    unfold placeSpan
    by_cases hc : h.start ≤ x.start
    · simp [hc, ih]
    · simp [hc]

theorem mergeLast_append (front : List Span) (a b : Span) :
    mergeLast (front ++ [a, b]) = front ++ [⟨min a.start b.start, max a.stop b.stop, .mixed⟩] := by
  induction front with
  | nil => rfl
  | cons h t ih =>
    rw [List.cons_append, mergeLast, ih]
    · rfl
    · intro c hc
      cases t <;> simp at hc

/-- A span goes after every span of start at or below its own; a seventh is merged into the sixth (R40). -/
theorem insertSpan_eq (x : Span) (spans : List Span) :
    let placed := spans.takeWhile (fun y => decide (y.start ≤ x.start)) ++ x ::
      spans.dropWhile (fun y => decide (y.start ≤ x.start))
    (placed.length ≤ 6 → insertSpan x spans = placed) ∧
    (∀ front a b, placed = front ++ [a, b] → 6 < placed.length →
      insertSpan x spans = front ++ [⟨min a.start b.start, max a.stop b.stop, .mixed⟩]) := by
  intro placed
  unfold insertSpan spanCapacity
  simp only [placeSpan_eq]
  constructor
  · intro h
    rw [if_neg (by simpa [placed] using h)]
  · intro front a b hp h
    rw [if_pos h, ← mergeLast_append, ← hp]

theorem insertSplice_eq (w : Nat) (splices : List Nat) :
    insertSplice w splices
      = splices.takeWhile (fun v => decide (v ≤ w)) ++ w ::
        splices.dropWhile (fun v => decide (v ≤ w)) := by
  induction splices with
  | nil => rfl
  | cons h t ih =>
    unfold insertSplice
    by_cases hc : h ≤ w
    · simp [hc, ih]
    · simp [hc]

/-- In a list in rising order a prefix by a bound is what lies within it. -/
theorem takeWhile_of_rising {α : Type} (f : α → Nat) (w : Nat) (l : List α)
    (h : l.Pairwise fun a b => f a ≤ f b) :
    l.takeWhile (fun v => decide (f v ≤ w)) = l.filter (fun v => decide (f v ≤ w)) ∧
      l.dropWhile (fun v => decide (f v ≤ w)) = l.filter (fun v => decide (w < f v)) := by
  induction l with
  | nil => exact ⟨rfl, rfl⟩
  | cons a t ih =>
    obtain ⟨ha, ht⟩ := List.pairwise_cons.mp h
    by_cases hc : f a ≤ w
    · simp [hc, ih ht]
    · have hw : w < f a := by omega
      have h1 : t.filter (fun v => decide (f v ≤ w)) = [] :=
        List.filter_eq_nil_iff.mpr fun b hb => by have := ha b hb; simp; omega
      have h2 : t.filter (fun v => decide (w < f v)) = t :=
        List.filter_eq_self.mpr fun b hb => by have := ha b hb; simp; omega
      simp [hc, hw, h1, h2]

/-- What is put into a list in rising order after all that is no greater leaves it in rising order. -/
theorem pairwise_insert {α : Type} (f : α → Nat) (x : α) (l : List α)
    (h : l.Pairwise fun a b => f a ≤ f b) :
    (l.filter (fun y => decide (f y ≤ f x)) ++ x :: l.filter (fun y => decide (f x < f y))).Pairwise
      fun a b => f a ≤ f b := by
  rw [List.pairwise_append, List.pairwise_cons]
  refine ⟨h.filter _, ⟨fun b hb => ?_, h.filter _⟩, fun a ha b hb => ?_⟩
  · have := (List.mem_filter.mp hb).2; simp at this; omega
  · have h1 := (List.mem_filter.mp ha).2
    simp at h1
    rcases List.mem_cons.mp hb with rfl | hb
    · exact h1
    · have := (List.mem_filter.mp hb).2; simp at this; omega

theorem insertSplice_rising (w : Nat) (splices : List Nat) (h : splices.Pairwise (· ≤ ·)) :
    insertSplice w splices
        = splices.filter (fun v => decide (v ≤ w)) ++ w :: splices.filter (fun v => decide (w < v)) ∧
      (insertSplice w splices).Pairwise (· ≤ ·) := by
  have e := takeWhile_of_rising id w splices h
  have e' := insertSplice_eq w splices
  simp only [id] at e
  rw [e.1, e.2] at e'
  exact ⟨e', by rw [e']; exact pairwise_insert id w splices h⟩

theorem insertSpan_rising (x : Span) (spans : List Span)
    (h : spans.Pairwise fun a b => a.start ≤ b.start) :
    spans.takeWhile (fun y => decide (y.start ≤ x.start)) ++ x ::
        spans.dropWhile (fun y => decide (y.start ≤ x.start))
      = spans.filter (fun y => decide (y.start ≤ x.start)) ++ x ::
        spans.filter (fun y => decide (x.start < y.start)) ∧
      (insertSpan x spans).Pairwise fun a b => a.start ≤ b.start := by
  have e := takeWhile_of_rising Span.start x.start spans h
  obtain ⟨h1, h2⟩ := insertSpan_eq x spans
  have hp := pairwise_insert Span.start x spans h
  rw [← e.1, ← e.2] at hp
  refine ⟨by rw [e.1, e.2], ?_⟩
  generalize hd : spans.takeWhile (fun y => decide (y.start ≤ x.start)) ++ x ::
        spans.dropWhile (fun y => decide (y.start ≤ x.start)) = placed at *
  by_cases hl : placed.length ≤ 6
  · rw [h1 hl]; exact hp
  · obtain ⟨front, a, b, hf⟩ : ∃ front a b, placed = front ++ [a, b] := by
      have : ∀ l : List Span, 2 ≤ l.length → ∃ front a b, l = front ++ [a, b] := by
        intro l hl
        refine ⟨l.take (l.length - 2), l[l.length - 2], l[l.length - 1], ?_⟩
        conv_lhs => rw [← List.take_append_drop (l.length - 2) l]
        congr 1
        rw [List.drop_eq_getElem_cons (by omega), List.drop_eq_getElem_cons (by omega)]
        simp only [List.cons.injEq, true_and]
        refine ⟨by congr 1; omega, ?_⟩
        exact List.drop_eq_nil_of_le (by omega)
      exact this placed (by omega)
    rw [h2 front a b hf (by omega)]
    rw [hf] at hp
    obtain ⟨p1, p2, p3⟩ := List.pairwise_append.mp hp
    refine List.pairwise_append.mpr ⟨p1, by simp, fun c hc d hd => ?_⟩
    simp only [List.mem_singleton] at hd
    subst hd
    have := p3 c hc a (by simp)
    have := p3 c hc b (by simp)
    simp only
    omega

end Sys2Proof.Machine
end

