-- ==== Sys2Proof/Laws/Encoding.lean ====
section
/-! SUPPORT. Numbers, fields and entries read back from the bytes that carry them. -/

namespace Sys2Proof

/-! ### Numbers -/

theorem digits_length (k n : Nat) : (digits k n).length = k := by
  induction k with
  | zero => rfl
  | succ k ih => simp [digits, ih]

theorem be_length (k n : Nat) : (be k n).length = k :=
  digits_length _ _

theorem foldl_unbe (bytes : List Byte) (n : Nat) :
    bytes.foldl (fun n b => n * 256 + b.toNat) n = n * 256 ^ bytes.length + unbe bytes := by
  unfold unbe
  induction bytes generalizing n with
  | nil => simp
  | cons b rest ih =>
    rw [List.foldl_cons, ih, List.foldl_cons, ih (0 * 256 + b.toNat), List.length_cons]
    ring

theorem unbe_cons (b : Byte) (rest : List Byte) :
    unbe (b :: rest) = b.toNat * 256 ^ rest.length + unbe rest := by
  rw [unbe, List.foldl_cons, foldl_unbe, Nat.zero_mul, Nat.zero_add]

theorem unbe_digits (k n : Nat) : unbe (digits k n) = n % 256 ^ k := by
  induction k with
  | zero => simp [digits, unbe, Nat.mod_one]
  | succ k ih =>
    rw [digits, unbe_cons, ih, digits_length, BitVec.toNat_ofNat, Nat.pow_succ 256 k, Nat.mod_mul]
    ring

/-- A number that fits its field is read back. -/
theorem unbe_be {k n : Nat} (h : fits k n = true) : unbe (be k n) = n := by
  simp only [fits, decide_eq_true_eq] at h
  rw [be, if_pos h, unbe_digits, Nat.mod_eq_of_lt h]

theorem be_one {n : Nat} (h : fits 1 n = true) : be 1 n = [BitVec.ofNat 8 n] := by
  simp only [fits, decide_eq_true_eq] at h
  rw [be, if_pos h]
  simp [digits]

theorem toNat_byte {n : Nat} (h : fits 1 n = true) : (BitVec.ofNat 8 n).toNat = n := by
  simp only [fits, decide_eq_true_eq, pow_one] at h
  simp [Nat.mod_eq_of_lt h]

/-! ### Fields -/

theorem readFields_append {k n : Nat} (ks : List Nat) (rest : List Byte) (h : fits k n = true) :
    readFields (k :: ks) (be k n ++ rest) = (readFields ks rest).map (n :: ·) := by
  have hl := be_length k n
  rw [readFields, if_neg (by rw [List.length_append, hl]; omega), List.drop_left' hl,
    List.take_left' hl, unbe_be h]

theorem readFields_last {k n : Nat} (h : fits k n = true) :
    readFields [k] (be k n) = some [n] := by
  have := readFields_append [] [] h
  rw [List.append_nil] at this
  rw [this]
  rfl

/-- Values with their sizes are read back. -/
theorem readFields_pairs (l : List (Nat × Nat)) (h : ∀ x ∈ l, fits x.1 x.2 = true) :
    readFields (l.map Prod.fst) (l.flatMap fun x => be x.1 x.2) = some (l.map Prod.snd) := by
  induction l with
  | nil => rfl
  | cons x rest ih =>
    rw [List.map_cons, List.flatMap_cons, readFields_append _ _ (h x (List.mem_cons_self ..)),
      ih fun y hy => h y (List.mem_cons_of_mem _ hy)]
    rfl

/-- The values of fields with their sizes. -/
def sizedValues (fields : List WireField) : List (Nat × Nat) :=
  fields.flatMap fun f => f.values.map fun v => (f.size, v)

theorem fieldSizes_eq (fields : List WireField) :
    fieldSizes fields = (sizedValues fields).map Prod.fst := by
  simp [fieldSizes, sizedValues, List.map_flatMap, Function.comp_def]

theorem fieldBytes_eq (fields : List WireField) :
    fieldBytes fields = (sizedValues fields).flatMap fun x => be x.1 x.2 := by
  simp [fieldBytes, sizedValues, List.flatMap_assoc, List.flatMap_map]

/-- Fields that fit are read back. -/
theorem readFields_fieldBytes {fields : List WireField} (h : fieldsFit fields = true) :
    readFields (fieldSizes fields) (fieldBytes fields)
      = some (fields.flatMap WireField.values) := by
  rw [fieldSizes_eq, fieldBytes_eq, readFields_pairs]
  · simp [sizedValues, List.map_flatMap, Function.comp_def]
  · intro x hx
    simp only [sizedValues, List.mem_flatMap, List.mem_map] at hx
    obtain ⟨f, hf, v, hv, rfl⟩ := hx
    simp only [fieldsFit, List.all_eq_true] at h
    exact h f hf v hv

/-! ### Entries -/

/-- Entries of one length are cut apart again. -/
theorem readEntries_flatMap {α : Type} {size : Nat} {enc : α → List Byte}
    (hs : ∀ a, (enc a).length = size) (l : List α) (rest : List Byte) :
    readEntries size l.length (l.flatMap enc ++ rest) = l.map enc := by
  induction l with
  | nil => rfl
  | cons a l ih =>
    rw [List.flatMap_cons, List.length_cons, readEntries, List.append_assoc,
      List.take_left' (hs a), List.drop_left' (hs a), ih, List.map_cons]

theorem flatMap_length {α : Type} {size : Nat} {enc : α → List Byte}
    (hs : ∀ a, (enc a).length = size) (l : List α) :
    (l.flatMap enc).length = size * l.length := by
  induction l with
  | nil => rfl
  | cons a l ih =>
    rw [List.flatMap_cons, List.length_append, ih, hs, List.length_cons]
    ring

theorem patternStep_length (p : PatternStep) : p.bytes.length = 4 := by
  simp [PatternStep.bytes, be_length]

theorem patternStep_ofBytes {p : PatternStep} (h : p.fits = true) :
    PatternStep.ofBytes p.bytes = p := by
  obtain ⟨first, last, rows⟩ := p
  simp only [PatternStep.fits, Bool.and_eq_true] at h
  obtain ⟨⟨h1, h2⟩, h3⟩ := h
  have e1 : (be 1 first ++ be 1 last ++ be 2 rows).take 1 = be 1 first := by
    rw [List.append_assoc, List.take_left' (be_length ..)]
  have e2 : ((be 1 first ++ be 1 last ++ be 2 rows).drop 1).take 1 = be 1 last := by
    rw [List.append_assoc, List.drop_left' (be_length ..), List.take_left' (be_length ..)]
  have e3 : (be 1 first ++ be 1 last ++ be 2 rows).drop 2 = be 2 rows :=
    List.drop_left' (by simp [be_length])
  simp only [PatternStep.ofBytes, PatternStep.bytes, e1, e2, e3, unbe_be h1, unbe_be h2, unbe_be h3]

theorem spanEntry_length (e : SpanEntry) : e.bytes.length = 9 := by
  simp [SpanEntry.bytes, be_length]

theorem spanEntry_ofBytes {e : SpanEntry} (h : e.fits = true) : SpanEntry.ofBytes e.bytes = e := by
  obtain ⟨start, stop, kind⟩ := e
  simp only [SpanEntry.fits, Bool.and_eq_true] at h
  obtain ⟨⟨h1, h2⟩, h3⟩ := h
  have e1 : (be 4 start ++ be 4 stop ++ be 1 kind).take 4 = be 4 start := by
    rw [List.append_assoc, List.take_left' (be_length ..)]
  have e2 : ((be 4 start ++ be 4 stop ++ be 1 kind).drop 4).take 4 = be 4 stop := by
    rw [List.append_assoc, List.drop_left' (be_length ..), List.take_left' (be_length ..)]
  have e3 : (be 4 start ++ be 4 stop ++ be 1 kind).drop 8 = be 1 kind :=
    List.drop_left' (by simp [be_length])
  simp only [SpanEntry.ofBytes, SpanEntry.bytes, e1, e2, e3, unbe_be h1, unbe_be h2, unbe_be h3]

/-- Entries that fit are read back one by one. -/
theorem map_ofBytes {α : Type} {fit : α → Bool} {enc : α → List Byte} {dec : List Byte → α}
    (hd : ∀ a, fit a = true → dec (enc a) = a) {l : List α} (h : l.all fit = true) :
    (l.map enc).map dec = l := by
  rw [List.map_map]
  rw [List.all_eq_true] at h
  calc l.map (dec ∘ enc) = l.map id := List.map_congr_left fun a ha => hd a (h a ha)
    _ = l := List.map_id l

/-! ### The plant record -/

/-- A vector's values are found again where they stand in a list. -/
theorem slice_append {n : Nat} (a b : List Nat) (x : Vector Nat n) {i : Nat} (hi : a.length = i) :
    slice (a ++ x.toList ++ b) i n = x := by
  subst hi
  apply Vector.ext
  intro k hk
  have hx : k < x.toList.length := by rw [Vector.length_toList]; exact hk
  simp only [slice, Vector.getElem_ofFn]
  rw [List.append_assoc, List.getD_append_right _ _ _ _ (Nat.le_add_right _ _),
    Nat.add_sub_cancel_left, List.getD_append _ _ _ _ hx, List.getD_eq_getElem _ _ hx,
    Vector.getElem_toList]

/-! ### Recipes, the plant record and package records -/

theorem readNet_fieldBytes (r : NetRecipe) (h : (RecipeBody.net r).fits = true) :
    readNet (RecipeBody.net r).fieldBytes = some r := by
  simp only [RecipeBody.fits, Bool.and_eq_true] at h
  obtain ⟨⟨h1, h2⟩, h3⟩ := h
  have hr := readFields_fieldBytes h3
  simp only [RecipeBody.fieldBytes, be_one h1, List.cons_append, List.nil_append, readNet,
    toNat_byte h1]
  rw [readEntries_flatMap patternStep_length, map_ofBytes (fun a h => patternStep_ofBytes h) h2,
    List.drop_left' (flatMap_length patternStep_length _),
    show fieldSizes (NetRecipe.ofValues [] []).tailFields = fieldSizes r.tailFields from rfl, hr]
  obtain ⟨⟩ := r
  simp [NetRecipe.tailFields, NetRecipe.ofValues]

theorem readRecipeBody_fieldBytes (b : RecipeBody) (h : b.fits = true) :
    readRecipeBody b.code b.fieldBytes = some b := by
  cases b with
  | twist r =>
    have hr := readFields_fieldBytes (fields := r.fields) h
    simp only [RecipeBody.code, RecipeBody.fieldBytes, readRecipeBody]
    rw [show fieldSizes (TwistRecipe.ofValues []).fields = fieldSizes r.fields from rfl, hr]
    rfl
  | rope r =>
    have hr := readFields_fieldBytes (fields := r.fields) h
    simp only [RecipeBody.code, RecipeBody.fieldBytes, readRecipeBody]
    rw [show fieldSizes (RopeRecipe.ofValues []).fields = fieldSizes r.fields from rfl, hr]
    obtain ⟨⟩ := r
    simp [RopeRecipe.fields, RopeRecipe.ofValues]
  | net r =>
    simp only [RecipeBody.code, readRecipeBody, readNet_fieldBytes r h]
    rfl
  | other c =>
    simp [RecipeBody.fits] at h
    obtain ⟨_, h1, h2, h3⟩ := h
    simp only [RecipeBody.code, readRecipeBody]

theorem fits_code (b : RecipeBody) (h : b.fits = true) : fits 1 b.code = true := by
  cases b with
  | other c => simp only [RecipeBody.fits, Bool.and_eq_true] at h; exact h.1
  | _ => rfl

theorem slice_of_eq {n i : Nat} {l : List Nat} (a b : List Nat) (x : Vector Nat n)
    (hl : l = a ++ x.toList ++ b) (hi : a.length = i) : slice l i n = x := by
  subst hl
  exact slice_append a b x hi

theorem getD_of_eq {i : Nat} {l : List Nat} (a b : List Nat) (v : Nat) (hl : l = a ++ v :: b)
    (hi : a.length = i) : l.getD i 0 = v := by
  subst hl hi
  rw [List.getD_append_right _ _ _ _ (Nat.le_refl _), Nat.sub_self, List.getD_cons_zero]

/-- The plant record is made again of its values in field order. -/
theorem plant_ofValues (p : PlantRecord) :
    PlantRecord.ofValues (p.fields.flatMap WireField.values) = p := by
  obtain ⟨ns, nd, cd, nm, cm, nlh, nn, cn, fo, rm, nm', rc, nc, fw, st, jt, dt, ct, dl, se, sl⟩ := p
  generalize hl : (PlantRecord.fields _).flatMap WireField.values = l
  have hv : l = ns.toList ++ nd.toList ++ cd.toList
      ++ [nm, cm, nlh, nn, cn, fo, rm, nm', rc, nc] ++ fw.toList ++ st.toList
      ++ [jt, dt, ct, dl, se] ++ sl.toList := by
    simp [← hl, PlantRecord.fields]
  have v1 : slice l 0 8 = ns := slice_of_eq [] _ _ (by simp only [hv, List.append_assoc]; rfl) rfl
  have v2 : slice l 8 8 = nd :=
    slice_of_eq ns.toList _ _ (by simp only [hv, List.append_assoc]; rfl) (by simp)
  have v3 : slice l 16 8 = cd :=
    slice_of_eq (ns.toList ++ nd.toList) _ _ (by simp only [hv, List.append_assoc]; rfl) (by simp)
  have v4 : slice l 34 5 = fw :=
    slice_of_eq (ns.toList ++ nd.toList ++ cd.toList ++ [nm, cm, nlh, nn, cn, fo, rm, nm', rc, nc])
      _ _ (by simp only [hv, List.append_assoc]; rfl) (by simp)
  have v5 : slice l 39 5 = st :=
    slice_of_eq (ns.toList ++ nd.toList ++ cd.toList ++ [nm, cm, nlh, nn, cn, fo, rm, nm', rc, nc]
      ++ fw.toList) _ _ (by simp only [hv, List.append_assoc]; rfl) (by simp)
  have v6 : slice l 49 10 = sl :=
    slice_of_eq (ns.toList ++ nd.toList ++ cd.toList ++ [nm, cm, nlh, nn, cn, fo, rm, nm', rc, nc]
      ++ fw.toList ++ st.toList ++ [jt, dt, ct, dl, se]) [] _
      (by simp only [hv, List.append_assoc, List.append_nil]) (by simp)
  have key : ∀ (a b : List Nat) (v i : Nat),
      ns.toList ++ nd.toList ++ cd.toList ++ [nm, cm, nlh, nn, cn, fo, rm, nm', rc, nc]
        ++ fw.toList ++ st.toList ++ [jt, dt, ct, dl, se] ++ sl.toList
        = ns.toList ++ nd.toList ++ cd.toList ++ a ++ v :: b →
      24 + a.length = i → l.getD i 0 = v := by
    intro a b v i he hi
    exact getD_of_eq (ns.toList ++ nd.toList ++ cd.toList ++ a) b v (hv.trans he) (by simp; omega)
  have w1 : l.getD 24 0 = nm := key [] _ _ _ (by simp; rfl) rfl
  have w2 : l.getD 25 0 = cm := key [nm] _ _ _ (by simp; rfl) rfl
  have w3 : l.getD 26 0 = nlh := key [nm, cm] _ _ _ (by simp; rfl) rfl
  have w4 : l.getD 27 0 = nn := key [nm, cm, nlh] _ _ _ (by simp; rfl) rfl
  have w5 : l.getD 28 0 = cn := key [nm, cm, nlh, nn] _ _ _ (by simp; rfl) rfl
  have w6 : l.getD 29 0 = fo := key [nm, cm, nlh, nn, cn] _ _ _ (by simp; rfl) rfl
  have w7 : l.getD 30 0 = rm := key [nm, cm, nlh, nn, cn, fo] _ _ _ (by simp; rfl) rfl
  have w8 : l.getD 31 0 = nm' := key [nm, cm, nlh, nn, cn, fo, rm] _ _ _ (by simp; rfl) rfl
  have w9 : l.getD 32 0 = rc := key [nm, cm, nlh, nn, cn, fo, rm, nm'] _ _ _ (by simp; rfl) rfl
  have w10 : l.getD 33 0 = nc :=
    key [nm, cm, nlh, nn, cn, fo, rm, nm', rc] _ _ _ (by simp; rfl) rfl
  have x1 : l.getD 44 0 = jt :=
    key ([nm, cm, nlh, nn, cn, fo, rm, nm', rc, nc] ++ fw.toList ++ st.toList) _ _ _
      (by simp; rfl) (by simp)
  have x2 : l.getD 45 0 = dt :=
    key ([nm, cm, nlh, nn, cn, fo, rm, nm', rc, nc] ++ fw.toList ++ st.toList ++ [jt]) _ _ _
      (by simp; rfl) (by simp)
  have x3 : l.getD 46 0 = ct :=
    key ([nm, cm, nlh, nn, cn, fo, rm, nm', rc, nc] ++ fw.toList ++ st.toList ++ [jt, dt]) _ _ _
      (by simp; rfl) (by simp)
  have x4 : l.getD 47 0 = dl :=
    key ([nm, cm, nlh, nn, cn, fo, rm, nm', rc, nc] ++ fw.toList ++ st.toList ++ [jt, dt, ct]) _ _ _
      (by simp; rfl) (by simp)
  have x5 : l.getD 48 0 = se :=
    key ([nm, cm, nlh, nn, cn, fo, rm, nm', rc, nc] ++ fw.toList ++ st.toList ++ [jt, dt, ct, dl])
      _ _ _ (by simp; rfl) (by simp)
  simp only [PlantRecord.ofValues, v1, v2, v3, v4, v5, v6, w1, w2, w3, w4, w5, w6, w7, w8, w9, w10,
    x1, x2, x3, x4, x5]

theorem readFields_plant (p : PlantRecord) (h : fieldsFit p.fields = true) :
    (readFields (fieldSizes (PlantRecord.ofValues []).fields) p.bytes).map PlantRecord.ofValues
      = some p := by
  have e : fieldSizes (PlantRecord.ofValues []).fields = fieldSizes p.fields := by
    simp [fieldSizes, PlantRecord.fields, List.map_const']
  rw [e, PlantRecord.bytes, readFields_fieldBytes h, Option.map_some, plant_ofValues]

theorem readPackageEntry_bytes (e : PackageEntry) (h : e.fits = true) :
    readPackageEntry e.bytes = some e := by
  obtain ⟨number, wound, grade, spans, splices⟩ := e
  simp only [PackageEntry.fits, Bool.and_eq_true] at h
  obtain ⟨⟨⟨⟨⟨⟨h1, h2⟩, h3⟩, h4⟩, h5⟩, h6⟩, h7⟩ := h
  generalize hb : PackageEntry.bytes _ = bytes
  have hs := flatMap_length spanEntry_length spans
  have hl := flatMap_length (be_length 4) splices
  generalize hq : spans.flatMap SpanEntry.bytes = q at hs
  generalize hp : splices.flatMap (be 4) = p at hl
  simp only [PackageEntry.bytes, hq, hp] at hb
  have d0 : bytes.take 2 = be 2 number := by
    simp only [← hb, List.append_assoc]
    exact List.take_left' (be_length ..)
  have d2 : (bytes.drop 2).take 4 = be 4 wound := by
    simp only [← hb, List.append_assoc]
    rw [List.drop_left' (be_length ..), List.take_left' (be_length ..)]
  have d6 : (bytes.drop 6).take 1 = be 1 grade := by
    rw [← hb, show be 2 number ++ be 4 wound ++ be 1 grade ++ be 1 spans.length ++ q
        ++ be 1 splices.length ++ p = (be 2 number ++ be 4 wound) ++ (be 1 grade
        ++ (be 1 spans.length ++ q ++ be 1 splices.length ++ p)) by simp,
      List.drop_left' (by simp [be_length]), List.take_left' (be_length ..)]
  have d7 : (bytes.drop 7).take 1 = be 1 spans.length := by
    rw [← hb, show be 2 number ++ be 4 wound ++ be 1 grade ++ be 1 spans.length ++ q
        ++ be 1 splices.length ++ p = (be 2 number ++ be 4 wound ++ be 1 grade)
        ++ (be 1 spans.length ++ (q ++ be 1 splices.length ++ p)) by simp,
      List.drop_left' (by simp [be_length]), List.take_left' (be_length ..)]
  have d8 : bytes.drop 8 = q ++ (be 1 splices.length ++ p) := by
    rw [← hb, show be 2 number ++ be 4 wound ++ be 1 grade ++ be 1 spans.length ++ q
        ++ be 1 splices.length ++ p = (be 2 number ++ be 4 wound ++ be 1 grade
        ++ be 1 spans.length) ++ (q ++ (be 1 splices.length ++ p)) by simp,
      List.drop_left' (by simp [be_length])]
  have dt : bytes.drop (8 + 9 * spans.length) = be 1 splices.length ++ p := by
    rw [← List.drop_drop, d8, List.drop_left' hs]
  have hlen : bytes.length = 9 + 9 * spans.length + 4 * splices.length := by
    simp only [← hb, List.length_append, be_length, hs, hl]
    omega
  have r1 : (readEntries 9 spans.length (q ++ (be 1 splices.length ++ p))).map SpanEntry.ofBytes
      = spans := by
    rw [← hq, readEntries_flatMap spanEntry_length, map_ofBytes (fun a h => spanEntry_ofBytes h) h5]
  have r2 : (readEntries 4 splices.length p).map unbe = splices := by
    have hr := readEntries_flatMap (be_length 4) splices []
    rw [List.append_nil, hp] at hr
    rw [hr, map_ofBytes (fun a h => unbe_be h) h7]
  simp only [readPackageEntry, d7, unbe_be h4, dt, List.take_left' (be_length 1 splices.length),
    unbe_be h6, List.drop_left' (be_length 1 splices.length), d8, d0, d2, d6, unbe_be h1, unbe_be h2,
    unbe_be h3, r1, r2]
  rw [if_pos hlen]

end Sys2Proof
end

