-- ==== Sys2Proof/Laws/Memory.lean ====
section
/-! SUPPORT. The store's memory: what a write reads as, and that every operation keeps the canonical form and the
bounds of the store. -/

namespace Sys2Proof.Machine

/-! ### One byte -/

theorem wfFrom_mono {m : Memory} {lo lo' : Nat} (h : lo' ≤ lo) (hm : m.wfFrom lo = true) :
    m.wfFrom lo' = true := by
  cases m with
  | nil => rfl
  | cons c rest =>
    obtain ⟨k, v⟩ := c
    simp only [Memory.wfFrom, Bool.and_eq_true, decide_eq_true_eq] at hm ⊢
    exact ⟨⟨by omega, hm.1.2⟩, hm.2⟩

theorem read_of_below {m : Memory} {lo a : Nat} (hm : m.wfFrom lo = true) (h : a < lo) :
    m.read a = erasedByte := by
  induction m generalizing lo with
  | nil => rfl
  | cons c rest ih =>
    obtain ⟨k, v⟩ := c
    simp only [Memory.wfFrom, Bool.and_eq_true, decide_eq_true_eq] at hm
    have hk : k ≠ a := by omega
    simp only [Memory.read, hk, if_false]
    exact ih hm.2 (by omega)

theorem write_wfFrom {m : Memory} {lo a : Nat} {b : Byte} (hm : m.wfFrom lo = true) (h : lo ≤ a) :
    (m.write a b).wfFrom lo = true := by
  induction m generalizing lo with
  | nil =>
    unfold Memory.write
    split
    · rfl
    · simp_all [Memory.wfFrom]
  | cons c rest ih =>
    obtain ⟨k, v⟩ := c
    have hm' := hm
    simp only [Memory.wfFrom, Bool.and_eq_true, decide_eq_true_eq] at hm
    unfold Memory.write
    split
    · split
      · exact hm'
      · next hlt hb => simp_all [Memory.wfFrom]
    · split
      · next heq =>
        split
        · exact wfFrom_mono (by omega) hm.2
        · next hb => simp_all [Memory.wfFrom]
      · simp only [Memory.wfFrom, Bool.and_eq_true, decide_eq_true_eq]
        exact ⟨hm.1, ih hm.2 (by omega)⟩

/-- A write of one byte keeps the canonical form. -/
theorem write_wf {m : Memory} {a : Nat} {b : Byte} (hm : m.wf = true) : (m.write a b).wf = true :=
  write_wfFrom hm (Nat.zero_le _)

/-- The byte just written reads as written, and every other address reads as before. -/
theorem read_write {m : Memory} {lo a x : Nat} {b : Byte} (hm : m.wfFrom lo = true) (h : lo ≤ a) :
    (m.write a b).read x = if x = a then b else m.read x := by
  induction m generalizing lo with
  | nil =>
    unfold Memory.write
    split
    · next hb => simp_all [Memory.read]
    · simp [Memory.read, eq_comm]
  | cons c rest ih =>
    obtain ⟨k, v⟩ := c
    have hm' := hm
    simp only [Memory.wfFrom, Bool.and_eq_true, decide_eq_true_eq] at hm
    unfold Memory.write
    split
    · next hlt =>
      have hbelow : Memory.read ((k, v) :: rest) a = erasedByte :=
        read_of_below (lo := k) (by simp [Memory.wfFrom, hm.1.2, hm.2]) hlt
      split
      · next hb =>
        split
        · next hx => rw [hx, hbelow, hb]
        · rfl
      · by_cases hx : x = a
        · simp [hx, Memory.read]
        · have : a ≠ x := fun e => hx e.symm
          simp [hx, Memory.read, this]
    · split
      · next hnlt heq =>
        subst heq
        split
        · next hb =>
          by_cases hx : x = a
          · subst hx
            rw [read_of_below hm.2 (by omega)]
            simp [hb]
          · have : a ≠ x := fun e => hx e.symm
            simp [hx, Memory.read, this]
        · by_cases hx : x = a
          · simp [hx, Memory.read]
          · have : a ≠ x := fun e => hx e.symm
            simp [hx, Memory.read, this]
      · next hnlt hne =>
        simp only [Memory.read]
        rw [ih hm.2 (by omega)]
        by_cases hk : k = x
        · have : x ≠ a := by omega
          simp [hk, this]
        · simp [hk]

theorem write_within {m : Memory} {a : Nat} {b : Byte} (hm : m.within = true)
    (h : a < pageCount * pageSize) : (m.write a b).within = true := by
  induction m with
  | nil =>
    unfold Memory.write
    split
    · rfl
    · simpa [Memory.within] using h
  | cons c rest ih =>
    obtain ⟨k, v⟩ := c
    have hm' := hm
    simp only [Memory.within, List.all_cons, Bool.and_eq_true, decide_eq_true_eq] at hm
    have hr := ih (by simpa [Memory.within] using hm.2)
    unfold Memory.write
    split
    · split
      · exact hm'
      · simp only [Memory.within, List.all_cons, Bool.and_eq_true, decide_eq_true_eq]
        exact ⟨h, hm.1, hm.2⟩
    · split
      · split
        · simpa [Memory.within] using hm.2
        · simp only [Memory.within, List.all_cons, Bool.and_eq_true, decide_eq_true_eq]
          exact ⟨h, hm.2⟩
      · simp only [Memory.within, List.all_cons, Bool.and_eq_true, decide_eq_true_eq]
        exact ⟨hm.1, by simpa [Memory.within] using hr⟩

/-! ### Programming and erasing -/

theorem program_wf {fault : StepFault} {page offset : Nat} {bytes : List Byte} {m : Memory}
    (hm : m.wf = true) : (Memory.program fault page offset bytes m).wf = true := by
  induction bytes generalizing offset m with
  | nil => exact hm
  | cons b rest ih => exact ih (write_wf hm)

theorem program_within {fault : StepFault} {page offset : Nat} {bytes : List Byte} {m : Memory}
    (hm : m.within = true) (hp : page < pageCount) (h : offset + bytes.length ≤ pageSize) :
    (Memory.program fault page offset bytes m).within = true := by
  induction bytes generalizing offset m with
  | nil => exact hm
  | cons b rest ih =>
    simp only [List.length_cons] at h
    apply ih
    · apply write_within hm
      simp only [addressOf, pageSize, pageCount] at *
      omega
    · omega

theorem filter_wfFrom {m : Memory} {lo : Nat} (p : Host.Cell → Bool) (hm : m.wfFrom lo = true) :
    Memory.wfFrom lo (m.filter p) = true := by
  induction m generalizing lo with
  | nil => rfl
  | cons c rest ih =>
    obtain ⟨k, v⟩ := c
    simp only [Memory.wfFrom, Bool.and_eq_true, decide_eq_true_eq] at hm
    rw [List.filter_cons]
    split
    · simp only [Memory.wfFrom, Bool.and_eq_true, decide_eq_true_eq]
      exact ⟨hm.1, ih hm.2⟩
    · exact wfFrom_mono (by omega) (ih hm.2)

theorem clearPage_wf {page : Nat} {m : Memory} (hm : m.wf = true) :
    (m.clearPage page).wf = true :=
  filter_wfFrom _ hm

theorem clearPage_within {page : Nat} {m : Memory} (hm : m.within = true) :
    (m.clearPage page).within = true := by
  simp only [Memory.within, Memory.clearPage, List.all_eq_true, List.mem_filter] at *
  exact fun c hc => hm c hc.1

theorem erase_wf {fault : StepFault} {page : Nat} {m : Memory} (hm : m.wf = true) :
    (Memory.erase fault page m).wf = true := by
  unfold Memory.erase
  induction fault with
  | nil => exact clearPage_wf hm
  | cons f rest ih =>
    simp only [List.foldr_cons]
    split
    · exact write_wf ih
    · exact ih

theorem erase_within {fault : StepFault} {page : Nat} {m : Memory} (hm : m.within = true)
    (hp : page < pageCount) : (Memory.erase fault page m).within = true := by
  unfold Memory.erase
  induction fault with
  | nil => exact clearPage_within hm
  | cons f rest ih =>
    simp only [List.foldr_cons]
    split
    · next hf =>
      apply write_within ih
      simp only [addressOf, pageSize, pageCount] at *
      omega
    · exact ih

/-! ### Steps of an operation -/

/-- The memory of a progress is in canonical form and within the store. -/
structure Progress.Ok (x : Progress) : Prop where
  wf : x.mem.wf = true
  within : x.mem.within = true

theorem step_ok {change : StepFault → Memory → Memory} {x : Progress} (hx : x.Ok)
    (hc : ∀ fault m, m.wf = true → m.within = true →
      (change fault m).wf = true ∧ (change fault m).within = true) : (x.step change).Ok := by
  unfold Progress.step
  split
  · exact hx
  · obtain ⟨h1, h2⟩ := hc (x.faults.headD []) x.mem hx.wf hx.within
    exact ⟨h1, h2⟩

theorem progress_program_ok {page offset : Nat} {bytes : List Byte} {x : Progress} (hx : x.Ok)
    (hp : page < pageCount) (h : offset + bytes.length ≤ pageSize) :
    (x.program page offset bytes).1.Ok :=
  step_ok hx fun _ _ h1 h2 => ⟨program_wf h1, program_within h2 hp h⟩

theorem progress_erase_ok {page : Nat} {x : Progress} (hx : x.Ok) (hp : page < pageCount) :
    (x.erase page).1.Ok :=
  step_ok hx fun _ _ h1 h2 => ⟨erase_wf h1, erase_within h2 hp⟩

end Sys2Proof.Machine
end

