-- ==== Sys2Proof/Laws/Invariant.lean ====
section
/-! SUPPORT. The invariant under the named updates, the flags and the requests. -/

namespace Sys2Proof.Machine

variable {s t : State}

/-! ### Updates of what the invariant does not speak of -/

/-- The invariant rests on these parts of the state alone. -/
theorem Inv.of_eq (h : Inv s) (h1 : t.stops = s.stops) (h2 : t.link = s.link)
    (h3 : ∀ l, t.act l = s.act l) (h4 : ∀ l, t.len l = s.len l) (h5 : t.flash = s.flash)
    (h6 : t.log = s.log) (h7 : t.queue = s.queue) (h8 : t.table.packages = s.table.packages)
    (h9 : t.orders = s.orders) (h10 : t.knot.ring = s.knot.ring) : Inv t where
  stops := by intro m; simpa [State.stop, h1] using h.stops m
  link := h2 ▸ h.link
  actions l := h3 l ▸ h.actions l
  lengths l := h4 l ▸ h.lengths l
  store :=
    { memory := h5 ▸ h.store.memory
      within := h5 ▸ h.store.within
      page := h6 ▸ h.store.page
      slot := h6 ▸ h.store.slot
      general := h7 ▸ h.store.general
      ops := h7 ▸ h.store.ops }
  tables :=
    { packages := h8 ▸ h.tables.packages
      packageNumbers := h8 ▸ h.tables.packageNumbers
      orders := h9 ▸ h.tables.orders
      orderNumbers := h9 ▸ h.tables.orderNumbers
      ring := h10 ▸ h.tables.ring
      bands := h9 ▸ h.tables.bands }

theorem inv_setPulse (k : PulseInput) (x : PulseIn) (h : Inv s) : Inv (s.setPulse k x) :=
  h.of_eq rfl rfl (fun _ => rfl) (fun _ => rfl) rfl rfl rfl rfl rfl rfl

theorem inv_setLevel (k : LevelInput) (x : LevelIn) (h : Inv s) : Inv (s.setLevel k x) :=
  h.of_eq rfl rfl (fun _ => rfl) (fun _ => rfl) rfl rfl rfl rfl rfl rfl

theorem inv_inputs (x : Inputs) (h : Inv s) : Inv { s with inputs := x } :=
  h.of_eq rfl rfl (fun l => by cases l <;> rfl) (fun l => by cases l <;> rfl) rfl rfl rfl rfl rfl rfl

theorem inv_setJob (p : Fin 8) (j : Option Job) (h : Inv s) : Inv (s.setJob p j) :=
  h.of_eq rfl rfl (fun _ => rfl) (fun _ => rfl) rfl rfl rfl rfl rfl rfl

theorem inv_setLay (x : Lay) (h : Inv s) : Inv (s.setLay x) :=
  h.of_eq rfl rfl (fun _ => rfl) (fun _ => rfl) rfl rfl rfl rfl rfl rfl

theorem inv_setTally (m : Fin 10) (x : Tally) (h : Inv s) : Inv (s.setTally m x) :=
  h.of_eq rfl rfl (fun _ => rfl) (fun _ => rfl) rfl rfl rfl rfl rfl rfl

theorem inv_setPlace (i : Fin 4) (x : Place) (h : Inv s) : Inv (s.setPlace i x) :=
  h.of_eq rfl rfl (fun _ => rfl) (fun _ => rfl) rfl rfl rfl rfl rfl rfl

theorem inv_reach (d : Nat) (h : Inv s) : Inv (s.reach d) :=
  h.of_eq rfl rfl (fun _ => rfl) (fun _ => rfl) rfl rfl rfl rfl rfl rfl

theorem inv_tick (h : Inv s) : Inv s.tick :=
  h.of_eq rfl rfl (fun l => by cases l <;> rfl) (fun l => by cases l <;> rfl) rfl rfl rfl rfl rfl rfl

theorem inv_pending (q : List Instr) (h : Inv s) : Inv { s with pending := q } :=
  h.of_eq rfl rfl (fun l => by cases l <;> rfl) (fun l => by cases l <;> rfl) rfl rfl rfl rfl rfl rfl

theorem inv_setPack (l : LineId) (x : PackPoint) (h : Inv s) : Inv (s.setPack l x) :=
  h.of_eq (by simp) (by simp) (by simp) (by simp) (by simp) (by simp) (by simp) (by simp) (by simp)
    (by simp)

theorem inv_setCopy_rope (x : Option (Copy RopeRecipe)) (h : Inv s) :
    Inv { s with ropeCopy := x } :=
  h.of_eq rfl rfl (fun l => by cases l <;> rfl) (fun l => by cases l <;> rfl) rfl rfl rfl rfl rfl rfl

theorem inv_setCopy_net (x : Option (Copy NetRecipe)) (h : Inv s) : Inv { s with netCopy := x } :=
  h.of_eq rfl rfl (fun l => by cases l <;> rfl) (fun l => by cases l <;> rfl) rfl rfl rfl rfl rfl rfl

theorem inv_plant (x : Option PlantRecord) (h : Inv s) : Inv { s with plant := x } :=
  h.of_eq rfl rfl (fun l => by cases l <;> rfl) (fun l => by cases l <;> rfl) rfl rfl rfl rfl rfl rfl

theorem inv_tallies (x : Vector Tally 10) (h : Inv s) : Inv { s with tallies := x } :=
  h.of_eq rfl rfl (fun l => by cases l <;> rfl) (fun l => by cases l <;> rfl) rfl rfl rfl rfl rfl rfl

/-! ### Updates of what it speaks of -/

theorem inv_setKnot {x : Knot} (hx : x.ring.length ≤ ringCapacity) (h : Inv s) :
    Inv (s.setKnot x) where
  stops := h.stops
  link := h.link
  actions := h.actions
  lengths := h.lengths
  store := ⟨h.store.memory, h.store.within, h.store.page, h.store.slot, h.store.general, h.store.ops⟩
  tables := ⟨h.tables.packages, h.tables.packageNumbers, h.tables.orders, h.tables.orderNumbers, hx,
    h.tables.bands⟩

theorem inv_setLink {x : Link} (hx : LinkOk x) (h : Inv s) : Inv (s.setLink x) where
  stops := h.stops
  link := hx
  actions := h.actions
  lengths := h.lengths
  store := ⟨h.store.memory, h.store.within, h.store.page, h.store.slot, h.store.general, h.store.ops⟩
  tables := ⟨h.tables.packages, h.tables.packageNumbers, h.tables.orders, h.tables.orderNumbers,
    h.tables.ring, h.tables.bands⟩

theorem inv_setLen {l : LineId} {x : LengthMeter} (hx : LengthOk x) (h : Inv s) :
    Inv (s.setLen l x) where
  stops := by intro m; simpa [State.stop] using h.stops m
  link := by simpa using h.link
  actions k := by simpa using h.actions k
  lengths k := by
    have := h.lengths k
    cases l <;> cases k <;> first | exact hx | exact this
  store := by constructor <;> simp <;> first | exact h.store.1 | exact h.store.2 | exact h.store.3 | exact h.store.4 | exact h.store.5 | exact h.store.6
  tables := by constructor <;> simp <;> first | exact h.tables.1 | exact h.tables.2 | exact h.tables.3 | exact h.tables.4 | exact h.tables.5 | exact h.tables.6

theorem inv_setAct {l : LineId} {x : LineActions} (hx : ActionsOk x) (h : Inv s) :
    Inv (s.setAct l x) where
  stops := by intro m; simpa [State.stop] using h.stops m
  link := by simpa using h.link
  actions k := by
    have := h.actions k
    cases l <;> cases k <;> first | exact hx | exact this
  lengths k := by simpa using h.lengths k
  store := by constructor <;> simp <;> first | exact h.store.1 | exact h.store.2 | exact h.store.3 | exact h.store.4 | exact h.store.5 | exact h.store.6
  tables := by constructor <;> simp <;> first | exact h.tables.1 | exact h.tables.2 | exact h.tables.3 | exact h.tables.4 | exact h.tables.5 | exact h.tables.6

theorem inv_setMarks {l : LineId} {x : List Mark} (hx : x.length ≤ markCapacity) (h : Inv s) :
    Inv (s.setMarks l x) :=
  inv_setAct ⟨hx, (h.actions l).sprays, (h.actions l).cuts, (h.actions l).marker⟩ h

theorem inv_setActions {l : LineId} {x : List Action} (hs : sprayCount x ≤ sprayTop)
    (hc : (x.filter fun a => !a.act.isSpray).length ≤ 1) (h : Inv s) : Inv (s.setActions l x) :=
  inv_setAct ⟨(h.actions l).marks, hs, hc, (h.actions l).marker⟩ h

theorem inv_setOnCount (l : LineId) (n : Nat) (h : Inv s) : Inv (s.setOnCount l n) :=
  inv_setAct ⟨(h.actions l).marks, (h.actions l).sprays, (h.actions l).cuts, rfl⟩ h

theorem inv_setWatch (l : LineId) (i : Fin 4) (x : Option Nat) (h : Inv s) :
    Inv (s.setWatch l i x) :=
  inv_setAct ⟨(h.actions l).marks, (h.actions l).sprays, (h.actions l).cuts, (h.actions l).marker⟩ h

theorem inv_table {x : Table} (hl : x.packages.length ≤ tableCapacity)
    (hn : (x.packages.map Package.number).Nodup) (h : Inv s) : Inv { s with table := x } where
  stops := h.stops
  link := h.link
  actions l := by have := h.actions l; cases l <;> exact this
  lengths l := by have := h.lengths l; cases l <;> exact this
  store := ⟨h.store.memory, h.store.within, h.store.page, h.store.slot, h.store.general, h.store.ops⟩
  tables := ⟨hl, hn, h.tables.orders, h.tables.orderNumbers, h.tables.ring, h.tables.bands⟩

theorem inv_setPackages {ks : List Package} (hl : ks.length ≤ tableCapacity)
    (hn : (ks.map Package.number).Nodup) (h : Inv s) : Inv (s.setPackages ks) :=
  inv_table hl hn h

theorem inv_updatePackage (n : Nat) {f : Package → Package} (hf : ∀ k, (f k).number = k.number)
    (h : Inv s) : Inv (s.updatePackage n f) := by
  refine inv_setPackages (by simpa using h.tables.packages) ?_ h
  have : ((s.table.packages.map fun k => if k.number == n then f k else k).map Package.number)
      = s.table.packages.map Package.number := by
    rw [List.map_map]
    apply List.map_congr_left
    intro k _
    simp only [Function.comp]
    split
    · exact hf k
    · rfl
  rw [this]
  exact h.tables.packageNumbers

theorem inv_orders {x : List Order} (hl : x.length ≤ orderCapacity)
    (hn : (x.map Order.number).Nodup) (hb : ∀ o ∈ x, o.low < o.target) (h : Inv s) :
    Inv { s with orders := x } where
  stops := h.stops
  link := h.link
  actions l := by have := h.actions l; cases l <;> exact this
  lengths l := by have := h.lengths l; cases l <;> exact this
  store := ⟨h.store.memory, h.store.within, h.store.page, h.store.slot, h.store.general, h.store.ops⟩
  tables := ⟨h.tables.packages, h.tables.packageNumbers, hl, hn, h.tables.ring, hb⟩

theorem inv_queue {q : List StoreEntry}
    (hg : (q.filter fun e => e.op.isGeneral).length ≤ generalEntries)
    (ho : ∀ e ∈ q, e.op.inRange = true) (h : Inv s) : Inv { s with queue := q } where
  stops := h.stops
  link := h.link
  actions l := by have := h.actions l; cases l <;> exact this
  lengths l := by have := h.lengths l; cases l <;> exact this
  store := ⟨h.store.memory, h.store.within, h.store.page, h.store.slot, hg, ho⟩
  tables := ⟨h.tables.packages, h.tables.packageNumbers, h.tables.orders, h.tables.orderNumbers,
    h.tables.ring, h.tables.bands⟩

theorem inv_store {m : Memory} {x : LogState} (hw : m.wf = true) (hi : m.within = true)
    (hp : 43 ≤ x.page ∧ x.page ≤ 138) (hs : x.slot ≤ 3) (h : Inv s) :
    Inv { s with flash := m, log := x } where
  stops := h.stops
  link := h.link
  actions l := by have := h.actions l; cases l <;> exact this
  lengths l := by have := h.lengths l; cases l <;> exact this
  store := ⟨hw, hi, hp, hs, h.store.general, h.store.ops⟩
  tables := ⟨h.tables.packages, h.tables.packageNumbers, h.tables.orders, h.tables.orderNumbers,
    h.tables.ring, h.tables.bands⟩

theorem inv_flash {m : Memory} (hw : m.wf = true) (hi : m.within = true) (h : Inv s) :
    Inv { s with flash := m } :=
  inv_store hw hi h.store.page h.store.slot h

theorem inv_setCauses (m : Fin 10) (c : CauseSet) (h : Inv s) : Inv (s.setCauses m c) where
  stops := by
    intro k
    by_cases hk : k = m
    · subst hk; simp
    · rw [stop_setCauses_of_ne s hk]; exact h.stops k
  link := h.link
  actions := h.actions
  lengths := h.lengths
  store := ⟨h.store.memory, h.store.within, h.store.page, h.store.slot, h.store.general, h.store.ops⟩
  tables := ⟨h.tables.packages, h.tables.packageNumbers, h.tables.orders, h.tables.orderNumbers,
    h.tables.ring, h.tables.bands⟩

/-! ### Reports, latches and stop causes -/

theorem satAdd_le (top a b : Nat) : satAdd top a b ≤ top :=
  Nat.min_le_right _ _

theorem inv_setLatches (m : Fin 10) (x : Latches) (h : Inv s) : Inv (s.setLatches m x) :=
  inv_setLink ⟨h.link.call, h.link.reports, h.link.frames, h.link.badFrames, h.link.overruns,
    h.link.lost⟩ h

theorem inv_queueReport (k : ReportKind) (m : Option Nat) (b : List Byte) (h : Inv s) :
    Inv (queueReport k m b s) := by
  unfold queueReport
  simp only
  split
  · exact h
  · split
    · next hlt =>
      refine inv_setLink (s := s) ⟨rfl, ?_, h.link.frames, h.link.badFrames, h.link.overruns,
        h.link.lost⟩ h
      simp only [List.length_append, List.length_cons, List.length_nil]
      omega
    · exact inv_setLink (s := s) ⟨rfl, h.link.reports, h.link.frames, h.link.badFrames,
        h.link.overruns, satAdd_le _ _ _⟩ h

theorem inv_enterReport (k : ReportKind) (m : Option Nat) (b : List Byte) (h : Inv s) :
    Inv (enterReport k m b s) := by
  unfold enterReport
  split
  · exact inv_setLink (s := s) ⟨h.link.call, h.link.reports, h.link.frames, h.link.badFrames,
      h.link.overruns, h.link.lost⟩ h
  · exact inv_queueReport k m b h

theorem inv_clearSteady (m : Fin 10) (h : Inv s) : Inv (clearSteady m s) :=
  inv_setLatches _ _ h

theorem inv_latchStop (m : Fin 10) (h : Inv s) : Inv (latchStop m s) :=
  inv_setLatches _ _ h

theorem inv_stopNotice (m : Fin 10) (set clear : CauseSet) (h : Inv s) :
    Inv (stopNotice m set clear s) := by
  unfold stopNotice
  simp only
  split
  · exact h
  · apply inv_enterReport
    split
    · exact inv_setCauses _ _ h
    · exact inv_latchStop _ (inv_setCauses _ _ h)

theorem inv_setCause (m : Fin 10) (c : StopCause) (h : Inv s) : Inv (setCause m c s) :=
  inv_stopNotice _ _ _ h

theorem inv_clearCause (m : Fin 10) (c : StopCause) (h : Inv s) : Inv (clearCause m c s) :=
  inv_stopNotice _ _ _ h

/-! ### Requests -/

theorem inv_frameArrives (c : Instr) (h : Inv s) : Inv (frameArrives c s) := by
  unfold frameArrives
  split
  · next hlt =>
    refine inv_setLink (s := s) ⟨h.link.call, h.link.reports, ?_, h.link.badFrames, h.link.overruns,
      h.link.lost⟩ h
    simp only [List.length_append, List.length_cons, List.length_nil]
    omega
  · exact inv_setLink (s := s) ⟨h.link.call, h.link.reports, h.link.frames, h.link.badFrames,
      satAdd_le _ _ _, h.link.lost⟩ h

theorem inv_attachReply (r : Reply) (h : Inv s) : Inv (attachReply r s) :=
  inv_setLink (s := s) ⟨h.link.call, h.link.reports, by simpa using h.link.frames, h.link.badFrames,
    h.link.overruns, h.link.lost⟩ h

/-- A request keeps the invariant where its act does. -/
theorem inv_request {c : Instr} {tag kind : Byte} {b : Bool} {act : State → State × Answer}
    (hact : ∀ s, Inv s → Inv (act s).1) (h : Inv s) : Inv (request c tag kind b act s) :=
  request_keeps (inv_frameArrives c h) h hact fun r _ h => inv_attachReply r h

end Sys2Proof.Machine
end

