-- ==== Sys2Proof/Laws/InvariantLines.lean ====
section
/-! SUPPORT. The invariant under the cutter, the Line Action Unit, the store queue, the tallies and the Pack
Planner. -/

namespace Sys2Proof.Machine

variable {s : State}

/-- A fold of steps that keep a property keeps it. -/
theorem foldl_keeps {α β : Type} {P : β → Prop} {f : β → α → β} (hf : ∀ b a, P b → P (f b a))
    (l : List α) {b : β} (hb : P b) : P (l.foldl f b) := by
  induction l generalizing b with
  | nil => exact hb
  | cons a rest ih => exact ih (hf _ _ hb)

/-! ### Cutting -/

theorem inv_beginStroke (l : LineId) (h : Inv s) : Inv (beginStroke l s) :=
  inv_setPack _ _ h

theorem inv_cutFires (l : LineId) (h : Inv s) : Inv (cutFires l s) := by
  unfold cutFires
  simp only
  split
  · exact inv_setCause _ _ (inv_setPack _ _ h)
  · exact inv_beginStroke _ (inv_setCause _ _ (inv_setPack _ _ h))

theorem inv_lineStands (l : LineId) (h : Inv s) : Inv (lineStands l s) := by
  unfold lineStands
  split
  · exact inv_beginStroke _ h
  · exact h

/-! ### Mark lists -/

theorem placeMark_length (m : Mark) (marks : List Mark) :
    (placeMark m marks).length = marks.length + 1 := by
  induction marks with
  | nil => rfl
  | cons x rest ih =>
    unfold placeMark
    split <;> simp_all

theorem mapRef_length (r : Nat) (f : Mark → Mark) (marks : List Mark) :
    (mapRef r f marks).length = marks.length := by
  simp [mapRef]

theorem dropRef_length_lt {m : Mark} {marks : List Mark} (hm : m ∈ marks) :
    (dropRef m.ref marks).length < marks.length := by
  induction marks with
  | nil => simp at hm
  | cons x rest ih =>
    unfold dropRef at *
    rw [List.filter_cons]
    have hle : (rest.filter fun k => k.ref != m.ref).length ≤ rest.length := List.length_filter_le _ _
    split
    · next hx =>
      simp only [List.mem_cons] at hm
      rcases hm with rfl | hm
      · simp at hx
      · have := ih hm
        simp only [List.length_cons]
        omega
    · simp only [List.length_cons]
      omega

theorem dropRef_length_le (r : Nat) (marks : List Mark) : (dropRef r marks).length ≤ marks.length :=
  List.length_filter_le _ _

theorem regrow_length_le {m g : Mark} {marks : List Mark} (hm : m ∈ marks) :
    (regrow m g marks).length ≤ marks.length := by
  unfold regrow
  split
  · rw [placeMark_length]
    have := dropRef_length_lt hm
    omega
  · rw [mapRef_length]

theorem absorb_length_le (fuel r : Nat) (marks : List Mark) :
    (absorb fuel r marks).length ≤ marks.length := by
  induction fuel generalizing marks with
  | zero => exact Nat.le_refl _
  | succ n ih =>
    unfold absorb
    split
    · exact Nat.le_refl _
    · next g hg =>
      split
      · exact Nat.le_refl _
      · next m hm =>
        have hmem := List.mem_of_find?_eq_some hm
        have hgmem := List.mem_of_find?_eq_some hg
        have hgr := List.find?_some hg
        have hmr := List.find?_some hm
        simp only [beq_iff_eq, bne_iff_ne, ne_eq, Bool.and_eq_true] at hgr hmr
        have hg' : g ∈ dropRef m.ref marks := by
          simp only [dropRef, List.mem_filter, bne_iff_ne, ne_eq]
          exact ⟨hgmem, by rw [hgr]; exact fun e => hmr.1 e.symm⟩
        have h1 := regrow_length_le (g := g.grow m.x m.stop m.count) hg'
        have h2 := dropRef_length_lt hmem
        have h3 := ih (regrow g (g.grow m.x m.stop m.count) (dropRef m.ref marks))
        omega

/-- A new mark leaves the list within its capacity, and one that merges or folds does not lengthen it. -/
theorem addMark_length {sprayed : Bool} {fresh : Nat} {n : NewMark} {marks : List Mark}
    (h : marks.length ≤ markCapacity) : (addMark sprayed fresh n marks).1.length ≤ markCapacity := by
  unfold addMark
  split
  · next m hm =>
    have hmem := List.mem_of_find?_eq_some hm
    have h1 := absorb_length_le marks.length m.ref
      (regrow m (m.grow n.x (n.x + n.span) n.count) marks)
    have h2 := regrow_length_le (g := m.grow n.x (n.x + n.span) n.count) hmem
    simp only
    omega
  · split
    · simp only [placeMark_length]
      omega
    · split
      · simpa [mapRef_length] using h
      · exact h

theorem inv_judgeHighWater (l : LineId) (h : Inv s) : Inv (judgeHighWater l s) := by
  unfold judgeHighWater
  split
  · exact inv_enterReport _ _ _ (inv_setCause _ _ h)
  · exact h

theorem inv_judgeLowWater (l : LineId) (h : Inv s) : Inv (judgeLowWater l s) := by
  unfold judgeLowWater
  split
  · exact inv_clearCause _ _ h
  · exact h

/-! ### The action queue -/

theorem placeAction_filter_length (p : Action → Bool) (a : Action) (actions : List Action) :
    ((placeAction a actions).filter p).length
      = (actions.filter p).length + if p a then 1 else 0 := by
  induction actions with
  | nil => cases hp : p a <;> simp [placeAction, hp]
  | cons x rest ih =>
    unfold placeAction
    split
    · rw [List.filter_cons, List.filter_cons]
      split
      · simp_all; omega
      · simp_all
    · rw [List.filter_cons]
      split <;> simp_all

theorem sprayCount_placeAction (a : Action) (actions : List Action) :
    sprayCount (placeAction a actions) = sprayCount actions + if a.act.isSpray then 1 else 0 :=
  placeAction_filter_length (fun x => x.act.isSpray) a actions

/-- The CUTs of a queue. -/
theorem cuts_placeAction (a : Action) (actions : List Action) :
    ((placeAction a actions).filter fun x => !x.act.isSpray).length
      = (actions.filter fun x => !x.act.isSpray).length + if a.act.isSpray then 0 else 1 := by
  rw [placeAction_filter_length]
  cases a.act.isSpray <;> simp

theorem filter_filter_length_le (p q : Action → Bool) (actions : List Action) :
    ((actions.filter q).filter p).length ≤ (actions.filter p).length := by
  rw [List.filter_filter]
  have : (fun a => p a && q a) = fun a => q a && p a := by funext a; exact Bool.and_comm _ _
  rw [this, ← List.filter_filter]
  exact List.length_filter_le _ _

/-- A queue from which some actions are taken keeps the invariant. -/
theorem inv_filterActions (l : LineId) (q : Action → Bool) (h : Inv s) :
    Inv (s.setActions l ((s.act l).actions.filter q)) :=
  inv_setActions
    (Nat.le_trans (filter_filter_length_le (fun a => a.act.isSpray) q _) (h.actions l).sprays)
    (Nat.le_trans (filter_filter_length_le _ q _) (h.actions l).cuts) h

theorem inv_fireAct (l : LineId) (a : Act) (h : Inv s) : Inv (fireAct l a s) := by
  unfold fireAct
  split
  · exact inv_setOnCount _ _ h
  · have h1 := inv_setOnCount l ((s.act l).onCount - 1) h
    refine inv_setMarks ?_ h1
    rw [mapRef_length]
    exact (h1.actions l).marks
  · exact inv_cutFires _ h

theorem inv_setSpray (l : LineId) (r : Nat) (v : SprayState) (h : Inv s) :
    Inv (setSpray l r v s) :=
  inv_setMarks (by rw [mapRef_length]; exact (h.actions l).marks) h

theorem act_actions_setOnCount (l : LineId) (n : Nat) :
    ((s.setOnCount l n).act l).actions = (s.act l).actions := by
  simp [State.setOnCount]

/-- A spray action fires without touching the queue. -/
theorem act_actions_fireAct {l : LineId} {a : Act} (ha : a.isSpray = true) :
    ((fireAct l a s).act l).actions = (s.act l).actions := by
  cases a with
  | sprayOn r => exact act_actions_setOnCount l _
  | sprayOff r => simp [fireAct, State.setMarks, State.setOnCount]
  | cut => simp [Act.isSpray] at ha

/-- A spray action is queued where there is room, or fires at once. -/
theorem inv_queueAction {l : LineId} {p : Nat} {a : Action} (ha : a.act.isSpray = true)
    (hroom : sprayCount (s.act l).actions < sprayTop) (h : Inv s) :
    Inv (queueAction l p a s)
      ∧ sprayCount ((queueAction l p a s).act l).actions ≤ sprayCount (s.act l).actions + 1 := by
  unfold queueAction
  split
  · exact ⟨inv_fireAct _ _ h, by rw [act_actions_fireAct ha]; omega⟩
  · refine ⟨inv_setActions ?_ ?_ h, ?_⟩
    · rw [sprayCount_placeAction, ha]
      simp
      omega
    · rw [cuts_placeAction, ha]
      simpa using (h.actions l).cuts
    · simp [State.setActions, sprayCount_placeAction, ha]

theorem inv_queuePair {l : LineId} {how : Making} {on off : Action} (h1 : on.act.isSpray = true)
    (h2 : off.act.isSpray = true) (hroom : sprayCount (s.act l).actions ≤ pairRoom) (h : Inv s) :
    Inv (queuePair l how on off s) := by
  have hr : sprayCount (s.act l).actions + 2 ≤ sprayTop := by
    simp only [pairRoom, sprayTop] at *
    omega
  unfold queuePair
  split
  · refine inv_setActions ?_ ?_ h
    · rw [sprayCount_placeAction, sprayCount_placeAction, h1, h2]
      simp
      omega
    · rw [cuts_placeAction, cuts_placeAction, h1, h2]
      simpa using (h.actions l).cuts
  · next p =>
    obtain ⟨hi, hc⟩ := inv_queueAction (l := l) (p := p) h1 (by omega) h
    exact (inv_queueAction (l := l) h2 (by omega) hi).1

theorem act_actions_setSpray (l : LineId) (r : Nat) (v : SprayState) :
    ((setSpray l r v s).act l).actions = (s.act l).actions := by
  simp [setSpray, State.setMarks]

theorem inv_judgeSpray (l : LineId) (how : Making) (m : Mark) (h : Inv s) :
    Inv (judgeSpray l how m s) := by
  unfold judgeSpray
  split
  · simp only
    split
    · exact inv_setSpray _ _ _ h
    · split
      · next hroom =>
        have h1 := inv_setSpray l m.ref .pending h
        refine inv_queuePair (by rfl) (by rfl) ?_ h1
        rw [act_actions_setSpray]
        exact hroom
      · exact inv_setSpray _ _ _ h
  · exact h

theorem inv_makeMark (l : LineId) (how : Making) (m : Mark) (h : Inv s) :
    Inv (makeMark l how m s) :=
  inv_judgeSpray _ _ _ (inv_setMarks (by rw [mapRef_length]; exact (h.actions l).marks) h)

theorem inv_makeAtOnce (l : LineId) (p r : Nat) (h : Inv s) : Inv (makeAtOnce l p r s) := by
  unfold makeAtOnce
  split
  · split
    · exact inv_makeMark _ _ _ h
    · exact h
  · exact h

/-- Handing a mark to a list keeps the invariant. -/
theorem inv_handMark (l : LineId) (p : Nat) (n : NewMark) (h : Inv s) :
    Inv (handMark l p n s).1 := by
  unfold handMark
  simp only
  have h1 : Inv (s.setAct l
      { s.act l with
        marks := (addMark (MarkKind.mixed.isIn (s.spraySet l)) (s.act l).nextRef n (s.act l).marks).1
        nextRef := (s.act l).nextRef + 1 }) :=
    inv_setAct ⟨addMark_length (h.actions l).marks, (h.actions l).sprays, (h.actions l).cuts,
      (h.actions l).marker⟩ h
  apply inv_makeAtOnce
  split
  · exact inv_judgeHighWater _ h1
  · split
    · exact inv_judgeLowWater _ h1
    · exact h1
  · exact h1

theorem inv_insertMark (l : LineId) (p : Nat) (n : NewMark) (h : Inv s) :
    Inv (insertMark l p n s) :=
  inv_handMark _ _ _ h

theorem inv_insertMarks (l : LineId) (p : Nat) (ns : List NewMark) (h : Inv s) :
    Inv (insertMarks l p ns s) :=
  foldl_keeps (fun _ n h => inv_insertMark l p n h) ns h

theorem inv_makeReached (l : LineId) (p : Nat) (h : Inv s) : Inv (makeReached l p s) :=
  foldl_keeps (fun _ m h => inv_makeMark l _ m h) _ h

theorem inv_fireReached (l : LineId) (p : Nat) (h : Inv s) : Inv (fireReached l p s) :=
  foldl_keeps (P := Inv) (f := fun acc (a : Action) => fireAct l a.act acc)
    (fun _ a h => inv_fireAct l a.act h) _ (inv_filterActions l _ h)

theorem inv_hitWatch (l : LineId) (p : Nat) (w : Nat × Fin 4) (h : Inv s) : Inv (hitWatch l p w s) :=
  inv_enterReport _ _ _ (inv_setCause _ _ (inv_setWatch _ _ _ h))

theorem inv_actionsRise (l : LineId) (p : Nat) (h : Inv s) : Inv (actionsRise l p s) :=
  foldl_keeps (fun _ w h => inv_hitWatch l p w h) _ (inv_fireReached _ _ (inv_makeReached _ _ h))

/-- Placing a CUT keeps the invariant: it takes the place of one already queued. -/
theorem inv_placeCut (l : LineId) (trigger : Nat) (h : Inv s) : Inv (placeCut l trigger s) := by
  have h1 := inv_filterActions l (fun a => a.act.isSpray) h
  unfold placeCut
  simp only
  split
  · exact inv_cutFires _ h1
  · refine inv_setActions ?_ ?_ h1
    · rw [sprayCount_placeAction]
      simpa [Act.isSpray] using (h1.actions l).sprays
    · rw [cuts_placeAction]
      simp [Act.isSpray, State.setActions, List.filter_filter]

theorem inv_releaseCut (l : LineId) (h : Inv s) : Inv (releaseCut l s) := by
  unfold releaseCut
  simp only
  split
  · exact inv_cutFires _ (inv_filterActions _ _ h)
  · exact h

theorem inv_removePackageMarks (n : Nat) (h : Inv s) : Inv (removePackageMarks n s) := by
  unfold removePackageMarks
  simp only
  have h1 : Inv (s.setMarks .rope ((s.act .rope).marks.filter fun m => m.made || m.source != some n)) :=
    inv_setMarks (Nat.le_trans (List.length_filter_le _ _) (h.actions .rope).marks) h
  split
  · exact inv_judgeLowWater _ h1
  · exact h1

theorem divideMarks_length_le (cut : Nat) (marks : List Mark) :
    (divideMarks cut marks).2.length ≤ marks.length := by
  have h1 : ((marks.filter fun m => decide (m.x < cut)).filter fun m => decide (cut < m.stop)).length
      ≤ (marks.filter fun m => decide (m.x < cut)).length := List.length_filter_le _ _
  have h2 : (marks.filter fun m => decide (m.x < cut)).length
      + (marks.filter fun m => decide (cut ≤ m.x)).length = marks.length := by
    clear h1
    induction marks with
    | nil => rfl
    | cons m rest ih =>
      simp only [List.filter_cons]
      by_cases hm : m.x < cut
      · have hn : ¬ cut ≤ m.x := by omega
        simp only [hm, hn, decide_true, decide_false, if_true, List.length_cons,
          Bool.false_eq_true, if_false]
        omega
      · have hn : cut ≤ m.x := by omega
        simp only [hm, hn, decide_true, decide_false, if_true, List.length_cons,
          Bool.false_eq_true, if_false]
        omega
  simp only [divideMarks, List.length_append, List.length_map]
  omega

theorem inv_takeCoilMarks (l : LineId) (cut : Nat) (h : Inv s) : Inv (takeCoilMarks l cut s).1 := by
  unfold takeCoilMarks
  simp only
  have h1 : Inv (s.setMarks l (divideMarks cut (s.act l).marks).2) :=
    inv_setMarks (Nat.le_trans (divideMarks_length_le _ _) (h.actions l).marks) h
  split
  · exact inv_judgeLowWater _ h1
  · exact h1

theorem inv_addMarkAct (machine position span : Nat) (s : State) (h : Inv s) :
    Inv (addMarkAct machine position span s).1 := by
  unfold addMarkAct
  refine guarded_keeps h fun _ => onLine_keeps h fun l => guarded_keeps h fun _ => ?_
  exact inv_handMark _ _ _ h

theorem inv_readMarksAct (machine start skip count : Nat) (s : State) (h : Inv s) :
    Inv (readMarksAct machine start skip count s).1 := by
  unfold readMarksAct
  exact guarded_keeps h fun _ => onLine_keeps h fun l => h

theorem inv_setWatchAct (machine position : Nat) (s : State) (h : Inv s) :
    Inv (setWatchAct machine position s).1 := by
  unfold setWatchAct
  refine guarded_keeps h fun _ => onLine_keeps h fun l => guarded_keeps h fun _ => ?_
  split
  · exact inv_setWatch _ _ _ h
  · exact h

theorem inv_clearWatchAct (machine watch : Nat) (s : State) (h : Inv s) :
    Inv (clearWatchAct machine watch s).1 := by
  unfold clearWatchAct
  refine guarded_keeps h fun _ => onLine_keeps h fun l => ?_
  exact inv_setWatch _ _ _ h

/-! ### The store queue and the tallies -/

theorem promote_filter_length (q : List StoreEntry) :
    ((promote q).filter fun e => e.op.isGeneral).length = (q.filter fun e => e.op.isGeneral).length := by
  induction q with
  | nil => rfl
  | cons e rest ih =>
    unfold promote
    split
    · simp only [List.filter_cons]
      split <;> simp_all
    · simp only [List.filter_cons]
      split <;> simp_all

theorem promote_ops {q : List StoreEntry} (h : ∀ e ∈ q, e.op.inRange = true) :
    ∀ e ∈ promote q, e.op.inRange = true := by
  induction q with
  | nil => simp [promote]
  | cons e rest ih =>
    unfold promote
    simp only [List.mem_cons, forall_eq_or_imp] at h
    split
    · simp only [List.mem_cons, forall_eq_or_imp]
      exact h
    · simp only [List.mem_cons, forall_eq_or_imp]
      exact ⟨h.1, ih h.2⟩

theorem inv_startNext (h : Inv s) : Inv (startNext s) := by
  unfold startNext
  split
  · exact h
  · exact inv_queue (by rw [promote_filter_length]; exact h.store.general)
      (promote_ops h.store.ops) h

/-- Placing an operation keeps the invariant, where it is in range and a general one finds an entry free. -/
theorem inv_placeOp {op : StoreOp} (hr : op.inRange = true)
    (hg : op.isGeneral = true → s.generalFree = true) (h : Inv s) : Inv (placeOp op s) := by
  refine inv_startNext (inv_queue ?_ ?_ h)
  · rw [List.filter_append, List.length_append]
    cases hop : op.isGeneral with
    | false => simpa [hop] using h.store.general
    | true =>
      have := hg hop
      simp only [State.generalFree, decide_eq_true_eq] at this
      simp [hop]
      omega
  · intro e he
    simp only [List.mem_append, List.mem_singleton] at he
    rcases he with he | rfl
    · exact h.store.ops e he
    · exact hr

theorem inv_filterQueue (p : StoreEntry → Bool) (h : Inv s) :
    Inv { s with queue := s.queue.filter p } := by
  refine inv_queue ?_ (fun e he => h.store.ops e (List.mem_of_mem_filter he)) h
  rw [List.filter_filter]
  have : (fun e : StoreEntry => e.op.isGeneral && p e) = fun e => p e && e.op.isGeneral := by
    funext e; exact Bool.and_comm _ _
  rw [this, ← List.filter_filter]
  exact Nat.le_trans (List.length_filter_le _ _) h.store.general

theorem inv_endOp (h : Inv s) : Inv (endOp s) :=
  inv_startNext (inv_filterQueue _ h)

theorem inv_holdOp (h : Inv s) : Inv (holdOp s) := by
  refine inv_startNext (inv_queue ?_ ?_ h)
  · have : ∀ q : List StoreEntry,
        ((q.map fun e => if e.state = .running then { e with state := .held } else e).filter
          fun e => e.op.isGeneral).length = (q.filter fun e => e.op.isGeneral).length := by
      intro q
      induction q with
      | nil => rfl
      | cons e rest ih =>
        simp only [List.map_cons, List.filter_cons]
        split <;> split <;> simp_all
    rw [this]
    exact h.store.general
  · intro e he
    simp only [List.mem_map] at he
    obtain ⟨x, hx, rfl⟩ := he
    have := h.store.ops x hx
    split <;> exact this

theorem heldWrites_ops {q : List StoreEntry} {l : LineId} :
    ∀ e ∈ (q.filter (StoreEntry.isHeldWrite l)).map fun e => { e with state := .waiting },
      e.op = .coilWrite l := by
  intro e he
  simp only [List.mem_map, List.mem_filter, StoreEntry.isHeldWrite, Bool.and_eq_true,
    beq_iff_eq] at he
  obtain ⟨x, hx, rfl⟩ := he
  exact hx.2.1

theorem inv_requeueHeld (h : Inv s) : Inv (requeueHeld s) := by
  have hnone : ∀ l : LineId,
      (((s.queue.filter (StoreEntry.isHeldWrite l)).map fun e => { e with state := .waiting }).filter
        fun e => e.op.isGeneral) = [] := by
    intro l
    rw [List.filter_eq_nil_iff]
    intro e he
    rw [heldWrites_ops e he]
    simp [StoreOp.isGeneral]
  refine inv_queue ?_ ?_ h
  · simp only [List.filter_append, hnone, List.append_nil]
    exact (inv_filterQueue (fun e => e.state != .held) h).store.general
  · intro e he
    simp only [List.mem_append] at he
    rcases he with (he | he) | he
    · exact h.store.ops e (List.mem_of_mem_filter he)
    · rw [heldWrites_ops e he]; rfl
    · rw [heldWrites_ops e he]; rfl

theorem inv_reportDone (a : Area) (n k : Nat) (h : Inv s) : Inv (reportDone a n k s) :=
  inv_enterReport _ _ _ h

theorem inv_reportFailed (a : Area) (n : Nat) (r : FailReason) (k : Nat) (h : Inv s) :
    Inv (reportFailed a n r k s) :=
  inv_enterReport _ _ _ h

theorem inv_reportEnd (ok : Bool) (a : Area) (n k : Nat) (h : Inv s) : Inv (reportEnd ok a n k s) := by
  unfold reportEnd
  split
  · exact inv_reportDone _ _ _ h
  · exact inv_reportFailed _ _ _ _ h

theorem inv_placeStep (m : Fin 10) (h : Inv s) : Inv (placeStep m s) := by
  unfold placeStep
  simp only
  split
  · next hc =>
    exact inv_placeOp rfl (fun _ => hc.2.2.2) (inv_setTally _ _ h)
  · exact h

theorem inv_reportFull (m : Fin 10) (h : Inv s) : Inv (reportFull m s) := by
  unfold reportFull
  split
  · exact h
  · exact inv_enterReport _ _ _ (inv_setTally _ _ h)

theorem inv_addFine (m : Fin 10) (mm : Nat) (h : Inv s) : Inv (addFine m mm s) := by
  unfold addFine
  simp only
  split
  · split
    · exact inv_reportFull _ (inv_setTally _ _ h)
    · exact inv_setTally _ _ h
  · split
    · exact inv_placeStep _ (inv_setTally _ _ h)
    · exact inv_setTally _ _ h

theorem inv_judgeService (m : Fin 10) (b : Nat) (h : Inv s) : Inv (judgeService m b s) := by
  unfold judgeService
  simp only
  split
  · exact inv_enterReport _ _ _ h
  · exact h

theorem inv_tallyAdd (m : Fin 10) (mm : Nat) (h : Inv s) : Inv (tallyAdd m mm s) := by
  unfold tallyAdd
  split
  · exact h
  · exact inv_judgeService _ _ (inv_addFine _ _ h)

theorem stepMemory_ok {m : Fin 10} {x : Progress} (hx : x.Ok) : (stepMemory m x).1.Ok := by
  unfold stepMemory
  simp only
  split
  · next i hi =>
    have hmem := List.mem_of_find?_eq_some hi
    simp only [List.mem_range] at hmem
    refine progress_program_ok hx ?_ ?_
    · simp only [tallyPage, pageCount]
      omega
    · simp only [List.length_cons, List.length_nil]
      omega
  · exact hx

theorem inv_tallyStepEnds (m : Fin 10) (ok : Bool) (h : Inv s) : Inv (tallyStepEnds m ok s) := by
  unfold tallyStepEnds
  simp only
  apply inv_placeStep
  apply inv_endOp
  split
  · exact inv_setTally _ _ h
  · exact inv_reportFailed _ _ _ _ (inv_setTally _ _ h)

/-- The progress an operation begins with. -/
theorem Inv.progress (h : Inv s) (faults : List StepFault) (b : Option Nat) :
    Progress.Ok { mem := s.flash, faults := faults, budget := b } :=
  ⟨h.store.memory, h.store.within⟩

theorem inv_tallyStepEvent (faults : List StepFault) (h : Inv s) : Inv (tallyStepEvent faults s) := by
  unfold tallyStepEvent
  split
  · next m _ =>
    have hx := stepMemory_ok (m := m) (h.progress faults none)
    simp only
    apply inv_tallyStepEnds
    exact inv_flash hx.wf hx.within h
  · exact h

theorem inv_readTallyAct (n : Nat) (s : State) (h : Inv s) : Inv (readTallyAct n s).1 := by
  unfold readTallyAct
  exact guarded_keeps h fun _ => h

/-! ### The Pack Planner -/

theorem inv_placePlan (l : LineId) (c : Nat) (g : Option Grade) (o : CutOrigin) (n : Bool)
    (h : Inv s) : Inv (placePlan l c g o n s) :=
  inv_placeCut _ _ (inv_setPack _ _ h)

theorem inv_planningEvent (l : LineId) (p : Nat) (h : Inv s) : Inv (planningEvent l p s) := by
  unfold planningEvent
  split
  · split
    · exact inv_placePlan _ _ _ _ _ h
    · exact h
  · exact h

theorem inv_panelEnds (e : Nat) (h : Inv s) : Inv (panelEnds e s) := by
  unfold panelEnds
  split
  · split
    · exact inv_placePlan _ _ _ _ _ h
    · exact h
  · exact h

theorem inv_reportBlocked (l : LineId) (o : Order) (r : BlockReason) (h : Inv s) :
    Inv (reportBlocked l o r s) :=
  inv_enterReport _ _ _ h

theorem inv_tryBinding (l : LineId) (h : Inv s) : Inv (tryBinding l s) := by
  unfold tryBinding
  split
  · split
    · exact inv_reportBlocked _ _ _ h
    · split
      · exact inv_reportBlocked _ _ _ h
      · exact inv_planningEvent _ _ (inv_setPack _ _ h)
  · exact h

theorem inv_openCoil (l : LineId) (x : Nat) (h : Inv s) : Inv (openCoil l x s) :=
  inv_tryBinding _ (inv_setPack _ _ h)

theorem inv_packLoads (l : LineId) (h : Inv s) : Inv (packLoads l s) := by
  unfold packLoads
  split
  · exact inv_openCoil _ _ h
  · exact inv_tryBinding _ (inv_setPack _ _ h)
  · exact inv_tryBinding _ (inv_setPack _ _ h)
  · exact h

theorem inv_packRestarts (l : LineId) (v : Nat) (h : Inv s) : Inv (packRestarts l v s) := by
  unfold packRestarts
  split
  · exact h
  · exact inv_setPack _ _ h

theorem inv_recordPackage (n : Nat) (h : Inv s) : Inv (recordPackage n s) := by
  unfold recordPackage
  simp only
  split
  · exact h
  · split
    · exact inv_setPack _ _ h
    · exact inv_setPack _ _ h

theorem map_number_orders {f : Order → Order} (hf : ∀ o, (f o).number = o.number) (n : Nat)
    (os : List Order) :
    (os.map fun o => if o.number = n then f o else o).map Order.number = os.map Order.number := by
  rw [List.map_map]
  apply List.map_congr_left
  intro o _
  simp only [Function.comp]
  split
  · exact hf o
  · rfl

theorem bands_map {f : Order → Order} (hf : ∀ o, (f o).low = o.low ∧ (f o).target = o.target) (n : Nat)
    {os : List Order} (h : ∀ o ∈ os, o.low < o.target) :
    ∀ o ∈ os.map fun o => if o.number = n then f o else o, o.low < o.target := by
  intro o ho
  obtain ⟨x, hx, rfl⟩ := List.mem_map.mp ho
  have := h x hx
  split
  · rw [(hf x).1, (hf x).2]; exact this
  · exact this

theorem inv_countCoil (n : Nat) (h : Inv s) : Inv (countCoil n s) := by
  refine inv_orders (by simpa using h.tables.orders) ?_
    (bands_map (f := fun o => { o with done := o.done + 1 }) (fun _ => ⟨rfl, rfl⟩) _ h.tables.bands) h
  rw [map_number_orders (f := fun o => { o with done := o.done + 1 }) (fun _ => rfl)]
  exact h.tables.orderNumbers

theorem inv_removeOrder (n : Nat) (h : Inv s) : Inv (removeOrder n s) :=
  inv_orders (Nat.le_trans (List.length_filter_le _ _) h.tables.orders)
    (List.Nodup.sublist (List.Sublist.map _ List.filter_sublist) h.tables.orderNumbers)
    (fun o ho => h.tables.bands o (List.mem_filter.mp ho).1) h

theorem inv_fillOrder (l : LineId) (r : CoilRecord) (h : Inv s) : Inv (fillOrder l r s) := by
  unfold fillOrder
  split
  · split
    · exact inv_removeOrder _ (inv_enterReport _ _ _ h)
    · exact h
  · exact h

theorem inv_countAndReport (l : LineId) (r : CoilRecord) (h : Inv s) :
    Inv (countAndReport l r s) := by
  unfold countAndReport
  simp only
  apply inv_fillOrder
  apply inv_enterReport
  split
  · exact h
  · exact inv_countCoil _ h

theorem inv_queueRecord (l : LineId) (r : CoilRecord) (h : Inv s) : Inv (queueRecord l r s) :=
  inv_placeOp rfl (fun e => by simp [StoreOp.isGeneral] at e) (inv_setPack _ _ h)

theorem inv_completeCut (l : LineId) (manual : Bool) (h : Inv s) : Inv (completeCut l manual s) := by
  unfold completeCut
  simp only
  apply inv_stopNotice
  apply inv_openCoil
  apply inv_queueRecord
  apply inv_countAndReport
  apply inv_takeCoilMarks
  exact inv_setPack _ _ h

theorem inv_cutterDone (l : LineId) (h : Inv s) : Inv (cutterDone l s) := by
  unfold cutterDone
  split
  · split
    · exact inv_completeCut _ _ h
    · exact h
  · exact inv_completeCut _ _ h
  · exact h

theorem inv_strokeFails (l : LineId) (h : Inv s) : Inv (strokeFails l s) :=
  inv_enterReport _ _ _ (inv_stopNotice _ _ _ (inv_setPack _ _ h))

theorem inv_cutTimerEvent (l : LineId) (h : Inv s) : Inv (cutTimerEvent l s) := by
  unfold cutTimerEvent
  split
  · exact inv_strokeFails _ (inv_reach _ h)
  · exact h

theorem inv_start (x : StartState) (h : Inv s) : Inv { s with link := { s.link with start := x } } :=
  inv_setLink ⟨h.link.call, h.link.reports, h.link.frames, h.link.badFrames, h.link.overruns,
    h.link.lost⟩ h

theorem inv_onOutcome {act : State → State} (ha : ∀ x : State, Inv x → Inv (act x)) (h : Inv s) :
    Inv (onOutcome act s) := by
  unfold onOutcome
  split
  · exact inv_start _ (ha _ (inv_start _ h))
  · exact ha s h

theorem inv_recordWritten (l : LineId) (h : Inv s) : Inv (recordWritten l s) :=
  inv_onOutcome (fun _ hx => inv_releaseCut _ (inv_clearCause _ _ (inv_setPack _ _ hx))) h

theorem inv_recordHeld (l : LineId) (d : LogDetail) (h : Inv s) : Inv (recordHeld l d s) :=
  inv_onOutcome (fun _ hx => inv_enterReport _ _ _ (inv_setCause _ _ (inv_setPack _ _ hx))) h

theorem inv_voidCoil (n : Nat) (b : Bool) (h : Inv s) : Inv (voidCoil n b s) := by
  unfold voidCoil
  split
  · exact h
  · refine inv_orders (by simpa using h.tables.orders) ?_
      (bands_map (f := fun o => { o with done := o.done - 1 }) (fun _ => ⟨rfl, rfl⟩) _ h.tables.bands) h
    rw [map_number_orders (f := fun o => { o with done := o.done - 1 }) (fun _ => rfl)]
    exact h.tables.orderNumbers

theorem order_none {n : Nat} (h : (s.order n).isNone = true) : n ∉ s.orders.map Order.number := by
  simp only [State.order, Option.isNone_iff_eq_none, List.find?_eq_none, beq_iff_eq] at h
  simp only [List.mem_map, not_exists, not_and]
  exact fun o ho e => h o ho e

theorem inv_addOrderAct (e : OrderEntry) (s : State) (h : Inv s) : Inv (addOrderAct e s).1 := by
  unfold addOrderAct
  refine guarded_keeps h fun hc => ?_
  have h1 := hc ((s.order e.number).isNone, .state .duplicate) (by simp)
  have h2 := hc (decide (s.orders.length < orderCapacity), .state .queueFull) (by simp)
  have h3 := hc (decide (e.low ≤ 50000) && decide (e.low < e.target), .field 6) (by simp [orderFields])
  simp only [decide_eq_true_eq, Bool.and_eq_true] at h1 h2 h3
  apply inv_tryBinding
  refine inv_orders ?_ ?_ ?_ h
  · simp only [List.length_append, List.length_cons, List.length_nil]
    omega
  · rw [List.map_append, List.nodup_append]
    refine ⟨h.tables.orderNumbers, by simp, ?_⟩
    intro a ha b hb
    simp only [List.map_cons, List.map_nil, List.mem_singleton] at hb
    subst hb
    exact fun heq => order_none h1 (by rw [heq] at ha; exact ha)
  · intro o ho
    rcases List.mem_append.mp ho with ho | ho
    · exact h.tables.bands o ho
    · rw [List.mem_singleton.mp ho]; exact h3.2

theorem inv_cancelOrder (o : Order) (s : State) (h : Inv s) : Inv (cancelOrder o s) := by
  unfold cancelOrder
  split
  · exact inv_tryBinding _ (inv_setPack _ _ (inv_removeOrder _ h))
  · exact inv_tryBinding _ (inv_removeOrder _ h)

theorem inv_cancelOrderAct (n : Nat) (s : State) (h : Inv s) : Inv (cancelOrderAct n s).1 := by
  unfold cancelOrderAct
  refine guarded_keeps h fun _ => ?_
  split
  · exact inv_cancelOrder _ _ h
  · exact h

theorem inv_readOrdersAct (k n : Nat) (s : State) (h : Inv s) : Inv (readOrdersAct k n s).1 := by
  unfold readOrdersAct
  exact guarded_keeps h fun _ => h

theorem inv_endCoilAct (m : Nat) (s : State) (h : Inv s) : Inv (endCoilAct m s).1 := by
  unfold endCoilAct
  refine guarded_keeps h fun _ => onLine_keeps h fun l => guarded_keeps h fun _ => ?_
  exact inv_placeCut _ _ (inv_setPack _ _ h)

theorem inv_cutManualAct (m : Nat) (s : State) (h : Inv s) : Inv (cutManualAct m s).1 := by
  unfold cutManualAct
  refine guarded_keeps h fun _ => onLine_keeps h fun l => guarded_keeps h fun _ => ?_
  exact inv_completeCut _ _ h

theorem inv_packStatusAct (m : Nat) (s : State) (h : Inv s) : Inv (packStatusAct m s).1 := by
  unfold packStatusAct
  exact guarded_keeps h fun _ => onLine_keeps h fun l => h

end Sys2Proof.Machine
end

