-- ==== Sys2Proof/Laws/InvariantBlocks.lean ====
section
/-! SUPPORT. The invariant under the coil log, the Package Table, the Twist Monitor, the Knot Scanner, the Length Meter,
the Count Inputs, the recipes and the Link Port. -/

namespace Sys2Proof.Machine

variable {s : State}

/-! ### Lengths of what is programmed -/

theorem padTo_length (n : Nat) (b : List Byte) : (padTo n b).length = n := by
  simp [padTo]

theorem coilBytes_length (n : Nat) (r : CoilRecord) : (r.bytes n).length = 115 := by
  simp [CoilRecord.bytes, be_length, padTo_length]

theorem recordBody_length (n : Nat) (r : CoilRecord) : (recordBody n r).length = 117 := by
  simp [recordBody, be_length, coilBytes_length]

theorem headerBytes_length (a b : Nat) : (headerBytes a b).length = 10 := by
  simp [headerBytes, be_length]

/-! ### The coil log -/

/-- An attempt whose memory and write point are as the invariant says. -/
structure Attempt.Ok (a : Attempt) : Prop where
  x : a.x.Ok
  page : 43 ≤ a.log.page ∧ a.log.page ≤ 138
  slot : a.log.slot ≤ 3

theorem nextPage_range {p : Nat} (h : 43 ≤ p ∧ p ≤ 138) : 43 ≤ nextPage p ∧ nextPage p ≤ 138 := by
  unfold nextPage
  split <;> omega

/-- The write point moves within the log. -/
theorem advance_range {x : LogState} (hp : 43 ≤ x.page ∧ x.page ≤ 138) (hs : x.slot ≤ 3) :
    (43 ≤ x.advance.page ∧ x.advance.page ≤ 138) ∧ x.advance.slot ≤ 3 := by
  unfold LogState.advance
  split
  · exact ⟨hp, by simp only; omega⟩
  · exact ⟨nextPage_range hp, by simp only; omega⟩

theorem spend_page (x : LogState) : x.spend.page = x.page := by
  unfold LogState.spend; split <;> rfl

theorem spend_slot (x : LogState) : x.spend.slot = x.slot := by
  unfold LogState.spend; split <;> rfl

/-- A spent number moves no write point. -/
theorem spent_range {x : LogState} (c : Bool) (hp : 43 ≤ x.page ∧ x.page ≤ 138) (hs : x.slot ≤ 3) :
    (43 ≤ (if c then x.spend else x).advance.page ∧
      (if c then x.spend else x).advance.page ≤ 138) ∧
      (if c then x.spend else x).advance.slot ≤ 3 := by
  cases c
  · exact advance_range hp hs
  · exact advance_range (by rw [if_pos rfl, spend_page]; exact hp)
      (by rw [if_pos rfl, spend_slot]; exact hs)

theorem unhead_ok {page : Nat} {x : Progress} (h : x.Ok) : (x.unhead page).Ok := by
  unfold Progress.unhead
  split
  · refine ⟨filter_wfFrom _ h.wf, ?_⟩
    have hw := h.within
    simp only [Memory.within, Memory.clearHeader, List.all_eq_true, List.mem_filter] at *
    exact fun c hc => hw c hc.1
  · exact h

theorem beginPage_ok {a : Attempt} (h : a.Ok) : (beginPage a).1.Ok := by
  have hp : a.log.page < pageCount := by have := h.page; simp only [pageCount]; omega
  have h1 := progress_erase_ok h.x hp
  unfold beginPage
  simp only
  split
  · have h2 := progress_program_ok (offset := headerOffset)
      (bytes := headerBytes (nextSequence a.x.mem a.log) a.log.next) h1 hp
      (by simp [headerBytes_length, headerOffset, pageSize])
    split
    · exact ⟨h2, h.page, h.slot⟩
    · exact ⟨unhead_ok h2, h.page, h.slot⟩
  · split
    · exact ⟨h1, h.page, h.slot⟩
    · exact ⟨unhead_ok h1, h.page, h.slot⟩

theorem prepare_ok {a : Attempt} (h : a.Ok) : (prepare a).1.Ok := by
  unfold prepare
  split
  · exact h
  · split
    · exact h
    · exact beginPage_ok h

theorem spoil_ok {a : Attempt} (h : a.Ok) : (spoil a).Ok := by
  have hp : a.log.page < pageCount := by have := h.page; simp only [pageCount]; omega
  have hs := h.slot
  have hroom : slotOffset a.log.slot 0 + ([0] : List Byte).length ≤ pageSize := by
    simp only [slotOffset, slotSize, pageSize, List.length_cons, List.length_nil]
    omega
  have h1 := progress_program_ok (bytes := [0]) h.x hp hroom
  have h2 := progress_program_ok (bytes := [0]) h1 hp hroom
  unfold spoil
  simp only
  generalize hq : a.x.program a.log.page (slotOffset a.log.slot 0) [0] = q at *
  obtain ⟨x1, ok⟩ := q
  simp only at h1 h2 ⊢
  constructor
  · simp only
    split
    · exact h1
    · exact h2
  · exact (spent_range _ h.page h.slot).1
  · exact (spent_range _ h.page h.slot).2

theorem writeSlot_ok {a : Attempt} (r : CoilRecord) (h : a.Ok) : (writeSlot r a).1.Ok := by
  have hp : a.log.page < pageCount := by have := h.page; simp only [pageCount]; omega
  have hs := h.slot
  have h1 := progress_program_ok (offset := slotOffset a.log.slot 1)
    (bytes := recordBody a.log.next r) h.x hp
    (by rw [recordBody_length]; simp only [slotOffset, slotSize, pageSize]; omega)
  unfold writeSlot
  simp only
  split
  · refine progress_program_ok h1 hp ?_
    simp only [slotOffset, slotSize, pageSize, List.length_cons, List.length_nil]
    omega
  · exact h1

theorem tryWrite_ok {a : Attempt} (r : CoilRecord) (h : a.Ok) : (tryWrite r a).1.Ok := by
  have h1 := prepare_ok h
  unfold tryWrite
  generalize prepare a = q at *
  obtain ⟨b, e⟩ := q
  replace h1 : b.Ok := h1
  have h2 := writeSlot_ok r h1
  have h3 := spent_range (x := b.log) true h1.page h1.slot
  split
  · exact h
  · cases e
    · simp only
      generalize writeSlot r b = w at *
      obtain ⟨x, ok⟩ := w
      replace h2 : x.Ok := h2
      cases ok
      · exact spoil_ok ⟨h2, h1.page, h1.slot⟩
      · exact ⟨h2, h3.1, h3.2⟩
    · exact h1
    · exact h1

theorem attemptWrite_ok {a : Attempt} (r : CoilRecord) (h : a.Ok) : (attemptWrite r a).1.Ok := by
  have h1 := tryWrite_ok r h
  unfold attemptWrite
  split
  · next b hb => rw [hb] at h1; exact h1
  · next b hb => rw [hb] at h1; exact h1
  · next b hb =>
    rw [hb] at h1
    have h2 := tryWrite_ok r h1
    split
    · next c hc => rw [hc] at h2; exact h2
    · next c hc => rw [hc] at h2; exact h2
    · next c hc => rw [hc] at h2; exact h2

theorem inv_attemptEnds (l : LineId) (e : WriteEnd) (h : Inv s) : Inv (attemptEnds l e s) := by
  unfold attemptEnds
  split
  · exact inv_endOp (inv_recordWritten _ h)
  · exact inv_holdOp (inv_recordHeld _ _ h)
  · exact inv_holdOp (inv_reportFailed _ _ _ _ (inv_recordHeld _ _ h))

/-- The attempt a write begins with. -/
theorem Inv.attempt (h : Inv s) (faults : List StepFault) (b : Option Nat) :
    Attempt.Ok ⟨{ mem := s.flash, faults := faults, budget := b }, s.log⟩ :=
  ⟨h.progress faults b, h.store.page, h.store.slot⟩

theorem inv_coilWriteEvent (faults : List StepFault) (h : Inv s) : Inv (coilWriteEvent faults s) := by
  unfold coilWriteEvent
  split
  · split
    · next r _ =>
      have ha := attemptWrite_ok r.coil (h.attempt faults none)
      simp only
      apply inv_attemptEnds
      exact inv_store ha.x.wf ha.x.within ha.page ha.slot h
    · exact h
  · exact h

theorem insertSlot_mem {m : Memory} {p x : SlotPlace} {l : List SlotPlace}
    (h : x ∈ insertSlot m p l) : x = p ∨ x ∈ l := by
  induction l with
  | nil => simpa [insertSlot] using h
  | cons y rest ih =>
    unfold insertSlot at h
    split at h
    · simp only [List.mem_cons] at h ⊢
      rcases h with h | h
      · exact Or.inr (Or.inl h)
      · rcases ih h with h | h
        · exact Or.inl h
        · exact Or.inr (Or.inr h)
    · simpa using h

theorem foldl_insertSlot_mem {m : Memory} {x : SlotPlace} (ps acc : List SlotPlace)
    (h : x ∈ ps.foldl (fun acc p => insertSlot m p acc) acc) : x ∈ ps ∨ x ∈ acc := by
  induction ps generalizing acc with
  | nil => exact Or.inr h
  | cons p rest ih =>
    rcases ih _ h with h | h
    · exact Or.inl (List.mem_cons_of_mem _ h)
    · rcases insertSlot_mem h with rfl | h
      · exact Or.inl (List.mem_cons_self ..)
      · exact Or.inr h

theorem logPages_range {p : Nat} (h : p ∈ logPages) : 43 ≤ p ∧ p ≤ 138 := by
  simp only [logPages, List.mem_map, List.mem_range] at h
  obtain ⟨i, hi, rfl⟩ := h
  omega

theorem slotsOf_mem {page : Nat} {p : SlotPlace} (h : p ∈ slotsOf page) :
    p.page = page ∧ p.slot ≤ 3 := by
  simp only [slotsOf, List.mem_cons, List.not_mem_nil, or_false] at h
  rcases h with rfl | rfl | rfl | rfl <;> exact ⟨rfl, by simp⟩

/-- A record in the log stands in one of its slots. -/
theorem recordsInLog_range {m : Memory} {p : SlotPlace} (h : p ∈ recordsInLog m) :
    (43 ≤ p.page ∧ p.page ≤ 138) ∧ p.slot ≤ 3 := by
  rcases foldl_insertSlot_mem _ _ h with h | h
  · simp only [List.mem_filter, List.mem_flatMap, headeredPages] at h
    obtain ⟨⟨page, ⟨hp, _⟩, hs⟩, _⟩ := h
    obtain ⟨h1, h2⟩ := slotsOf_mem hs
    exact ⟨by rw [h1]; exact logPages_range hp, h2⟩
  · simp at h

theorem clearFlag_ok {keep : Byte} {p : SlotPlace} {x : Progress} (hx : x.Ok)
    (hp : (43 ≤ p.page ∧ p.page ≤ 138) ∧ p.slot ≤ 3) : (clearFlag keep p x).1.Ok := by
  have h0 : p.page < pageCount := by simp only [pageCount]; omega
  have hroom : ∀ b : Byte, slotOffset p.slot 0 + [b].length ≤ pageSize := by
    intro b
    simp only [slotOffset, slotSize, pageSize, List.length_cons, List.length_nil]
    omega
  have h1 := progress_program_ok hx h0 (hroom (stateByte x.mem p &&& keep))
  have h2 := progress_program_ok h1 h0 (hroom (stateByte x.mem p &&& keep))
  unfold clearFlag
  simp only
  split
  · exact h1
  · exact h2

theorem takeRecords_ok {ps : List SlotPlace} {x : Progress} (hx : x.Ok)
    (hp : ∀ p ∈ ps, (43 ≤ p.page ∧ p.page ≤ 138) ∧ p.slot ≤ 3) : (takeRecords ps x).1.Ok := by
  induction ps generalizing x with
  | nil => exact hx
  | cons p rest ih =>
    have h1 := clearFlag_ok (keep := 0xBF) hx (hp p (List.mem_cons_self ..))
    exact ih h1 fun q hq => hp q (List.mem_cons_of_mem _ hq)

theorem takeMemory_ok {upTo : Nat} {x : Progress} (hx : x.Ok) : (takeMemory upTo x).1.Ok :=
  takeRecords_ok hx fun _ hp => recordsInLog_range (List.mem_of_mem_filter hp)

theorem inv_logTakeEvent (faults : List StepFault) (h : Inv s) : Inv (logTakeEvent faults s) := by
  unfold logTakeEvent
  split
  · next upTo _ =>
    have hx := takeMemory_ok (upTo := upTo) (h.progress faults none)
    simp only
    apply inv_endOp
    apply inv_requeueHeld
    apply inv_reportEnd
    exact inv_store hx.wf hx.within h.store.page h.store.slot h
  · exact h

theorem voidMemory_ok {coil : Nat} {x : Progress} (hx : x.Ok) : (voidMemory coil x).1.Ok := by
  unfold voidMemory
  split
  · next p hp =>
    split
    · exact hx
    · exact clearFlag_ok hx (recordsInLog_range (List.mem_of_find?_eq_some hp))
  · exact hx

theorem inv_logVoidEvent (faults : List StepFault) (h : Inv s) : Inv (logVoidEvent faults s) := by
  unfold logVoidEvent
  split
  · next coil _ =>
    split
    · exact inv_endOp (inv_reportFailed _ _ _ _ h)
    · have hx := voidMemory_ok (coil := coil) (h.progress faults none)
      have h1 : Inv { s with
          flash := (voidMemory coil { mem := s.flash, faults := faults, budget := none }).1.mem
          log := s.log.atHeaders
            (voidMemory coil { mem := s.flash, faults := faults, budget := none }).1.mem } :=
        inv_store hx.wf hx.within h.store.page h.store.slot h
      simp only
      apply inv_endOp
      apply inv_reportEnd
      split
      · exact inv_voidCoil _ _ h1
      · exact h1
  · exact h

theorem inv_logReadAct (f n : Nat) (s : State) (h : Inv s) : Inv (logReadAct f n s).1 := by
  unfold logReadAct
  exact guarded_keeps h fun _ => h

theorem inv_logTakeAct (n : Nat) (s : State) (h : Inv s) : Inv (logTakeAct n s).1 := by
  unfold logTakeAct
  refine guarded_keeps h fun hc => ?_
  exact inv_placeOp rfl (fun _ => hc (entryFree s) (by simp)) h

theorem inv_logVoidAct (n : Nat) (s : State) (h : Inv s) : Inv (logVoidAct n s).1 := by
  unfold logVoidAct
  refine guarded_keeps h fun hc => ?_
  exact inv_placeOp rfl (fun _ => hc (entryFree s) (by simp)) h

/-! ### The Package Table -/

theorem inv_createPackage {k : Package} (hk : (s.package k.number).isNone = true) (h : Inv s) :
    Inv (createPackage k s) := by
  have hno : k.number ∉ s.table.packages.map Package.number := by
    simp only [State.package, Option.isNone_iff_eq_none, List.find?_eq_none, beq_iff_eq] at hk
    simp only [List.mem_map, not_exists, not_and]
    exact fun x hx e => hk x hx e
  have hnodup : ∀ ks : List Package, (ks.map Package.number).Nodup →
      (∀ x ∈ ks, x ∈ s.table.packages) → ((ks ++ [k]).map Package.number).Nodup := by
    intro ks hn hsub
    rw [List.map_append, List.nodup_append]
    refine ⟨hn, by simp, ?_⟩
    intro a ha b hb
    simp only [List.map_cons, List.map_nil, List.mem_singleton] at hb
    subst hb
    intro e
    rw [e] at ha
    simp only [List.mem_map] at ha
    obtain ⟨x, hx, hxe⟩ := ha
    exact hno (hxe ▸ List.mem_map_of_mem (hsub x hx))
  unfold createPackage
  split
  · next hlt =>
    refine inv_setPackages ?_ (hnodup _ h.tables.packageNumbers fun _ hx => hx) h
    simp only [List.length_append, List.length_cons, List.length_nil]
    omega
  · split
    · next old hold =>
      refine inv_setPackages ?_ (hnodup _ ?_ fun _ hx => List.mem_of_mem_filter hx) h
      · have hmem : old ∈ s.table.packages := by
          have key : ∀ (ks : List Package) (b : Option Package),
              (∀ x, b = some x → x ∈ s.table.packages) → (∀ x ∈ ks, x ∈ s.table.packages) →
              ∀ x, ks.foldl
                (fun best k =>
                  if k.state = .spent then
                    match best with
                    | none => some k
                    | some b => if k.spentOrder.getD 0 < b.spentOrder.getD 0 then some k else some b
                  else best) b = some x → x ∈ s.table.packages := by
            intro ks
            induction ks with
            | nil => intro b hb _ x hx; exact hb x hx
            | cons k rest ih =>
              intro b hb hks x hx
              refine ih _ ?_ (fun y hy => hks y (List.mem_cons_of_mem _ hy)) x hx
              intro y hy
              have hk := hks k (List.mem_cons_self ..)
              simp only at hy
              split at hy
              · split at hy
                · cases hy; exact hk
                · next b' =>
                  split at hy
                  · cases hy; exact hk
                  · exact hb y hy
              · exact hb y hy
          exact key _ none (by simp) (fun _ hx => hx) old hold
        have hlt : (s.table.packages.filter fun x => x.number != old.number).length
            < s.table.packages.length :=
          List.length_filter_lt_length_iff_exists.mpr ⟨old, hmem, by simp⟩
        have := h.tables.packages
        simp only [List.length_append, List.length_cons, List.length_nil]
        omega
      · exact List.Nodup.sublist (List.Sublist.map _ List.filter_sublist) h.tables.packageNumbers
    · exact h

theorem inv_deletePackage (n : Nat) (h : Inv s) : Inv (deletePackage n s) :=
  inv_setPackages (Nat.le_trans (List.length_filter_le _ _) h.tables.packages)
    (List.Nodup.sublist (List.Sublist.map _ List.filter_sublist) h.tables.packageNumbers) h

theorem inv_checkCreel (h : Inv s) : Inv (checkCreel s) := by
  unfold checkCreel
  split
  · exact inv_setCause _ _ h
  · exact inv_clearCause _ _ h

theorem inv_beginFeeding (i : Fin 4) (start seen : Nat) (k : Package) (h : Inv s) :
    Inv (beginFeeding i start seen k s) :=
  inv_recordPackage _ (inv_insertMarks _ _ _ (inv_updatePackage _ (fun _ => rfl) h))

theorem inv_compareWarning (i : Fin 4) (p n : Nat) (h : Inv s) : Inv (compareWarning i p n s) := by
  unfold compareWarning
  split
  · split
    · exact inv_enterReport _ _ _ (inv_updatePackage _ (fun _ => rfl) h)
    · exact h
  · exact h

theorem inv_compareRunout (i : Fin 4) (p n : Nat) (h : Inv s) : Inv (compareRunout i p n s) := by
  unfold compareRunout
  split
  · split
    · exact inv_enterReport _ _ _ (inv_setCause _ _ (inv_setPlace _ _ h))
    · exact h
  · exact h

theorem inv_consume (p : Nat) (i : Fin 4) (s : State) (h : Inv s) : Inv (consume p s i) := by
  unfold consume
  split
  · split
    · exact inv_compareRunout _ _ _
        (inv_compareWarning _ _ _ (inv_updatePackage _ (fun _ => rfl) h))
    · exact h
  · exact h

theorem inv_feedAtRise (p q : Nat) (i : Fin 4) (s : State) (h : Inv s) : Inv (feedAtRise p q s i) := by
  unfold feedAtRise
  split
  · split
    · exact inv_beginFeeding _ _ _ _ h
    · exact h
  · exact h

theorem inv_packageRise (p q r : Nat) (h : Inv s) : Inv (packageRise p q r s) :=
  foldl_keeps (fun s i h => inv_consume q i s h) _
    (foldl_keeps (fun s i h => inv_feedAtRise p r i s h) _ h)

theorem inv_packageFall (q : Nat) (h : Inv s) : Inv (packageFall q s) :=
  foldl_keeps (fun s i h => inv_consume q i s h) _ h

theorem inv_spend (n left : Nat) (h : Inv s) : Inv (spend n left s) := by
  have h1 := inv_updatePackage (s := s) n
    (f := fun r =>
      { r with
        state := .spent
        seat := none
        feedStart := none
        leftover := some left
        spentOrder := some s.table.nextSpent }) (fun _ => rfl) h
  exact inv_table h1.tables.packages h1.tables.packageNumbers h1

theorem inv_judgeRunout (h : Inv s) : Inv (judgeRunout s) := by
  unfold judgeRunout
  split
  · exact h
  · exact inv_clearCause _ _ h

theorem inv_moveReserve (i : Fin 4) (h : Inv s) : Inv (moveReserve i s) := by
  unfold moveReserve
  split
  · exact inv_updatePackage _ (fun _ => rfl) (inv_setPlace _ _ h)
  · exact inv_setPlace _ _ h

theorem inv_spliceFeed (i : Fin 4) (old next : Package) (h : Inv s) :
    Inv (spliceFeed i old next s) := by
  unfold spliceFeed
  simp only
  apply inv_judgeRunout
  apply inv_setPlace
  apply inv_compareWarning
  apply inv_insertMark
  apply inv_beginFeeding
  apply inv_setPlace
  apply inv_removePackageMarks
  exact inv_spend _ _ h

theorem inv_unplacePlaced (i : Fin 4) (r : Bool) (n : Nat) (h : Inv s) :
    Inv (unplacePlaced i r n s) := by
  have h1 : Inv (s.updatePackage n Package.unplaced) := inv_updatePackage n (fun _ => rfl) h
  unfold unplacePlaced
  simp only
  apply inv_checkCreel
  split
  · exact inv_setPlace _ _ h1
  · exact inv_moveReserve _ h1

theorem inv_unplaceFeeding (i : Fin 4) (k : Package) (h : Inv s) : Inv (unplaceFeeding i k s) := by
  unfold unplaceFeeding
  simp only
  apply inv_checkCreel
  apply inv_judgeRunout
  apply inv_setPlace
  apply inv_moveReserve
  apply inv_removePackageMarks
  split
  · exact inv_updatePackage _ (fun _ => rfl) h
  · exact inv_spend _ _ h

theorem inv_addPackageAct (e : PackageEntry) (s : State) (h : Inv s) :
    Inv (addPackageAct e s).1 := by
  unfold addPackageAct
  refine guarded_keeps h fun hc => ?_
  exact inv_createPackage (hc ((s.package e.number).isNone, .state .duplicate) (by simp)) h

theorem inv_readPackageAct (n : Nat) (s : State) (h : Inv s) : Inv (readPackageAct n s).1 := by
  unfold readPackageAct
  refine guarded_keeps h fun _ => ?_
  split <;> exact h

theorem inv_removePackageAct (n : Nat) (s : State) (h : Inv s) : Inv (removePackageAct n s).1 := by
  unfold removePackageAct
  exact guarded_keeps h fun _ => inv_deletePackage _ h

theorem inv_placePackage (n : Nat) (i : Fin 4) (h : Inv s) : Inv (placePackage n i s) := by
  unfold placePackage
  simp only
  split
  · exact inv_checkCreel (inv_setPlace _ _ (inv_updatePackage _ (fun _ => rfl) h))
  · exact inv_setPlace _ _ (inv_updatePackage _ (fun _ => rfl) h)

theorem inv_placePackageAct (n p : Nat) (s : State) (h : Inv s) : Inv (placePackageAct n p s).1 := by
  unfold placePackageAct
  exact guarded_keeps h fun _ => inv_placePackage _ _ h

theorem inv_spliceFeedAct (p : Nat) (s : State) (h : Inv s) : Inv (spliceFeedAct p s).1 := by
  unfold spliceFeedAct
  refine guarded_keeps h fun _ => ?_
  split
  · simp only
    exact inv_spliceFeed _ _ _ h
  · exact h

theorem inv_unplacePackageAct (n : Nat) (s : State) (h : Inv s) :
    Inv (unplacePackageAct n s).1 := by
  unfold unplacePackageAct
  refine guarded_keeps h fun _ => ?_
  split
  · split
    · exact inv_unplacePlaced _ _ _ h
    · split
      · exact h
      · exact inv_unplaceFeeding _ _ h
    · exact h
  · exact h

/-! ### The Twist Monitor -/

theorem inv_handSpan (p : Fin 8) (n : Nat) (c : Option ClosedSpan) (h : Inv s) :
    Inv (handSpan? p n c s) := by
  unfold handSpan?
  split
  · exact inv_enterReport _ _ _ (inv_updatePackage _ (fun _ => rfl) h)
  · exact h

theorem inv_enterFault (p : Fin 8) (c : FaultCause) (j : Job) (h : Inv s) :
    Inv (enterFault p c j s) :=
  inv_enterReport _ _ _ (inv_setCause _ _ (inv_handSpan _ _ _ (inv_setJob _ _ h)))

theorem inv_enterTarget (p : Fin 8) (j : Job) (h : Inv s) : Inv (enterTarget p j s) :=
  inv_enterReport _ _ _ (inv_setCause _ _ (inv_handSpan _ _ _ (inv_setJob _ _ h)))

theorem inv_enterStill (p : Fin 8) (j : Job) (h : Inv s) : Inv (enterStill p j s) :=
  inv_clearSteady _ (inv_setJob _ _ h)

theorem inv_drivesChanged (p : Fin 8) (h : Inv s) : Inv (drivesChanged p s) := by
  unfold drivesChanged
  split
  · split
    · split
      · exact inv_setJob _ _ h
      · exact inv_enterStill _ _ h
      · exact inv_setJob _ _ h
    · exact h
  · exact h

theorem inv_detectorChanged (p : Fin 8) (h : Inv s) : Inv (detectorChanged p s) := by
  unfold detectorChanged
  split
  · split
    · exact inv_setJob _ _ h
    · exact h
  · exact h

theorem inv_spindlePulse (p : Fin 8) (h : Inv s) : Inv (spindlePulse p s) := by
  unfold spindlePulse
  split
  · split
    · exact inv_setJob _ _ h
    · exact h
  · exact h

theorem inv_windPulse (p : Fin 8) (j : Job) (h : Inv s) : Inv (windPulse p j s).2 :=
  inv_tallyAdd _ _ (inv_updatePackage _ (fun _ => rfl) (inv_setJob _ _ h))

theorem inv_closeWindow (p : Fin 8) (j : Job) (h : Inv s) : Inv (closeWindow p j s) :=
  inv_handSpan _ _ _ (inv_setJob _ _ h)

theorem inv_windowPulse (p : Fin 8) (j : Job) (h : Inv s) : Inv (windowPulse p j s) := by
  unfold windowPulse
  simp only
  split
  · exact inv_closeWindow _ _ h
  · exact inv_setJob _ _ h

theorem inv_checkTarget (p : Fin 8) (h : Inv s) : Inv (checkTarget p s) := by
  unfold checkTarget
  split
  · split
    · exact inv_enterTarget _ _ h
    · exact h
  · exact h

theorem inv_runPulse (p : Fin 8) (j : Job) (h : Inv s) : Inv (runPulse p j s) :=
  inv_checkTarget _ (inv_windowPulse _ _ (inv_windPulse _ _ h))

theorem inv_deliveryPulse (p : Fin 8) (h : Inv s) : Inv (deliveryPulse p s) := by
  unfold deliveryPulse
  split
  · split
    · exact inv_runPulse _ _ h
    · exact inv_runPulse _ _ h
    · exact inv_runPulse _ _ h
    · exact inv_windPulse _ _ h
    · exact h
  · exact h

theorem inv_motionEvent (p : Fin 8) (h : Inv s) : Inv (motionEvent p s) := by
  unfold motionEvent
  split
  · split
    · simp only
      split
      · exact inv_setJob _ _ (inv_reach _ h)
      · exact inv_enterStill _ _ (inv_reach _ h)
      · exact inv_enterFault _ _ _ (inv_reach _ h)
    · exact h
  · exact h

theorem inv_detectorEvent (p : Fin 8) (h : Inv s) : Inv (detectorEvent p s) := by
  unfold detectorEvent
  split
  · split
    · exact inv_enterFault _ _ _ (inv_reach _ h)
    · exact h
  · exact h

theorem inv_startPackageAct (p n k : Nat) (s : State) (h : Inv s) :
    Inv (startPackageAct p n k s).1 := by
  unfold startPackageAct
  refine guarded_keeps h fun hc => ?_
  have hk := hc ((s.package n).isNone, .state .duplicate) (by simp)
  split
  · exact inv_setJob _ _ (inv_createPackage hk h)
  · exact h

theorem inv_resumePositionAct (p : Nat) (s : State) (h : Inv s) :
    Inv (resumePositionAct p s).1 := by
  unfold resumePositionAct
  refine guarded_keeps h fun _ => ?_
  split
  · split
    · exact inv_setJob _ _ (inv_clearCause _ _ (inv_updatePackage _ (fun _ => rfl) h))
    · exact inv_setJob _ _ (inv_clearCause _ _ h)
    · exact h
  · exact h

theorem inv_doffRecord (p : Fin 8) (j : Job) (h : Inv s) : Inv (doffRecord p j s) := by
  unfold doffRecord
  simp only
  apply inv_enterReport
  split
  · exact inv_deletePackage _ h
  · exact inv_updatePackage _ (fun _ => rfl) h

theorem inv_doff (p : Fin 8) (j : Job) (h : Inv s) : Inv (doff p j s) :=
  inv_setJob _ _ (inv_stopNotice _ _ _ (inv_doffRecord _ _ (inv_handSpan _ _ _ (inv_setJob _ _ h))))

theorem inv_doffPackageAct (p : Nat) (s : State) (h : Inv s) : Inv (doffPackageAct p s).1 := by
  unfold doffPackageAct
  refine guarded_keeps h fun _ => ?_
  split
  · split
    · exact h
    · exact inv_doff _ _ h
  · exact h

theorem inv_settleLatches (m : Fin 10) (h : Inv s) : Inv (settleLatches m s) :=
  inv_setLatches _ _ h

theorem inv_positionStatusAct (p : Nat) (s : State) (h : Inv s) :
    Inv (positionStatusAct p s).1 := by
  unfold positionStatusAct
  exact guarded_keeps h fun _ => inv_settleLatches _ h

theorem inv_layPulse (h : Inv s) : Inv (layPulse s) := by
  unfold layPulse
  split
  · exact inv_setLay _ h
  · exact h

theorem inv_handLaySpan (seen : Nat) (c : Option ClosedSpan) (h : Inv s) :
    Inv (handLaySpan? seen c s) := by
  unfold handLaySpan?
  split
  · exact inv_enterReport _ _ _ (inv_insertMark _ _ _ h)
  · exact h

theorem inv_layRise (p seen : Nat) (h : Inv s) : Inv (layRise p seen s) := by
  unfold layRise
  split
  · split
    · exact inv_handLaySpan _ _ (inv_setLay _ h)
    · exact h
  · exact h

theorem inv_layFall (p : Nat) (h : Inv s) : Inv (layFall p s) := by
  unfold layFall
  split
  · exact inv_setLay _ h
  · exact h

theorem inv_closeLaySpan (h : Inv s) : Inv (closeLaySpan s) :=
  inv_handLaySpan _ _ (inv_setLay _ h)

/-! ### The Knot Scanner -/

theorem inv_handMeshSpan (c : Option ClosedSpan) (h : Inv s) : Inv (handMeshSpan? c s) := by
  unfold handMeshSpan?
  split
  · exact inv_enterReport _ _ _ (inv_insertMark _ _ _ h)
  · exact h

theorem inv_checkMesh (r : NetRecipe) (p : Nat) (h : Inv s) : Inv (checkMesh r p s) := by
  unfold checkMesh
  simp only
  split
  · exact h
  · split
    · exact inv_handMeshSpan _ (inv_setKnot (by simpa using h.tables.ring) h)
    · exact h

theorem enterRow_length {e : RowEntry} {ring : List RowEntry} (h : ring.length ≤ ringCapacity) :
    (enterRow e ring).length ≤ ringCapacity := by
  unfold enterRow
  split
  · simp only [List.length_append, List.length_cons, List.length_nil]
    omega
  · simp only [List.length_append, List.length_tail, List.length_cons, List.length_nil]
    simp only [ringCapacity] at *
    omega

theorem inv_advancePattern (r : NetRecipe) (e : RowEntry) (h : Inv s) :
    Inv (advancePattern r e s) := by
  have h1 : Inv (endPanel e s) :=
    inv_panelEnds _ (inv_enterReport _ _ _ (inv_setCause _ _
      (inv_setKnot (by simpa using h.tables.ring) h)))
  unfold advancePattern
  simp only
  split
  · split
    · exact inv_setKnot (by simpa using h.tables.ring) h
    · exact inv_setKnot (by simpa using h1.tables.ring) h1
  · exact inv_setKnot (by simpa using h.tables.ring) h

theorem inv_beginScan (row : BitVec 32) (h : Inv s) : Inv (beginScan row s) :=
  inv_setKnot (by simpa using h.tables.ring) h

theorem inv_unscannedRow (e : RowEntry) (p : PatternStep) (h : Inv s) : Inv (unscannedRow e p s) :=
  inv_enterReport _ _ _ (inv_insertMark _ _ _ h)

theorem inv_countRow (r : NetRecipe) (h : Inv s) : Inv (countRow r s) := by
  unfold countRow
  simp only
  have h1 := inv_checkMesh r (s.len .net).p
    (inv_setKnot (x := { s.knot with row := s.knot.row + 1 }) (by simpa using h.tables.ring) h)
  apply inv_advancePattern
  split
  · exact inv_beginScan _ (inv_setKnot (enterRow_length h1.tables.ring) h1)
  · exact inv_unscannedRow _ _ (inv_setKnot (enterRow_length h1.tables.ring) h1)

theorem inv_rowEvent (h : Inv s) : Inv (rowEvent s) := by
  unfold rowEvent
  split
  · exact inv_countRow _ h
  · exact h

theorem inv_markMissing (e : RowEntry) (x : HookSet) (h : Inv s) : Inv (markMissing e x s) := by
  unfold markMissing
  split
  · exact h
  · exact inv_insertMark _ _ _ h
  · exact inv_insertMark _ _ _ h

theorem inv_judgeHooks (r : NetRecipe) (e : RowEntry) (x : HookSet) (y : RowSets) (h : Inv s) :
    Inv (judgeHooks r e x y s) := by
  have h1 : Inv (s.setKnot { s.knot with counters := countMisses x y s.knot.counters }) :=
    inv_setKnot (by simpa using h.tables.ring) h
  unfold judgeHooks
  simp only
  split
  · exact h1
  · split
    · exact h1
    · exact inv_enterReport _ _ _ (inv_setCause _ _
        (inv_setKnot (by simpa using h1.tables.ring) h1))

theorem inv_judgeExtras (x : HookSet) (h : Inv s) : Inv (judgeExtras x s).1 := by
  unfold judgeExtras
  simp only
  split
  · next hc =>
    have h1 := inv_setCause netMachine .sensor h
    exact inv_setKnot (by simpa using h1.tables.ring) h1
  · exact inv_setKnot (by simpa using h.tables.ring) h

theorem inv_judgeRow (r : NetRecipe) (e : RowEntry) (x : HookSet) (h : Inv s) :
    Inv (judgeRow r e x s) := by
  unfold judgeRow
  simp only
  have h1 := inv_setKnot
    (x := { s.knot with
      ring := setScanned e.number (rowSets (expectedSet (stepOf r.pattern e.step)) x) s.knot.ring })
    (by simpa [setScanned] using h.tables.ring) h
  have h2 := inv_judgeExtras (rowSets (expectedSet (stepOf r.pattern e.step)) x).extra
    (inv_judgeHooks r e (expectedSet (stepOf r.pattern e.step))
      (rowSets (expectedSet (stepOf r.pattern e.step)) x)
      (inv_markMissing e (rowSets (expectedSet (stepOf r.pattern e.step)) x).missing h1))
  split
  · exact h2
  · exact inv_enterReport _ _ _ h2

theorem inv_completeScan (x : ScanInProgress) (p : HookSet) (h : Inv s) :
    Inv (completeScan x p s) := by
  unfold completeScan
  simp only
  split
  · next c e _ _ _ =>
    have h1 := inv_judgeRow c.recipe e p h
    exact inv_setKnot (by simpa using h1.tables.ring) h1
  · exact inv_setKnot (by simpa using h.tables.ring) h

theorem inv_settleEvent (b : Byte) (h : Inv s) : Inv (settleEvent b s) := by
  unfold settleEvent
  split
  · next x _ =>
    have h1 := inv_reach x.deadline h
    simp only
    split
    · exact inv_setKnot (by simpa using h1.tables.ring) h1
    · exact inv_completeScan _ _ h1
  · exact h

theorem inv_closeMeshSpan (h : Inv s) : Inv (closeMeshSpan s) :=
  inv_handMeshSpan _ (inv_setKnot (by simpa using h.tables.ring) h)

theorem inv_knotLoads (h : Inv s) : Inv (knotLoads s) :=
  inv_setKnot (by simp) h

theorem inv_knotSegment (h : Inv s) : Inv (knotSegment s) :=
  inv_setKnot (by simp) h

theorem inv_hooksReleased (h : Inv s) : Inv (hooksReleased s) :=
  inv_setKnot (by simpa using h.tables.ring) h

theorem inv_knotStatusAct (s : State) (h : Inv s) : Inv (knotStatusAct s).1 :=
  h

theorem inv_readRowsAct (a n : Nat) (s : State) (h : Inv s) : Inv (readRowsAct a n s).1 := by
  unfold readRowsAct
  exact guarded_keeps h fun _ => h

/-! ### The Length Meter -/

theorem inv_tallyRise (l : LineId) (p : Nat) (hp : p ≤ top32) (h : Inv s) : Inv (tallyRise l p s) := by
  unfold tallyRise
  simp only
  split
  · exact inv_tallyAdd _ _ (inv_setLen ⟨(h.lengths l).position, (h.lengths l).base, hp⟩ h)
  · exact h

theorem inv_takeRise (l : LineId) (p q : Nat) (hq : q ≤ top32) (x : State × Nat) (b : RiseBlock)
    (h : Inv x.1) : Inv (takeRise l p q x b).1 := by
  obtain ⟨s, seen⟩ := x
  cases b <;> cases l <;> simp only [takeRise]
  · exact inv_packageRise _ _ _ h
  · exact h
  · exact inv_layRise _ _ h
  · exact h
  · exact inv_actionsRise _ _ h
  · exact inv_actionsRise _ _ h
  · exact inv_planningEvent _ _ h
  · exact inv_planningEvent _ _ h
  · exact inv_tallyRise _ _ hq h
  · exact inv_tallyRise _ _ hq h

theorem inv_handRise (l : LineId) (order : List RiseBlock) (p q : Nat) (hq : q ≤ top32)
    (h : Inv s) : Inv (handRise l order p q s) :=
  foldl_keeps (P := fun x : State × Nat => Inv x.1) (fun x b h => inv_takeRise l p q hq x b h) _ h

theorem clampNat_le {v : Int} {lo hi : Nat} (h : lo ≤ hi) : clampNat v lo hi ≤ hi := by
  unfold clampNat
  omega

theorem inv_linePulse (l : LineId) (f : Bool) (order : List RiseBlock) (h : Inv s) :
    Inv (linePulse l f order s) := by
  unfold linePulse
  simp only
  split
  · next c _ =>
    have hp : ((s.len l).moved c f).p ≤ top32 := clampNat_le (Nat.zero_le _)
    have h1 : Inv (s.setLen l ((s.len l).moved c f)) :=
      inv_setLen ⟨hp, (h.lengths l).base, (h.lengths l).highMark⟩ h
    split
    · exact inv_handRise _ _ _ _ hp h1
    · split
      · exact inv_layFall _ (inv_packageFall _ h1)
      · exact h1
  · exact h

theorem inv_beginSegment (l : LineId) (c : Constants) (h : Inv s) : Inv (beginSegment l c s) :=
  inv_setLen ⟨(h.lengths l).position, (h.lengths l).position, (h.lengths l).highMark⟩ h

theorem inv_takePlant (l : LineId) (h : Inv s) : Inv (takePlant l s) := by
  unfold takePlant
  split
  · exact inv_beginSegment _ _ h
  · exact h

theorem inv_takeSpeed (l : LineId) (h : Inv s) : Inv (takeSpeed l s) :=
  inv_setLen ⟨(h.lengths l).position, (h.lengths l).base, (h.lengths l).highMark⟩ h

theorem inv_setPosition (l : LineId) (v : Nat) (hv : v ≤ top32) (h : Inv s) :
    Inv (setPosition l v s) := by
  have h1 : Inv (s.setLen l ((s.len l).setTo v)) := inv_setLen ⟨hv, hv, hv⟩ h
  have h2 : Inv ((s.setLen l ((s.len l).setTo v)).setAct l
      ((s.setLen l ((s.len l).setTo v)).act l).cleared) :=
    inv_setAct ⟨by simp [LineActions.cleared, markCapacity], by simp [LineActions.cleared, sprayCount],
      by simp [LineActions.cleared], by simp [LineActions.cleared]⟩ h1
  unfold setPosition
  simp only
  split
  · exact inv_setLay _ (inv_packRestarts _ _ (inv_stopNotice _ _ _ h2))
  · exact inv_knotSegment (inv_packRestarts _ _ (inv_stopNotice _ _ _ h2))

theorem inv_setPositionAct (m v : Nat) (s : State) (h : Inv s) : Inv (setPositionAct m v s).1 := by
  unfold setPositionAct
  refine guarded_keeps h fun hc => onLine_keeps h fun l => guarded_keeps h fun _ => ?_
  have hv := hc (inField 2 0 top32 v) (by simp)
  simp only [inField, Bool.and_eq_true, decide_eq_true_eq] at hv
  exact inv_setPosition _ _ hv.2 h

theorem inv_lineStatusAct (m : Nat) (s : State) (h : Inv s) : Inv (lineStatusAct m s).1 := by
  unfold lineStatusAct
  exact guarded_keeps h fun _ => onLine_keeps h fun l => inv_settleLatches _ h

/-! ### The Count Inputs -/

theorem inv_pulsePinEvent (i : PulseInput) (h : Inv s) : Inv (pulsePinEvent i s) :=
  inv_setPulse _ _ h

theorem inv_levelPinEvent (i : LevelInput) (h : Inv s) : Inv (levelPinEvent i s) :=
  inv_setLevel _ _ h

theorem inv_handPulse (i : PulseInput) (f : Bool) (order : List RiseBlock) (h : Inv s) :
    Inv (handPulse i f order s) := by
  unfold handPulse
  split
  · exact inv_spindlePulse _ h
  · exact inv_deliveryPulse _ h
  · exact inv_layPulse h
  · exact inv_linePulse _ _ _ h
  · exact inv_linePulse _ _ _ h
  · exact inv_rowEvent h

theorem inv_lineGoesStill (l : LineId) (h : Inv s) : Inv (lineGoesStill l s) :=
  inv_clearSteady _ (inv_lineStands _ h)

theorem inv_handRunning (i : PulseInput) (h : Inv s) : Inv (handRunning i s) := by
  unfold handRunning
  split
  · exact inv_drivesChanged _ h
  · exact inv_drivesChanged _ h
  · split
    · exact h
    · exact inv_lineGoesStill _ h
  · split
    · exact h
    · exact inv_lineGoesStill _ h
  · exact h
  · exact h

theorem inv_pulseMoves (i : PulseInput) (h : Inv s) : Inv (pulseMoves i s) := by
  unfold pulseMoves
  simp only
  split
  · exact inv_setPulse _ _ h
  · exact inv_handRunning _ (inv_setPulse _ _ h)

theorem inv_countPulse (i : PulseInput) (order : List RiseBlock) (h : Inv s) :
    Inv (countPulse i order s) :=
  inv_pulseMoves _ (inv_handPulse _ _ _ (inv_setPulse _ _ h))

theorem inv_pulseSettled (i : PulseInput) (order : List RiseBlock) (h : Inv s) :
    Inv (pulseSettled i order s) := by
  unfold pulseSettled
  simp only
  split
  · split
    · exact inv_countPulse _ _ (inv_setPulse _ _ (inv_reach _ h))
    · exact inv_setPulse _ _ (inv_reach _ h)
  · exact h

theorem inv_handLevel (i : LevelInput) (b : Bool) (h : Inv s) : Inv (handLevel i b s) := by
  unfold handLevel
  split
  · exact inv_detectorChanged _ h
  · exact h
  · split
    · exact inv_cutterDone _ h
    · exact h
  · split
    · exact inv_cutterDone _ h
    · exact h

theorem inv_levelSettled (i : LevelInput) (h : Inv s) : Inv (levelSettled i s) := by
  unfold levelSettled
  simp only
  split
  · exact inv_handLevel _ _ (inv_setLevel _ _ (inv_reach _ h))
  · exact h

theorem inv_stallEvent (i : PulseInput) (h : Inv s) : Inv (stallEvent i s) := by
  unfold stallEvent
  simp only
  split
  · split
    · exact inv_handRunning _ (inv_setPulse _ _ (inv_reach _ h))
    · exact inv_setPulse _ _ (inv_reach _ h)
  · exact h

theorem inv_intervalEvent (h : Inv s) : Inv (intervalEvent s) :=
  inv_takeSpeed _ (inv_takeSpeed _ (inv_inputs _ (inv_reach _ h)))

/-! ### Recipes and the plant record -/

theorem unflag_ok {page : Nat} {x : Progress} (hx : x.Ok) (hp : page < pageCount) :
    (x.unflag page).Ok :=
  ⟨write_wf hx.wf, write_within hx.within (by simp only [addressOf, pageSize, pageCount] at *; omega)⟩

theorem openPage_ok {voids : Bool} {page : Nat} {x : Progress} (hx : x.Ok) (hp : page < pageCount) :
    (openPage voids page x).1.Ok := by
  have h1 := progress_erase_ok hx hp
  unfold openPage
  simp only
  split
  · exact h1
  · simp only
    split
    · exact unflag_ok h1 hp
    · exact h1

theorem sealPage_ok {page check : Nat} {x : Progress} (hx : x.Ok) (hp : page < pageCount) :
    (sealPage page check x).1.Ok := by
  have h1 := progress_program_ok (bytes := [0] ++ be 2 check) (offset := 0) hx hp
    (by simp [be_length, pageSize])
  unfold sealPage
  simp only
  split
  · exact h1
  · simp only
    split
    · exact unflag_ok h1 hp
    · exact h1

theorem storePage_ok {voids : Bool} {page start : Nat} {contents : List Byte} {x : Progress}
    (hx : x.Ok) (hp : page < pageCount) (hc : start + contents.length ≤ pageSize) :
    (storePage voids page start contents x).1.Ok := by
  have h1 := openPage_ok (voids := voids) hx hp
  have h2 := progress_program_ok h1 hp hc
  unfold storePage
  simp only
  split
  · split
    · exact sealPage_ok h2 hp
    · exact h2
  · exact h1

/-- A recipe that STORE_RECIPE takes fills at most 200 bytes. -/
theorem checkedBytes_length {body : RecipeBody} (h : body.firstBad = none) :
    (checkedBytes body).length ≤ 200 := by
  cases body with
  | twist r =>
    simp [checkedBytes, RecipeBody.fieldBytes, fieldBytes, TwistRecipe.fields, be_length]
  | rope r =>
    simp [checkedBytes, RecipeBody.fieldBytes, fieldBytes, RopeRecipe.fields, be_length]
  | net r =>
    simp only [RecipeBody.firstBad] at h
    split at h
    · next hp =>
      simp only [patternInRange, Bool.and_eq_true, decide_eq_true_eq] at hp
      have hl := flatMap_length patternStep_length r.pattern
      simp only [checkedBytes, RecipeBody.fieldBytes, fieldBytes, NetRecipe.tailFields,
        List.flatMap_cons, List.flatMap_nil, List.length_append, be_length, List.length_nil, hl]
      omega
    · simp at h
  | other c => simp [RecipeBody.firstBad] at h

theorem plantBytes_length (p : PlantRecord) : p.bytes.length = 106 := by
  simp [PlantRecord.bytes, fieldBytes, PlantRecord.fields, be_length]

theorem recipeMemory_ok {slot : Nat} {body : RecipeBody} {x : Progress} (hx : x.Ok)
    (hs : slot ≤ 31) (hb : body.firstBad = none) : (recipeMemory slot body x).1.Ok := by
  have := checkedBytes_length hb
  exact storePage_ok hx (by simp only [pageCount]; omega) (by simp only [pageSize]; omega)

theorem plantMemory_ok {p : PlantRecord} {x : Progress} (hx : x.Ok) : (plantMemory p x).1.Ok := by
  refine storePage_ok hx (by simp [pageCount, plantPage]) ?_
  rw [plantBytes_length]
  simp [pageSize]

/-- The operation in flight is one of the queue's. -/
theorem runningOp_inRange {op : StoreOp} (h : Inv s) (hop : s.runningOp = some op) :
    op.inRange = true := by
  simp only [State.runningOp, Option.map_eq_some_iff] at hop
  obtain ⟨e, he, rfl⟩ := hop
  exact h.store.ops e (List.mem_of_find?_eq_some he)

theorem inv_storeRecipeEvent (faults : List StepFault) (h : Inv s) :
    Inv (storeRecipeEvent faults s) := by
  unfold storeRecipeEvent
  split
  · next slot body hop =>
    have hr := runningOp_inRange h hop
    simp only [StoreOp.inRange, Bool.and_eq_true, decide_eq_true_eq, Option.isNone_iff_eq_none] at hr
    have hx := recipeMemory_ok (h.progress faults none) hr.1 hr.2
    simp only
    apply inv_endOp
    apply inv_reportEnd
    exact inv_flash hx.wf hx.within h
  · exact h

theorem inv_eraseRecipeEvent (faults : List StepFault) (h : Inv s) :
    Inv (eraseRecipeEvent faults s) := by
  unfold eraseRecipeEvent
  split
  · next slot hop =>
    have hr := runningOp_inRange h hop
    simp only [StoreOp.inRange, decide_eq_true_eq] at hr
    have hx := progress_erase_ok (page := slot) (h.progress faults none)
      (by simp only [pageCount]; omega)
    simp only
    apply inv_endOp
    apply inv_reportEnd
    exact inv_flash hx.wf hx.within h
  · exact h

theorem inv_becomeReady (h : Inv s) : Inv (becomeReady s) := by
  unfold becomeReady
  split
  · exact inv_setLink (s := s) ⟨h.link.call, h.link.reports, h.link.frames, h.link.badFrames,
      h.link.overruns, h.link.lost⟩ h
  · exact h

theorem inv_plantInForce (p : PlantRecord) (h : Inv s) : Inv (plantInForce p s) :=
  inv_becomeReady (inv_takePlant _ (inv_takePlant _ (inv_plant _ h)))

theorem inv_storePlantEvent (faults : List StepFault) (h : Inv s) :
    Inv (storePlantEvent faults s) := by
  unfold storePlantEvent
  split
  · next p _ =>
    have hx := plantMemory_ok (p := p) (h.progress faults none)
    have h1 := inv_flash hx.wf hx.within h
    simp only
    apply inv_endOp
    apply inv_reportEnd
    split
    · exact inv_plantInForce _ h1
    · exact h1
  · exact h

theorem inv_storeRecipeAct (slot : Nat) (body : RecipeBody) (s : State) (h : Inv s) :
    Inv (storeRecipeAct slot body s).1 := by
  unfold storeRecipeAct
  refine guarded_keeps h fun hc => ?_
  have h1 := hc (slotField 1 slot) (by simp)
  have h2 := hc (bodyCheck body) (by simp)
  have h3 := hc (entryFree s) (by simp [slotStoreChecks])
  simp only [slotField, inField, Bool.and_eq_true, decide_eq_true_eq] at h1
  refine inv_placeOp ?_ (fun _ => h3) h
  simp only [StoreOp.inRange, Bool.and_eq_true, decide_eq_true_eq, Option.isNone_iff_eq_none]
  refine ⟨h1.2, ?_⟩
  unfold bodyCheck at h2
  split at h2
  · simp at h2
  · next hb => exact hb

theorem inv_eraseRecipeAct (slot : Nat) (s : State) (h : Inv s) :
    Inv (eraseRecipeAct slot s).1 := by
  unfold eraseRecipeAct
  refine guarded_keeps h fun hc => ?_
  have h1 := hc (slotField 1 slot) (by simp)
  have h3 := hc (entryFree s) (by simp [slotStoreChecks])
  simp only [slotField, inField, Bool.and_eq_true, decide_eq_true_eq] at h1
  exact inv_placeOp (by simpa [StoreOp.inRange] using h1.2) (fun _ => h3) h

theorem inv_readRecipeAct (slot : Nat) (s : State) (h : Inv s) : Inv (readRecipeAct slot s).1 := by
  unfold readRecipeAct
  exact guarded_keeps h fun _ => h

theorem inv_loadLine (l : LineId) (slot check : Nat) (body : RecipeBody) (h : Inv s) :
    Inv (loadLine l slot check body s) := by
  have h0 : Inv (closeSpans l s) := by
    unfold closeSpans
    split
    · exact inv_closeLaySpan h
    · exact inv_closeMeshSpan h
  have h1 : Inv (setCopy l slot check body (closeSpans l s)) := by
    unfold setCopy
    split
    · exact inv_setCopy_rope _ h0
    · exact inv_setCopy_net _ h0
    · exact h0
  have h2 := inv_beginSegment l (constantsOf l (setCopy l slot check body (closeSpans l s))) h1
  have h3 : Inv (machineryLoads l (beginSegment l
      (constantsOf l (setCopy l slot check body (closeSpans l s)))
      (setCopy l slot check body (closeSpans l s)))) := by
    unfold machineryLoads
    split
    · exact inv_setLay _ h2
    · exact inv_knotLoads h2
  unfold loadLine
  simp only
  unfold creelLoads
  split
  · exact inv_checkCreel (inv_packLoads _ h3)
  · exact inv_packLoads _ h3

theorem inv_loadLineRecipeAct (m slot : Nat) (s : State) (h : Inv s) :
    Inv (loadLineRecipeAct m slot s).1 := by
  unfold loadLineRecipeAct
  refine guarded_keeps h fun _ => onLine_keeps h fun l => guarded_keeps h fun _ => ?_
  split
  · exact guarded_keeps h fun _ => inv_loadLine _ _ _ _ h
  · exact h

theorem inv_storePlantAct (p : PlantRecord) (s : State) (h : Inv s) : Inv (storePlantAct p s).1 := by
  unfold storePlantAct
  refine guarded_keeps h fun hc => ?_
  exact inv_placeOp rfl (fun _ => hc (entryFree s) (by simp)) h

theorem inv_readPlantAct (s : State) (h : Inv s) : Inv (readPlantAct s).1 := by
  unfold readPlantAct
  exact guarded_keeps h fun _ => h

/-! ### The Stop Unit's requests -/

theorem inv_stopMachineAct (m : Nat) (s : State) (h : Inv s) : Inv (stopMachineAct m s).1 := by
  unfold stopMachineAct
  exact guarded_keeps h fun _ => inv_setCause _ _ h

theorem inv_releaseAct (m c : Nat) (s : State) (h : Inv s) : Inv (releaseAct m c s).1 := by
  unfold releaseAct
  refine guarded_keeps h fun _ => ?_
  split
  · next cause _ =>
    unfold releaseStop
    simp only
    split
    · exact inv_hooksReleased (inv_clearCause _ _ h)
    · exact inv_clearCause _ _ h
  · exact h

/-! ### The Link Port -/

theorem inv_receiving (r : Receive) (h : Inv s) : Inv (receiving r s) :=
  inv_setLink ⟨h.link.call, h.link.reports, h.link.frames, h.link.badFrames, h.link.overruns,
    h.link.lost⟩ h

theorem inv_hunting (h : Inv s) : Inv (hunting s) :=
  inv_setLink ⟨h.link.call, h.link.reports, h.link.frames, h.link.badFrames, h.link.overruns,
    h.link.lost⟩ h

theorem inv_dropFrame (h : Inv s) : Inv (dropFrame s) :=
  inv_hunting (inv_setLink ⟨h.link.call, h.link.reports, h.link.frames, satAdd_le _ _ _,
    h.link.overruns, h.link.lost⟩ h)

theorem inv_completeFrame (n : Nat) (b : List Byte) (c : Nat) (h : Inv s) :
    Inv (completeFrame n b c s) := by
  unfold completeFrame
  split
  · exact inv_frameArrives _ (inv_hunting h)
  · exact inv_dropFrame h

theorem inv_takeByte (b : Byte) (h : Inv s) : Inv (takeByte b s) := by
  unfold takeByte
  split
  · split
    · exact inv_receiving _ h
    · exact h
  · split
    · exact inv_receiving _ h
    · exact inv_dropFrame h
  · split
    · exact inv_receiving _ h
    · exact inv_receiving _ h
  · exact inv_receiving _ h
  · exact inv_completeFrame _ _ _ h

theorem inv_byteEvent (b : Byte) (stop : Bool) (h : Inv s) : Inv (byteEvent b stop s) := by
  unfold byteEvent
  split
  · exact inv_takeByte _ h
  · split
    · exact h
    · exact inv_dropFrame h

theorem inv_gapEvent (h : Inv s) : Inv (gapEvent s) := by
  unfold gapEvent
  split
  · exact inv_dropFrame (inv_reach _ h)
  · exact h

theorem inv_sentEvent (h : Inv s) : Inv (sentEvent s) := by
  unfold sentEvent
  split
  · next f r rest hf =>
    have := h.link.frames
    rw [hf] at this
    simp only [List.length_cons] at this
    exact inv_setLink ⟨h.link.call, h.link.reports, by simp only; omega, h.link.badFrames,
      h.link.overruns, h.link.lost⟩ h
  · exact h

theorem inv_unknownEvent (tag kind : Byte) (rest : List Byte) (h : Inv s) :
    Inv (unknownEvent tag kind rest s) := by
  unfold unknownEvent
  simp only
  split
  · exact inv_request (fun _ h => h) h
  · exact inv_frameArrives _ h

theorem inv_judgeCall {x : Link} (hr : x.reports.length ≤ reportCapacity)
    (hf : x.frames.length ≤ frameCapacity) (hb : x.badFrames ≤ countTop) (ho : x.overruns ≤ countTop)
    (hl : x.lost ≤ countTop) (h : Inv s) : Inv (judgeCall (s.setLink x)) :=
  inv_setLink (s := s) (x := { x with call := x.callDue }) ⟨rfl, hr, hf, hb, ho, hl⟩ h

theorem inv_reportsAct (n : Nat) (s : State) (h : Inv s) : Inv (reportsAct n s).1 := by
  unfold reportsAct
  refine guarded_keeps h fun _ => inv_judgeCall ?_ h.link.frames h.link.badFrames h.link.overruns
    h.link.lost h
  have := h.link.reports
  simp only [List.length_drop]
  omega

theorem inv_setReportsAct (k q c u : Nat) (s : State) (h : Inv s) :
    Inv (setReportsAct k q c u s).1 := by
  unfold setReportsAct
  exact guarded_keeps h fun _ => inv_judgeCall h.link.reports h.link.frames h.link.badFrames
    h.link.overruns h.link.lost h

theorem inv_callMaskAct (v : Nat) (s : State) (h : Inv s) : Inv (callMaskAct v s).1 := by
  unfold callMaskAct
  exact guarded_keeps h fun _ => inv_judgeCall h.link.reports h.link.frames h.link.badFrames
    h.link.overruns h.link.lost h

theorem inv_restartAct (s : State) (h : Inv s) : Inv (restartAct s).1 :=
  inv_setLink ⟨h.link.call, h.link.reports, h.link.frames, h.link.badFrames, h.link.overruns,
    h.link.lost⟩ h

/-- A reset leaves the invariant, whatever was before it, where the store's memory is as it says. -/
theorem inv_resetPart (k : ResetKind) (b1 b0 : Bool) (held : List HeldReport)
    (hw : s.flash.wf = true) (hi : s.flash.within = true) : Inv (resetPart k b1 b0 held s) where
  stops := by
    intro m
    simp [State.stop, resetPart, State.reset]
  link := ⟨rfl, by simp [resetPart, Link.atReset], by simp [resetPart, Link.atReset],
    by simp [resetPart, Link.atReset], by simp [resetPart, Link.atReset],
    by simp [resetPart, Link.atReset]⟩
  actions l := by
    cases l <;>
      exact ⟨by simp [resetPart, State.act, State.line, State.reset, Line.reset],
        by simp [resetPart, State.act, State.line, State.reset, Line.reset, sprayCount],
        by simp [resetPart, State.act, State.line, State.reset, Line.reset], rfl⟩
  lengths l := by
    cases l <;>
      exact ⟨by simp [resetPart, State.len, State.line, State.reset, Line.reset],
        by simp [resetPart, State.len, State.line, State.reset, Line.reset],
        by simp [resetPart, State.len, State.line, State.reset, Line.reset]⟩
  store := ⟨hw, hi, by simp [resetPart, State.reset, LogState.reset],
    by simp [resetPart, State.reset, LogState.reset], by simp [resetPart, State.reset],
    by simp [resetPart, State.reset]⟩
  tables := ⟨by simp [resetPart, State.reset, Table.reset],
    by simp [resetPart, State.reset, Table.reset], by simp [resetPart, State.reset],
    by simp [resetPart, State.reset], by simp [resetPart, State.reset, Knot.reset],
    by simp [resetPart, State.reset]⟩

theorem operationMemory_ok {op : StoreOp} {faults : List StepFault} {b : Option Nat} (h : Inv s)
    (hop : s.runningOp = some op) :
    Memory.wf (operationMemory op { mem := s.flash, faults := faults, budget := b } s) = true
      ∧ Memory.within (operationMemory op { mem := s.flash, faults := faults, budget := b } s)
        = true := by
  have hx := h.progress faults b
  have hr := runningOp_inRange h hop
  have key : ∀ {x : Progress}, x.Ok → x.mem.wf = true ∧ x.mem.within = true :=
    fun hx => ⟨hx.wf, hx.within⟩
  cases op with
  | coilWrite l =>
    simp only [operationMemory]
    split
    · next r _ => exact key (attemptWrite_ok r.coil (h.attempt faults b)).x
    · exact key hx
  | logTake n => exact key (takeMemory_ok hx)
  | logVoid n => exact key (voidMemory_ok hx)
  | storeRecipe slot body =>
    simp only [StoreOp.inRange, Bool.and_eq_true, decide_eq_true_eq, Option.isNone_iff_eq_none] at hr
    exact key (recipeMemory_ok hx hr.1 hr.2)
  | eraseRecipe slot =>
    simp only [StoreOp.inRange, decide_eq_true_eq] at hr
    exact key (progress_erase_ok hx (by simp only [pageCount]; omega))
  | storePlant p => exact key (plantMemory_ok hx)
  | tallyStep m => exact key (stepMemory_ok hx)

theorem inv_powerOnEvent (b1 b0 : Bool) (n : Nat) (faults : List StepFault) (h : Inv s) :
    Inv (powerOnEvent b1 b0 n faults s) := by
  have hm : Memory.wf (cutOffMemory n faults s) = true
      ∧ Memory.within (cutOffMemory n faults s) = true := by
    unfold cutOffMemory
    split
    · next op hop => exact operationMemory_ok h hop
    · exact ⟨h.store.memory, h.store.within⟩
  exact inv_resetPart (s := { s with flash := cutOffMemory n faults s }) _ _ _ _ hm.1 hm.2

theorem inv_restartEvent (b1 b0 : Bool) (h : Inv s) : Inv (restartEvent b1 b0 s) := by
  unfold restartEvent
  split
  · exact inv_resetPart _ _ _ _ h.store.memory h.store.within
  · exact h

theorem newestPage_range {m : Memory} {p : Nat} (h : newestPage m = some p) : 43 ≤ p ∧ p ≤ 138 := by
  have key : ∀ (ps : List Nat) (b : Option Nat), (∀ x, b = some x → 43 ≤ x ∧ x ≤ 138) →
      (∀ x ∈ ps, 43 ≤ x ∧ x ≤ 138) → ∀ x, ps.foldl
        (fun best p =>
          match best with
          | none => some p
          | some b => if sequenceOf m b < sequenceOf m p then some p else some b) b = some x →
        43 ≤ x ∧ x ≤ 138 := by
    intro ps
    induction ps with
    | nil => intro b hb _ x hx; exact hb x hx
    | cons q rest ih =>
      intro b hb hps x hx
      refine ih _ ?_ (fun y hy => hps y (List.mem_cons_of_mem _ hy)) x hx
      intro y hy
      have hq := hps q (List.mem_cons_self ..)
      simp only at hy
      split at hy
      · cases hy; exact hq
      · split at hy
        · cases hy; exact hq
        · exact hb y hy
  exact key _ none (by simp) (fun x hx => logPages_range (List.mem_of_mem_filter hx)) p h

theorem usedSlots_le (m : Memory) (page : Nat) : usedSlots m page ≤ 4 := by
  unfold usedSlots slotsOf
  simp only [List.foldl_cons, List.foldl_nil]
  split
  · split
    · split
      · split <;> omega
      · omega
    · omega
  · omega

/-- The start-up scan finds a write point in the log. -/
theorem scanLog_range (m : Memory) :
    (43 ≤ (scanLog m).page ∧ (scanLog m).page ≤ 138) ∧ (scanLog m).slot ≤ 3 := by
  unfold scanLog
  split
  · simp [LogState.reset]
  · next p hp =>
    have h1 := newestPage_range hp
    have h2 := usedSlots_le m p
    simp only [decide_eq_true_eq]
    split
    · exact ⟨nextPage_range h1, by omega⟩
    · exact ⟨h1, by omega⟩

theorem inv_enterStarted (h : Inv s) : Inv (enterStarted s) := by
  have h1 := inv_queueReport .started none (startedBody s) h
  unfold enterStarted
  generalize queueReport .started none (startedBody s) s = first at *
  have h2 : Inv (s.link.held.foldl (fun acc h => queueReport h.kind h.machine h.body acc) first) :=
    foldl_keeps (P := Inv) (fun x r hx => inv_queueReport r.kind r.machine r.body hx) _ h1
  simp only
  generalize s.link.held.foldl (fun acc h => queueReport h.kind h.machine h.body acc) first = all at *
  exact inv_setLink ⟨h2.link.call, h2.link.reports, h2.link.frames, h2.link.badFrames,
    h2.link.overruns, h2.link.lost⟩ h2

theorem inv_startEvent (h : Inv s) : Inv (startEvent s) := by
  unfold startEvent
  split
  · have h1 : Inv { s with plant := storedPlant s.flash, log := scanLog s.flash } :=
      inv_store (s := { s with plant := storedPlant s.flash }) (m := s.flash) h.store.memory
        h.store.within (scanLog_range s.flash).1 (scanLog_range s.flash).2 (inv_plant _ h)
    have h2 := inv_tallies (Vector.ofFn fun m => { s.tallies[m] with
      stored := countSteps (tallyPage m) s.flash }) h1
    simp only [countTallies]
    refine inv_enterStarted (inv_setLink ?_ h2)
    exact ⟨h.link.call, h.link.reports, h.link.frames, h.link.badFrames, h.link.overruns, h.link.lost⟩
  · exact h

end Sys2Proof.Machine
end

