-- ==== Sys2Proof/Laws/Stored.lean ====
section
/-! SUPPORT. What the store reads as after programming and erasing: the bytes outside as before, and a page read back
as intended. -/

namespace Sys2Proof.Machine

/-! ### One byte, in any memory -/

theorem read_write_ne {m : Memory} {a x : Nat} {b : Byte} (h : x ≠ a) :
    (m.write a b).read x = m.read x := by
  induction m with
  | nil =>
    unfold Memory.write
    split
    · rfl
    · simp [Memory.read, Ne.symm h]
  | cons c rest ih =>
    obtain ⟨k, v⟩ := c
    unfold Memory.write
    split
    · split
      · rfl
      · simp [Memory.read, Ne.symm h]
    · split
      · next hk =>
        subst hk
        split <;> simp [Memory.read, Ne.symm h]
      · simp [Memory.read, ih]

theorem read_write_self {m : Memory} {a : Nat} {b : Byte} (hm : m.wf = true) :
    (m.write a b).read a = b := by
  rw [read_write hm (Nat.zero_le a)]
  simp

/-- Clearing bits of a byte is read back, in any memory, where a bit has been cleared. -/
theorem read_write_of_ne {m : Memory} {a : Nat} {b : Byte} (h : b ≠ erasedByte) :
    (m.write a b).read a = b := by
  induction m with
  | nil => simp [Memory.write, h, Memory.read]
  | cons c rest ih =>
    obtain ⟨k, v⟩ := c
    unfold Memory.write
    split
    · simp [h, Memory.read]
    · split
      · simp [h, Memory.read]
      · next h1 h2 => simp [Memory.read, Ne.symm h2, ih]

/-! ### Programming -/

/-- Addresses of one page, in the order of their offsets. -/
theorem addressOf_add (page i k : Nat) : addressOf page (i + k) = addressOf page i + k := by
  simp [addressOf, Nat.add_assoc]

/-- Programming changes no byte outside those programmed. -/
theorem read_program_outside {fault : StepFault} {page offset a : Nat} {bytes : List Byte}
    {m : Memory}
    (h : a < addressOf page offset ∨ addressOf page offset + bytes.length ≤ a) :
    (Memory.program fault page offset bytes m).read a = m.read a := by
  induction bytes generalizing offset m with
  | nil => rfl
  | cons b rest ih =>
    unfold Memory.program
    simp only
    rw [ih, read_write_ne]
    · simp only [List.length_cons] at h
      omega
    · simp only [List.length_cons] at h
      rw [addressOf_add]
      omega

/-- A byte programmed with nothing failing loses the bits that the new one has at 0. -/
theorem read_program_inside {page offset i : Nat} {bytes : List Byte} {m : Memory}
    (hm : m.wf = true) (h : i < bytes.length) :
    (Memory.program [] page offset bytes m).read (addressOf page offset + i)
      = m.read (addressOf page offset + i) &&& bytes[i] := by
  induction bytes generalizing offset m i with
  | nil => simp at h
  | cons b rest ih =>
    unfold Memory.program
    simp only
    cases i with
    | zero =>
      rw [read_program_outside (Or.inl (by rw [addressOf_add]; omega))]
      simp [faultAt, read_write_self hm]
    | succ k =>
      have e : addressOf page offset + (k + 1) = addressOf page (offset + 1) + k := by
        rw [addressOf_add]
        omega
      rw [e, ih (write_wf hm) (by simpa using h), read_write_ne]
      · simp
      · rw [addressOf_add]
        omega

/-! ### Erasing -/

theorem read_filter {m : Memory} {p : Host.Cell → Bool} {a : Nat}
    (h : ∀ v, p (a, v) = true) : Memory.read (m.filter p) a = Memory.read m a := by
  induction m with
  | nil => rfl
  | cons c rest ih =>
    obtain ⟨k, v⟩ := c
    rw [List.filter_cons]
    split
    · simp [Memory.read, ih]
    · next hc =>
      have : k ≠ a := fun e => hc (e ▸ h v)
      simp [Memory.read, this, ih]

/-- Erasing a page changes no byte outside it. -/
theorem read_erase_outside {fault : StepFault} {page a : Nat} {m : Memory}
    (h : a < addressOf page 0 ∨ addressOf (page + 1) 0 ≤ a) :
    (Memory.erase fault page m).read a = m.read a := by
  unfold Memory.erase
  induction fault with
  | nil =>
    refine read_filter fun v => ?_
    simp only [Bool.not_eq_true', Bool.and_eq_false_imp, decide_eq_true_eq, decide_eq_false_iff_not]
    omega
  | cons f rest ih =>
    simp only [List.foldr_cons]
    split
    · next hf =>
      rw [read_write_ne, ih]
      simp only [addressOf, pageSize] at *
      omega
    · exact ih

/-- A page that reads back as erased holds nothing but erased bytes. -/
theorem read_of_pageErased {page a : Nat} {m : Memory} (h : m.pageErased page = true)
    (h1 : addressOf page 0 ≤ a) (h2 : a < addressOf (page + 1) 0) : m.read a = erasedByte := by
  induction m with
  | nil => rfl
  | cons c rest ih =>
    obtain ⟨k, v⟩ := c
    simp only [Memory.pageErased, List.all_cons, Bool.and_eq_true] at h
    have hk : k ≠ a := by
      rintro rfl
      simp [h1, h2] at h
    simp only [Memory.read, hk, if_false]
    exact ih h.2

/-- An erase in which nothing fails is verified. -/
theorem erase_pageErased (page : Nat) (m : Memory) :
    (Memory.erase [] page m).pageErased page = true := by
  simp only [Memory.erase, List.foldr_nil, Memory.pageErased, Memory.clearPage, List.all_eq_true,
    List.mem_filter]
  exact fun c hc => hc.2

/-- In a store in canonical form a page is erased where every byte of it reads 0xFF. -/
theorem pageErased_iff {m : Memory} {page : Nat} (hw : m.wf = true) :
    m.pageErased page = true ↔ ∀ i, i < 512 → m.read (512 * page + i) = erasedByte := by
  constructor
  · intro h i hi
    exact read_of_pageErased h (by simp only [addressOf, pageSize]; omega)
      (by simp only [addressOf, pageSize]; omega)
  · intro h
    have key : ∀ (m : Memory) (lo : Nat), m.wfFrom lo = true →
        ∀ c ∈ m, m.read c.1 = c.2 ∧ c.2 ≠ erasedByte := by
      intro m
      induction m with
      | nil => intro lo h c hc; cases hc
      | cons x rest ih =>
        intro lo hm c hc
        obtain ⟨k, v⟩ := x
        simp only [Memory.wfFrom, Bool.and_eq_true, decide_eq_true_eq] at hm
        rcases List.mem_cons.mp hc with rfl | hc
        · refine ⟨by simp [Memory.read], ?_⟩
          have := hm.1.2
          simpa using this
        · obtain ⟨h1, h2⟩ := ih _ hm.2 c hc
          refine ⟨?_, h2⟩
          have : k ≠ c.1 := by
            intro he
            have : Memory.read rest c.1 = erasedByte := read_of_below hm.2 (by omega)
            rw [this] at h1
            exact h2 h1.symm
          simp only [Memory.read, this, if_false]
          exact h1
    unfold Memory.pageErased
    rw [List.all_eq_true]
    intro c hc
    obtain ⟨h1, h2⟩ := key m 0 hw c hc
    by_contra hn
    have e0 : ∀ q, addressOf q 0 = 512 * q := by
      intro q
      simp only [addressOf, pageSize]
      omega
    simp only [Bool.not_eq_true, Bool.not_eq_false', Bool.and_eq_true, decide_eq_true_eq,
      e0] at hn
    have := h (c.1 - 512 * page) (by omega)
    rw [show 512 * page + (c.1 - 512 * page) = c.1 by omega] at this
    exact h2 (h1 ▸ this)

/-! ### Reading back -/

theorem bytes_length (m : Memory) (page offset count : Nat) :
    (m.bytes page offset count).length = count := by
  simp [Memory.bytes]

theorem bytes_getElem {m : Memory} {page offset count i : Nat} (h : i < count) :
    (m.bytes page offset count)[i]'(by simpa [bytes_length] using h)
      = m.read (addressOf page offset + i) := by
  simp [Memory.bytes, addressOf_add]

/-- Bytes read where nothing has been changed. -/
theorem bytes_congr {m m' : Memory} {page offset count : Nat}
    (h : ∀ i, i < count → m'.read (addressOf page offset + i) = m.read (addressOf page offset + i)) :
    m'.bytes page offset count = m.bytes page offset count := by
  unfold Memory.bytes
  apply List.map_congr_left
  intro i hi
  rw [addressOf_add]
  exact h i (List.mem_range.mp hi)

/-- Bytes programmed with nothing failing over erased ones read back as intended. -/
theorem bytes_program_erased {page offset : Nat} {bytes : List Byte} {m : Memory}
    (hm : m.wf = true)
    (h : ∀ i, i < bytes.length → m.read (addressOf page offset + i) = erasedByte) :
    (Memory.program [] page offset bytes m).bytes page offset bytes.length = bytes := by
  apply List.ext_getElem
  · simp [bytes_length]
  · intro i h1 h2
    rw [bytes_getElem h2, read_program_inside hm h2, h i h2]
    exact BitVec.allOnes_and

end Sys2Proof.Machine
end

