-- ==== Sys2Proof/Laws/StoreOps.lean ====
section
/-! SUPPORT. What the store operations do: taking and voiding, storing into a page with its check block, and operations
cut off; the start-up scan of the log. -/

namespace Sys2Proof.Machine

/-! ### Taking (R162) -/

/-- The address of the state byte of a slot. -/
def stateAt (p : SlotPlace) : Nat := addressOf p.page (slotOffset p.slot 0)
/-- An operation on its way with nothing failing. -/
def clean (m : Memory) : Progress := { mem := m, faults := [], budget := none }

theorem clearFlag_clean (keep : Byte) (hk : ∀ b : Byte, b &&& keep ≠ erasedByte) (p : SlotPlace)
    (m : Memory) :
   ∃ f, clearFlag keep p (clean m) = (clean f, true) ∧ f.read (stateAt p) = m.read
     (stateAt p) &&& keep ∧
     ∀ a, a ≠ stateAt p → f.read a = m.read a := by
  let f := Memory.program [] p.page (slotOffset p.slot 0) [stateByte m p &&& keep] m
  have h1 : f.read (stateAt p) = m.read (stateAt p) &&& keep := by
    show (m.write _ _).read _ = _
    rw [show stateAt p = addressOf p.page (slotOffset p.slot 0) from rfl, read_write_of_ne]
    · simp [faultAt, stateByte]; rw [← BitVec.and_assoc]; simp
    · simp [faultAt, stateByte]; rw [← BitVec.and_assoc]; simp; exact hk _
  refine ⟨f, ?_, h1, ?_⟩
  · unfold clearFlag Progress.program Progress.step
    simp only [clean]
    have : (Memory.bytes f p.page (slotOffset p.slot 0) 1 == [stateByte m p &&& keep]) = true := by
      simp [Memory.bytes]; exact h1
    simp only [List.headD_nil, List.length_singleton, List.tail_nil]
    simp only [f] at this
    simp [this, f]
  · intro a ha
    exact read_program_outside (by simp [stateAt] at ha ⊢; omega)

theorem takeRecords_clean (ps : List SlotPlace) (m : Memory) :
  ∃ f, takeRecords ps (clean m) = (clean f, ps.length, true) ∧
    (∀ p ∈ ps, f.read (stateAt p) = m.read (stateAt p) &&& 0xBF) ∧
    (∀ a, (∀ p ∈ ps, a ≠ stateAt p) → f.read a = m.read a) := by
  induction ps generalizing m with
  | nil => exact ⟨m, rfl, by simp, by simp⟩
  | cons p rest ih =>
    obtain ⟨g, hg, hg1, hg2⟩ := clearFlag_clean 0xBF (by decide) p m
    obtain ⟨f, hf, hf1, hf2⟩ := ih g
    refine ⟨f, ?_, ?_, ?_⟩
    · unfold takeRecords; rw [hg]; simp only; rw [hf]; simp
    · intro q hq
      by_cases hr : ∃ r ∈ rest, stateAt q = stateAt r
      · obtain ⟨r, hr, he⟩ := hr
        rw [he, hf1 r hr]
        by_cases hp : stateAt r = stateAt p
        · rw [hp, hg1]; rw [BitVec.and_assoc]; simp
        · rw [hg2 _ hp]
      · push Not at hr
        rw [hf2 _ hr]
        rcases List.mem_cons.mp hq with h | h
        · subst h; exact hg1
        · exact absurd rfl (hr q h)
    · intro a ha
      rw [hf2 a (fun r hr => ha r (by simp [hr])), hg2 a (ha p (by simp))]

theorem mem_insertSlot_iff (m : Memory) (p q : SlotPlace)
    (l : List SlotPlace) : q ∈ insertSlot m p l ↔ q = p ∨ q ∈ l := by
  induction l with
  | nil => simp [insertSlot]
  | cons h t ih =>
    rw [insertSlot]
    split
    · simp only [List.mem_cons, ih]; exact or_left_comm
    · simp only [List.mem_cons]

theorem mem_foldl_insertSlot_iff (m : Memory) (q : SlotPlace) (l acc : List SlotPlace) :
   q ∈ l.foldl (fun acc p => insertSlot m p acc) acc ↔ q ∈ l ∨ q ∈ acc := by
  induction l generalizing acc with
  | nil => simp
  | cons h t ih => simp [ih, mem_insertSlot_iff]; tauto

theorem mem_logPages {k : Nat} : k ∈ logPages ↔ 43 ≤ k ∧ k ≤ 138 := by
  unfold logPages
  rw [List.mem_map]
  constructor
  · rintro ⟨j, hj, rfl⟩; rw [List.mem_range] at hj; omega
  · rintro ⟨h1, h2⟩; exact ⟨k - 43, by rw [List.mem_range]; omega, by omega⟩

theorem mem_slotsOf {pg : Nat} {p : SlotPlace} : p ∈ slotsOf pg ↔ p.page = pg ∧ p.slot ≤ 3 := by
  obtain ⟨a, b⟩ := p
  simp only [slotsOf, List.mem_cons, SlotPlace.mk.injEq, List.not_mem_nil, or_false]
  omega

theorem mem_records {m : Memory} {p : SlotPlace} :
   p ∈ recordsInLog m ↔ (43 ≤ p.page ∧ p.page ≤ 138 ∧ headerValid m p.page = true ∧ p.slot ≤ 3 ∧
     isRecord m p = true) := by
  unfold recordsInLog
  rw [mem_foldl_insertSlot_iff]
  simp only [List.mem_filter, List.mem_flatMap, headeredPages, mem_logPages, mem_slotsOf,
    List.not_mem_nil, or_false]
  constructor
  · rintro ⟨⟨pg, ⟨⟨h1, h2⟩, hv⟩, h, hs⟩, hr⟩
    subst h
    exact ⟨h1, h2, hv, hs, hr⟩
  · rintro ⟨h1, h2, h3, h4, h5⟩
    exact ⟨⟨p.page, ⟨⟨h1, h2⟩, h3⟩, rfl, h4⟩, h5⟩

/-- Two memories that differ in state bytes alone, each still that of a record or of none, hold the same records. -/
theorem records_same {m f : Memory} (h : ∀ a, (∀ p : SlotPlace, 43 ≤ p.page → p.page ≤ 138 →
    p.slot ≤ 3 → a ≠ stateAt p) → f.read a = m.read a)
  (hs : ∀ p : SlotPlace, p.slot ≤ 3 → recordStates.contains (stateByte f p) = recordStates.contains
    (stateByte m p)) :
   recordsInLog f = recordsInLog m ∧ (∀ p : SlotPlace, p.slot ≤ 3 → coilNumber f p
     = coilNumber m p) ∧ oldestPage f = oldestPage m ∧ newestPage f = newestPage m := by
  have hb : ∀ page off count, 512 * page + off = 512 * page + off → (∀ i, i < count →
    (off + i) % 128 ≠ 0) → off + count ≤ 512 → 
      f.bytes page off count = m.bytes page off count := by
    intro page off count _ hi hc
    apply bytes_congr
    intro i hii
    apply h
    intro p h1 h2 h3 he
    have := hi i hii
    simp [stateAt, addressOf, slotOffset, pageSize, slotSize] at he
    omega
  have hc : ∀ p : SlotPlace, p.slot ≤ 3 → coilNumber f p = coilNumber m p := by
    intro p hp
    unfold coilNumber slotNumber slotBytes
    rw [hb _ _ _ rfl] <;> simp [slotOffset, slotSize] <;> omega
  have hr : ∀ p : SlotPlace, p.slot ≤ 3 → isRecord f p = isRecord m p := by
    intro p hp
    unfold isRecord slotNumber slotBytes
    have h1 : ∀ i j : Nat, 1 ≤ i → i + j ≤ 128 → ∀ k, k < j → (slotOffset p.slot i + k) % 128 ≠ 0 := by
      intro i j hi hj k hk
      simp only [slotOffset, slotSize]
      omega
    have h2 : ∀ i j : Nat, i + j ≤ 128 → slotOffset p.slot i + j ≤ 512 := by
      intro i j hj
      simp only [slotOffset, slotSize]
      omega
    rw [hs p hp, hb _ _ 115 rfl (h1 3 115 (by omega) (by omega)) (h2 3 115 (by omega)),
      hb _ _ 2 rfl (h1 1 2 (by omega) (by omega)) (h2 1 2 (by omega))]
  have hv : ∀ pg, headerValid f pg = headerValid m pg := by
    intro pg
    unfold headerValid Memory.number
    rw [hb _ _ _ rfl (by simp [headerOffset]; omega) (by simp [headerOffset]), hb _ _ _ rfl
      (by simp [headerOffset]; omega) (by simp [headerOffset])]
  have hq : ∀ pg, sequenceOf f pg = sequenceOf m pg := by
    intro pg
    unfold sequenceOf Memory.number
    rw [hb _ _ _ rfl (by simp [headerOffset]; omega) (by simp [headerOffset])]
  have hh : headeredPages f = headeredPages m := by
    unfold headeredPages
    congr 1
    funext pg
    exact hv pg
  refine ⟨?_, hc, by unfold oldestPage; simp only [hh, hq], by unfold newestPage; simp only [hh,
    hq]⟩
  unfold recordsInLog
  rw [hh]
  have hf : ((headeredPages m).flatMap slotsOf).filter (isRecord f) =
    ((headeredPages m).flatMap slotsOf).filter (isRecord m) := by
    apply List.filter_congr
    intro p hp
    obtain ⟨pg, _, h⟩ := List.mem_flatMap.mp hp
    apply hr; simp [slotsOf] at h; rcases h with rfl|rfl|rfl|rfl <;> simp
  rw [hf]
  have hins : ∀ (l : List SlotPlace) (p : SlotPlace), p.slot ≤ 3 → (∀ q ∈ l, q.slot ≤ 3) →
    insertSlot f p l = insertSlot m p l := by
    intro l p hp
    induction l with
    | nil => intro _; rfl
    | cons x t ih =>
      intro hl
      unfold insertSlot
      rw [hc p hp, hc x (hl x (by simp)), ih (fun q hq => hl q (by simp [hq]))]
  have : ∀ (l acc : List SlotPlace), (∀ q ∈ l, q.slot ≤ 3) → (∀ q ∈ acc, q.slot ≤ 3) → l.foldl
    (fun acc p => insertSlot f p acc) acc = l.foldl (fun acc p => insertSlot m p acc) acc := by
    intro l
    induction l with
    | nil => intros; rfl
    | cons x t ih =>
      intro acc hl ha
      simp only [List.foldl_cons]
      rw [hins _ _ (hl x (by simp)) ha]
      apply ih _ (fun q hq => hl q (by simp [hq]))
      intro q hq
      rcases (mem_insertSlot_iff m x q acc).mp hq with h | h
      · subst h; exact hl q (by simp)
      · exact ha q h
  apply this
  · intro p hp
    obtain ⟨pg, _, h⟩ := List.mem_flatMap.mp (List.mem_filter.mp hp).1
    simp [slotsOf] at h; rcases h with rfl|rfl|rfl|rfl <;> simp
  · simp

theorem stateAt_inj {p q : SlotPlace} (hp : p.slot ≤ 3) (hq : q.slot ≤ 3) (h : stateAt p
    = stateAt q) : p = q := by
  obtain ⟨a, b⟩ := p; obtain ⟨c, d⟩ := q
  simp [stateAt, addressOf, slotOffset, pageSize, slotSize] at h hp hq ⊢
  omega

/-- LOG_TAKE with nothing failing: every record of a number at or below the one named reads TAKEN, and the records,
their numbers and their VOID flags are as they were. -/
theorem logTake_clean (upTo : Nat) (s : State) (hr : s.runningOp = some (.logTake upTo)) :
    let due := (recordsInLog s.flash).filter fun p =>
      decide (coilNumber s.flash p ≤ upTo) && !isTaken s.flash p
    ∃ f : Memory,
      exec (.logTakeOperation []) s
        = .next (endOp (requeueHeld (reportDone .log upTo due.length
            { s with
              flash := f
              log := { s.log with
                oldest := oldestPage s.flash, newest := newestPage s.flash } }))) ∧
      recordsInLog f = recordsInLog s.flash ∧
      (∀ p ∈ recordsInLog s.flash,
        coilNumber f p = coilNumber s.flash p ∧
        (coilNumber s.flash p ≤ upTo → isTaken f p = true) ∧
        (upTo < coilNumber s.flash p → isTaken f p = isTaken s.flash p) ∧
        isVoid f p = isVoid s.flash p) := by
  intro due
  obtain ⟨f, hf, hf1, hf2⟩ := takeRecords_clean due s.flash
  have hdue : ∀ p ∈ due, p ∈ recordsInLog s.flash ∧ coilNumber s.flash p ≤ upTo := by
    intro p hp
    have h := List.mem_filter.mp hp
    simp only [Bool.and_eq_true, decide_eq_true_eq] at h
    exact ⟨h.1, h.2.1⟩
  -- a slot of the log is one of those due, or its state byte is as it was
  have hstate : ∀ p : SlotPlace, p.slot ≤ 3 →
      (p ∈ due ∧ stateByte f p = stateByte s.flash p &&& 0xBF) ∨
        (p ∉ due ∧ stateByte f p = stateByte s.flash p) := by
    intro p hp
    by_cases hx : p ∈ due
    · exact Or.inl ⟨hx, hf1 p hx⟩
    · refine Or.inr ⟨hx, hf2 _ fun q hq he => hx ?_⟩
      rw [stateAt_inj hp (mem_records.mp (hdue q hq).1).2.2.2.1 he]
      exact hq
  have hsame := records_same (m := s.flash) (f := f)
    (fun a ha => hf2 a fun p hp => by
      have h := mem_records.mp (hdue p hp).1
      exact ha p h.1 h.2.1 h.2.2.2.1)
    (fun p hp => by
      rcases hstate p hp with ⟨hx, e⟩ | ⟨_, e⟩
      · have hrec := (mem_records.mp (hdue p hx).1).2.2.2.2
        unfold isRecord at hrec
        simp only [Bool.and_eq_true] at hrec
        rw [hrec.1, e]
        have h1 := hrec.1
        simp only [recordStates, List.contains_eq_mem, List.mem_cons, List.not_mem_nil, or_false,
          decide_eq_true_eq] at h1
        rcases h1 with h | h | h | h <;> rw [h] <;> decide
      · rw [e])
  refine ⟨f, ?_, hsame.1, fun p hp => ?_⟩
  · show Host.Outcome.next (logTakeEvent [] s) = _
    unfold logTakeEvent takeMemory
    rw [hr]
    simp only
    unfold clean at hf
    rw [hf]
    simp only [reportEnd, LogState.atHeaders, hsame.2.2.1, hsame.2.2.2, if_true]
  · have hm := mem_records.mp hp
    refine ⟨hsame.2.1 p hm.2.2.2.1, fun hle => ?_, fun hgt => ?_, ?_⟩
    · rcases hstate p hm.2.2.2.1 with ⟨_, e⟩ | ⟨hx, e⟩
      · unfold isTaken
        rw [e]
        simp
      · unfold isTaken at *
        rw [e]
        by_contra hn
        refine hx (List.mem_filter.mpr ⟨hp, ?_⟩)
        simp only [hle, decide_true, Bool.true_and, isTaken]
        simpa using hn
    · rcases hstate p hm.2.2.2.1 with ⟨hx, _⟩ | ⟨_, e⟩
      · have := (hdue p hx).2
        omega
      · unfold isTaken
        rw [e]
    · rcases hstate p hm.2.2.2.1 with ⟨_, e⟩ | ⟨_, e⟩
      · unfold isVoid
        rw [e]
        simp
      · unfold isVoid
        rw [e]

/-! ### Voiding (R163) -/

theorem program_one_other (page off : Nat) (b : Byte) (x : Progress) (a : Nat)
    (h : a ≠ addressOf page off) :
   (x.program page off [b]).1.mem.read a = x.mem.read a := by
  unfold Progress.program Progress.step
  simp only
  split
  · rfl
  · exact read_program_outside (by simp; omega)

theorem program_one_verified (page off : Nat) (b : Byte) (x : Progress) (h :
    (x.program page off [b]).2 = true) :
   (x.program page off [b]).1.mem.read (addressOf page off) = b := by
  unfold Progress.program at *
  simp [Memory.bytes] at h
  exact h

theorem clearFlag_spec (keep : Byte) (p : SlotPlace) (x : Progress) :
    ((clearFlag keep p x).2 = true → (clearFlag keep p x).1.mem.read (stateAt p) = x.mem.read
      (stateAt p) &&& keep) ∧
     ∀ a, a ≠ stateAt p → (clearFlag keep p x).1.mem.read a = x.mem.read a := by
  unfold clearFlag
  simp only
  split
  · next h =>
    exact ⟨fun _ => program_one_verified _ _ _ _ h, fun a ha => program_one_other _ _ _ _ _ ha⟩
  · refine ⟨fun h => program_one_verified _ _ _ _ h, fun a ha => ?_⟩
    rw [program_one_other _ _ _ _ _ ha, program_one_other _ _ _ _ _ ha]

theorem logVoid_spec (faults : List StepFault) (n : Nat) (s : State) (p : SlotPlace)
    (hr : s.runningOp = some (.logVoid n))
   (hf : findRecord s.flash n = some p) :
   (isVoid s.flash p = true →
        exec (.logVoidOperation faults) s
          = .next (endOp (reportDone .log n 0
              { s with
                log := { s.log with
                  oldest := oldestPage s.flash, newest := newestPage s.flash } }))) ∧
   (isVoid s.flash p = false → ∃ (f : Memory) (ok : Bool),
          let t : State :=
            { s with
              flash := f, log := { s.log with oldest := oldestPage f, newest := newestPage f } }
          exec (.logVoidOperation faults) s
            = .next (endOp (reportEnd ok .log n 0
                (if ok then voidCoil (recordOrder s.flash p)
                  (recordNotCounted s.flash p) t else t))) ∧
          (ok = true → isVoid f p = true) ∧
          (∀ a, a ≠ 512 * p.page + 128 * p.slot → Memory.read f a = Memory.read s.flash a)) := by
  refine ⟨fun hv => ?_, fun hv => ?_⟩
  · show Host.Outcome.next (logVoidEvent faults s) = _
    unfold logVoidEvent voidMemory
    simp only [hr, hf, hv, if_true]
    rfl
  · have := clearFlag_spec 0xDF p { mem := s.flash, faults := faults, budget := none }
    refine ⟨(clearFlag 0xDF p { mem := s.flash, faults := faults, budget := none }).1.mem,
      (clearFlag 0xDF p { mem := s.flash, faults := faults, budget := none }).2, ?_, ?_⟩
    · show Host.Outcome.next (logVoidEvent faults s) = _
      unfold logVoidEvent voidMemory
      simp only [hr, hf, hv]
      simp
      rfl
    · refine ⟨fun h => ?_, fun a ha => this.2 a ?_⟩
      · have := this.1 h
        unfold isVoid stateByte
        rw [show addressOf p.page (slotOffset p.slot 0) = stateAt p from rfl, this]
        simp
      · simp [stateAt, addressOf, slotOffset, pageSize, slotSize]; omega

/-! ### Storing into a page (R168, R170, R178) -/

theorem addressOf_eq (p i : Nat) : addressOf p i = 512 * p + i := by
  simp only [addressOf, pageSize]
  omega

theorem addressOf_zero (p : Nat) : addressOf p 0 = 512 * p :=
  addressOf_eq p 0

theorem step_keeps_read {change : StepFault → Memory → Memory} {x : Progress} {a : Nat} (h : ∀ f m,
    (change f m).read a = m.read a) :
  (x.step change).mem.read a = x.mem.read a := by
  unfold Progress.step; split
  · rfl
  · exact h _ _

theorem step_keeps_wf {change : StepFault → Memory → Memory} {x : Progress} (hx : x.mem.wf = true)
    (h : ∀ f m, Memory.wf m = true → (change f m).wf = true) :
  (x.step change).mem.wf = true := by
  unfold Progress.step; split
  · exact hx
  · exact h _ _ hx

theorem progress_program_outside {x : Progress} {page off a : Nat} {bytes : List Byte}
    (h : a < 512 * page + off ∨ 512 * page + off + bytes.length ≤ a) :
  (x.program page off bytes).1.mem.read a = x.mem.read a := by
  refine step_keeps_read fun f m => read_program_outside ?_
  rw [addressOf_eq]; exact h

theorem progress_erase_outside {x : Progress} {page a : Nat}  (h : a < 512 * page ∨ 512 *
    (page + 1) ≤ a) :
  (x.erase page).1.mem.read a = x.mem.read a := by
  refine step_keeps_read fun f m => read_erase_outside ?_
  rw [addressOf_zero, addressOf_zero]; exact h

theorem unflag_outside {x : Progress} {page a : Nat}  (h : a ≠ 512 * page) :
  (x.unflag page).mem.read a = x.mem.read a := by
  unfold Progress.unflag; simp only; rw [read_write_ne]; rw [addressOf_zero]; exact h

theorem openPage_outside {v} {x : Progress} {page a : Nat}  (h : a < 512 * page ∨ 512 *
    (page + 1) ≤ a) :
  (openPage v page x).1.mem.read a = x.mem.read a := by
  unfold openPage; simp only; split
  · exact progress_erase_outside h
  · simp only; split
    · rw [unflag_outside (by omega), progress_erase_outside h]
    · exact progress_erase_outside h

theorem sealPage_outside {x : Progress} {page a c : Nat}
    (h : a < 512 * page ∨ 512 * page + 3 ≤ a) :
  (sealPage page c x).1.mem.read a = x.mem.read a := by
  have e : (x.program page 0 ([0] ++ be 2 c)).1.mem.read a
    = x.mem.read a := progress_program_outside (by simp [be_length]; omega)
  unfold sealPage; simp only; split
  · exact e
  · simp only; split
    · rw [unflag_outside (by omega), e]
    · exact e

theorem storePage_outside {v} {x : Progress} {page a : Nat} {c : List Byte}
    (hc : 3 + c.length ≤ 512) (h : a < 512 * page ∨ 512 * (page + 1) ≤ a) :
  (storePage v page 3 c x).1.mem.read a = x.mem.read a := by
  unfold storePage
  simp only
  have e2 : ((openPage v page x).1.program page 3 c).1.mem.read a = x.mem.read a := by
    rw [progress_program_outside (by omega), openPage_outside h]
  split
  · split
    · rw [sealPage_outside (by omega), e2]
    · exact e2
  · exact openPage_outside h

theorem read_unflag {x : Progress} {page : Nat} (hx : x.mem.wf = true) : (x.unflag page).mem.read
    (addressOf page 0) = erasedByte := by
  unfold Progress.unflag; exact read_write_self hx

theorem erase_flag {x : Progress} {page : Nat} (h : (x.erase page).2 = true) :
    (x.erase page).1.mem.read (addressOf page 0) = erasedByte :=
  read_of_pageErased (page := page) h (by omega) (by rw [addressOf_zero, addressOf_zero]; omega)

theorem sealPage_not_verified {x : Progress} {page : Nat} {c : List Byte} (hx : x.mem.wf = true)
    (hb : x.mem.bytes page 3 c.length = c)
   (h : (sealPage page (crc16 c) x).2 = false) :
   (sealPage page (crc16 c) x).1.mem.read (addressOf page 0) = erasedByte ∨
    ((sealPage page (crc16 c) x).1.mem.bytes page 3 c.length = c ∧ (sealPage page
      (crc16 c) x).1.mem.number page 1 2 ≠ crc16 c) := by
  have hbb : (sealPage page (crc16 c) x).1.mem.bytes page 3 c.length = c := by
    rw [bytes_congr (m := x.mem), hb]
    intro i hi; rw [sealPage_outside]; right; rw [addressOf_eq]; omega
  have hy : (x.program page 0 ([0] ++ be 2 (crc16 c))).1.mem.wf = true := step_keeps_wf hx
    (fun f m hm => program_wf hm)
  unfold sealPage at *
  simp only at *
  split at h
  · cases h
  · next hn =>
    rw [if_neg hn] at hbb ⊢
    simp only at *
    by_cases he : (x.program page 0 ([0] ++ be 2 (crc16 c))).1.mem.number page 1 2 = crc16 c
    · rw [if_pos he]; left; exact read_unflag hy
    · rw [if_neg he] at hbb ⊢; right; exact ⟨hbb, he⟩

theorem storePage_not_verified {v} {x : Progress} {page : Nat} {c : List Byte} (hx : x.mem.wf
    = true)
   (hv : (x.erase page).2 = true ∨ v = true) (h : (storePage v page 3 c x).2 = false) :
   (storePage v page 3 c x).1.mem.read (addressOf page 0) = erasedByte ∨
    ((storePage v page 3 c x).1.mem.bytes page 3 c.length = c ∧
      (storePage v page 3 c x).1.mem.number page 1 2 ≠ crc16 c) := by
  have hy : (x.erase page).1.mem.wf = true := step_keeps_wf hx (fun f m hm => erase_wf hm)
  unfold storePage at *
  by_cases he : (x.erase page).2 = true
  · have ho : openPage v page x = ((x.erase page).1, true) := by unfold openPage; simp [he]
    simp only [ho, if_true] at *
    by_cases hf : ((x.erase page).1.program page 3 c).2 = true
    · rw [if_pos hf] at h ⊢
      apply sealPage_not_verified _ _ h
      · exact step_keeps_wf hy (fun f m hm => program_wf hm)
      · have hf2 := hf
        unfold Progress.program at hf2
        simp only [beq_iff_eq] at hf2
        exact hf2
    · simp only [hf] at *
      left
      show ((x.erase page).1.program page 3 c).1.mem.read _ = _
      rw [progress_program_outside (by left; rw [addressOf_zero]; omega)]
      exact erase_flag he
  · have hv : v = true := by tauto
    have ho : openPage v page x = ((x.erase page).1.unflag page, false) := by
      unfold openPage
      simp [he, hv]
    simp only [ho] at *
    left
    exact read_unflag hy

theorem step_budget {change} {x : Progress} : (x.step change).budget = x.budget.map (· - 1) := by
  unfold Progress.step; split
  · next h => rw [h]; rfl
  · rfl

theorem step_cut {change} {x : Progress} (h : x.budget = some 0) : x.step change = x := by
  unfold Progress.step; split
  · rfl
  · next b hb => exact absurd h hb

theorem sealPage_cut_off {x : Progress} {page c : Nat} (h : x.budget.isSome = true) :
    (sealPage page c x).2 = false := by
  unfold sealPage Progress.program
  simp only [step_budget]
  have : (x.budget.map (· - 1)).isNone = false := by
    cases hb : x.budget <;> simp_all
  simp [this]

theorem storePage_cut_off {v} {x : Progress} {page : Nat} {c : List Byte} (h : x.budget.isSome
    = true) : (storePage v page 3 c x).2 = false := by
  unfold storePage; simp only
  split
  · next ho =>
    split
    · next hf =>
      apply sealPage_cut_off
      unfold openPage
      have hb : (Progress.erase page x).1.budget.isSome = true := by
        unfold Progress.erase; simp only [step_budget]; cases hb : x.budget <;> simp_all
      have hb2 : ∀ y : Progress, y.budget.isSome = true → (y.program page 3 c).1.budget.isSome
        = true := by
        intro y hy
        unfold Progress.program
        simp only [step_budget]
        cases hb : y.budget <;> simp_all
      apply hb2
      simp only; split
      · exact hb
      · simp only; split <;> exact hb
    · rfl
  · rfl

theorem storePage_cut_early {x : Progress} {page k : Nat} {c : List Byte} (hx : x.mem.wf = true)
    (hb : x.budget = some k) (hk : k ≤ 2) :
   (storePage true page 3 c x).1.mem.read (addressOf page 0) = erasedByte := by
  have hy : (x.erase page).1.mem.wf = true := step_keeps_wf hx (fun f m hm => erase_wf hm)
  have hwp : ((x.erase page).1.program page 3 c).1.mem.wf = true := step_keeps_wf hy
    (fun f m hm => program_wf hm)
  unfold storePage
  by_cases he : (x.erase page).2 = true
  · have ho : openPage true page x = ((x.erase page).1, true) := by unfold openPage; simp [he]
    simp only [ho, if_true]
    have hp : ((x.erase page).1.program page 3 c).1.mem.read (addressOf page 0) = erasedByte := by
      rw [progress_program_outside (by left; rw [addressOf_zero]; omega)]
      exact erase_flag he
    split
    · have hb2 : ((x.erase page).1.program page 3 c).1.budget = some 0 := by
        unfold Progress.program Progress.erase
        simp only [step_budget, hb]; simp; omega
      unfold sealPage
      have e : ∀ b, (((x.erase page).1.program page 3 c).1.program page 0 b).1 =
        ((x.erase page).1.program page 3 c).1 := by
        intro b
        exact step_cut (change := fun fault => Memory.program fault page 0 b) hb2
      simp only [e]
      split
      · exact hp
      · simp only; split
        · exact read_unflag hwp
        · exact hp
    · exact hp
  · have ho : openPage true page x = ((x.erase page).1.unflag page, false) := by
      unfold openPage
      simp [he]
    simp only [ho]
    exact read_unflag hy

/-- A slot whose flag reads erased, or whose check word does not agree with the contents, holds no recipe. -/
theorem judgeSlot_not_valid {m : Memory} {slot : Nat} {body : RecipeBody} (hb : body.firstBad
    = none) (hf : body.fits = true)
  (h : m.read (addressOf slot 0) = erasedByte ∨ (m.bytes slot 3 (checkedBytes body).length
    = checkedBytes body ∧ m.number slot 1 2 ≠ crc16 (checkedBytes body))) :
  ∀ b c, judgeSlot m slot ≠ .valid b c := by
  intro b c hj
  rcases h with h | ⟨h2, hn⟩
  · unfold judgeSlot at hj; rw [if_pos h] at hj; cases hj
  have hbytes : ∀ n k, n + k ≤ (checkedBytes body).length → m.bytes slot (3 + n) k =
    ((checkedBytes body).drop n).take k := by
    intro n k hnk
    apply List.ext_getElem
    · simp [bytes_length]; omega
    · intro i h1 h3
      have hi : i < k := by simpa [bytes_length] using h1
      rw [bytes_getElem hi]
      have : (m.bytes slot 3 (checkedBytes body).length)[n + i]'(by simp [bytes_length]; omega) =
        (checkedBytes body)[n + i]'(by omega) := by
        simp only [h2]
      rw [bytes_getElem (by omega)] at this
      simp only [List.getElem_take, List.getElem_drop]
      rw [← this, addressOf_eq, addressOf_eq]; congr 1; omega
  have hcode : fits 1 body.code = true := fits_code body hf
  have hlen : (checkedBytes body).length = 1 + body.fieldBytes.length := by
    simp [checkedBytes, be_length]
  have h3 : m.number slot 3 1 = body.code := by
    unfold Memory.number
    have := hbytes 0 1 (by omega)
    simp only [Nat.add_zero] at this
    rw [this]
    simp [checkedBytes, be_length]
    exact unbe_be hcode
  have hl : recipeLength body.code (m.number slot 4 1) = body.fieldBytes.length := by
    cases body with
    | twist r => simp [recipeLength, RecipeBody.code, RecipeBody.fieldBytes, fieldBytes_eq]; rfl
    | rope r => simp [recipeLength, RecipeBody.code, RecipeBody.fieldBytes, fieldBytes_eq]; rfl
    | net r =>
      have hh := hf
      simp only [RecipeBody.fits, Bool.and_eq_true] at hh
      have hc : m.number slot 4 1 = r.pattern.length := by
        unfold Memory.number
        have := hbytes 1 1 (by rw [hlen]; simp [RecipeBody.fieldBytes, be_length]; omega)
        rw [this]
        simp [checkedBytes, be_length, RecipeBody.fieldBytes]
        rw [be_one hh.1.1]; simp [unbe_cons, toNat_byte hh.1.1]; rfl
      rw [hc]
      simp only [recipeLength, RecipeBody.code, RecipeBody.fieldBytes, List.length_append,
        be_length,
        flatMap_length patternStep_length, fieldBytes_eq]
      simp [sizedValues, NetRecipe.tailFields, be_length, fieldSizes]
    | other k => simp [RecipeBody.firstBad] at hb
  have hfields : m.bytes slot 4 (recipeLength body.code (m.number slot 4 1)) = body.fieldBytes := by
    rw [hl]
    have := hbytes 1 body.fieldBytes.length (by omega)
    rw [this]
    simp [checkedBytes, be_length]
  unfold judgeSlot at hj
  simp only [h3, hfields] at hj
  split at hj
  · cases hj
  · split at hj
    · next hh => exact hn hh.2.symm
    · cases hj

/-! ### The bit a tally step clears (R165) -/

/-- A byte that is not 0 loses its highest bit at 1, and no other. -/
theorem clearFirstBit_spec (b : Byte) (hb : b ≠ 0) :
    ∃ i, i < 8 ∧ b.getLsbD i = true ∧ (∀ j, i < j → b.getLsbD j = false) ∧
      ∀ j, (clearFirstBit b).getLsbD j = (b.getLsbD j && j != i) := by
  have h : ∀ b : Byte, b ≠ 0 → ∃ i : Fin 8, b.getLsbD i = true ∧
      (∀ j : Fin 8, i < j → b.getLsbD j = false) ∧
      ∀ j : Fin 8, (clearFirstBit b).getLsbD j = (b.getLsbD j && j != i) := by
    decide +kernel
  obtain ⟨i, h1, h2, h3⟩ := h b hb
  refine ⟨i.val, i.isLt, h1, fun j hj => ?_, fun j => ?_⟩
  · by_cases hj8 : j < 8
    · exact h2 ⟨j, hj8⟩ hj
    · exact BitVec.getLsbD_of_ge b j (by omega)
  · by_cases hj8 : j < 8
    · have := h3 ⟨j, hj8⟩
      simp only [bne, Fin.ext_iff] at this ⊢
      rw [this]
      congr 2
      rw [Bool.eq_iff_iff, beq_iff_eq, beq_iff_eq, Fin.ext_iff]
    · rw [BitVec.getLsbD_of_ge _ j (by omega), BitVec.getLsbD_of_ge _ j (by omega)]
      rfl

/-! ### A store that fails at its erase (R170) -/

theorem recipe_erase (faults : List StepFault) (slot : Nat) (body : RecipeBody) (m : Memory)
    (h : (Memory.erase (faults.headD []) slot m).pageErased slot = false) :
    let r := recipeMemory slot body { mem := m, faults := faults, budget := none }
    r.2 = false ∧ r.1.mem = Memory.erase (faults.headD []) slot m := by
  cases faults <;> simp [recipeMemory, storePage, openPage, Progress.erase, Progress.step] at h ⊢ <;> simp [h]

/-! ### What the slots and headers of a page read (R155, R164) -/

theorem isFree_iff (m : Memory) (p : SlotPlace) :
    isFree m p = true ↔ ∀ i, i < 118 → Memory.read m (512 * p.page + 128 * p.slot + i) = 0xFF := by
  have ea : ∀ i, addressOf p.page (slotOffset p.slot i) = 512 * p.page + 128 * p.slot + i := by
    intro i; simp only [addressOf, slotOffset, pageSize, slotSize]; omega
  unfold isFree stateByte slotBytes Memory.bytes
  simp only [Bool.and_eq_true, beq_iff_eq, List.all_map, List.all_eq_true, List.mem_range,
    Function.comp]
  constructor
  · rintro ⟨h1, h2⟩ i hi
    cases i with
    | zero => rw [← ea]; exact h1
    | succ k =>
      have := h2 k (by omega)
      rw [← ea, show slotOffset p.slot (k + 1) = slotOffset p.slot 1 + k by
        simp only [slotOffset]; omega]
      exact this
  · intro h
    refine ⟨by rw [ea]; exact h 0 (by omega), fun k hk => ?_⟩
    rw [show slotOffset p.slot 1 + k = slotOffset p.slot (1 + k) by simp only [slotOffset]; omega, ea]
    exact h _ (by omega)

theorem slotBytes_eq (m : Memory) (p : SlotPlace) (i n : Nat) :
    slotBytes m p i n
      = (List.range n).map fun k => Memory.read m (512 * p.page + 128 * p.slot + (i + k)) := by
  unfold slotBytes Memory.bytes
  refine List.map_congr_left fun k _ => ?_
  congr 1
  simp only [addressOf, slotOffset, pageSize, slotSize]
  omega

theorem isRecord_iff (m : Memory) (p : SlotPlace) :
    let byteAt := fun i => Memory.read m (512 * p.page + 128 * p.slot + i)
    isRecord m p = true ↔
      (byteAt 0 = 0x7F ∨ byteAt 0 = 0x3F ∨ byteAt 0 = 0x5F ∨ byteAt 0 = 0x1F) ∧
        crc16 ((List.range 115).map fun k => byteAt (3 + k))
          = unbe ((List.range 2).map fun k => byteAt (1 + k)) := by
  intro byteAt
  have e0 : stateByte m p = byteAt 0 := by
    unfold stateByte
    simp only [byteAt, addressOf, slotOffset, pageSize, slotSize]
    congr 1; omega
  unfold isRecord slotNumber recordStates
  rw [slotBytes_eq, slotBytes_eq, e0]
  simp [byteAt]

theorem pageBytes_eq (m : Memory) (page i n : Nat) :
    m.bytes page i n = (List.range n).map fun k => Memory.read m (512 * page + i + k) := by
  unfold Memory.bytes
  refine List.map_congr_left fun k _ => ?_
  congr 1
  simp only [addressOf, pageSize]
  omega

/-! ### The start-up scan (R156, R164) -/

/-- A fold that keeps the better of two ends with a best one: none only where there is none to keep, else one of them
that none of them betters. -/
theorem foldl_best {α : Type} {r : α → α → Prop} [DecidableRel r] {step : Option α → α → Option α}
    (hn : ∀ p, step none p = some p) (hs : ∀ b p, step (some b) p = if r p b then some p else some b)
    (ha : ∀ x y, r x y → ¬ r y x) (ht : ∀ x y z, ¬ r y x → ¬ r z y → ¬ r z x)
    (l : List α) (b : Option α) :
    (l.foldl step b = none → b = none ∧ l = []) ∧
    ∀ x, l.foldl step b = some x →
      (x ∈ l ∨ b = some x) ∧ (∀ p ∈ l, ¬ r p x) ∧ ∀ y, b = some y → ¬ r y x := by
  have hirr : ∀ x, ¬ r x x := fun x h => ha _ _ h h
  induction l generalizing b with
  | nil =>
    refine ⟨fun h => ⟨h, rfl⟩, fun x h => ⟨Or.inr h, by simp, fun y hy => ?_⟩⟩
    rw [show b = some x from h] at hy
    cases hy
    exact hirr _
  | cons a t ih =>
    have key : ∀ c : α, step b a = some c → (c = a ∨ b = some c) → ¬ r a c →
        (∀ y, b = some y → ¬ r y c) →
        (t.foldl step (step b a) = none → b = none ∧ a :: t = []) ∧
        ∀ x, t.foldl step (step b a) = some x →
          (x ∈ a :: t ∨ b = some x) ∧ (∀ p ∈ a :: t, ¬ r p x) ∧ ∀ y, b = some y → ¬ r y x := by
      intro c hc hm hac hbc
      rw [hc]
      obtain ⟨i1, i2⟩ := ih (some c)
      refine ⟨fun h => absurd (i1 h).1 (by simp), fun x hx => ?_⟩
      obtain ⟨h1, h2, h3⟩ := i2 x hx
      refine ⟨?_, ?_, fun y hy => ht _ _ _ (h3 _ rfl) (hbc y hy)⟩
      · rcases h1 with h1 | h1
        · exact Or.inl (List.mem_cons_of_mem _ h1)
        · cases h1
          exact hm.imp (fun h => by rw [h]; exact List.mem_cons_self ..) id
      · intro p hp
        rcases List.mem_cons.mp hp with rfl | hp
        · exact ht _ _ _ (h3 _ rfl) hac
        · exact h2 p hp
    rw [List.foldl_cons]
    cases b with
    | none => exact key a (hn a) (Or.inl rfl) (hirr _) (by simp)
    | some c =>
      by_cases hc : r a c
      · exact key a (by rw [hs, if_pos hc]) (Or.inl rfl) (hirr _)
          (fun y hy => by cases hy; exact ha _ _ hc)
      · exact key c (by rw [hs, if_neg hc]) (Or.inr rfl) hc (fun y hy => by cases hy; exact hirr _)

theorem mem_headeredPages {m : Memory} {p : Nat} :
    p ∈ headeredPages m ↔ 43 ≤ p ∧ p ≤ 138 ∧ headerValid m p = true := by
  simp [headeredPages, mem_logPages, and_assoc]

/-- The newest page: none where no header is valid, else one of the highest sequence number. -/
theorem newestPage_spec (m : Memory) :
    (newestPage m = none → headeredPages m = []) ∧
    ∀ x, newestPage m = some x →
      x ∈ headeredPages m ∧ ∀ p ∈ headeredPages m, sequenceOf m p ≤ sequenceOf m x := by
  obtain ⟨h1, h2⟩ := foldl_best (r := fun p b => sequenceOf m b < sequenceOf m p)
    (step := fun best p =>
      match best with
      | none => some p
      | some b => if sequenceOf m b < sequenceOf m p then some p else some b)
    (fun _ => rfl) (fun _ _ => rfl) (fun _ _ h => by omega) (fun _ _ _ h g => by omega)
    (headeredPages m) none
  refine ⟨fun h => (h1 h).2, fun x hx => ?_⟩
  obtain ⟨g1, g2, _⟩ := h2 x hx
  exact ⟨g1.resolve_right (by simp), fun p hp => Nat.not_lt.mp (g2 p hp)⟩

/-- The oldest page: none where no header is valid, else one of the lowest sequence number. -/
theorem oldestPage_spec (m : Memory) :
    (oldestPage m = none → headeredPages m = []) ∧
    ∀ x, oldestPage m = some x →
      x ∈ headeredPages m ∧ ∀ p ∈ headeredPages m, sequenceOf m x ≤ sequenceOf m p := by
  obtain ⟨h1, h2⟩ := foldl_best (r := fun p b => sequenceOf m p < sequenceOf m b)
    (step := fun best p =>
      match best with
      | none => some p
      | some b => if sequenceOf m p < sequenceOf m b then some p else some b)
    (fun _ => rfl) (fun _ _ => rfl) (fun _ _ h => by omega) (fun _ _ _ h g => by omega)
    (headeredPages m) none
  refine ⟨fun h => (h1 h).2, fun x hx => ?_⟩
  obtain ⟨g1, g2, _⟩ := h2 x hx
  exact ⟨g1.resolve_right (by simp), fun p hp => Nat.not_lt.mp (g2 p hp)⟩

theorem insertSlot_rising (m : Memory) (p : SlotPlace) (l : List SlotPlace)
    (h : l.Pairwise fun a b => coilNumber m a ≤ coilNumber m b) :
    (insertSlot m p l).Pairwise fun a b => coilNumber m a ≤ coilNumber m b := by
  induction l with
  | nil => simp [insertSlot]
  | cons a t ih =>
    obtain ⟨h1, h2⟩ := List.pairwise_cons.mp h
    unfold insertSlot
    split
    · next hc =>
      refine List.pairwise_cons.mpr ⟨fun b hb => ?_, ih h2⟩
      rcases (mem_insertSlot_iff m p b t).mp hb with rfl | hb
      · exact hc
      · exact h1 b hb
    · next hc =>
      refine List.pairwise_cons.mpr ⟨fun b hb => ?_, h⟩
      rcases List.mem_cons.mp hb with rfl | hb
      · omega
      · have := h1 b hb; omega

theorem recordsInLog_rising (m : Memory) :
    (recordsInLog m).Pairwise fun a b => coilNumber m a ≤ coilNumber m b := by
  unfold recordsInLog
  have : ∀ (l acc : List SlotPlace), (acc.Pairwise fun a b => coilNumber m a ≤ coilNumber m b) →
      (l.foldl (fun acc p => insertSlot m p acc) acc).Pairwise
        fun a b => coilNumber m a ≤ coilNumber m b := by
    intro l
    induction l with
    | nil => exact fun _ h => h
    | cons a t ih => exact fun acc h => ih _ (insertSlot_rising m a acc h)
  exact this _ _ List.Pairwise.nil

/-- The highest coil number in the log. -/
theorem highestCoil_eq (m : Memory) :
    (recordsInLog m = [] → highestCoil m = none) ∧
    ∀ n, (∃ p ∈ recordsInLog m, coilNumber m p = n) → (∀ p ∈ recordsInLog m, coilNumber m p ≤ n) →
      highestCoil m = some n := by
  unfold highestCoil
  refine ⟨fun h => by rw [h]; rfl, fun n ⟨p, hp, hn⟩ hmax => ?_⟩
  have hne : recordsInLog m ≠ [] := List.ne_nil_of_mem hp
  rw [List.getLast?_eq_some_getLast hne]
  have h1 := hmax _ (List.getLast_mem hne)
  have h2 : coilNumber m p ≤ coilNumber m ((recordsInLog m).getLast hne) :=
    List.Pairwise.rel_getLast_of_rel_getLast_getLast (recordsInLog_rising m) hp (Nat.le_refl _)
  simp only [Option.map_some, Option.some.injEq]
  omega

theorem unbe_lt (l : List Byte) : unbe l < 256 ^ l.length := by
  induction l with
  | nil => simp [unbe]
  | cons b t ih =>
    rw [unbe_cons, List.length_cons, Nat.pow_succ]
    have := b.isLt
    calc b.toNat * 256 ^ t.length + unbe t < b.toNat * 256 ^ t.length + 256 ^ t.length := by omega
      _ = (b.toNat + 1) * 256 ^ t.length := by ring
      _ ≤ 256 * 256 ^ t.length := Nat.mul_le_mul_right _ (by omega)
      _ = _ := by ring

theorem firstCoilOf_le (m : Memory) (page : Nat) : firstCoilOf m page ≤ 4294967295 := by
  have := unbe_lt (m.bytes page (headerOffset + 4) 4)
  simp only [Memory.bytes, List.length_map, List.length_range] at this
  unfold firstCoilOf Memory.number Memory.bytes
  omega

/-- What the start-up scan finds (R156, R164; a page all FREE: log 47). -/
theorem scanLog_spec (m : Memory) :
    let headered := fun p => 43 ≤ p ∧ p ≤ 138 ∧ headerValid m p = true
    ((∀ p, ¬ headered p) →
      scanLog m
        = { oldest := none, newest := none, page := 43, slot := 0, toBegin := true, next := 1
            closed := false }) ∧
    (∀ p, headered p → ∃ old new,
      (scanLog m).oldest = some old ∧ headered old ∧ sequenceOf m old ≤ sequenceOf m p ∧
      (scanLog m).newest = some new ∧ headered new ∧ sequenceOf m p ≤ sequenceOf m new) ∧
    (∀ new, (scanLog m).newest = some new →
      (∀ k, k ≤ 2 → isFree m ⟨new, k⟩ = false → (∀ j, k < j → j ≤ 3 → isFree m ⟨new, j⟩ = true) →
        (scanLog m).page = new ∧ (scanLog m).slot = k + 1 ∧ (scanLog m).toBegin = false) ∧
      (isFree m ⟨new, 3⟩ = false →
        (scanLog m).page = (if new = 138 then 43 else new + 1) ∧ (scanLog m).slot = 0 ∧
        (scanLog m).toBegin = true) ∧
      ((∀ j, j ≤ 3 → isFree m ⟨new, j⟩ = true) →
        (scanLog m).page = new ∧ (scanLog m).slot = 0 ∧ (scanLog m).toBegin = false) ∧
      (recordsInLog m = [] →
        (scanLog m).next = firstCoilOf m new ∧ (scanLog m).closed = false) ∧
      (∀ n, (∃ p ∈ recordsInLog m, coilNumber m p = n) → (∀ p ∈ recordsInLog m, coilNumber m p ≤ n) →
        (scanLog m).next = min (max (n + 1) (firstCoilOf m new)) 4294967295 ∧
        (scanLog m).closed = decide (n = 4294967295))) := by
  intro headered
  have hs : ∀ new, (scanLog m).newest = some new → newestPage m = some new := by
    intro new h
    unfold scanLog at h
    split at h
    · simp [LogState.reset] at h
    · next n hn => rw [hn]; exact h
  refine ⟨?_, ?_, ?_⟩
  · intro h
    unfold scanLog
    split
    · rfl
    · next n hn => exact absurd (mem_headeredPages.mp ((newestPage_spec m).2 n hn).1) (h n)
  · intro p hp
    have hp' := mem_headeredPages.mpr hp
    have hne : headeredPages m ≠ [] := List.ne_nil_of_mem hp'
    obtain ⟨new, hn⟩ := Option.ne_none_iff_exists'.mp (fun h => hne ((newestPage_spec m).1 h))
    obtain ⟨old, ho⟩ := Option.ne_none_iff_exists'.mp (fun h => hne ((oldestPage_spec m).1 h))
    obtain ⟨n1, n2⟩ := (newestPage_spec m).2 new hn
    obtain ⟨o1, o2⟩ := (oldestPage_spec m).2 old ho
    refine ⟨old, new, ?_, mem_headeredPages.mp o1, o2 p hp', ?_, mem_headeredPages.mp n1, n2 p hp'⟩ <;>
      (unfold scanLog; rw [hn])
    exact ho
  · intro new h
    have hn := hs new h
    have e : scanLog m = { oldest := oldestPage m, newest := some new
                           page := if decide (usedSlots m new = 4) then nextPage new else new
                           slot := if decide (usedSlots m new = 4) then 0 else usedSlots m new
                           toBegin := decide (usedSlots m new = 4)
                           next := min (max (match highestCoil m with
                             | some n => n + 1
                             | none => 0) (firstCoilOf m new)) top32
                           closed := decide ((match highestCoil m with
                             | some n => n + 1
                             | none => 0) = top32 + 1) } := by
      unfold scanLog; rw [hn]; all_goals rfl
    have hf := firstCoilOf_le m new
    refine ⟨fun k hk h1 h2 => ?_, fun h3 => ?_, fun h4 => ?_, fun h5 => ?_, fun n h6 h7 => ?_⟩
    · have : usedSlots m new = k + 1 := by
        unfold usedSlots slotsOf
        have hk' : k = 0 ∨ k = 1 ∨ k = 2 := by omega
        rcases hk' with rfl | rfl | rfl <;>
          simp [h1, h2 1, h2 2, h2 3]
      rw [e, this]
      simp only
      rw [decide_eq_false (by omega)]
      simp
    · have : usedSlots m new = 4 := by
        unfold usedSlots slotsOf
        simp [h3]
      rw [e, this]
      simp [nextPage]
    · have : usedSlots m new = 0 := by
        unfold usedSlots slotsOf
        simp [h4]
      rw [e, this]
      simp
    · rw [e, (highestCoil_eq m).1 h5]
      simp [top32]
      omega
    · rw [e, (highestCoil_eq m).2 n h6 h7]
      simp [top32]

end Sys2Proof.Machine
end

