-- ==== Sys2Proof/Laws/Outcomes.lean ====
section
/-! SUPPORT. How store operations end: the queue, the reports, what the blocks make of the outcome, and a page of the log
that could not be begun. -/

namespace Sys2Proof.Machine

/-! ### The end of an operation (R153, R160) -/

/-- The second queue is the first one with its oldest WAITING entry RUNNING, unless a RESTART keeps it from that. -/
def PromotedFrom (restarting : Bool) (q q' : List StoreEntry) : Prop :=
  ((restarting = true ∨ ∀ e ∈ q, e.state ≠ .waiting) → q' = q) ∧
  (∀ before e after, restarting = false → q = before ++ e :: after →
    (∀ x ∈ before, x.state ≠ .waiting) → e.state = .waiting →
    q' = before ++ { e with state := .running } :: after)

theorem promote_none {q : List StoreEntry} (h : ∀ e ∈ q, e.state ≠ .waiting) : promote q = q := by
  induction q with
  | nil => rfl
  | cons e rest ih =>
    unfold promote
    rw [if_neg (h e (by simp)), ih fun x hx => h x (by simp [hx])]

theorem promote_first {before after : List StoreEntry} {e : StoreEntry}
    (hb : ∀ x ∈ before, x.state ≠ .waiting) (he : e.state = .waiting) :
    promote (before ++ e :: after) = before ++ { e with state := .running } :: after := by
  induction before with
  | nil => simp [promote, he]
  | cons x rest ih =>
    rw [List.cons_append]
    unfold promote
    rw [if_neg (hb x (by simp)), ih fun y hy => hb y (by simp [hy])]
    rfl

/-- With no entry RUNNING the oldest WAITING one runs. -/
theorem startNext_promotes (s : State) (h : ∀ e ∈ s.queue, e.state ≠ .running) :
    ∃ q, startNext s = { s with queue := q } ∧ PromotedFrom s.link.restarting s.queue q := by
  have hr : s.runningOp = none := by
    unfold State.runningOp
    rw [List.find?_eq_none.mpr fun e he => by simpa using h e he]
    rfl
  unfold startNext
  rw [hr]
  cases hs : s.link.restarting
  · exact ⟨promote s.queue, rfl, fun hw => promote_none (by simpa using hw),
      fun b e a _ hq hb he => by rw [hq]; exact promote_first hb he⟩
  · exact ⟨s.queue, rfl, fun _ => rfl, fun b e a hf => by cases hf⟩

/-- The end of an operation frees its entry, and the oldest WAITING one runs. -/
theorem endOp_promotes (s : State) :
    ∃ q, endOp s = { s with queue := q } ∧
      PromotedFrom s.link.restarting (s.queue.filter fun e => e.state != .running) q :=
  startNext_promotes { s with queue := s.queue.filter fun e => e.state != .running }
    fun e he => by simpa using (List.mem_filter.mp he).2

/-- A write that is HELD keeps its entry, and the oldest WAITING one runs. -/
theorem holdOp_promotes (s : State) :
    ∃ q, holdOp s = { s with queue := q } ∧
      PromotedFrom s.link.restarting
        (s.queue.map fun e => if e.state = .running then { e with state := .held } else e) q := by
  refine startNext_promotes { s with queue := s.queue.map _ } fun e he => ?_
  obtain ⟨x, _, rfl⟩ := List.mem_map.mp he
  split
  · simp
  · assumption

/-! ### Outcomes under a RESTART (R192) -/

theorem queueReport_held (kind : ReportKind) (machine : Option Nat) (body : List Byte) (s : State) :
    (queueReport kind machine body s).link.held = s.link.held := by
  unfold queueReport
  simp only
  (repeat' split) <;> rfl

/-- A part that has not started holds every report. -/
theorem enterReport_of_starting {kind : ReportKind} {machine : Option Nat} {body : List Byte} {s : State}
    (h : s.link.start = .starting) :
    enterReport kind machine body s
      = { s with link := { s.link with held := s.link.held ++ [⟨kind, machine, body⟩] } } := by
  unfold enterReport isHeld
  rw [h]
  rfl

/-- A notice in a part that has not started: a change of the set is held as one STOP_CHANGE. -/
theorem stopNotice_of_starting (m : Fin 10) (set clear : CauseSet) (s : State)
    (h : s.link.start = .starting) :
    let after := ((s.stop m).causes ||| set) &&& ~~~clear
    let change : List HeldReport :=
      if after = (s.stop m).causes then []
      else [⟨.stopChange, some m.val, stopChangeBody (s.stop m).causes after⟩]
    (stopNotice m set clear s).link.held = s.link.held ++ change ∧
    (stopNotice m set clear s).link.reports = s.link.reports ∧
    (stopNotice m set clear s).link.lost = s.link.lost ∧
    (stopNotice m set clear s).link.start = .starting := by
  unfold stopNotice
  simp only
  by_cases he : ((s.stop m).causes ||| set) &&& ~~~clear = (s.stop m).causes
  · simp [he, h]
  · simp only [he, if_false]
    split
    · rw [enterReport_of_starting (by exact h)]
      exact ⟨rfl, rfl, rfl, h⟩
    · rw [enterReport_of_starting (by exact h)]
      exact ⟨rfl, rfl, rfl, h⟩

/-- What a write that was not done leaves for entry after STARTED, where a RESTART has been accepted. -/
theorem recordHeld_restart (l : LineId) (d : LogDetail) (s : State) (h : s.link.restarting = true) :
    let m := machineOf l
    let before := (s.stop m).causes
    let after := before ||| StopCause.logFull.only
    let t := recordHeld l d s
    t.link.reports = s.link.reports ∧ t.link.lost = s.link.lost ∧ t.link.start = s.link.start ∧
    t.link.held = s.link.held
      ++ (if after = before then [] else [⟨.stopChange, some m.val, stopChangeBody before after⟩])
      ++ [⟨.logFull, some m.val, be 1 d.code⟩] := by
  intro m before after t
  let s0 : State := { s with link := { s.link with start := .starting } }
  let s1 := s0.setPack l { s0.pack l with record := (s0.pack l).record.map fun r => { r with write := .held } }
  have hl : s1.link = { s.link with start := .starting } := by cases l <;> rfl
  have hst : s1.stop m = s.stop m := by cases l <;> rfl
  have ht : t = { (enterReport .logFull (some (lineNumber l)) (be 1 d.code) (setCause m .logFull s1)) with
      link := { (enterReport .logFull (some (lineNumber l)) (be 1 d.code) (setCause m .logFull s1)).link with
        start := s.link.start } } := by
    show recordHeld l d s = _
    unfold recordHeld onOutcome
    rw [if_pos h]
  obtain ⟨h1, h2, h3, h4⟩ := stopNotice_of_starting m StopCause.logFull.only 0 s1 (by rw [hl])
  have e : (((s1.stop m).causes ||| StopCause.logFull.only) &&& ~~~(0 : CauseSet)) = after := by
    rw [hst, show ~~~(0 : CauseSet) = BitVec.allOnes 16 from by decide, BitVec.and_allOnes]
  rw [e, hst] at h1
  rw [ht, show setCause m .logFull s1 = stopNotice m StopCause.logFull.only 0 s1 from rfl,
    enterReport_of_starting h4]
  refine ⟨?_, ?_, rfl, ?_⟩
  · show (stopNotice m StopCause.logFull.only 0 s1).link.reports = _
    rw [h2, hl]
  · show (stopNotice m StopCause.logFull.only 0 s1).link.lost = _
    rw [h3, hl]
  · show (stopNotice m StopCause.logFull.only 0 s1).link.held ++ _ = _
    rw [h1, hl]
    rfl

theorem beginStroke_link (l : LineId) (s : State) : (beginStroke l s).link = s.link := by
  unfold beginStroke
  cases l <;> rfl

theorem cutFires_of_starting (l : LineId) (s : State) (h : s.link.start = .starting) :
    ∃ changes : List HeldReport, (cutFires l s).link.held = s.link.held ++ changes ∧
      (∀ x ∈ changes, x.kind = .stopChange) ∧ (cutFires l s).link.reports = s.link.reports ∧
      (cutFires l s).link.lost = s.link.lost ∧ (cutFires l s).link.start = .starting := by
  let s1 := s.setPack l { s.pack l with state := .cutting, phase := some .wait }
  have hl : s1.link = s.link := by cases l <;> rfl
  obtain ⟨h1, h2, h3, h4⟩ := stopNotice_of_starting (machineOf l) StopCause.cut.only 0 s1 (by rw [hl, h])
  have e : (cutFires l s).link = (stopNotice (machineOf l) StopCause.cut.only 0 s1).link := by
    unfold cutFires
    simp only
    split
    · rfl
    · rw [beginStroke_link]; rfl
  rw [e, h1, h2, h3, h4, hl]
  refine ⟨_, rfl, ?_, rfl, rfl, rfl⟩
  split
  · simp
  · simp

/-- What a write that was done leaves for entry after STARTED, where a RESTART has been accepted. -/
theorem recordWritten_restart (l : LineId) (s : State) (h : s.link.restarting = true) :
    let t := recordWritten l s
    t.link.reports = s.link.reports ∧ t.link.lost = s.link.lost ∧ t.link.start = s.link.start ∧
    ∃ changes : List HeldReport, t.link.held = s.link.held ++ changes ∧
      (∀ x ∈ changes, x.kind = .stopChange) ∧
      (s.hasCause (machineOf l) .logFull = true → changes ≠ []) := by
  intro t
  let s0 : State := { s with link := { s.link with start := .starting } }
  let s1 := s0.setPack l { s0.pack l with record := none }
  let s2 := clearCause (machineOf l) .logFull s1
  have hl : s1.link = { s.link with start := .starting } := by cases l <;> rfl
  have hst : s1.stop (machineOf l) = s.stop (machineOf l) := by cases l <;> rfl
  have ht : t = { (releaseCut l s2) with link := { (releaseCut l s2).link with start := s.link.start } } := by
    show recordWritten l s = _
    unfold recordWritten onOutcome
    rw [if_pos h]
  obtain ⟨h1, h2, h3, h4⟩ := stopNotice_of_starting (machineOf l) 0 StopCause.logFull.only s1 (by rw [hl])
  have hne : s.hasCause (machineOf l) .logFull = true →
      ¬(((s1.stop (machineOf l)).causes ||| 0) &&& ~~~StopCause.logFull.only) =
        (s1.stop (machineOf l)).causes := by
    intro hc he
    rw [hst] at he
    have := congrArg (fun x : CauseSet => StopCause.logFull.isIn x) he
    erw [isIn_noticed] at this
    rw [only_isIn] at this
    unfold State.hasCause at hc
    rw [hc] at this
    simp at this
  have hfst : ∃ first : List HeldReport, s2.link.held = s.link.held ++ first ∧
      (∀ x ∈ first, x.kind = .stopChange) ∧ (s.hasCause (machineOf l) .logFull = true → first ≠ []) := by
    refine ⟨if ((s1.stop (machineOf l)).causes ||| 0) &&& ~~~StopCause.logFull.only
          = (s1.stop (machineOf l)).causes then []
        else [⟨.stopChange, some (machineOf l).val, stopChangeBody (s1.stop (machineOf l)).causes
          (((s1.stop (machineOf l)).causes ||| 0) &&& ~~~StopCause.logFull.only)⟩],
      h1.trans (by rw [hl]), ?_, ?_⟩
    · split <;> simp
    · intro hc
      rw [if_neg (hne hc)]
      simp
  obtain ⟨first, hf1, hf2, hf3⟩ := hfst
  have hrel : ∃ more : List HeldReport, (releaseCut l s2).link.held = s2.link.held ++ more ∧
      (∀ x ∈ more, x.kind = .stopChange) ∧ (releaseCut l s2).link.reports = s2.link.reports ∧
      (releaseCut l s2).link.lost = s2.link.lost := by
    unfold releaseCut
    simp only
    split
    · obtain ⟨c, c1, c2, c3, c4, _⟩ := cutFires_of_starting l
        (s2.setActions l ((s2.act l).actions.filter fun a => !(a.act == .cut && decide (a.trigger ≤ (s2.len l).p))))
        (by rw [setActions_link]; exact h4)
      rw [setActions_link] at c1 c3 c4
      exact ⟨c, c1, c2, c3, c4⟩
    · exact ⟨[], by simp, by simp, rfl, rfl⟩
  obtain ⟨more, m1, m2, m3, m4⟩ := hrel
  rw [ht]
  refine ⟨?_, ?_, rfl, first ++ more, ?_, ?_, ?_⟩
  · show (releaseCut l s2).link.reports = _
    rw [m3]
    exact h2.trans (by rw [hl])
  · show (releaseCut l s2).link.lost = _
    rw [m4]
    exact h3.trans (by rw [hl])
  · show (releaseCut l s2).link.held = _
    rw [m1, hf1, List.append_assoc]
  · intro x hx
    rcases List.mem_append.mp hx with hx | hx
    · exact hf2 x hx
    · exact m2 x hx
  · intro hc he
    exact hf3 hc (List.append_eq_nil_iff.mp he).1

/-- The outcome Written with no RESTART accepted (R149). -/
theorem recordWritten_eq (l : LineId) (s : State) (h : s.link.restarting = false) :
    let written := clearCause (machineOf l) .logFull (s.setPack l { s.pack l with record := none })
    let reached := fun a : Action => a.act == .cut && decide (a.trigger ≤ (s.len l).p)
    recordWritten l s
      = if (s.act l).actions.any reached then
          cutFires l (written.setActions l ((s.act l).actions.filter fun a => !reached a))
        else written := by
  intro written reached
  have hn : NoticesOnly (s.setPack l { s.pack l with record := none }) written := noticesOnly_clearCause ..
  have ha : written.act l = s.act l := by rw [hn]; cases l <;> rfl
  have hp : written.len l = s.len l := by rw [hn]; cases l <;> rfl
  unfold recordWritten onOutcome
  rw [if_neg (by simp [h])]
  show releaseCut l written = _
  unfold releaseCut
  simp only [ha, hp]
  rfl

/-- The outcomes FULL and FAULT with no RESTART accepted (R149). -/
theorem recordHeld_eq (l : LineId) (d : LogDetail) (s : State) (h : s.link.restarting = false) :
    recordHeld l d s
      = enterReport .logFull (some (machineOf l).val) (be 1 (match d with | .full => 1 | .fault => 2))
          (setCause (machineOf l) .logFull
            (s.setPack l
              { s.pack l with record := (s.pack l).record.map fun r => { r with write := .held } })) := by
  unfold recordHeld onOutcome
  rw [if_neg (by simp [h])]
  cases d <;> rfl

/-! ### A page that could not be begun (R159, R164) -/

theorem read_filter_out {m : Memory} {p : Host.Cell → Bool} {a : Nat} (h : ∀ v, p (a, v) = false) :
    Memory.read (m.filter p) a = erasedByte := by
  induction m with
  | nil => rfl
  | cons c rest ih =>
    obtain ⟨k, v⟩ := c
    rw [List.filter_cons]
    split
    · next hc =>
      have : k ≠ a := by
        rintro rfl
        rw [h v] at hc
        cases hc
      simp [Memory.read, this, ih]
    · exact ih

/-- A header that reads erased is not valid. -/
theorem headerValid_of_erased {m : Memory} {page : Nat}
    (h : ∀ i, i < 10 → m.read (addressOf page headerOffset + i) = erasedByte) :
    headerValid m page = false := by
  have hb : ∀ off n, off + n ≤ 10 → m.bytes page (headerOffset + off) n = List.replicate n erasedByte := by
    intro off n hn
    apply List.ext_getElem
    · simp [bytes_length]
    · intro i h1 h2
      have hi : i < n := by simpa [bytes_length] using h1
      rw [bytes_getElem hi, addressOf_add, Nat.add_assoc, h _ (by omega)]
      simp
  unfold headerValid Memory.number
  rw [show headerOffset = headerOffset + 0 from rfl, hb 0 8 (by omega), Nat.add_zero, hb 8 2 (by omega)]
  decide +kernel

/-- A page is left with no valid header, and changed in its header alone where that would be valid. -/
theorem unhead_spec (page : Nat) (x : Progress) :
    headerValid (x.unhead page).mem page = false ∧
    (headerValid x.mem page = false → x.unhead page = x) ∧
    (∀ a, a < 512 * page + 118 ∨ 512 * page + 128 ≤ a →
      (x.unhead page).mem.read a = x.mem.read a) := by
  unfold Progress.unhead
  refine ⟨?_, fun h => by simp [h], fun a ha => ?_⟩
  · split
    · apply headerValid_of_erased
      intro i hi
      apply read_filter_out
      intro v
      simp only [Bool.not_eq_false', Bool.and_eq_true, decide_eq_true_eq, addressOf_eq]
      omega
    · next h => simpa using h
  · split
    · apply read_filter
      intro v
      simp only [Bool.not_eq_true', Bool.and_eq_false_imp, decide_eq_true_eq, decide_eq_false_iff_not,
        addressOf_eq, headerOffset]
      omega
    · rfl

/-- A page that reads erased has no valid header. -/
theorem headerValid_of_pageErased {m : Memory} {page : Nat} (h : m.pageErased page = true) :
    headerValid m page = false :=
  headerValid_of_erased fun i hi => read_of_pageErased h
    (by simp only [addressOf_eq, headerOffset]; omega) (by simp only [addressOf_eq, headerOffset]; omega)

/-- A page whose begin is not verified, and one that a reset has come before: no valid header in the first, the store as
it was or the page erased in the second. -/
theorem beginPage_not_verified (a : Attempt) (h : (beginPage a).2 = false)
    (hv : a.x.budget ≠ some 0 ∨ headerValid a.x.mem a.log.page = false) :
    headerValid (beginPage a).1.x.mem a.log.page = false := by
  unfold beginPage at *
  simp only at *
  split
  · next he =>
    rw [if_pos he] at h
    split
    · next hh => rw [if_pos hh] at h; cases h
    · exact (unhead_spec _ _).1
  · next he =>
    rw [if_neg he] at h
    simp only
    split
    · next hb =>
      have e : a.x.erase a.log.page = (a.x, a.x.mem.pageErased a.log.page) := by
        unfold Progress.erase
        simp only [step_cut hb]
      rw [e]
      exact hv.resolve_left (fun hn => hn hb)
    · exact (unhead_spec _ _).1

theorem beginPage_keeps (a : Attempt) (h : (beginPage a).2 = false) :
    (beginPage a).1.log = a.log.atHeaders (beginPage a).1.x.mem := by
  unfold beginPage at *
  simp only at *
  split
  · next he =>
    rw [if_pos he] at h
    split
    · next hh => rw [if_pos hh] at h; cases h
    · rfl
  · rfl

/-- A try that has to begin a page (R158, R159). -/
theorem tryWrite_begins (r : CoilRecord) (a : Attempt) (hc : a.log.closed = false)
    (hb : a.log.toBegin = true) :
    let sequence := (a.log.newest.map (sequenceOf a.x.mem)).elim 1 (· + 1)
    let full := nextIsFull a.x.mem a.log || decide (4294967295 < sequence)
    let erased := a.x.erase a.log.page
    let headed := erased.1.program a.log.page 118 (headerBytes sequence a.log.next)
    let log := fun m : Memory => { a.log with oldest := oldestPage m, newest := newestPage m }
    (full = true → tryWrite r a = (a, .full)) ∧
    (full = false → a.x.budget = none → erased.2 = false ∨ headed.2 = false →
      let left := if erased.2 then headed.1 else erased.1
      ∃ x : Progress, tryWrite r a = (⟨x, log x.mem⟩, .failed) ∧
        headerValid x.mem a.log.page = false ∧
        (headerValid left.mem a.log.page = false → x = left) ∧
        (∀ b, b < 512 * a.log.page + 118 ∨ 512 * a.log.page + 128 ≤ b →
          x.mem.read b = left.mem.read b)) ∧
    (full = false → erased.2 = true → headed.2 = true →
      tryWrite r a = tryWrite r ⟨headed.1, { log headed.1.mem with toBegin := false }⟩) := by
  intro sequence full erased headed log
  have hs : nextSequence a.x.mem a.log = sequence := by
    unfold nextSequence
    simp only [sequence]
    cases a.log.newest <;> rfl
  have hf : (nextIsFull a.x.mem a.log || decide (top32 < nextSequence a.x.mem a.log)) = full := by
    rw [hs]
  have hp : prepare a = if full then (a, .full) else
      ((beginPage a).1, if (beginPage a).2 then .passed else .failed) := by
    unfold prepare
    rw [hf]
    simp [hb]
  refine ⟨?_, ?_, ?_⟩
  · intro h
    unfold tryWrite
    simp [hc, hp, h]
  · intro h hn hv left
    have e2 : beginPage a = (⟨left.unhead a.log.page, log (left.unhead a.log.page).mem⟩, false) := by
      unfold beginPage
      simp only [hs, hn]
      by_cases he : erased.2 = true
      · have hh : headed.2 = false := by
          rcases hv with hv | hv
          · rw [he] at hv; cases hv
          · exact hv
        have hl : left = headed.1 := by simp only [left, he, if_true]
        rw [hl, if_pos he]
        have hh' : ¬((a.x.erase a.log.page).1.program a.log.page headerOffset
            (headerBytes sequence a.log.next)).2 = true := by
          show ¬headed.2 = true
          simp [hh]
        rw [if_neg hh']
        rfl
      · have hl : left = erased.1 := by simp only [left, he]; rfl
        rw [hl, if_neg he, if_neg (by simp)]
        rfl
    obtain ⟨s1, s2, s3⟩ := unhead_spec a.log.page left
    refine ⟨left.unhead a.log.page, ?_, s1, s2, s3⟩
    unfold tryWrite
    simp [hc, hp, h, e2]
  · intro h h1 h2
    have e : beginPage a = (⟨headed.1, { log headed.1.mem with toBegin := false }⟩, true) := by
      unfold beginPage
      simp only [hs]
      rw [if_pos h1]
      have : ((a.x.erase a.log.page).1.program a.log.page headerOffset
          (headerBytes sequence a.log.next)).2 = true := h2
      rw [if_pos this]
      rfl
    let b : Attempt := ⟨headed.1, { log headed.1.mem with toBegin := false }⟩
    have hpa : prepare a = (b, .passed) := by rw [hp, e]; simp [h, b]
    have hpb : prepare b = (b, .passed) := rfl
    show tryWrite r a = tryWrite r b
    unfold tryWrite
    rw [hpa, hpb, hc]
    rfl

/-- No header is ten erased bytes. -/
theorem headerBytes_not_erased (sequence coil : Nat) :
    headerBytes sequence coil ≠ List.replicate 10 erasedByte := by
  intro h
  unfold headerBytes at h
  simp only at h
  have e : List.replicate 10 erasedByte = List.replicate 8 erasedByte ++ List.replicate 2 erasedByte := rfl
  rw [e] at h
  obtain ⟨h1, h2⟩ := List.append_inj h (by simp [be_length])
  rw [h1] at h2
  revert h2
  decide +kernel

theorem erase_cut_page {page : Nat} {x : Progress} (h : x.budget = some 0) :
    x.erase page = (x, x.mem.pageErased page) := by
  unfold Progress.erase
  simp only [step_cut h]

/-- With at most one step left a page is not begun. -/
theorem beginPage_out_of_steps (a : Attempt) {k : Nat} (h : a.x.budget = some k) (hk : k ≤ 1) :
    (beginPage a).2 = false := by
  unfold beginPage
  simp only
  split
  · next he =>
    have hb : (a.x.erase a.log.page).1.budget = some 0 := by
      unfold Progress.erase
      simp only [step_budget, h]
      simp
      omega
    have hp : ((a.x.erase a.log.page).1.program a.log.page headerOffset
        (headerBytes (nextSequence a.x.mem a.log) a.log.next)).2 = false := by
      unfold Progress.program
      simp only [step_cut hb, beq_eq_false_iff_ne, ne_eq]
      intro heq
      apply headerBytes_not_erased (nextSequence a.x.mem a.log) a.log.next
      rw [← heq]
      apply List.ext_getElem
      · simp [bytes_length, headerBytes_length]
      · intro i h1 h2
        rw [bytes_getElem (by simpa [bytes_length] using h1), List.getElem_replicate]
        have hi : i < 10 := by simpa using h2
        exact read_of_pageErased (page := a.log.page) he
          (by simp only [addressOf_eq, headerOffset]; omega)
          (by simp only [addressOf_eq, headerOffset]; omega)
    rw [if_neg (by simp [hp])]
  · rfl

theorem unhead_budget (page : Nat) (x : Progress) : (x.unhead page).budget = x.budget := by
  unfold Progress.unhead
  split <;> rfl

theorem beginPage_budget (a : Attempt) {k : Nat} (h : a.x.budget = some k) :
    ∃ j, (beginPage a).1.x.budget = some j ∧ j ≤ k - 1 := by
  have h1 : (a.x.erase a.log.page).1.budget = some (k - 1) := by
    unfold Progress.erase
    simp only [step_budget, h]
    rfl
  unfold beginPage
  simp only
  split
  · have h2 : ∀ bytes, ((a.x.erase a.log.page).1.program a.log.page headerOffset bytes).1.budget
        = some (k - 1 - 1) := by
      intro bytes
      unfold Progress.program
      simp only [step_budget, h1]
      rfl
    split
    · exact ⟨_, h2 _, by omega⟩
    · exact ⟨_, (unhead_budget _ _).trans (h2 _), by omega⟩
  · simp only
    split
    · exact ⟨_, h1, Nat.le_refl _⟩
    · exact ⟨_, (unhead_budget _ _).trans h1, Nat.le_refl _⟩

/-- An erase or a header cut off leaves no valid header (R164). -/
theorem cutOff_header (faults : List StepFault) (steps : Nat) (l : LineId) (r : PendingRecord) (s : State)
    (hop : s.runningOp = some (.coilWrite l)) (hr : (s.pack l).record = some r)
    (hc : s.log.closed = false) (hb : s.log.toBegin = true) :
    let page := s.log.page
    let sequence := (s.log.newest.map (sequenceOf s.flash)).elim 1 (· + 1)
    let header := headerBytes sequence s.log.next
    let erased := Memory.erase (faults.headD []) page s.flash
    let headed := Memory.program (faults.tail.headD []) page 118 header erased
    nextIsFull s.flash s.log = false → sequence ≤ 4294967295 →
    (steps = 1 ∨ (steps = 2 ∧ (erased.pageErased page = false ∨ headed.bytes page 118 10 ≠ header))) →
    headerValid (cutOffMemory steps faults s) page = false := by
  intro page sequence header erased headed hfull hseq hsteps
  let a : Attempt := ⟨{ mem := s.flash, faults := faults, budget := some steps }, s.log⟩
  have hs : nextSequence a.x.mem a.log = sequence := by
    show nextSequence s.flash s.log = _
    unfold nextSequence
    simp only [sequence]
    cases s.log.newest <;> rfl
  have h1 : (beginPage a).2 = false := by
    rcases hsteps with h | ⟨h, hv⟩
    · exact beginPage_out_of_steps a (k := 1) (by simp [a, h]) (Nat.le_refl _)
    · have e1 : a.x.erase page
          = ({ mem := erased, faults := faults.tail, budget := some 1 }, erased.pageErased page) := by
        simp only [a, h]
        rfl
      unfold beginPage
      simp only
      rw [show a.log.page = page from rfl, e1, hs]
      rcases hv with hv | hv
      · simp [hv]
      · have hp : (Progress.program page headerOffset header
            { mem := erased, faults := faults.tail, budget := some 1 }).2 = false := by
          unfold Progress.program Progress.step
          simp only [beq_eq_false_iff_ne, ne_eq]
          rw [show header.length = 10 from headerBytes_length _ _]
          exact hv
        rw [show headerBytes sequence a.log.next = header from rfl, hp]
        split <;> rfl
  have hk : ∃ j, (beginPage a).1.x.budget = some j ∧ j ≤ 1 := by
    obtain ⟨j, hj, hle⟩ := beginPage_budget a (k := steps) rfl
    exact ⟨j, hj, by omega⟩
  have h2 : headerValid (beginPage a).1.x.mem page = false :=
    beginPage_not_verified a h1 (Or.inl (by
      simp only [a]
      intro h
      injection h with h
      omega))
  let b := (beginPage a).1
  have hlog : b.log = a.log.atHeaders b.x.mem := beginPage_keeps a h1
  have hpa : prepare a = (b, .failed) := by
    unfold prepare
    rw [show a.log.toBegin = true from hb, hs,
      show nextIsFull a.x.mem a.log = false from hfull]
    simp [h1, b, top32]
    omega
  have ht1 : tryWrite r.coil a = (b, .failed) := by
    unfold tryWrite
    rw [show a.log.closed = false from hc, hpa]
    rfl
  have hm : cutOffMemory steps faults s = (tryWrite r.coil b).1.x.mem := by
    unfold cutOffMemory operationMemory attemptWrite
    rw [hop]
    simp only [hr]
    rw [show tryWrite r.coil ⟨{ mem := s.flash, faults := faults, budget := some steps }, s.log⟩
      = (b, .failed) from ht1]
    simp only
    generalize tryWrite r.coil b = q
    obtain ⟨c, e⟩ := q
    cases e <;> rfl
  rw [hm]
  obtain ⟨j, hj, hle⟩ := hk
  have hbf := beginPage_out_of_steps b hj hle
  have hpage : b.log.page = page := by rw [hlog]; rfl
  have hb2 : headerValid (beginPage b).1.x.mem page = false := by
    rw [← hpage]
    exact beginPage_not_verified b hbf (Or.inr (by rw [hpage]; exact h2))
  unfold tryWrite
  split
  · exact h2
  · have : prepare b = (b, .full) ∨ prepare b = ((beginPage b).1, .failed) := by
      unfold prepare
      rw [show b.log.toBegin = true from by rw [hlog]; exact hb]
      simp only [Bool.not_true, Bool.false_eq_true, if_false]
      split
      · exact Or.inl rfl
      · right; simp [hbf]
    rcases this with h | h
    · rw [h]; exact h2
    · rw [h]; exact hb2

end Sys2Proof.Machine
end

