-- ==== Sys2Proof/Laws/Loads.lean ====
section
/-! SUPPORT. What a completed cut, a load, a SET_POSITION, a plant record in force and a position's fault leave. -/

namespace Sys2Proof.Machine

/-! ### A plant record in force (R63) -/

theorem constantsOf_plant (l : LineId) (plant : PlantRecord) (s : State) (h : s.plant = some plant) :
    constantsOf l s
      = match l with
        | .rope =>
          let diameter := (s.ropeCopy.map fun c => c.recipe.diameter).getD 0
          let stretch := (s.ropeCopy.map fun c => c.recipe.stretch).getD 0
          let cEff := plant.cm + (2 * (diameter * 355) + 113) / (2 * 113)
          { n := plant.nm, cEff := cEff, stretch := stretch, k := cEff * (1000000 - stretch) }
        | .net =>
          let stretch := (s.netCopy.map fun c => c.recipe.stretch).getD 0
          { n := plant.nn, cEff := plant.cn, stretch := stretch
            k := plant.cn * (1000000 - stretch) } := by
  have hp : s.plantD = plant := by unfold State.plantD; rw [h]; rfl
  cases l <;> simp only [constantsOf, constantsFrom, hp, roundDiv] <;> rfl

/-- A plant record in force: each loaded line begins a segment with its constants, and nothing else changes but the
record and an UNCONFIGURED start state. -/
theorem plantInForce_eq (plant : PlantRecord) (s : State) :
    let held := { s with plant := some plant }
    let line := fun (l : LineId) (x : LengthMeter) =>
      if x.constants.isSome then
        { x with
          constants := some (constantsOf l held), base := x.p, q := 0
          saturated := decide (x.p = 4294967295) }
      else x
    plantInForce plant s
      = { s with
          plant := some plant
          rope := { s.rope with len := line .rope s.rope.len }
          net := { s.net with len := line .net s.net.len }
          link := { s.link with
            start := if s.link.start = .unconfigured then .ready else s.link.start } } := by
  intro held line
  unfold plantInForce becomeReady takePlant beginSegment
  by_cases h1 : s.rope.len.constants.isSome <;> by_cases h2 : s.net.len.constants.isSome <;>
    by_cases h3 : s.link.start = .unconfigured <;>
    simp [State.len, State.line, State.setLen, State.setLine, h1, h2, h3, line, held, top32,
      constantsOf, State.plantD] <;> (try constructor)

/-- The same with the constants written out: those of the new record and of the line's held recipe. -/
theorem plantInForce_constants (plant : PlantRecord) (s : State) :
    let diameter := (s.ropeCopy.map fun c => c.recipe.diameter).getD 0
    let ropeStretch := (s.ropeCopy.map fun c => c.recipe.stretch).getD 0
    let netStretch := (s.netCopy.map fun c => c.recipe.stretch).getD 0
    let cEff := plant.cm + (2 * (diameter * 355) + 113) / (2 * 113)
    let segment := fun (k : Constants) (x : LengthMeter) =>
      if x.constants.isSome then
        { x with constants := some k, base := x.p, q := 0, saturated := decide (x.p = 4294967295) }
      else x
    plantInForce plant s
      = { s with
          plant := some plant
          rope := { s.rope with
            len := segment { n := plant.nm, cEff := cEff, stretch := ropeStretch
                             k := cEff * (1000000 - ropeStretch) } s.rope.len }
          net := { s.net with
            len := segment { n := plant.nn, cEff := plant.cn, stretch := netStretch
                             k := plant.cn * (1000000 - netStretch) } s.net.len }
          link := { s.link with
            start := if s.link.start = .unconfigured then .ready else s.link.start } } := by
  intro diameter ropeStretch netStretch cEff segment
  have h := plantInForce_eq plant s
  simp only at h
  rw [h, constantsOf_plant .rope plant { s with plant := some plant } rfl,
    constantsOf_plant .net plant { s with plant := some plant } rfl]

/-! ### A position's fault (R21) -/

/-- The motion deadline of a position in RUN with one drive running. -/
theorem motion_fault (p : Fin 8) (s : State) (j : Job) (d : Nat) (h1 : s.job p = some j)
    (h2 : j.phase = .run) (h3 : j.motion = some d) (h4 : spRuns p s ≠ dlRuns p s) :
    exec (.motionTimerDeadline p) s = .next (enterFault p .jam j { s with now := max s.now d }) := by
  show Host.Outcome.next (motionEvent p s) = _
  unfold motionEvent
  rw [h1]
  simp only [h2, h3]
  have e1 : spRuns p (s.reach d) = spRuns p s := rfl
  have e2 : dlRuns p (s.reach d) = dlRuns p s := rfl
  cases ha : spRuns p s <;> cases hb : dlRuns p s <;> simp_all <;> rfl

/-! ### SET_POSITION (R76) -/

/-- What is timed or measured by the old positions begins afresh on the line set; the other line's stands. -/
theorem setPosition_measures (v : Nat) (s : State) :
    (setPosition .rope v s).lay
      = { head := 0, windowStart := v, filter := none, last := none
          outRun := { side := .low, count := 0, runStart := 0, lastEnd := 0 }, span := none } ∧
    (setPosition .rope v s).knot = s.knot ∧
    (setPosition .net v s).lay = s.lay ∧
    (setPosition .net v s).knot
      = { s.knot with
          ring := [], last := none
          outRun := { side := .low, count := 0, runStart := 0, lastEnd := 0 }, span := none
          scan := s.knot.scan.map fun x => { x with kept := false } } := by
  have key : ∀ l, (packRestarts l v (stopNotice (machineOf l) 0
      (StopCause.only .marksFull ||| StopCause.only .watch)
      ((s.setLen l ((s.len l).setTo v)).setAct l
        ((s.setLen l ((s.len l).setTo v)).act l).cleared))).lay = s.lay ∧
    (packRestarts l v (stopNotice (machineOf l) 0
      (StopCause.only .marksFull ||| StopCause.only .watch)
      ((s.setLen l ((s.len l).setTo v)).setAct l
        ((s.setLen l ((s.len l).setTo v)).act l).cleared))).knot = s.knot := by
    intro l
    unfold packRestarts
    rw [stopNotice_only]
    split <;> cases l <;> exact ⟨rfl, rfl⟩
  refine ⟨rfl, (key .rope).2, (key .net).1, ?_⟩
  show (knotSegment _).knot = _
  unfold knotSegment
  rw [(key .net).2]
  rfl

/-! ### The pack point at a load (R128, R129) -/

/-- The package list of a coil that opens: the packages FEEDING, on the rope line. -/
theorem openingPackages_eq (l : LineId) (s : State) :
    openingPackages l s
      = match l with
        | .rope => ([0, 1, 2, 3] : List (Fin 4)).filterMap fun i =>
            (s.place i).current.filter fun n => (s.package n).map Package.state == some .feeding
        | .net => [] := by
  unfold openingPackages feedingNumbers
  cases l
  · simp only
    refine List.filterMap_congr fun i _ => ?_
    cases (s.place i).current with
    | none => rfl
    | some n =>
      simp only [Option.filter]
      split <;> simp_all
  · rfl

/-- A coil that opens. -/
theorem openCoil_eq (l : LineId) (x0 : Nat) (s : State) :
    openCoil l x0 s
      = tryBinding l (s.setPack l
          { s.pack l with
            state := .opened, coilStart := some x0, bound := none, plan := none, nearSplice := false
            phase := none
            packages := match l with
              | .rope => ([0, 1, 2, 3] : List (Fin 4)).filterMap fun i =>
                  (s.place i).current.filter fun n => (s.package n).map Package.state == some .feeding
              | .net => []
            more := false }) := by
  unfold openCoil
  rw [openingPackages_eq]

/-- The pack point of a line at a load. -/
theorem packLoads_cases (l : LineId) (s : State) :
    ((s.pack l).state = .noCoil → packLoads l s = openCoil l (s.len l).p s) ∧
    ((s.pack l).state = .opened ∨ (s.pack l).state = .bound →
      packLoads l s
        = tryBinding l (s.setPack l { s.pack l with state := .opened, bound := none })) ∧
    ((s.pack l).state = .planned ∨ (s.pack l).state = .cutting ∨ (s.pack l).state = .cutFail →
      packLoads l s = s) := by
  unfold packLoads
  refine ⟨fun h => by rw [h], fun h => ?_, fun h => ?_⟩
  · rcases h with h | h <;> rw [h]
  · rcases h with h | h | h <;> rw [h]

/-! ### The coil that opens at a completed cut (R128, R130, R146) -/

/-- A coil that opens with the line at most the cutter offset beyond its start holds no plan: it is bound to the line's
oldest order where that is of the recipe in force, and OPEN otherwise. -/
theorem openCoil_pack (l : LineId) (x0 : Nat) (s : State) (hp : (s.len l).p ≤ x0 + s.cutterOffset l)
    (hb : ∀ o ∈ s.orders, o.low < o.target) :
    let bound := (s.orders.find? fun o => o.line == l).filter fun o =>
      s.copyOf l == some (o.slot, o.check)
    (openCoil l x0 s).pack l
      = { s.pack l with
          state := if bound.isSome then .bound else .opened
          coilStart := some x0
          bound := bound.map Order.number
          plan := none, nearSplice := false, phase := none
          packages := openingPackages l s, more := false } := by
  intro bound
  let k : PackPoint :=
    { s.pack l with
      state := .opened, coilStart := some x0, bound := none, plan := none, nearSplice := false
      phase := none, packages := openingPackages l s, more := false }
  let u := s.setPack l k
  have hu : u.pack l = k := by cases l <;> rfl
  have ho : u.orders = s.orders := by cases l <;> rfl
  have hc : u.copyOf l = s.copyOf l := by cases l <;> rfl
  have hl : u.len l = s.len l := by cases l <;> rfl
  have hr : ∀ o kind, (reportBlocked l o kind u).pack l = k := by
    intro o kind
    unfold reportBlocked
    rw [enterReport_only]
    exact hu
  show (tryBinding l u).pack l = _
  unfold tryBinding
  rw [hu]
  simp only [k]
  unfold State.oldestOrder
  rw [ho, hc]
  cases hf : s.orders.find? fun o => o.line == l with
  | none =>
    simp only
    rw [hu]
    simp [bound, hf, k]
  | some o =>
    have hmem := List.mem_of_find?_eq_some hf
    have hlow := hb o hmem
    simp only
    by_cases hcopy : s.copyOf l = some (o.slot, o.check)
    · have hbo : bound = some o := by simp [bound, hf, hcopy]
      have hso : u.lengthSoFar l = 0 := by
        unfold State.lengthSoFar State.lengthFrom
        rw [hu]
        simp only [k, hl]
        have : u.cutterOffset l = s.cutterOffset l := by cases l <;> rfl
        rw [this]
        omega
      rw [if_neg (by simpa using hcopy), if_neg (by omega), hbo]
      generalize hw : u.setPack l { k with state := .bound, bound := some o.number } = w
      have hwk : w.pack l = { k with state := .bound, bound := some o.number } := by
        rw [← hw]; cases l <;> rfl
      have hwc : w.cutterOffset l = s.cutterOffset l := by rw [← hw]; cases l <;> rfl
      have hwo : w.orders = s.orders := by rw [← hw]; cases l <;> rfl
      have hnot : planningEvent l (u.len l).p w = w := by
        unfold planningEvent
        rw [hwk]
        simp only [k]
        cases hbnd : w.boundOrder l with
        | none => rfl
        | some q =>
          have hq : q ∈ s.orders := by
            unfold State.boundOrder State.order at hbnd
            rw [hwk] at hbnd
            simp only [Option.bind_some] at hbnd
            rw [hwo] at hbnd
            exact List.mem_of_find?_eq_some hbnd
          have hlq := hb q hq
          simp only
          rw [if_neg]
          unfold planningDue
          rw [hwc, hl]
          simp only [Bool.and_eq_true, decide_eq_true_eq, not_and]
          omega
      rw [hnot, hwk]
      simp [k]
    · have hbo : bound = none := by simp [bound, hf, hcopy]
      rw [if_pos (by simpa using hcopy), hr, hbo]
      simp [k]

theorem cutFires_orders (l : LineId) (s : State) : (cutFires l s).orders = s.orders := by
  unfold cutFires beginStroke
  simp only
  split <;> simp [setPack_orders]

theorem planningEvent_orders (l : LineId) (p : Nat) (s : State) :
    (planningEvent l p s).orders = s.orders := by
  have h : ∀ t (u : State), (placeCut l t u).orders = u.orders := by
    intro t u
    unfold placeCut
    simp only
    split <;> simp [cutFires_orders, setActions_orders]
  unfold planningEvent placePlan
  split
  · simp only
    split
    · rw [h, setPack_orders]
    · rfl
  · rfl

theorem orders_openCoil (l : LineId) (x0 : Nat) (s : State) : (openCoil l x0 s).orders = s.orders := by
  unfold openCoil tryBinding reportBlocked
  split
  · (repeat' split) <;> simp [planningEvent_orders, setPack_orders]
  · exact setPack_orders ..

/-- Counting and reporting a coil changes the orders' counts, takes a filled order out, and notifies. -/
theorem countAndReport_only (l : LineId) (r : CoilRecord) (s : State) :
    countAndReport l r s
        = { s with
            orders := (countAndReport l r s).orders, stops := (countAndReport l r s).stops
            link := (countAndReport l r s).link } ∧
      ((∀ o ∈ s.orders, o.low < o.target) → ∀ o ∈ (countAndReport l r s).orders, o.low < o.target) := by
  have h1 : ∀ u : State, (fillOrder l r u = { u with
      orders := (fillOrder l r u).orders, stops := (fillOrder l r u).stops, link := (fillOrder l r u).link }) ∧
      ((∀ o ∈ u.orders, o.low < o.target) → ∀ o ∈ (fillOrder l r u).orders, o.low < o.target) := by
    intro u
    unfold fillOrder
    split
    · split
      · unfold removeOrder
        rw [enterReport_only]
        exact ⟨rfl, fun h o ho => h o (List.mem_filter.mp ho).1⟩
      · exact ⟨rfl, id⟩
    · exact ⟨rfl, id⟩
  have h2 : ∀ d (u : State), reportCoil r d u = { u with link := (reportCoil r d u).link } := by
    intro d u
    unfold reportCoil
    exact enterReport_only _ _ _ _
  unfold countAndReport
  simp only
  generalize hc : (if r.notCounted = true then s else countCoil r.order s) = c
  have hc1 : c = { s with orders := c.orders } ∧
      ((∀ o ∈ s.orders, o.low < o.target) → ∀ o ∈ c.orders, o.low < o.target) := by
    rw [← hc]
    split
    · exact ⟨rfl, id⟩
    · exact ⟨rfl, fun h => bands_map (f := fun o => { o with done := o.done + 1 })
        (fun _ => ⟨rfl, rfl⟩) _ h⟩
  generalize (if r.notCounted = true then 0 else (Option.map Order.done (c.order r.order)).getD 0) = d
  obtain ⟨f1, f2⟩ := h1 (reportCoil r d c)
  constructor
  · rw [f1, h2, hc1.1]
  · intro h
    apply f2
    rw [h2]
    exact hc1.2 h

/-- What the pack point of a line holds after a completed cut, its pending record apart (R128, R146). -/
theorem completeCut_pack (l : LineId) (manual : Bool) (x0 : Nat) (s : State)
    (hx : (s.pack l).coilStart = some x0) (hb : ∀ o ∈ s.orders, o.low < o.target) :
    let t := completeCut l manual s
    let bound := (t.orders.find? fun o => o.line == l).filter fun o =>
      s.copyOf l == some (o.slot, o.check)
    t.pack l
      = { state := if bound.isSome then .bound else .opened
          coilStart := some (max x0 ((s.len l).p - s.cutterOffset l))
          bound := bound.map Order.number
          plan := none, nearSplice := false, phase := none, timer := none, cutter := false
          packages := openingPackages l s, more := false, record := (t.pack l).record } := by
  intro t
  let s1 := s.setPack l { s.pack l with timer := none, cutter := false }
  let cut := max x0 ((s.len l).p - s.cutterOffset l)
  let s2 := (takeCoilMarks l cut s1).1
  let record := buildRecord l x0 (cut - x0) manual (takeCoilMarks l cut s1).2 s2
  let s3 := countAndReport l record s2
  let s4 := queueRecord l record s3
  have hcut : cutPosition l x0 s1 = cut := by cases l <;> rfl
  have ht : t = stopNotice (machineOf l) 0 (StopCause.only .cut ||| StopCause.only .cutFail)
      (openCoil l cut s4) := by
    show completeCut l manual s = _
    unfold completeCut
    rw [hx]
    simp only [Option.getD_some]
    rw [show cutPosition l x0 (s.setPack l { s.pack l with timer := none, cutter := false }) = cut from hcut]
  have h2 : s2 = { s1 with rope := s2.rope, net := s2.net, stops := s2.stops, link := s2.link } ∧
      s2.pack l = s1.pack l ∧ s2.len l = s1.len l := by
    have hn : ∀ u : State, NoticesOnly u (judgeLowWater l u) := fun u => noticesOnly_judgeLowWater l u
    simp only [s2, takeCoilMarks]
    generalize (divideMarks cut (s1.act l).marks).2 = kept
    split
    · rw [hn]
      cases l <;> exact ⟨rfl, rfl, rfl⟩
    · cases l <;> exact ⟨rfl, rfl, rfl⟩
  obtain ⟨c1, c2⟩ := countAndReport_only l record s2
  have h3 : s3 = { s2 with orders := s3.orders, stops := s3.stops, link := s3.link } := c1
  have hpl : ∀ op (u : State), placeOp op u = { u with queue := (placeOp op u).queue } := by
    intro op u
    unfold placeOp startNext
    split <;> rfl
  have h4 : s4 = { s3.setPack l { s3.pack l with record := some ⟨record, .queued⟩ } with
      queue := s4.queue } := hpl _ _
  have hlen : s4.len l = s.len l := by
    rw [h4, h3]
    have : s2.len l = s.len l := by rw [h2.2.2]; cases l <;> rfl
    cases l <;> exact this
  have hpack : s4.pack l = { s.pack l with timer := none, cutter := false, record := some ⟨record, .queued⟩ } := by
    have h2p : s2.pack l = { s.pack l with timer := none, cutter := false } := by
      rw [h2.2.1]; cases l <;> rfl
    have h3p : s3.pack l = s2.pack l := by rw [h3]; cases l <;> rfl
    rw [h4]
    have : ∀ (u : State) x, (u.setPack l x).pack l = x := by intro u x; cases l <;> rfl
    show ((s3.setPack l _).pack l) = _
    rw [this, h3p, h2p]
  have hoff : s4.cutterOffset l = s.cutterOffset l := by
    rw [h4, h3, h2.1]; cases l <;> rfl
  have hcopy : s4.copyOf l = s.copyOf l := by
    rw [h4, h3, h2.1]; cases l <;> rfl
  have hord : s4.orders = s3.orders := by rw [h4]; cases l <;> rfl
  have ho2 : s2.orders = s.orders := by rw [h2.1]; cases l <;> rfl
  have hpk : openingPackages l s4 = openingPackages l s := by
    have e1 : s4.table = s.table := by rw [h4, h3, h2.1]; cases l <;> rfl
    have e3 : ∀ n, s4.package n = s.package n := by intro n; unfold State.package; rw [e1]
    have e4 : ∀ i, s4.place i = s.place i := by intro i; unfold State.place; rw [e1]
    unfold openingPackages feedingNumbers
    simp only [e3, e4]
  have hop := openCoil_pack l cut s4
    (by rw [hlen, hoff]; simp only [cut]; omega)
    (by rw [hord]; exact c2 (by rw [ho2]; exact hb))
  have hso : ∀ u : State, (stopNotice (machineOf l) 0 (StopCause.only .cut ||| StopCause.only .cutFail) u).pack l
      = u.pack l := by
    intro u
    rw [stopNotice_only]
    cases l <;> rfl
  have htp : t.pack l = (openCoil l cut s4).pack l := by rw [ht, hso]
  have hto : t.orders = s4.orders := by
    have e1 : t.orders = (openCoil l cut s4).orders := by rw [ht, stopNotice_only]
    rw [e1]
    exact orders_openCoil l cut s4
  rw [htp, hop, hpack, hpk, hcopy, hto]

/-! ### Loads (R175) -/

/-- A load of the rope line. -/
theorem loadLine_rope : ∀ (slot check : Nat) (r : RopeRecipe) (s : State),
    let p := (s.len .rope).p
    let ended : State := { s with lay := { s.lay with span := none } }
    let closed :=
      match s.lay.span with
      | some x => handLaySpan p ⟨x.side, x.start, s.lay.outRun.lastEnd⟩ ended
      | none => ended
    let cEff := s.plantD.cm + (2 * (r.diameter * 355) + 113) / (2 * 113)
    let copied := ({ closed with ropeCopy := some ⟨slot, check, r⟩ } : State).setLen .rope
      { closed.len .rope with
        constants := some
          { n := s.plantD.nm, cEff := cEff, stretch := r.stretch, k := cEff * (1000000 - r.stretch) }
        base := p, q := 0, saturated := decide (p = 4294967295) }
    let restarted : State :=
      { copied with
        lay :=
          { head := 0, windowStart := p, filter := none, last := none
            outRun := { side := .low, count := 0, runStart := 0, lastEnd := 0 }, span := none } }
    loadLine .rope slot check (.rope r) s = checkCreel (packLoads .rope restarted) := by
  intro slot check r s p ended closed cEff copied restarted
  have hl : closed.len .rope = s.len .rope := by
    simp only [closed]
    cases s.lay.span with
    | none => rfl
    | some x =>
      exact len_of_ground (s := ended) (by simp [handLaySpan]) .rope
  have hp : closed.plantD = s.plantD := by
    simp only [closed]
    cases s.lay.span with
    | none => rfl
    | some x =>
      have h : (handLaySpan p ⟨x.side, x.start, s.lay.outRun.lastEnd⟩ ended).ground = ended.ground := by simp [handLaySpan]
      have : (handLaySpan p ⟨x.side, x.start, s.lay.outRun.lastEnd⟩ ended).plant = ended.plant := by
        simp only [State.ground, Prod.mk.injEq] at h
        exact h.2.2.1
      unfold State.plantD; rw [this]
  have hc : closeLaySpan s = closed := by
    simp only [closed]
    unfold closeLaySpan
    cases hs : s.lay.span with
    | none => simp [closeAt, handLaySpan?, State.setLay, ended]
    | some x => simp [closeAt, handLaySpan?, State.setLay, ended, p]
  unfold loadLine closeSpans machineryLoads creelLoads
  simp only [hc]
  congr 2
  have hq : (setCopy .rope slot check (.rope r) closed).plantD = s.plantD := hp
  unfold beginSegment constantsOf constantsFrom
  simp only [hq]
  simp only [restarted, copied]
  rw [show (State.len (setCopy LineId.rope slot check (RecipeBody.rope r) closed) LineId.rope) = closed.len .rope from rfl]
  simp only [hl]
  simp [layRestart, State.setLay, setCopy, Lay.reset, OutRun.reset, State.setLen, State.setLine, State.line, State.len, p, top32, roundDiv, cEff]

/-- A load of the net line. -/
theorem loadLine_net : ∀ (slot check : Nat) (r : NetRecipe) (s : State),
    let p := (s.len .net).p
    let ended : State := { s with knot := { s.knot with span := none } }
    let closed :=
      match s.knot.span with
      | some x => handMeshSpan ⟨x.side, x.start, s.knot.outRun.lastEnd⟩ ended
      | none => ended
    let copied := ({ closed with netCopy := some ⟨slot, check, r⟩ } : State).setLen .net
      { closed.len .net with
        constants := some
          { n := s.plantD.nn, cEff := s.plantD.cn, stretch := r.stretch
            k := s.plantD.cn * (1000000 - r.stretch) }
        base := p, q := 0, saturated := decide (p = 4294967295) }
    let restarted : State :=
      { copied with
        knot := { closed.knot with
          grid := some ⟨s.plantD.driveLines, s.plantD.settleTime⟩, step := 0, rowsDone := 0
          counters := Vector.replicate 64 0, faultHook := none, extrasLast := false, ring := []
          last := none, outRun := { side := .low, count := 0, runStart := 0, lastEnd := 0 }
          span := none, scan := closed.knot.scan.map fun x => { x with kept := false } } }
    loadLine .net slot check (.net r) s = packLoads .net restarted := by
  intro slot check r s p ended closed copied restarted
  have hl : closed.len .net = s.len .net := by
    simp only [closed]
    cases s.knot.span with
    | none => rfl
    | some x =>
      exact len_of_ground (s := ended) (by simp [handMeshSpan]) .net
  have hp : closed.plantD = s.plantD := by
    simp only [closed]
    cases s.knot.span with
    | none => rfl
    | some x =>
      have h : (handMeshSpan ⟨x.side, x.start, s.knot.outRun.lastEnd⟩ ended).ground = ended.ground := by simp [handMeshSpan]
      have : (handMeshSpan ⟨x.side, x.start, s.knot.outRun.lastEnd⟩ ended).plant = ended.plant := by
        simp only [State.ground, Prod.mk.injEq] at h
        exact h.2.2.1
      unfold State.plantD; rw [this]
  have hc : closeMeshSpan s = closed := by
    simp only [closed]
    unfold closeMeshSpan
    cases hs : s.knot.span with
    | none => simp [closeAt, handMeshSpan?, State.setKnot, ended]
    | some x => simp [closeAt, handMeshSpan?, State.setKnot, ended]
  unfold loadLine closeSpans machineryLoads creelLoads
  simp only [hc]
  congr 1
  have hq : (setCopy .net slot check (.net r) closed).plantD = s.plantD := hp
  unfold beginSegment constantsOf constantsFrom knotLoads
  simp only [hq]
  simp only [restarted, copied]
  rw [show (State.len (setCopy LineId.net slot check (RecipeBody.net r) closed) LineId.net) = closed.len .net from rfl]
  simp only [hl]
  have hp2 : s.plantD = (({ closed with netCopy := some ⟨slot, check, r⟩ } : State)).plantD := hp.symm
  simp [State.setKnot, setCopy, OutRun.reset, State.setLen, State.setLine, State.line, State.len, p, top32, dropScan]
  exact ⟨congrArg PlantRecord.driveLines hp, congrArg PlantRecord.settleTime hp⟩

/-! ### The queue of store operations at a completed cut (R142, R146, R153) -/

theorem cutFires_queue (l : LineId) (s : State) : (cutFires l s).queue = s.queue := by
  unfold cutFires beginStroke
  simp only
  split <;> simp [setPack_queue]

theorem planningEvent_queue (l : LineId) (p : Nat) (s : State) :
    (planningEvent l p s).queue = s.queue := by
  have h : ∀ t (u : State), (placeCut l t u).queue = u.queue := by
    intro t u
    unfold placeCut
    simp only
    split <;> simp [cutFires_queue, setActions_queue]
  unfold planningEvent placePlan
  split
  · simp only
    split
    · rw [h, setPack_queue]
    · rfl
  · rfl

theorem openCoil_queue (l : LineId) (x0 : Nat) (s : State) : (openCoil l x0 s).queue = s.queue := by
  unfold openCoil tryBinding reportBlocked
  split
  · (repeat' split) <;> simp [planningEvent_queue, setPack_queue]
  · exact setPack_queue ..

theorem enterReport_restarting (kind : ReportKind) (machine : Option Nat) (body : List Byte) (s : State) :
    (enterReport kind machine body s).link.restarting = s.link.restarting := by
  unfold enterReport queueReport judgeCall
  simp only
  (repeat' split) <;> rfl

theorem stopNotice_restarting (m : Fin 10) (set clear : CauseSet) (s : State) :
    (stopNotice m set clear s).link.restarting = s.link.restarting := by
  unfold stopNotice
  simp only
  split
  · rfl
  · rw [enterReport_restarting]
    split <;> rfl

/-- The marks of a coil taken out leave the store's queue and the RESTART as they are. -/
theorem takeCoilMarks_idle (l : LineId) (cut : Nat) (s : State) :
    (takeCoilMarks l cut s).1.queue = s.queue ∧
      (takeCoilMarks l cut s).1.link.restarting = s.link.restarting := by
  unfold takeCoilMarks judgeLowWater clearCause
  simp only
  split
  · split
    · exact ⟨by rw [stopNotice_queue]; cases l <;> rfl,
        by rw [stopNotice_restarting]; cases l <;> rfl⟩
    · constructor <;> cases l <;> rfl
  · constructor <;> cases l <;> rfl

/-- So do the count and the reports of a coil. -/
theorem countAndReport_idle (l : LineId) (r : CoilRecord) (s : State) :
    (countAndReport l r s).queue = s.queue ∧
      (countAndReport l r s).link.restarting = s.link.restarting := by
  refine ⟨by rw [(countAndReport_only l r s).1], ?_⟩
  unfold countAndReport fillOrder reportCoil removeOrder countCoil
  simp only
  (repeat' split) <;> simp only [enterReport_restarting]

/-- An operation placed is the last one of the queue, and runs where none is in flight and none waits. -/
theorem placeOp_queue (op : StoreOp) (s : State) :
    let idle := s.runningOp.isNone && !s.link.restarting
    (∀ e ∈ s.queue, e.state = .waiting → idle = false) →
    (placeOp op s).queue = s.queue ++ [⟨op, if idle then .running else .waiting⟩] := by
  intro idle h
  have hr : ({ s with queue := s.queue ++ [⟨op, .waiting⟩] } : State).runningOp = s.runningOp := by
    unfold State.runningOp
    simp [List.find?_append]
  unfold placeOp startNext
  rw [hr]
  by_cases hi : idle = true
  · have h1 : ¬(s.runningOp.isSome || s.link.restarting) = true := by
      simp only [idle, Bool.and_eq_true, Bool.not_eq_true'] at hi
      simp [hi.2, Option.isNone_iff_eq_none.mp hi.1]
    rw [if_neg h1, hi]
    have := promote_first (before := s.queue) (after := []) (e := ⟨op, .waiting⟩)
      (fun x hx hw => by simp [h x hx hw] at hi) rfl
    exact this
  · have h1 : (s.runningOp.isSome || s.link.restarting) = true := by
      simp only [idle, Bool.and_eq_true, Bool.not_eq_true'] at hi
      cases h2 : s.link.restarting <;> cases h3 : s.runningOp <;> simp_all
    rw [if_pos h1]
    simp [hi]

/-- The write of the record of a completed cut goes to the end of the store operation queue (R146). -/
theorem completeCut_queue (l : LineId) (manual : Bool) (s : State) :
    let idle := s.runningOp.isNone && !s.link.restarting
    (∀ e ∈ s.queue, e.state = .waiting → idle = false) →
    (completeCut l manual s).queue
      = s.queue ++ [⟨.coilWrite l, if idle then .running else .waiting⟩] := by
  intro idle h
  unfold completeCut queueRecord
  simp only [stopNotice_queue, openCoil_queue]
  generalize ((s.pack l).coilStart).getD 0 = x0
  generalize cutPosition l x0 _ = cut
  generalize buildRecord l x0 _ _ _ _ = r
  generalize hu : State.setPack l _ (countAndReport l r _) = u
  have hq : u.queue = s.queue ∧ u.link.restarting = s.link.restarting := by
    obtain ⟨c1, c2⟩ := countAndReport_idle l r
      (takeCoilMarks l cut (State.setPack l { s.pack l with timer := none, cutter := false } s)).1
    obtain ⟨d1, d2⟩ := takeCoilMarks_idle l cut
      (State.setPack l { s.pack l with timer := none, cutter := false } s)
    rw [← hu]
    refine ⟨?_, ?_⟩
    · rw [setPack_queue, c1, d1, setPack_queue]
    · have : ∀ x (v : State), (State.setPack l x v).link = v.link := by intro x v; cases l <;> rfl
      rw [this, c2, d2, this]
  have e := placeOp_queue (.coilWrite l) u
  have hrun : u.runningOp = s.runningOp := by unfold State.runningOp; rw [hq.1]
  simp only [hq.1, hq.2, hrun] at e
  exact e h

/-- A cutter-done edge outside a stroke and outside CUT_FAIL does nothing at the pack point (R142). -/
theorem cutterDone_idle (l : LineId) (s : State) (h : (s.pack l).state ≠ .cutFail)
    (h2 : ¬((s.pack l).state = .cutting ∧ (s.pack l).phase = some .stroke)) : cutterDone l s = s := by
  unfold cutterDone
  split
  · next hc => rw [if_neg (fun hp => h2 ⟨hc, hp⟩)]
  · next hc => exact absurd hc h
  · rfl

end Sys2Proof.Machine
end

