-- ==== Sys2Proof/Laws/Planning.lean ====
section
/-! SUPPORT. What planning chooses: of the points kept, the best by grade, nearness and position. -/

namespace Sys2Proof.Machine

theorem chooseCut_none (grade : Nat → Grade) (nominal : Nat) (l : List Nat)
    (h : chooseCut grade nominal l = none) : l = [] := by
  cases l with
  | nil => rfl
  | cons y t =>
    unfold chooseCut at h
    split at h
    · simp at h
    · split at h <;> simp at h

/-- The candidate chosen is one of those kept, and none is chosen before it. -/
theorem chooseCut_spec (grade : Nat → Grade) (nominal : Nat) (l : List Nat) (c : Nat)
    (h : chooseCut grade nominal l = some c) :
    c ∈ l ∧ ∀ b ∈ l, chosenBefore grade nominal b c = false := by
  induction l generalizing c with
  | nil => simp [chooseCut] at h
  | cons x rest ih =>
    unfold chooseCut at h
    have hirr : ∀ a, chosenBefore grade nominal a a = false := by intro a; simp [chosenBefore]
    have hasym : ∀ a b, chosenBefore grade nominal a b = true →
        chosenBefore grade nominal b a = false := by
      intro a b
      simp [chosenBefore]
      omega
    have htrans : ∀ x b y, chosenBefore grade nominal b x = false →
        chosenBefore grade nominal y b = false → chosenBefore grade nominal y x = false := by
      intro a b c
      simp [chosenBefore]
      omega
    cases hr : chooseCut grade nominal rest with
    | none =>
      rw [hr] at h; simp at h; subst h
      have hrest := chooseCut_none _ _ _ hr
      subst hrest
      simp [hirr]
    | some b =>
      rw [hr] at h; simp only at h
      obtain ⟨hm, hb⟩ := ih b hr
      split at h
      · next hc =>
        cases h
        refine ⟨by simp [hm], fun y hy => ?_⟩
        rcases List.mem_cons.mp hy with rfl | hy
        · exact hasym _ _ hc
        · exact hb y hy
      · next hc =>
        cases h
        refine ⟨by simp, fun y hy => ?_⟩
        rcases List.mem_cons.mp hy with rfl | hy
        · exact hirr _
        · exact htrans _ _ _ (by simpa using hc) (hb y hy)
/-- A plan's cut: of the kept points the best by grade, nearness and position; the nominal one where none is kept. -/
theorem cutChoice_spec : (∀ (kinds : KindSet) (limit guard x0 : Nat) (o : Order) (marks : List Mark),
    let nominal := x0 + o.target
    let grade := fun c => gradeOfMarks kinds limit
      (marks.filter fun m => decide (m.x < c) && decide (x0 ≤ m.x + m.span))
    let near := fun c => marks.any fun m =>
      m.kind == .splice && decide (m.x < c + guard) && decide (c < m.x + m.span + guard)
    let kept := fun c : Nat =>
      nominal - o.low ≤ c ∧ c ≤ nominal + o.high ∧ near c = false ∧
      (c = nominal ∨ ∃ m ∈ marks, (c : Int) = m.x - guard ∨ c = m.x + m.span + guard)
    let far := fun c => (c - nominal) + (nominal - c)
    let choice := cutChoice kinds limit guard x0 o marks
    ((∀ c, ¬kept c) → choice = (nominal, grade nominal, true)) ∧
    (∀ b, kept b →
      kept choice.1 ∧ choice.2 = (grade choice.1, false) ∧
      ((grade choice.1).code < (grade b).code ∨
        ((grade choice.1).code = (grade b).code ∧
          (far choice.1 < far b ∨ (far choice.1 = far b ∧ choice.1 ≤ b)))))) := by
  intro kinds limit guard x0 o marks nominal grade near kept far choice
  have hk : ∀ c, c ∈ keptCandidates guard (nominal - o.low) (nominal + o.high) nominal marks ↔
      kept c := by
    intro c
    unfold keptCandidates candidates
    simp only [List.mem_filter, List.mem_map, List.mem_cons, List.mem_flatMap, List.not_mem_nil,
      or_false]
    simp only [kept, near, nearSplice, Mark.stop]
    constructor
    · rintro ⟨⟨z, ⟨hz, hr⟩, rfl⟩, hn⟩
      simp only [Bool.and_eq_true, decide_eq_true_eq] at hr
      refine ⟨by omega, by omega, (Bool.not_eq_true' _).mp hn, ?_⟩
      rcases hz with rfl | ⟨m, hm, h⟩
      · left; simp
      · right; refine ⟨m, hm, ?_⟩; omega
    · rintro ⟨h1, h2, h3, h4⟩
      refine ⟨⟨(c : Int), ⟨?_, ?_⟩, by simp⟩, (Bool.not_eq_true' _).mpr h3⟩
      · rcases h4 with h | ⟨m, hm, h⟩
        · left; simp [h]
        · right; refine ⟨m, hm, ?_⟩; push_cast; omega
      · simp only [Bool.and_eq_true, decide_eq_true_eq]; omega
  have hg : ∀ c, gradeOfMarks kinds limit (marks.filter (Mark.overlaps x0 c)) = grade c := fun c => rfl
  have hc : choice = match chooseCut grade nominal
        (keptCandidates guard (nominal - o.low) (nominal + o.high) nominal marks) with
    | some c => (c, grade c, false)
    | none => (nominal, grade nominal, true) := rfl
  constructor
  · intro h
    cases hh : chooseCut grade nominal
        (keptCandidates guard (nominal - o.low) (nominal + o.high) nominal marks) with
    | none => rw [hc, hh]
    | some c => exact absurd ((hk c).mp (chooseCut_spec _ _ _ _ hh).1) (h c)
  · intro b hb
    cases hh : chooseCut grade nominal
        (keptCandidates guard (nominal - o.low) (nominal + o.high) nominal marks) with
    | none =>
      have hb' := (hk b).mpr hb
      rw [chooseCut_none _ _ _ hh] at hb'
      simp at hb'
    | some c =>
      rw [hc, hh]
      simp only
      obtain ⟨h1, h2⟩ := chooseCut_spec _ _ _ _ hh
      refine ⟨(hk c).mp h1, trivial, ?_⟩
      have hb := h2 b ((hk b).mpr hb)
      simp only [chosenBefore, distance, Bool.or_eq_false_iff, Bool.and_eq_false_imp,
        decide_eq_false_iff_not, beq_iff_eq, beq_eq_false_iff_ne] at hb
      obtain ⟨hb1, hb2⟩ := hb
      simp only [far]
      by_cases hg : (grade b).code = (grade c).code
      · have h3 := hb2 hg
        right
        refine ⟨hg.symm, ?_⟩
        have h4 := of_decide_eq_false h3.1
        have h5 := h3.2
        omega
      · left
        omega
end Sys2Proof.Machine
end

