-- ==== Sys2Proof/Laws/Windows.lean ====
section
/-! SUPPORT. What a window that closes does: the step of its out-run and its span, and the lay window at a rise; the wound
length. -/

namespace Sys2Proof.Machine

/-- A window that closes hands its verdict to the out-run and the open span. -/
theorem windowClosed_outRun : ∀ (j : Job) (w : LastWindow), j.windowClosed.1.last = some w →
    let step := outRunStep j.recipe.outRun w.verdict j.windowStart j.wound j.outRun j.span
    j.windowClosed.1.outRun = step.outRun ∧ j.windowClosed.1.span = step.span ∧
    j.windowClosed.2 = step.closed := by
  intro j w h step
  rw [Job.windowClosed] at h ⊢
  revert h
  generalize heldFigure (rawTwist j.spindle j.nd j.ns j.delivery j.cd) = a
  obtain ⟨tw, ov⟩ := a
  dsimp only
  intro h
  injection h with h
  subst h
  exact ⟨rfl, rfl, rfl⟩

/-- The step of an out-run and its span by a verdict (R29, R30). -/
theorem outRunStep_spec : (∀ (e start stop : Nat) (o : OutRun) (sp : Option OpenSpan),
    outRunStep e .inBand start stop o sp
      = { outRun := { o with count := 0 }, span := none
          closed := sp.map fun x => { side := x.side, start := x.start, stop := o.lastEnd } } ∧
    ∀ (side : Side) (v : Verdict), (side = .low ∧ v = .low) ∨ (side = .high ∧ v = .high) →
      let r := outRunStep e v start stop o sp
      (o.count ≠ 0 → o.side = side →
        r.outRun = { o with count := min (o.count + 1) 15, lastEnd := stop } ∧ r.closed = none ∧
        (∀ x, sp = some x → r.span = some x) ∧
        (sp = none → r.span = if min (o.count + 1) 15 = e then some ⟨side, o.runStart⟩ else none)) ∧
      (o.count = 0 ∨ o.side ≠ side →
        r.outRun = { side := side, count := 1, runStart := start, lastEnd := stop } ∧
        (sp = none → r.closed = none ∧ r.span = if e = 1 then some ⟨side, start⟩ else none) ∧
        (∀ x, sp = some x → x.side = side → r.closed = none ∧ r.span = some x) ∧
        (∀ x, sp = some x → x.side ≠ side →
          r.closed = some { side := x.side, start := x.start, stop := o.lastEnd } ∧
          r.span = if e = 1 then some ⟨side, start⟩ else none))) := by
  intro e start stop o sp
  refine ⟨rfl, ?_⟩
  intro side v hv
  have hr : outRunStep e v start stop o sp = outWindow e side start stop o sp := by
    rcases hv with ⟨rfl, rfl⟩ | ⟨rfl, rfl⟩ <;> rfl
  simp only [hr]
  have comm : ∀ a b : Nat, (a = b) = (b = a) := fun a b => propext eq_comm
  refine ⟨fun h1 h2 => ?_, fun h => ⟨?_, fun hs => ?_, fun x hs hx => ?_, fun x hs hx => ?_⟩⟩
  · unfold outWindow; simp only [h1, h2, satAdd, outRunTop]
    cases sp <;> simp
  · unfold outWindow; simp [h]
  · subst hs; unfold outWindow; simp only [h]; simp [closeAt, eq_comm]
  · subst hs; unfold outWindow; simp [h, hx]
  · subst hs; unfold outWindow; simp only [h, true_or, if_true]; simp [h, hx, closeAt, comm e 1]

/-- A rise of the rope line at the lay window (R35). -/
theorem layRise_spec : (∀ (pNew seen : Nat) (s : State),
    (s.ropeCopy = none → layRise pNew seen s = s) ∧
    (∀ c, s.ropeCopy = some c →
      (pNew < s.lay.windowStart + c.recipe.window → layRise pNew seen s = s) ∧
      (s.lay.windowStart + c.recipe.window ≤ pNew →
        let area := s.plantD.nlh * (pNew - s.lay.windowStart)
        let exact := (2 * (s.lay.head * 10000) + area) / (2 * area)
        let raw := min exact 65535
        let value : Nat :=
          match s.lay.filter with
          | none => 16 * raw
          | some f => ((f : Int) + (16 * (raw : Int) - f) / (2 ^ c.recipe.shift : Nat)).toNat
        let lay := (value + 8) / 16
        let verdict : Verdict :=
          if lay < c.recipe.nominal - c.recipe.tolLow then .low
          else if c.recipe.nominal + c.recipe.tolHigh < lay then .high
          else .inBand
        let step := outRunStep c.recipe.outRun verdict s.lay.windowStart pNew s.lay.outRun
          s.lay.span
        let closed := s.setLay
          { head := 0, windowStart := pNew, filter := some value
            last := some { raw := raw, filtered := lay, isOver := decide (65535 < exact), verdict := verdict }
            outRun := step.outRun, span := step.span }
        (step.closed = none → layRise pNew seen s = closed) ∧
        (∀ x, step.closed = some x → x.start ≤ x.stop →
          let place := min (x.start + s.plantD.feedOffset) 4294967295
          let span := min (x.stop - x.start) 1000000
          let kind : MarkKind := if x.side = .low then .layLow else .layHigh
          layRise pNew seen s
            = enterReport .laySpan (some 8) (be 1 kind.code ++ be 4 place ++ be 4 span)
                (handMark .rope seen ⟨place, span, kind, none, 1⟩ closed).1)))) := by
  intro pNew seen s
  refine ⟨fun h => by unfold layRise; rw [h],
    fun c hc => ⟨fun h => by unfold layRise; rw [hc]; simp only; rw [if_neg (by omega)],
    fun h => ?_⟩⟩
  have hh : ∀ n, heldFigure n = (min n 65535, decide (65535 < n)) := by
    intro n
    rfl
  have e : layRise pNew seen s = closeLayWindow c.recipe pNew seen s := by
    unfold layRise; rw [hc]; simp only; rw [if_pos h]
  intro area exact_ raw value lay verdict step closed
  have hv : filterStep c.recipe.shift raw s.lay.filter = value := by
    simp only [value]; cases s.lay.filter <;> rfl
  have e2 : closeLayWindow c.recipe pNew seen s = handLaySpan? seen step.closed closed := by
    unfold closeLayWindow
    simp only [hh]
    have hr : min (rawLay s.lay.head s.plantD.nlh (pNew - s.lay.windowStart)) 65535 = raw := rfl
    have hr2 : rawLay s.lay.head s.plantD.nlh (pNew - s.lay.windowStart) = exact_ := rfl
    rw [hr, hr2, hv]
    rfl
  rw [e, e2]
  constructor
  · intro hn; rw [hn]; rfl
  · intro x hx hle
    rw [hx]
    simp only [handLaySpan?, handLaySpan, laySpanLength, if_pos hle]
    cases x with
    | mk side start stop => cases side <;> rfl
/-! ### The wound length (R17) -/

/-- The wound length is the formula within its range, and within 32 bits beyond it (R17, log 12). -/
theorem wound_eq (j : Job) :
    let exact := j.delivered * j.cd / (j.nd * 1000)
    (exact ≤ 4294967295 → j.wound = exact) ∧
    (4294967295 < exact → j.wound = Config.unfitLength exact % 2 ^ 32) := by
  intro e
  unfold Job.wound woundOf top32
  constructor
  · intro h; exact if_pos h
  · intro h; exact if_neg (Nat.not_le.mpr h)

end Sys2Proof.Machine
end

