-- ==== Sys2Proof/Tests/Slice0.lean ====
section
/-! SUPPORT. Tests: ill-formed commands that the check refuses, request bodies written out, figures of the spec's worked
cases, and states and operands that meet the hypotheses of each obligation. -/

namespace Sys2Proof.Tests

set_option Elab.async false

open Sys2Proof.Machine

/-! ### Sample records and states -/

/-- A plant record as in the worked cases. -/
def plant : PlantRecord where
  ns := Vector.replicate 8 4
  nd := Vector.replicate 8 100
  cd := Vector.replicate 8 314159
  nm := 200
  cm := 500000
  nlh := 2
  nn := 100
  cn := 400000
  feedOffset := 6000
  ropeMarker := 2000
  netMarker := 2000
  ropeCutter := 4000
  netCutter := 3000
  filterWidth := Vector.replicate 5 5
  stallTime := Vector.replicate 5 20
  jamTime := 10
  detectorTime := 10
  cutTimeout := 30
  driveLines := 2
  settleTime := 50
  serviceLimit := Vector.replicate 10 0

def twist : TwistRecipe := ⟨1000, 30, 30, 1000, 2, 3, 10000000, 10000, 8⟩

def rope : RopeRecipe :=
  ⟨3, 16000, 8000, 11800, 200, 10, 10, 2000, 2, 2, 2, 50000, 0x30F, 0x0D, 1, 300⟩

def net : NetRecipe where
  pattern := [⟨0, 15, 2⟩, ⟨1, 14, 1⟩]
  nominal := 1000
  tolLow := 40
  tolHigh := 40
  rowsPerCheck := 4
  outRun := 2
  hookLimit := 2
  stretch := 20000
  spray := 0x3F0
  bKinds := 0x3F0
  bLimit := 5
  guard := 100
  panelTail := 500

/-- The part started with the plant record in force. -/
def base : State :=
  { State.reset with plant := some plant, link := { State.reset.link with start := .ready } }

/-- The part started, with a Link Port of its own. -/
def linked (f : Link → Link) : State :=
  { base with link := f base.link }

/-- The part with one operation running. -/
def storing (op : StoreOp) : State :=
  { base with queue := [⟨op, .running⟩] }

/-- The part with the recipes in slots 0, 5 and 6. -/
def stocked : State :=
  (afterAll
    [.storeRecipe 1 0 (.twist twist), .replySent, .storeRecipeOperation [],
      .storeRecipe 2 5 (.rope rope), .replySent, .storeRecipeOperation [],
      .storeRecipe 3 6 (.net net), .replySent, .storeRecipeOperation []] base).getD base

/-- A position's job in a phase. -/
def job (phase : Phase) : Job :=
  { newJob 3 4117 0 0 twist plant with
    phase := phase, motion := some 500, detector := some 600, delivered := 1000 }

def package (number : Nat) (state : PackageState) : Package where
  number := number
  state := state
  origin := none
  slot := none
  wound := 2400000
  grade := some .b
  spans := [⟨1500000, 1520000, .high⟩]
  splices := [800000]
  seat := none
  feedStart := none
  consumed := 0
  warned := false
  leftover := none
  spentOrder := none

/-- The part with a position that winds package 4117, in a phase. -/
def winding (phase : Phase) : State :=
  (base.setPackages [package 4117 .winding]).setJob 3 (some (job phase))

/-- The part with both line recipes loaded. -/
def loaded : State :=
  loadLine .net 6 0 (.net net) (loadLine .rope 5 0 (.rope rope) base)

/-- A place that feeds one package and holds another in reserve. -/
def feeding : State :=
  (loaded.setPackages
    [{ package 4117 .feeding with seat := some (0, false) },
      { package 4120 .placed with seat := some (0, true) }, package 4121 .doffed]).setPlace 0
    { current := some 4117, reserve := some 4120, runout := false }

/-- The rope line in a pack state. -/
def packing (state : PackState) (phase : Option StrokePhase) : State :=
  base.setPack .rope
    { base.pack .rope with
      state := state, phase := phase, timer := some 3000000, coilStart := some 0, bound := some 27 }

def order : Order where
  number := 27
  line := .rope
  slot := 5
  check := 0
  rule := .length
  target := 220000
  low := 500
  high := 1000
  count := 3
  done := 0
  minGrade := .b

def coil : CoilRecord where
  line := .rope
  order := 27
  slot := 5
  check := 8281
  start := 0
  length := 219640
  grade := .a
  flags := 0
  kindCounts := List.replicate 10 0
  packages := [5101]
  entries := []

/-- The part with a coil record of the rope line to write. -/
def recording : State :=
  (storing (.coilWrite .rope)).setPack .rope { base.pack .rope with record := some ⟨coil, .queued⟩ }

/-- The same once its record is written into a page begun. -/
def logged : State :=
  (afterAll [.coilWriteAttempt []] recording).getD recording

/-- A scan at its first drive line, or its last. -/
def scanning (line : Nat) (kept : Bool) : State :=
  (rowEvent loaded).setKnot
    { (rowEvent loaded).knot with
      scan := some { row := 1, kept := kept, line := line, samples := 0, deadline := 50 } }

/-- The machine state READY of the Link Port, from its parts. -/
theorem ready_of (s : State)
    (h : s.link.start ≠ .starting ∧ firstWaiting s.link.frames = none ∧
      s.link.frames.length < frameCapacity ∧ s.link.restarting = false) : Ready s :=
  ⟨h.1, h.2.1, h.2.2.1, h.2.2.2⟩

theorem ready_base : Ready base := ready_of _ (by decide +kernel)
theorem ready_stocked : Ready stocked := ready_of _ (by decide +kernel)
theorem ready_winding (phase : Phase) : Ready (winding phase) :=
  ⟨ready_base.started, ready_base.waiting, ready_base.room, ready_base.running⟩
theorem ready_loaded : Ready loaded := ready_of _ (by decide +kernel)
theorem ready_feeding : Ready feeding := ready_of _ (by decide +kernel)

theorem stopsAgree_base : StopsAgree base := by
  unfold StopsAgree
  decide +kernel

theorem inv_base : Inv base where
  stops := stopsAgree_base
  link := ⟨by decide +kernel, by decide +kernel, by decide +kernel, by decide +kernel, by decide +kernel, by decide +kernel⟩
  actions l := by cases l <;> exact ⟨by decide +kernel, by decide +kernel, by decide +kernel, by decide +kernel⟩
  lengths l := by cases l <;> exact ⟨by decide +kernel, by decide +kernel, by decide +kernel⟩
  store := ⟨by decide +kernel, by decide +kernel, by decide +kernel, by decide +kernel, by decide +kernel, by decide +kernel⟩
  tables :=
    ⟨by decide +kernel, by decide +kernel, by decide +kernel, by decide +kernel, by decide +kernel,
      by decide +kernel⟩

/-! ### Ill-formed commands -/

theorem test_ill_formed_faults :
    Instr.wf (.powerOnReset false false 0 [[(512, 0)]]) = false ∧
      Instr.wf (.tallyStep [[(512, 0)]]) = false := by decide +kernel
theorem test_ill_formed_order :
    Instr.wf (.pulseFilterSettled .mw [.packPlanner, .packPlanner]) = false := by decide +kernel
theorem test_ill_formed_unknown : Instr.wf (.unknownRequest 1 0x01 []) = false := by decide +kernel
theorem test_ill_formed_fields :
    Instr.wf (.reports 1 256) = false ∧ Instr.wf (.readPackage 1 65536) = false ∧
      Instr.wf (.addMark 1 8 0 16777216) = false ∧ Instr.wf (.setPosition 1 8 4294967296) = false :=
  by decide +kernel
theorem test_ill_formed_recipe :
    Instr.wf (.storeRecipe 1 0 (.other 3)) = false ∧
      Instr.wf (.storeRecipe 1 0 (.twist { twist with window := 65536 })) = false ∧
      Instr.wf (.storeRecipe 1 0 (.net { net with pattern := [⟨256, 0, 0⟩] })) = false := by decide +kernel
theorem test_ill_formed_plant :
    Instr.wf (.storePlant 1 { plant with nm := 65536 }) = false := by decide +kernel
theorem test_ill_formed_entries :
    Instr.wf (.addPackage 1 ⟨1, 1, 1, [⟨0, 0, 256⟩], []⟩) = false ∧
      Instr.wf (.addOrder 1 ⟨1, 8, 0, 1, 16777216, 0, 0, 1, 1⟩) = false := by decide +kernel
theorem test_ill_formed_body : Instr.wf (.unknownRequest 1 0xFF (List.replicate 249 0)) = false := by
  decide +kernel
theorem test_well_formed :
    Instr.wf (.storePlant 1 plant) = true ∧ Instr.wf (.storeRecipe 1 6 (.net net)) = true ∧
      Instr.wf (.unknownRequest 1 0xFF (List.replicate 248 0)) = true := by decide +kernel

/-! ### Request bodies written out from chapter 11 -/

theorem test_body_stop : commandOfBody [0x21, 0x43, 0x08] = .stopMachine 0x21 8 := by decide +kernel
theorem test_body_start :
    commandOfBody [0x01, 0x20, 0x03, 0x12, 0x34, 0x05] = .startPackage 0x01 3 0x1234 5 := by decide +kernel
theorem test_body_position :
    commandOfBody [0x07, 0x41, 0x09, 0x00, 0x00, 0x27, 0x10] = .setPosition 0x07 9 10000 := by decide +kernel
theorem test_body_mark :
    commandOfBody [0x02, 0x48, 0x08, 0x00, 0x01, 0x00, 0x00, 0x00, 0x02, 0x00]
      = .addMark 0x02 8 65536 512 := by decide +kernel
theorem test_body_package :
    commandOfBody [0x03, 0x30, 0x00, 0x07, 0x00, 0x01, 0x86, 0xA0, 0x02, 0x01,
        0x00, 0x00, 0x00, 0x0A, 0x00, 0x00, 0x00, 0x14, 0x01, 0x01, 0x00, 0x00, 0x00, 0x32]
      = .addPackage 0x03 ⟨7, 100000, 2, [⟨10, 20, 1⟩], [50]⟩ := by decide +kernel
theorem test_body_order :
    commandOfBody [0x04, 0x60, 0x00, 0x11, 0x09, 0x02, 0x02, 0x03, 0x0D, 0x40, 0x00, 0x64, 0x00, 0xC8,
        0x05, 0x01]
      = .addOrder 0x04 ⟨17, 9, 2, 2, 200000, 100, 200, 5, 1⟩ := by decide +kernel
theorem test_body_recipe :
    commandOfBody [0x05, 0x13, 0x06, 0x01, 0x01, 0xF4, 0x00, 0x0A, 0x00, 0x14, 0x01, 0xF4, 0x02, 0x03,
        0x00, 0x0F, 0x42, 0x40, 0x00, 0x03, 0xE8, 0x02]
      = .storeRecipe 0x05 6 (.twist ⟨500, 10, 20, 500, 2, 3, 1000000, 1000, 2⟩) := by decide +kernel
theorem test_body_log :
    commandOfBody [0x06, 0x70, 0x00, 0x00, 0x01, 0x00, 0x02] = .logRead 0x06 256 2 ∧
      commandOfBody [0x06, 0x70, 0x00, 0x00, 0x01, 0x00]
        = .unknownRequest 0x06 0x70 [0x00, 0x00, 0x01, 0x00] := by decide +kernel

/-! ### Figures of the worked cases -/

theorem test_window_size : windowSize 1000 100 314159 = 319 := by decide +kernel
theorem test_length_constant :
    (loaded.len .rope).constants = some ⟨200, 550265, 8000, 545862880000⟩ ∧
      computedPosition ⟨200, 550265, 8000, 545862880000⟩ 50000 36640 = 150002 := by decide +kernel
theorem test_speed : speedOf (some ⟨200, 550265, 8000, 545862880000⟩) 92 = 1004 := by decide +kernel
theorem test_projection :
    (projection 50000 6000 11800 (package 4117 .placed)).map (fun m => (m.x, m.span, m.kind))
      = [(801762, 16949, .strandFault), (1411932, 0, .splice)] := by decide +kernel
theorem test_consumed : consumedAt 11800 50000 2400000 150002 = 118002 := by decide +kernel
theorem test_cut_choice :
    cutChoice rope.bKinds rope.bLimit rope.guard 0 order
        [⟨0, 219900, 0, .splice, some 5101, 1, false, .none⟩,
          ⟨1, 220400, 200, .strandFault, some 5101, 1, false, .none⟩]
      = (219600, .a, false) := by decide +kernel
theorem test_sample_states :
    (stocked.link.reports.map Report.kind) = [.storeDone, .storeDone, .storeDone] ∧
      logged.queue = [] ∧ coilNumber logged.flash ⟨43, 0⟩ = 1 := by
  decide +kernel

/-! ### Hypotheses that are met -/

theorem witness_nothing_happens :
    State.reset.pending = [] ∧ (State.reset.pulse .mw).hold = none ∧
      (State.reset.inputs.level .rev).hold = none ∧ (State.reset.pulse .mw).stall = none ∧
      State.reset.job 7 = none ∧ (State.reset.pack .net).timer = none ∧
      State.reset.knot.scan = none ∧ State.reset.link.gap = none ∧
      (∀ f, State.reset.link.frames.head? = some f → f.reply = none) ∧
      base.link.start ≠ .starting ∧ State.reset.restartDue = false ∧ State.reset.runningOp = none :=
  ⟨rfl, rfl, rfl, rfl, rfl, rfl, rfl, rfl, nofun, by decide +kernel, rfl, rfl⟩

theorem witness_frame :
    (∃ t, exec (.status 1) base = .next t) ∧ mayWriteStore (.status 1) = false ∧
      mayMoveInputs (.status 1) = false ∧ mayMoveClock (.status 1) = false ∧
      maySetPlant (.status 1) = false :=
  ⟨⟨_, rfl⟩, rfl, rfl, rfl, rfl⟩

theorem witness_invariant :
    Inv base ∧ (∃ t, step base = .next t) ∧ ∃ t, exec (.stopMachine 1 9) base = .next t :=
  ⟨inv_base, ⟨_, rfl⟩, ⟨_, rfl⟩⟩

theorem witness_request_bodies :
    Instr.wf (.storePlant 1 plant) = true ∧ (requestBody (.storePlant 1 plant)).isSome = true ∧
      base.link.receive = .hunt ∧ base.link.frames.length < frameCapacity := by decide +kernel

theorem witness_receiver :
    base.link.receive = .hunt ∧ (0x59 : Byte) ≠ 0x5A ∧
      (linked fun x => { x with receive := .length }).link.receive = .length ∧
      3 ≤ (3 : Byte).toNat ∧ (250 : Byte).toNat ≤ 250 ∧
      ¬(3 ≤ (2 : Byte).toNat ∧ (2 : Byte).toNat ≤ 250) ∧
      ¬(3 ≤ (251 : Byte).toNat ∧ (251 : Byte).toNat ≤ 250) ∧
      (linked fun x => { x with receive := .body 3 2 [1] }).link.receive = .body 3 2 [1] ∧
      (linked fun x => { x with receive := .body 3 1 [1, 0x43] }).link.receive = .body 3 1 [1, 0x43] ∧
      (linked fun x => { x with receive := .check 3 [1, 0x43, 8] none }).link.receive
        = .check 3 [1, 0x43, 8] none := by decide +kernel

/-- The two check bytes of a STOP_MACHINE frame match; one byte off they do not. -/
theorem witness_receiver_check :
    crc16 (be 1 3 ++ [1, 0x43, 8]) = unbe [0xF1, 0xBB] ∧
      crc16 (be 1 3 ++ [1, 0x43, 8]) ≠ unbe [0xF1, 0xBA] ∧
      (linked fun x => { x with receive := .check 3 [1, 0x43, 8] (some 0xF1) }).link.receive
        = .check 3 [1, 0x43, 8] (some 0xF1) ∧
      frameCapacity ≤ (List.replicate 4 (⟨.status 1, none⟩ : Frame)).length := by decide +kernel

theorem witness_frames :
    base.link.receive = .hunt ∧ (linked fun x => { x with receive := .length }).link.receive ≠ .hunt ∧
      (linked fun x => { x with gap := some 3000 }).link.gap = some 3000 ∧
      (linked fun x => { x with frames := [⟨.status 1, some ⟨1, 1, 0, 0, []⟩⟩] }).link.frames
        = ⟨.status 1, some ⟨1, 1, 0, 0, []⟩⟩ :: [] := by decide +kernel

theorem witness_unserved :
    readRequest 1 0xFF [] = none ∧ firstWaiting State.reset.link.frames = none ∧
      State.reset.link.frames.length < frameCapacity ∧ State.reset.link.restarting = false ∧
      State.reset.link.start = .starting ∧ Instr.wf (.stopMachine 1 8) = true ∧
      requestBody (.stopMachine 1 8) = some [1, 0x43, 8] ∧ (0x43 : Byte) ≠ 0x01 := by decide +kernel

theorem witness_waiting :
    let s := linked fun x => { x with frames := [⟨.status 1, none⟩] }
    let full := linked fun x => { x with frames := List.replicate 4 ⟨.status 1, none⟩ }
    Instr.wf (.stopMachine 1 8) = true ∧ Instr.isRequest (.stopMachine 1 8) = true ∧
      firstWaiting s.link.frames ≠ some (.stopMachine 1 8) ∧ s.link.frames.length < frameCapacity ∧
      firstWaiting s.link.frames ≠ none ∧ firstWaiting full.link.frames ≠ some (.stopMachine 1 8) ∧
      frameCapacity ≤ full.link.frames.length ∧
      (linked fun x => { x with restarting := true }).link.restarting = true := by decide +kernel

/-- A request that is refused, its cause code not the rope line's to release, and one that is accepted. -/
theorem witness_refused :
    Ready base ∧ Instr.wf (.release 1 8 13) = true ∧ Instr.isRequest (.release 1 8 13) = true ∧
      Instr.wf (.release 1 8 12) = true ∧ Instr.isRequest (.release 1 8 12) = true :=
  ⟨ready_base, by decide +kernel⟩

/-- Of the requests that read, the settings, the marks and watches, the checks of START_PACKAGE, ADD_PACKAGE,
LOAD_LINE_RECIPE, ADD_ORDER and the rest that `State.judged` answers: the part ready, at the ends of the ranges. -/
theorem witness_ready :
    Ready base ∧ Ready stocked ∧ Ready loaded ∧ Inv base ∧ base.plant.isSome = true ∧
      (7 : Nat) ≠ 8 ∧ (7 : Nat) ≠ 9 ∧ 9 < 10 ∧ 7 < 8 ∧ 3 < 4 :=
  ⟨ready_base, ready_stocked, ready_loaded, inv_base, by decide +kernel⟩

theorem witness_reports :
    base.link.start ≠ .starting ∧ base.link.restarting = false ∧
      (base.link.settings[ReportKind.stopChange.index]).queued = true ∧
      base.link.reports.length < 64 ∧
      ((base.link.settings.set 8 ⟨false, true, true⟩)[ReportKind.stopChange.index]).queued = false ∧
      64 ≤ (List.replicate 64 (⟨.started, none, 0, [], true, false⟩ : Report)).length := by decide +kernel

theorem witness_call :
    (∃ t, exec (.stopMachine 1 8) base = .next t) ∧
      (linked fun x => { x with restarting := true }).restartDue = true :=
  ⟨⟨_, rfl⟩, by decide +kernel⟩

theorem witness_resets :
    (linked fun x => { x with restarting := true }).restartDue = true ∧ base.runningOp = none ∧
      base.plant.isSome = true ∧ base.running .rope = false ∧ base.anyFeeding = false ∧
      (base.pack .rope).state.underWay = false ∧ (base.pack .rope).record = none := by decide +kernel

theorem witness_start_sequence :
    State.reset.link.start = .starting ∧ State.reset.link.reports = [] ∧
      (∀ k : Fin 24, (State.reset.link.settings[k]).queued = true) ∧
      State.reset.link.held.length ≤ 63 := by decide +kernel

theorem witness_filtered :
    let up := base.setPulse .mw { base.pulse .mw with pin := true, hold := some 10 }
    let down := base.setPulse .mw { base.pulse .mw with level := true, hold := some 10 }
    (up.pulse .mw).hold = some 10 ∧ (up.pulse .mw).pin = true ∧
      (down.pulse .mw).hold = some 10 ∧ (down.pulse .mw).pin = false ∧
      ((base.setLevel .rev { base.inputs.level .rev with pin := true, hold := some 10 }).inputs.level
        .rev).hold = some 10 ∧
      ((base.setPulse .mw { base.pulse .mw with stall := some 10 }).pulse .mw).stall = some 10 := by
  decide +kernel

theorem witness_start_package :
    judgeSlot stocked.flash 0 = .valid (.twist twist) (crc16 (be 1 1 ++ fieldBytes twist.fields)) ∧
      judgeSlot stocked.flash 31 = .empty ∧ stocked.job 7 = none ∧
      stocked.package 65535 = none ∧ stocked.slotWritten 0 = false := by decide +kernel

theorem witness_positions :
    Ready (winding .run) ∧ (winding (.fault .breakage)).job 3 = some (job (.fault .breakage)) ∧
      (winding (.fault .jam)).job 3 = some (job (.fault .jam)) ∧
      (winding .still).job 3 = some (job .still) ∧ (winding .run).job 3 = some (job .run) ∧
      (winding .run).job 7 = none ∧ (job .run).motion = some 500 ∧ (job .run).detector = some 600 ∧
      0 < (job .still).wound ∧ { job .still with delivered := 0 }.wound = 0 ∧
      (winding .still).package 4117 = some (package 4117 .winding) ∧
      (winding .run).job 3 ≠ none :=
  ⟨ready_winding _, by decide +kernel⟩

/-- A position in RUN with exactly one drive running, and with neither. -/
theorem witness_timers :
    let one := (winding .run).setPulse (.sp 3) { (winding .run).pulse (.sp 3) with running := true }
    spRuns 3 one ≠ dlRuns 3 one ∧ spRuns 3 (winding .run) = false ∧
      dlRuns 3 (winding .run) = false ∧ StopsAgree (winding .run) :=
  ⟨by decide +kernel, by decide +kernel, by decide +kernel, stopsAgree_base⟩

theorem witness_pulses :
    (winding .target).job 3 = some (job .target) ∧
      min ((job .run).delivery + 1) 4294967295 ≠ (job .run).windowSize ∧
      { job .run with delivered := 1001 }.wound < (job .run).recipe.target ∧
      (winding (.fault .jam)).job 3 = some (job (.fault .jam)) ∧ (winding .run).job 0 = none := by
  decide +kernel

theorem witness_creel :
    Ready feeding ∧ feeding.table.packages.length < 96 ∧ feeding.package 4122 = none ∧
      (feeding.package 4121).map Package.state = some .doffed ∧
      (feeding.package 4120).map Package.seat = some (some (0, true)) ∧
      (feeding.package 4120).map Package.state = some .placed ∧
      (feeding.place 0).reserve = some 4120 ∧
      (feeding.package 4117).map Package.seat = some (some (0, false)) ∧
      (feeding.package 4117).map Package.state = some .feeding ∧ feeding.running .rope = false ∧
      (feeding.setPulse .mw { feeding.pulse .mw with running := true }).running .rope = true :=
  ⟨ready_feeding, by decide +kernel⟩

theorem witness_splice :
    Ready feeding ∧ feeding.plant.isSome = true ∧ feeding.ropeCopy.isSome = true ∧
      feeding.used 0 = true ∧
      (feeding.currentPackage 0).map Package.state = some .feeding ∧
      (feeding.reservePackage 0).map Package.state = some .placed ∧ feeding.used 3 = false ∧
      feeding.place 3 = { current := none, reserve := none, runout := false } :=
  ⟨ready_feeding, by decide +kernel⟩

theorem witness_lines :
    Ready stocked ∧ (loaded.len .rope).constants ≠ none ∧ (base.len .net).constants = none ∧
      judgeSlot stocked.flash 5 = .valid (.rope rope) (crc16 (be 1 2 ++ fieldBytes rope.fields)) ∧
      suitsLine .rope (.rope rope) = true ∧ suitsLine .net (.net net) = true ∧
      (packing .opened none).pack .rope ≠ base.pack .rope ∧ (packing .opened none).pack .net = base.pack .net :=
  ⟨ready_stocked, by decide +kernel⟩

theorem witness_marks :
    (∀ m ∈ ([] : List Mark), m.takes .operator none 0 (0 + 0) = false) ∧ ([] : List Mark).length < 128 ∧
      0 ≤ (base.len .rope).p ∧ (base.len .rope).p < 1 ∧ (base.act .rope).watches[(0 : Fin 4)] = none ∧
      (∀ k : Fin 4, k < 0 → ((base.act .rope).watches[k]).isSome = true) ∧
      (∀ i : Fin 4, ((Vector.replicate 4 (some 5) : Vector (Option Nat) 4)[i]).isSome = true) := by
  decide +kernel

theorem witness_stops :
    (stopNotice 8 (StopCause.only .commanded) 0 base).hasCause 8 .commanded = true ∧
      ((base.stop 8).causes ||| StopCause.only .commanded) &&& ~~~0 ≠ (base.stop 8).causes ∧
      ((base.stop 8).causes ||| 0) &&& ~~~0 = (base.stop 8).causes ∧
      (∀ c ∈ [StopCause.commanded, .watch], c.code ≠ 13) ∧
      (setCause 9 .hookFault base).hasCause 9 .hookFault = true := by decide +kernel

theorem witness_rows :
    base.netCopy = none ∧ loaded.netCopy ≠ none ∧ loaded.knot.scan = none ∧
      (scanning 0 true).knot.scan.isSome = true ∧
      loaded.knot.rowsDone + 1 ≠ (stepOf net.pattern loaded.knot.step).rows ∧
      1 + 1 = (stepOf net.pattern 0).rows ∧ 0 + 1 < net.pattern.length ∧
      0 + 1 = (stepOf net.pattern 1).rows ∧ net.pattern.length ≤ 1 + 1 := by decide +kernel

theorem witness_scans :
    (scanning 0 true).knot.grid = some ⟨2, 50⟩ ∧ 0 + 1 < 2 ∧ 2 ≤ 1 + 1 ∧
      (scanning 1 false).knot.scan.map ScanInProgress.kept = some false ∧
      ((scanning 1 true).knot.ring.find? fun e => e.number == 1 && e.scan == .scanning).isSome = true :=
  by decide +kernel

theorem witness_orders :
    let s := { base with orders := [order] }
    Ready stocked ∧ judgeSlot stocked.flash 5 ≠ .empty ∧ s.order 28 = none ∧
      (s.order 27).isSome = true ∧ (s.pack .rope).bound ≠ some 27 ∧ (s.pack .net).bound ≠ some 27 ∧
      ((packing .cutting none).pack .rope).bound = some 27 ∧
      ((packing .cutting none).pack .rope).state = .cutting ∧
      ((packing .bound none).pack .rope).state = .bound :=
  ⟨ready_stocked, by decide +kernel⟩

/-- An order that blocks its OPEN line is cancelled: the order behind it is bound (R130). -/
theorem test_cancel_clears_the_way :
    let s := { loaded with orders := [{ order with slot := 4 }, { order with number := 28 }] }
    let t := (cancelOrderAct 27 s).1
    (s.pack .rope).state = .opened ∧ (t.pack .rope).state = .bound ∧ (t.pack .rope).bound = some 28 ∧
      t.orders.map Order.number = [28] := by decide +kernel

theorem witness_cuts :
    ((packing .opened none).pack .rope).record = none ∧
      ((packing .opened none).pack .rope).coilStart = some 0 ∧
      ((packing .cutting (some .stroke)).pack .rope).state = .cutting ∧
      ((packing .cutting (some .stroke)).pack .rope).phase = some .stroke ∧
      ((packing .cutFail none).pack .rope).state = .cutFail ∧
      ((packing .cutting (some .stroke)).pack .rope).timer = some 3000000 ∧
      base.running .rope = false ∧
      (base.setPulse .mw { base.pulse .mw with running := true }).running .rope = true ∧
      ((base.setLevel .cdr { base.inputs.level .cdr with pin := true, hold := some 10 }).inputs.level
        .cdr).hold = some 10 := by decide +kernel

theorem witness_store_requests :
    Ready base ∧ RecipeBody.firstBad (.net net) = none ∧
      RecipeBody.firstBad (.twist { twist with shift := 9 }) = some 7 ∧
      firstBad 1 plant.fields = none ∧ firstBad 1 { plant with nm := 0 }.fields = some 4 ∧
      (storing (.logTake 1)).runningOp.isSome = true ∧ base.runningOp = none ∧
      base.link.restarting = false ∧ (∀ e ∈ base.queue, e.state = .held) :=
  ⟨ready_base, by decide +kernel⟩

theorem witness_store_operations :
    (storing (.storeRecipe 31 (.net net))).runningOp = some (.storeRecipe 31 (.net net)) ∧
      RecipeBody.firstBad (.net net) = none ∧ RecipeBody.fits (.net net) = true ∧
      (storing (.eraseRecipe 31)).runningOp = some (.eraseRecipe 31) ∧
      (storing (.storePlant plant)).runningOp = some (.storePlant plant) ∧
      firstBad 1 plant.fields = none ∧ fieldsFit plant.fields = true ∧ base.flash.wf = true := by decide +kernel

/-- The tally step at the first byte of its page, and at a later one. -/
theorem witness_tally :
    let later := (List.range 40).map fun k => (512 * 33 + k, (0 : Byte))
    (storing (.tallyStep 0)).runningOp = some (.tallyStep 0) ∧
      Memory.read base.flash (512 * 33) ≠ 0 ∧ Memory.read later (512 * 33 + 40) ≠ 0 ∧
      (∀ k, k < 40 → Memory.read later (512 * 33 + k) = 0) := by decide +kernel

theorem witness_coil_write :
    let s := { logged with queue := [⟨.coilWrite .rope, .running⟩] }.setPack .rope
      { logged.pack .rope with record := some ⟨coil, .queued⟩ }
    s.runningOp = some (.coilWrite .rope) ∧ (s.pack .rope).record = some ⟨coil, .queued⟩ ∧
      s.log.closed = false ∧ s.log.toBegin = false ∧ s.log.next ≤ 4294967295 ∧
      isFree s.flash ⟨s.log.page, s.log.slot⟩ = true ∧ s.flash.wf = true := by decide +kernel

theorem witness_log_operations :
    (storing (.logTake 4294967295)).runningOp = some (.logTake 4294967295) ∧
      (storing (.logVoid 1)).runningOp = some (.logVoid 1) ∧ findRecord base.flash 1 = none ∧
      findRecord logged.flash 1 = some ⟨43, 0⟩ ∧ isVoid logged.flash ⟨43, 0⟩ = false := by
  decide +kernel

/-! ### Hypotheses of the clauses on what the blocks do -/

/-- Timers with no occasion: a job READY, one in RUN with its timers stopped, a line whose cut is planned, and an
operation of another kind running. -/
theorem witness_no_occasion :
    let stopped := (winding .run).setJob 3 (some { job .run with motion := none, detector := none })
    (winding .ready).job 3 = some (job .ready) ∧ (job .ready).phase ≠ .run ∧
      (stopped.job 3).map Job.motion = some none ∧ (stopped.job 3).map Job.detector = some none ∧
      ((packing .planned none).pack .rope).state ≠ .cutting ∧
      (storing (.tallyStep 0)).runningOp = some (.tallyStep 0) ∧
      (storing (.coilWrite .rope)).runningOp = some (.coilWrite .rope) ∧
      ((storing (.coilWrite .rope)).pack .rope).record = none := by decide +kernel

theorem inv_storing (op : StoreOp) (h : op.inRange = true) : Inv (storing op) where
  stops := inv_base.stops
  link := inv_base.link
  actions := inv_base.actions
  lengths := inv_base.lengths
  tables :=
    ⟨inv_base.tables.packages, inv_base.tables.packageNumbers, inv_base.tables.orders,
      inv_base.tables.orderNumbers, inv_base.tables.ring, inv_base.tables.bands⟩
  store :=
    { memory := inv_base.store.memory, within := inv_base.store.within, page := inv_base.store.page
      slot := inv_base.store.slot
      general := (List.length_filter_le _ _).trans (by simp [storing, generalEntries])
      ops := fun e he => by
        simp only [storing, List.mem_singleton] at he
        rw [he]
        exact h }

/-- Operations that a power-on reset cuts off. -/
theorem witness_cut_off :
    Inv (storing (.storeRecipe 31 (.net net))) ∧ Inv (storing (.storePlant plant)) ∧
      Inv (storing (.coilWrite .net)) ∧ Inv (storing (.logTake 4294967295)) ∧
      (storing (.storePlant plant)).runningOp = some (.storePlant plant) ∧
      judgeSlot [(512 * 7, (0 : Byte))] 7 = .corrupt 65535 ∧ 0 ≤ 2 ∧ 2 ≤ 2 :=
  ⟨inv_storing _ (by decide +kernel), inv_storing _ (by decide +kernel),
    inv_storing _ (by decide +kernel), inv_storing _ (by decide +kernel), by decide +kernel⟩

/-- Delivery pulses: the one that fills the window, and those below, at and beyond the target. -/
theorem witness_pulse_phases :
    let full := { job .run with delivery := (job .run).windowSize - 1 }
    let last := { job .run with delivered := 3183100 }
    (job .ready).phase = .ready ∧ (job .still).phase = .still ∧ (job .target).phase = .target ∧
      full.delivery + 1 = full.windowSize ∧
      { last with delivered := 3183101 }.wound < last.recipe.target ∧
      last.recipe.target ≤ { last with delivered := 3183102 }.wound := by decide +kernel

/-- A rope line whose open span closes at the next lay window, in band. -/
def laid : State :=
  loaded.setLay
    { head := 80, windowStart := 0, filter := none, last := none
      outRun := { side := .low, count := 0, runStart := 100, lastEnd := 900 }
      span := some ⟨.low, 100⟩ }

theorem witness_windows :
    laid.ropeCopy.map (fun c => c.recipe.window) = some 2000 ∧ 1999 < 0 + 2000 ∧ 0 + 2000 ≤ 2000 ∧
      (outRunStep 2 .inBand 0 2000 laid.lay.outRun laid.lay.span).closed = some ⟨.low, 100, 900⟩ ∧
      100 ≤ 900 ∧ (layRise 2000 0 laid).link.reports.map Report.kind = [.stopChange, .laySpan] ∧
      base.ropeCopy = none ∧ ((job .run).windowClosed.1.last).isSome = true := by decide +kernel

/-- A table of 96 records, two of them SPENT, the one of the lower number first. -/
theorem witness_reclaim :
    let spent := fun n order : Nat => { package n .spent with spentOrder := some order }
    let table := (List.range 94).map fun n => package (n + 10) .doffed
    let s := base.setPackages (table ++ [spent 1 7, spent 2 8])
    96 ≤ s.table.packages.length ∧ spent 1 7 ∈ s.table.packages ∧
      (∀ x ∈ s.table.packages, x.state = .spent → x.number ≠ 1 → 7 < x.spentOrder.getD 0) ∧
      1 ≤ 1 ∧ (enteredPackage ⟨7, 100000, 3, [⟨10, 20, 3⟩], [50]⟩).grade = some .c := by
  decide +kernel

/-- A package PLACED in a used place, and one FEEDING before and at runout. -/
theorem witness_feeding :
    let placed := feeding.setPackages [{ package 4117 .placed with seat := some (0, false) }]
    let out := feeding.setPlace 0 { feeding.place 0 with runout := true }
    (placed.currentPackage 0).map Package.state = some .placed ∧ placed.used 0 = true ∧
      (feeding.currentPackage 0).map Package.state = some .feeding ∧
      (feeding.place 0).runout = false ∧ (out.place 0).runout = true ∧
      consumedAt feeding.layFactor 0 2400000 0 = 0 ∧
      consumedAt feeding.layFactor 0 2400000 4294967295 = 2400000 ∧
      (package 4117 .feeding).warned = false ∧
      feeding.warningLength < 2400000 - 0 ∧ 0 ≤ feeding.warningLength := by decide +kernel

/-- Unplacing: numbers out of range, and FEEDING records with strand left and with none. -/
theorem witness_unplace :
    (0 : Nat) = 0 ∧ 65535 < 65536 ∧ (feeding.package 4117).isSome = true ∧
      (feeding.place 0).reserve ≠ some 4117 ∧
      0 < (package 4117 .feeding).wound - (package 4117 .feeding).consumed ∧
      (let k := { package 4117 .feeding with consumed := 2400000 }
      k.wound - k.consumed) = 0 := by decide +kernel

theorem witness_splice_parts :
    Ready { feeding with plant := none } ∧ ({ feeding with plant := none } : State).plant = none ∧
      (feeding.currentPackage 0).map Package.number = some 4117 ∧
      (feeding.reservePackage 0).map Package.number = some 4120 ∧ 4117 ≠ 4120 :=
  ⟨ready_of _ (by decide +kernel), by decide +kernel⟩

/-- A pulse that raises the position, one that lowers it, and one that leaves it. -/
theorem witness_positions_moved :
    let at1000 := loaded.setLen .rope { loaded.len .rope with base := 1000, p := 1000 }
    ((linePulse .rope true [] at1000).len .rope).p = 1002 ∧
      ((linePulse .rope false [] at1000).len .rope).p = 997 ∧
      ((linePulse .rope false [] loaded).len .rope).p = (loaded.len .rope).p := by decide +kernel

/-- Slots EMPTY, of a kind that does not suit (`witness_start_package` has one stored), and CORRUPT. -/
theorem witness_slots :
    judgeSlot base.flash 31 = .empty ∧ suitsLine .rope (.twist twist) = false ∧
      suitsLine .net (.rope rope) = false ∧
      judgeSlot [(512 * 31, (0 : Byte))] 31 = .corrupt 65535 := by decide +kernel

def mark (ref x span : Nat) : Mark := ⟨ref, x, span, .operator, none, 1, false, .none⟩

/-- A mark that merges, one grown that takes a further one or none, and full lists to fold into. -/
theorem witness_mark_lists :
    let marks := [mark 1 100 50, mark 2 160 40]
    let full := (List.range 128).map fun n => mark n (1000 * (n + 1)) 10
    marks.find? (fun k => k.takes .operator none 120 (120 + 30)) = some (mark 1 100 50) ∧
      [mark 1 100 60, mark 2 160 40].find? (fun k => k.ref == 1) = some (mark 1 100 60) ∧
      ([mark 1 100 60, mark 2 160 40].find? fun k =>
        k.ref != 1 && k.takes .operator none 100 (100 + 60)) = some (mark 2 160 40) ∧
      (marks.find? fun k => k.ref != 1 && k.takes .operator none 100 (100 + 50)) = none ∧
      (∀ k ∈ full, k.takes .operator none 500 (500 + 10) = false) ∧ 128 ≤ full.length ∧
      (full.filter fun k => decide (k.x ≤ 500)).getLast? = none ∧
      ((∀ k ∈ full, 500 < k.x) ∧ full.head? = some (mark 0 1000 10)) ∧
      (∀ k ∈ full, k.takes .splice none 128000 (128000 + 10) = false) ∧
      (full.filter fun k => decide (k.x ≤ 128000)).getLast? = some (mark 127 128000 10) := by
  decide +kernel

/-- Marks of kinds sprayed and not, and actions reached and not. -/
theorem witness_spraying :
    MarkKind.splice.isIn (loaded.spraySet .rope) = true ∧
      MarkKind.knotMissing.isIn (loaded.spraySet .rope) = false ∧
      ((loaded.act .rope).actions.filter fun a => a.act.isSpray).length ≤ 29 ∧
      (∃ p, Making.atOnce 5000 = .atOnce p ∧ min (0 + loaded.markerOffset .rope) 4294967295 < p) ∧
      2000 ≤ min (0 + loaded.markerOffset .rope) 4294967295 :=
  ⟨by decide +kernel, by decide +kernel, by decide +kernel, ⟨5000, rfl, by decide +kernel⟩,
    by decide +kernel⟩

/-- Mesh checks: too few rows in the ring, and as many as the recipe counts back. -/
theorem witness_mesh :
    let ring := [5, 6, 7, 8].map fun n : Nat => (⟨BitVec.ofNat 32 n, 0, 50 * n, .unscanned⟩ : RowEntry)
    loaded.knot.ring.length < net.rowsPerCheck ∧ net.rowsPerCheck ≤ ring.length ∧
      (ring[ring.length - net.rowsPerCheck]?).map RowEntry.position = some 250 ∧
      (outRunStep 2 .inBand 250 450 ⟨.low, 0, 0, 200⟩ (some ⟨.low, 100⟩)).closed
        = some ⟨.low, 100, 200⟩ ∧
      (outRunStep 2 .inBand 250 450 ⟨.low, 0, 0, 200⟩ none).closed = none := by decide +kernel

/-- The last settle time of a kept scan whose row is in the ring, and one whose row has left it. -/
theorem witness_scan_ends :
    let gone := (scanning 1 true).setKnot { (scanning 1 true).knot with ring := [] }
    (scanning 1 true).knot.scan = some ⟨1, true, 1, 0, 50⟩ ∧
      (scanning 1 true).netCopy.map (fun c => c.recipe) = some net ∧
      (gone.knot.ring.find? fun e => e.number == 1 && e.scan == .scanning) = none ∧
      gone.knot.scan = some ⟨1, true, 1, 0, 50⟩ ∧ gone.knot.grid = some ⟨2, 50⟩ ∧
      (rowEvent loaded).knot.scan.isSome = true := by decide +kernel

/-- Bindings: none to make, one with another recipe loaded, one too late, and one made. -/
theorem witness_binding :
    let s := { loaded with orders := [order] }
    let late := s.setLen .rope { s.len .rope with p := 223501 }
    (base.pack .rope).state ≠ .opened ∧ (loaded.orders.find? fun o => o.line == .rope) = none ∧
      (s.pack .rope).state = .opened ∧ (s.orders.find? fun o => o.line == .rope) = some order ∧
      s.copyOf .rope = some (order.slot, order.check) ∧ s.copyOf .rope ≠ some (4, order.check) ∧
      s.lengthSoFar .rope ≤ order.target - order.low ∧
      order.target - order.low < late.lengthSoFar .rope := by decide +kernel

/-- A planning event due and not yet due, a panel that ends, points kept and none kept, and triggers reached and not. -/
theorem witness_planning :
    let s := ({ loaded with orders := [order] } : State).setPack .rope
      { loaded.pack .rope with state := .bound, bound := some 27 }
    let panel := { order with line := .net, rule := .panel }
    let n := ({ loaded with orders := [panel] } : State).setPack .net
      { loaded.pack .net with state := .bound, bound := some 27 }
    (s.pack .rope).state = .bound ∧ (s.pack .rope).coilStart = some 0 ∧
      (s.pack .rope).bound.bind s.order = some order ∧
      order.rule = .length ∧ 0 + order.target - order.low + s.cutterOffset .rope ≤ 223500 ∧
      ¬0 + order.target - order.low + s.cutterOffset .rope ≤ 223499 ∧
      (n.pack .net).bound.bind n.order = some panel ∧ panel.rule = .panel ∧
      n.netCopy.isSome = true ∧
      (cutChoice rope.bKinds rope.bLimit rope.guard 0 order []).2.2 = false ∧
      (cutChoice rope.bKinds rope.bLimit rope.guard 0 order
        [⟨0, 219000, 3000, .splice, none, 1, false, .none⟩]).2.2 = true ∧
      (s.pack .rope).record = none ∧ min (0 + s.cutterOffset .rope) 4294967295 ≤ 4000 ∧
      (s.len .rope).p < min (219500 + s.cutterOffset .rope) 4294967295 := by decide +kernel

/-- Completed cuts: a coil of a line loaded, a mark list that falls to the low water and one that does not, counts that
fill an order and do not. -/
theorem witness_completed :
    let few := [mark 1 100 50, mark 2 300 40]
    let s := { loaded with orders := [{ order with done := 2 }] }
    (loaded.pack .rope).coilStart = some 0 ∧
      (few.filter fun m => decide (200 ≤ m.x)).length < few.length ∧
      (few.filter fun m => decide (0 ≤ m.x)).length = few.length ∧
      coilCounts (some order) .a 220000 = true ∧ coilCounts (some order) .c 220000 = false ∧
      (s.order 27).map Order.done = some 2 ∧ 2 + 1 = order.count ∧ 0 + 1 ≠ order.count ∧
      coil.flags.getLsbD 2 = false ∧ s.order 28 = none ∧
      gradeOfMarks 0 0 [] = .a ∧ gradeOfMarks rope.bKinds 1 [⟨0, 5, 0, .splice, none, 1, true, .none⟩] = .b ∧
      gradeOfMarks 0 1 [⟨0, 5, 0, .splice, none, 1, true, .none⟩] = .c := by decide +kernel

/-- Stores whose fields, or whose check word and flag, do not read back. -/
theorem witness_store_failures :
    (recipeMemory 7 (.twist twist) { mem := [], faults := [[], [(3, 0x01)]], budget := none }).2 = true ∧
      (recipeMemory 7 (.twist twist) { mem := [], faults := [[], [(3, 0x00)]], budget := none }).2
        = false ∧
      (recipeMemory 7 (.twist twist) { mem := [], faults := [[], [], [(0, 0x0F)]], budget := none }).2
        = false ∧
      (Memory.erase [] 7 base.flash).pageErased 7 = true ∧
      (Memory.program [(3, 0x00)] 7 3 (be 1 1) []).bytes 7 3 1 ≠ be 1 1 ∧
      (plantMemory plant { mem := [], faults := [[(0, 0x00)]], budget := none }).2 = false := by
  decide +kernel

/-- Tallies: full, with a step due and with one queued. -/
theorem witness_tally_additions :
    let full : Tally := { base.tally 0 with stored := 4096, fine := 9999000 }
    full.stored = 4096 ∧ (base.tally 0).stored ≠ 4096 ∧ 0 < 1 ∧
      9999999 < full.fine + 1000 ∧ full.fullReported = false ∧
      (tallyAdd 0 10000000 base).queue = [⟨.tallyStep 0, .running⟩] ∧
      (tallyAdd 0 9999999 base).queue = [] ∧
      (∃ i, i < 512 ∧ Memory.read base.flash (512 * 33 + i) ≠ 0) :=
  ⟨by decide +kernel, by decide +kernel, by decide +kernel, by decide +kernel, by decide +kernel,
    by decide +kernel, by decide +kernel, ⟨0, by decide +kernel⟩⟩

/-- A coil write into a page to begin, and one into a slot whose body does not read back. -/
theorem witness_write_attempts :
    let begun := { recording with log := { recording.log with toBegin := false, slot := 2 } }
    let body := recordBody 1 coil
    recording.runningOp = some (.coilWrite .rope) ∧ recording.log.closed = false ∧
      recording.log.toBegin = true ∧ recording.log.slot = 0 ∧ recording.log.next = 1 ∧
      nextIsFull recording.flash recording.log = false ∧ recording.flash.wf = true ∧
      (recording.log.newest.map (sequenceOf recording.flash)).elim 1 (· + 1) = 1 ∧
      begun.log.slot < 3 ∧ isFree begun.flash ⟨begun.log.page, begun.log.slot + 1⟩ = true ∧
      (Memory.program [(260, 0x01)] 43 (128 * 2 + 1) body []).bytes 43 (128 * 2 + 1) body.length
        ≠ body := by
  decide +kernel

/-- A record that is VOID. -/
theorem witness_void_again :
    let voided := logged.flash.write (512 * 43) 0x5F
    findRecord voided 1 = some ⟨43, 0⟩ ∧ isVoid voided ⟨43, 0⟩ = true := by decide +kernel

/-! ### Hypotheses of the clauses on held reports, cut-off headers, spans, loads and the queue -/

/-- The part STARTING, and with a RESTART accepted: LOG_FULL not set, and set. -/
theorem witness_held :
    let restarting := linked fun x => { x with restarting := true }
    let full := { setCause 8 .logFull base with link := restarting.link }
    State.reset.link.start = .starting ∧ restarting.link.restarting = true ∧
      restarting.link.start ≠ .starting ∧ restarting.hasCause 8 .logFull = false ∧
      full.hasCause 8 .logFull = true ∧ full.link.restarting = true ∧
      base.link.restarting = false := by decide +kernel

/-- A page to begin whose erase has been cut off, whose header has, and whose header comes out whole. -/
theorem witness_cut_off_header :
    let header := headerBytes 1 recording.log.next
    recording.runningOp = some (.coilWrite .rope) ∧
      (recording.pack .rope).record = some ⟨coil, .queued⟩ ∧ recording.log.closed = false ∧
      recording.log.toBegin = true ∧ nextIsFull recording.flash recording.log = false ∧
      (Memory.erase [(0, 0x00)] 43 recording.flash).pageErased 43 = false ∧
      (Memory.program [(121, 0x00)] 43 118 header recording.flash).bytes 43 118 10 ≠ header ∧
      (Memory.program [] 43 118 header recording.flash).bytes 43 118 10 = header := by decide +kernel

/-- What is left of a page whose header came out valid though another byte of the page did not: no valid header. -/
theorem test_cut_off_header :
    let m := Memory.program [] 43 118 (headerBytes 1 1) []
    let x : Progress := { mem := m, faults := [], budget := none }
    headerValid m 43 = true ∧ headerValid (x.unhead 43).mem 43 = false := by decide +kernel

/-- A position in RUN with an open span, its drives disagreeing, or its package with eight splices. -/
theorem witness_span_at_fault :
    let j : Job := { job .run with span := some ⟨.high, 200⟩ }
    let s := (winding .run).setJob 3 (some j)
    let one := s.setPulse (.sp 3) { s.pulse (.sp 3) with running := true }
    let eight := s.setPackages [{ package 4117 .winding with splices := List.replicate 8 5 }]
    one.job 3 = some j ∧ j.phase = .run ∧ j.motion = some 500 ∧ j.detector = some 600 ∧
      j.span.isSome = true ∧ spRuns 3 one ≠ dlRuns 3 one ∧
      (s.package j.package).any (fun k => k.splices.length == 8) = false ∧
      (eight.package j.package).any (fun k => k.splices.length == 8) = true := by decide +kernel

/-- Loads with a span open and with none, spans handed over, and the pack states. -/
theorem witness_loads :
    let mesh := loaded.setKnot { loaded.knot with span := some ⟨.high, 100⟩ }
    laid.lay.span.isSome = true ∧ loaded.lay.span = none ∧ mesh.knot.span.isSome = true ∧
      loaded.knot.span = none ∧ 100 ≤ 900 ∧ (base.pack .net).state = .noCoil ∧
      (loaded.pack .rope).state = .opened ∧ ((packing .bound none).pack .rope).state = .bound ∧
      ((packing .planned none).pack .rope).state = .planned ∧
      ((packing .cutting none).pack .rope).state = .cutting ∧
      ((packing .cutFail none).pack .rope).state = .cutFail ∧ base.creelLacks = false := by
  decide +kernel

/-- A coil completed with an order of the recipe in force, and with one of another. -/
theorem witness_next_coil :
    let s := { loaded with orders := [order] }
    let other := { loaded with orders := [{ order with slot := 4 }] }
    (s.pack .rope).coilStart = some 0 ∧ (∀ o ∈ s.orders, o.low < o.target) ∧
      s.copyOf .rope = some (order.slot, order.check) ∧ other.copyOf .rope ≠ some (4, order.check) ∧
      (∀ o ∈ other.orders, o.low < o.target) := by decide +kernel

/-- An operation that ends with another waiting, with none, and under a RESTART. -/
theorem witness_queue :
    let s := { base with queue := [⟨.coilWrite .net, .held⟩, ⟨.logTake 1, .running⟩, ⟨.logVoid 1, .waiting⟩] }
    (s.queue.filter fun e => e.state != .running)
        = [⟨.coilWrite .net, .held⟩] ++ ⟨.logVoid 1, .waiting⟩ :: [] ∧
      (∀ x ∈ ([⟨.coilWrite .net, .held⟩] : List StoreEntry), x.state ≠ .waiting) ∧
      s.link.restarting = false ∧
      (endOp s).queue = [⟨.coilWrite .net, .held⟩, ⟨.logVoid 1, .running⟩] ∧
      (requeueHeld s).queue
        = [⟨.logTake 1, .running⟩, ⟨.logVoid 1, .waiting⟩, ⟨.coilWrite .net, .waiting⟩] ∧
      (∀ e ∈ base.queue, e.state ≠ .waiting) ∧
      (linked fun x => { x with restarting := true }).link.restarting = true := by decide +kernel

/-- An erase that is verified, and one that is not; the bits of a byte of a tally. -/
theorem witness_erase :
    (storing (.eraseRecipe 7)).runningOp = some (.eraseRecipe 7) ∧
      (storing (.eraseRecipe 7)).flash.wf = true ∧ (Memory.erase [] 7 base.flash).pageErased 7 = true ∧
      (Memory.erase [(511, 0xFE)] 7 base.flash).pageErased 7 = false ∧ (1 : Byte) ≠ 0 ∧
      clearFirstBit 0xFF = 0x7F ∧ clearFirstBit 0x01 = 0x00 ∧ clearFirstBit 0x28 = 0x08 := by
  decide +kernel

/-- A plant record that comes into force with a line loaded and with none, and with the part UNCONFIGURED. -/
theorem witness_plant_loaded :
    let s := { loaded with queue := [⟨.storePlant { plant with nm := 100 }, .running⟩] }
    s.runningOp = some (.storePlant { plant with nm := 100 }) ∧
      firstBad 1 ({ plant with nm := 100 }).fields = none ∧
      fieldsFit ({ plant with nm := 100 }).fields = true ∧ s.flash.wf = true ∧
      (s.len .rope).constants.isSome = true ∧ (base.len .rope).constants.isSome = false ∧
      (linked fun x => { x with start := .unconfigured }).link.start = .unconfigured := by decide +kernel

/-- A page to begin whose erase, or whose header, is not verified; a CUT that waits for the record. -/
theorem witness_page_not_begun :
    let x : Progress := { mem := recording.flash, faults := [[(0, 0x00)]], budget := none }
    let y : Progress := { mem := recording.flash, faults := [[], [(121, 0x00)]], budget := none }
    let a : Attempt := ⟨x, recording.log⟩
    let wait := loaded.setActions .rope [⟨0, .cut⟩]
    a.log.closed = false ∧ a.log.toBegin = true ∧ a.x.budget = none ∧
      (nextIsFull a.x.mem a.log || decide (4294967295 < 1)) = false ∧ (x.erase 43).2 = false ∧
      (y.erase 43).2 = true ∧
      ((y.erase 43).1.program 43 118 (headerBytes 1 recording.log.next)).2 = false ∧
      wait.link.restarting = false ∧
      (wait.act .rope).actions.any (fun a => a.act == .cut && decide (a.trigger ≤ (wait.len .rope).p)) = true ∧
      (loaded.act .rope).actions = [] := by decide +kernel

/-! ### Hypotheses of the clauses on frames in place, doffs, creels, splices, loads and cuts -/

/-- A request whose frame is in the receive queue already, with answered frames before it and one behind. -/
theorem witness_frame_in_place :
    let before : List Frame := [⟨.reports 1 2, some ⟨1, 0x1D, 0, 0, []⟩⟩]
    let behind : List Frame := [⟨.status 3, none⟩]
    let s := linked fun x => { x with frames := before ++ ⟨.stopMachine 2 8, none⟩ :: behind }
    let r := linked fun x => { s.link with restarting := true }
    (Instr.stopMachine 2 8).wf = true ∧ (Instr.stopMachine 2 8).isRequest = true ∧
      s.link.frames = before ++ ⟨.stopMachine 2 8, none⟩ :: behind ∧
      (∀ f ∈ before, f.reply ≠ none) ∧ before.length < frameCapacity ∧
      s.link.restarting = false ∧ r.link.restarting = true := by decide +kernel

/-- A doff with a span open and strand wound, with none wound, and packages of each grade. -/
theorem witness_doff_grades :
    let j : Job := { job .still with delivered := 5000, span := some ⟨.high, 1500⟩ }
    let s := (winding .still).setJob 3 (some j)
    let k := package 4117 .winding
    s.job 3 = some j ∧ j.phase ≠ .run ∧ 0 < j.wound ∧ j.span.isSome = true ∧
      s.package j.package = some k ∧ ({ j with delivered := 0 } : Job).wound = 0 ∧
      k.splices ≠ [] ∧ (k.spans.map fun x => x.stop - x.start).sum = 20000 ∧
      k.splices.length = 1 ∧ doffGrade twist { k with spans := [], splices := [] } = .a ∧
      doffGrade { twist with bSpanLimit := 20000 } k = .b ∧ doffGrade twist k = .c ∧
      doffGrade { twist with bSpanLimit := 20000, bSpliceLimit := 0 } k = .c := by decide +kernel

/-- Placements into a current and a reserve slot, unplacements with the list at the low water and above, and splices. -/
theorem witness_creel_records :
    let one := mark 1 5000 0
    let few := feeding.setMarks .rope [{ one with source := some 4117 }]
    let many := feeding.setMarks .rope
      ({ one with source := some 4117 } :: List.replicate 113 one)
    let kept := fun s : State => (s.act .rope).marks.filter fun m => m.made || m.source != some 4117
    (feeding.place 3).current = none ∧ (feeding.place 0).current.isSome = true ∧
      (feeding.package 4121).isSome = true ∧
      (kept few).length < (few.act .rope).marks.length ∧ (kept few).length ≤ 112 ∧
      (kept many).length < (many.act .rope).marks.length ∧ 112 < (kept many).length ∧
      feeding.currentPackage 0 = feeding.package 4117 ∧
      feeding.reservePackage 0 = feeding.package 4120 ∧
      (feeding.package 4117).isSome = true ∧ (feeding.package 4120).isSome = true ∧
      (package 4120 .placed).wound = 2400000 ∧ feeding.warningLength < 2400000 ∧
      (package 4120 .placed).warned = false ∧
      2400000 ≤ ({ feeding with
        ropeCopy := feeding.ropeCopy.map fun c =>
          { c with recipe := { c.recipe with runoutWarning := 2400000 } } } : State).warningLength := by
  decide +kernel

/-- Pack points that take a load and one that does not, patterns that fit the grid and one that does not. -/
theorem witness_load_checks :
    let far := loaded.setLen .rope { loaded.len .rope with p := 4001 }
    (base.pack .rope).state = .noCoil ∧ packTakesLoad .rope base = true ∧
      packTakesLoad .rope loaded = true ∧ packTakesLoad .rope far = false ∧
      packTakesLoad .rope (packing .cutting none) = false ∧
      fitsGrid (.net net) base = true ∧ fitsGrid (.rope rope) base = true ∧
      fitsGrid (.net { net with pattern := [⟨0, 16, 1⟩] }) base = false := by decide +kernel

/-- A settled cutter-done edge with no stroke in progress, a cut timer, and queues that take a coil write. -/
theorem witness_cut_edges :
    let edge := fun s : State => s.setLevel .cdr { s.inputs.level .cdr with pin := true, hold := some 0 }
    let waits := edge (packing .cutting (some .wait))
    let stroke := edge (packing .cutting (some .stroke))
    let restarting := linked fun x => { x with restarting := true }
    (waits.inputs.level .cdr).hold = some 0 ∧ (waits.inputs.level .cdr).pin = true ∧
      (waits.pack .rope).state ≠ .cutFail ∧ (waits.pack .rope).phase ≠ some .stroke ∧
      (stroke.pack .rope).phase = some .stroke ∧
      ((edge (packing .planned none)).pack .rope).state ≠ .cutFail ∧
      (waits.pack .rope).timer = some 3000000 ∧
      base.queue = [] ∧ base.runningOp = none ∧ base.link.restarting = false ∧
      (storing (.eraseRecipe 7)).runningOp ≠ none ∧ restarting.link.restarting = true := by
  decide +kernel

/-- The first bytes of a record's slot behind its check word, and the length of its body. -/
theorem test_record_contents :
    (recordBody 9 coil).length = 117 ∧ ((recordBody 9 coil).drop 2).take 9
        = [0, 0, 0, 9, 0x81, 0, 27, 5, 0x20] := by
  decide +kernel

/-! ### Hypotheses of the clauses on lists of a record, wound length, scan and an erase that fails -/

/-- A store with no page headed, one with a page all FREE, and pages used up to their first and to their last slot. -/
theorem witness_scan :
    let blank := Memory.program [] 43 118 (headerBytes 1 7) []
    let full := blank.write (512 * 43 + 128 * 3) 0
    headeredPages [] = [] ∧ headerValid blank 43 = true ∧
      scanLog blank = ⟨some 43, some 43, 43, 0, false, 7, false⟩ ∧ recordsInLog blank = [] ∧
      (scanLog logged.flash).newest = some 43 ∧ isFree logged.flash ⟨43, 0⟩ = false ∧
      ([1, 2, 3].all fun j => isFree logged.flash ⟨43, j⟩) = true ∧
      (recordsInLog logged.flash).map (coilNumber logged.flash) = [1] ∧
      isFree full ⟨43, 3⟩ = false ∧ scanLog full = ⟨some 43, some 43, 44, 0, true, 7, false⟩ := by
  decide +kernel

/-- Splices in rising order, span lists that stay within six and that merge, and wound lengths within the range and beyond it. -/
theorem witness_lists :
    let spans : List Span := [⟨1, 2, .low⟩, ⟨3, 4, .low⟩, ⟨5, 6, .low⟩, ⟨7, 8, .low⟩, ⟨9, 20, .high⟩]
    let six := insertSpan ⟨3, 9, .high⟩ spans
    ([5, 8, 8] : List Nat).Pairwise (· ≤ ·) ∧ insertSplice 8 [5, 8, 9] = [5, 8, 8, 9] ∧
      (spans.Pairwise fun a b => a.start ≤ b.start) ∧
      six = [⟨1, 2, .low⟩, ⟨3, 4, .low⟩, ⟨3, 9, .high⟩, ⟨5, 6, .low⟩, ⟨7, 8, .low⟩, ⟨9, 20, .high⟩] ∧
      (insertSpan ⟨11, 12, .low⟩ six).drop 5 = [⟨9, 20, .mixed⟩] ∧
      ({ job .run with delivered := 5000 } : Job).wound = 15707 ∧
      4294967295 < 4294967295 * 314159 / (100 * 1000) := by
  decide +kernel

/-- An erase after which the page does not read all 1s. -/
theorem witness_erase_fails :
    (storing (.storeRecipe 7 (.twist twist))).runningOp = some (.storeRecipe 7 (.twist twist)) ∧
      (RecipeBody.twist twist).firstBad = none ∧ (RecipeBody.twist twist).fits = true ∧
      (Memory.erase (([[(0, 0x00)]] : List StepFault).headD []) 7 base.flash).pageErased 7 = false ∧
      (recipeMemory 7 (.twist twist) { mem := base.flash, faults := [[(0, 0x00)]], budget := none }).2
        = false := by decide +kernel

end Sys2Proof.Tests
end

section
/-! SUPPORT. Every command keeps the invariant, and what the part is after a reset and at its first record. -/

namespace Sys2Proof.Machine

variable {s t : State}

/-! ### Every command keeps the invariant -/

/-- Every command completes, and the state it answers meets the invariant. -/
theorem exec_next_inv (c : Instr) (h : Inv s) : ∃ u, exec c s = .next u ∧ Inv u := by
  cases c with
  | powerOnReset br1 br0 steps faults => exact ⟨_, rfl, inv_powerOnEvent br1 br0 steps faults h⟩
  | startSequenceEnd => exact ⟨_, rfl, inv_startEvent h⟩
  | pulsePinChange i => exact ⟨_, rfl, inv_pulsePinEvent i h⟩
  | pulseFilterSettled i order => exact ⟨_, rfl, inv_pulseSettled i order h⟩
  | levelPinChange i => exact ⟨_, rfl, inv_levelPinEvent i h⟩
  | levelFilterSettled i => exact ⟨_, rfl, inv_levelSettled i h⟩
  | stallDeadline i => exact ⟨_, rfl, inv_stallEvent i h⟩
  | intervalEnd => exact ⟨_, rfl, inv_intervalEvent h⟩
  | motionTimerDeadline p => exact ⟨_, rfl, inv_motionEvent p h⟩
  | detectorTimerDeadline p => exact ⟨_, rfl, inv_detectorEvent p h⟩
  | scanSettleElapsed samples => exact ⟨_, rfl, inv_settleEvent samples h⟩
  | cutTimerDeadline l => exact ⟨_, rfl, inv_cutTimerEvent l h⟩
  | coilWriteAttempt faults => exact ⟨_, rfl, inv_coilWriteEvent faults h⟩
  | logTakeOperation faults => exact ⟨_, rfl, inv_logTakeEvent faults h⟩
  | logVoidOperation faults => exact ⟨_, rfl, inv_logVoidEvent faults h⟩
  | storeRecipeOperation faults => exact ⟨_, rfl, inv_storeRecipeEvent faults h⟩
  | eraseRecipeOperation faults => exact ⟨_, rfl, inv_eraseRecipeEvent faults h⟩
  | storePlantOperation faults => exact ⟨_, rfl, inv_storePlantEvent faults h⟩
  | tallyStep faults => exact ⟨_, rfl, inv_tallyStepEvent faults h⟩
  | byteReceived b stopBit => exact ⟨_, rfl, inv_byteEvent b stopBit h⟩
  | gapTimeout => exact ⟨_, rfl, inv_gapEvent h⟩
  | replySent => exact ⟨_, rfl, inv_sentEvent h⟩
  | unknownRequest tag kind rest => exact ⟨_, rfl, inv_unknownEvent tag kind rest h⟩
  | restartReset br1 br0 => exact ⟨_, rfl, inv_restartEvent br1 br0 h⟩
  | status tag => exact ⟨_, rfl, inv_request (fun _ h => h) h⟩
  | restart tag => exact ⟨_, rfl, inv_request inv_restartAct h⟩
  | reports tag n => exact ⟨_, rfl, inv_request (inv_reportsAct n) h⟩
  | setReports tag kind queued call urgent =>
    exact ⟨_, rfl, inv_request (inv_setReportsAct kind queued call urgent) h⟩
  | callMask tag setting => exact ⟨_, rfl, inv_request (inv_callMaskAct setting) h⟩
  | readPlant tag => exact ⟨_, rfl, inv_request inv_readPlantAct h⟩
  | storePlant tag plant => exact ⟨_, rfl, inv_request (inv_storePlantAct plant) h⟩
  | readRecipe tag slot => exact ⟨_, rfl, inv_request (inv_readRecipeAct slot) h⟩
  | storeRecipe tag slot body => exact ⟨_, rfl, inv_request (inv_storeRecipeAct slot body) h⟩
  | eraseRecipe tag slot => exact ⟨_, rfl, inv_request (inv_eraseRecipeAct slot) h⟩
  | readTally tag tally => exact ⟨_, rfl, inv_request (inv_readTallyAct tally) h⟩
  | startPackage tag position package slot =>
    exact ⟨_, rfl, inv_request (inv_startPackageAct position package slot) h⟩
  | resumePosition tag position => exact ⟨_, rfl, inv_request (inv_resumePositionAct position) h⟩
  | doffPackage tag position => exact ⟨_, rfl, inv_request (inv_doffPackageAct position) h⟩
  | positionStatus tag position => exact ⟨_, rfl, inv_request (inv_positionStatusAct position) h⟩
  | addPackage tag entry => exact ⟨_, rfl, inv_request (inv_addPackageAct entry) h⟩
  | readPackage tag package => exact ⟨_, rfl, inv_request (inv_readPackageAct package) h⟩
  | removePackage tag package => exact ⟨_, rfl, inv_request (inv_removePackageAct package) h⟩
  | placePackage tag package place =>
    exact ⟨_, rfl, inv_request (inv_placePackageAct package place) h⟩
  | unplacePackage tag package => exact ⟨_, rfl, inv_request (inv_unplacePackageAct package) h⟩
  | spliceFeed tag place => exact ⟨_, rfl, inv_request (inv_spliceFeedAct place) h⟩
  | creelStatus tag => exact ⟨_, rfl, inv_request (fun _ h => h) h⟩
  | loadLineRecipe tag machine slot =>
    exact ⟨_, rfl, inv_request (inv_loadLineRecipeAct machine slot) h⟩
  | setPosition tag machine value =>
    exact ⟨_, rfl, inv_request (inv_setPositionAct machine value) h⟩
  | lineStatus tag machine => exact ⟨_, rfl, inv_request (inv_lineStatusAct machine) h⟩
  | stopMachine tag machine => exact ⟨_, rfl, inv_request (inv_stopMachineAct machine) h⟩
  | release tag machine cause => exact ⟨_, rfl, inv_request (inv_releaseAct machine cause) h⟩
  | setWatch tag machine position =>
    exact ⟨_, rfl, inv_request (inv_setWatchAct machine position) h⟩
  | clearWatch tag machine watch => exact ⟨_, rfl, inv_request (inv_clearWatchAct machine watch) h⟩
  | readMarks tag machine start skip count =>
    exact ⟨_, rfl, inv_request (inv_readMarksAct machine start skip count) h⟩
  | addMark tag machine position span =>
    exact ⟨_, rfl, inv_request (inv_addMarkAct machine position span) h⟩
  | knotStatus tag => exact ⟨_, rfl, inv_request inv_knotStatusAct h⟩
  | readRows tag back count => exact ⟨_, rfl, inv_request (inv_readRowsAct back count) h⟩
  | addOrder tag order => exact ⟨_, rfl, inv_request (inv_addOrderAct order) h⟩
  | cancelOrder tag order => exact ⟨_, rfl, inv_request (inv_cancelOrderAct order) h⟩
  | readOrders tag skip count => exact ⟨_, rfl, inv_request (inv_readOrdersAct skip count) h⟩
  | endCoil tag machine => exact ⟨_, rfl, inv_request (inv_endCoilAct machine) h⟩
  | cutManual tag machine => exact ⟨_, rfl, inv_request (inv_cutManualAct machine) h⟩
  | packStatus tag machine => exact ⟨_, rfl, inv_request (inv_packStatusAct machine) h⟩
  | logRead tag first count => exact ⟨_, rfl, inv_request (inv_logReadAct first count) h⟩
  | logTake tag upTo => exact ⟨_, rfl, inv_request (inv_logTakeAct upTo) h⟩
  | logVoid tag coil => exact ⟨_, rfl, inv_request (inv_logVoidAct coil) h⟩

theorem exec_keeps_inv {c : Instr} (h : Inv s) (he : exec c s = .next t) : Inv t := by
  obtain ⟨u, hu, hinv⟩ := exec_next_inv c h
  cases he.symm.trans hu
  exact hinv

/-! ### The part after a reset -/

theorem resetPart_act (k : ResetKind) (br1 br0 : Bool) (held : List HeldReport) (s : State)
    (l : LineId) : (resetPart k br1 br0 held s).act l = Line.reset.act := by
  cases l <;> rfl

theorem resetPart_stop (k : ResetKind) (br1 br0 : Bool) (held : List HeldReport) (s : State)
    (m : Fin 10) : (resetPart k br1 br0 held s).stop m = { causes := 0, asserted := false } := by
  simp [State.stop, resetPart, State.reset]

theorem resetPart_hasCause (k : ResetKind) (br1 br0 : Bool) (held : List HeldReport) (s : State)
    (m : Fin 10) (c : StopCause) : (resetPart k br1 br0 held s).hasCause m c = false := by
  rw [State.hasCause, resetPart_stop, isIn_zero]

/-- R193: POWER_ON_RESET leaves the part reset, with no report held. -/
theorem exec_powerOnReset (br1 br0 : Bool) (steps : Nat) (faults : List StepFault) (s : State) :
    exec (.powerOnReset br1 br0 steps faults) s
      = .next (resetPart .powerOn br1 br0 [] { s with flash := cutOffMemory steps faults s }) := rfl

/-- R192: RESTART_RESET, where it is due, leaves the part reset, with the held reports kept. -/
theorem exec_restartReset_of_due (br1 br0 : Bool) (h : s.restartDue = true) :
    exec (.restartReset br1 br0) s = .next (resetPart .restart br1 br0 s.link.held s) := by
  show Host.Outcome.next (restartEvent br1 br0 s) = _
  rw [restartEvent, if_pos h]

/-! ### The first record of a start (R191) -/

/-- A report entered later leaves the first record of the queue as it is. -/
theorem queueReport_head? {kind : ReportKind} {machine : Option Nat} {body : List Byte} {r : Report}
    (h : s.link.reports.head? = some r) :
    (queueReport kind machine body s).link.reports.head? = some r := by
  by_cases hq : (s.link.settings[kind.index]).queued = true
  · by_cases hl : s.link.reports.length < reportCapacity
    · rw [queueReport_of_room hq hl]
      simp [judgeCall, List.head?_append, h]
    · rw [queueReport_of_full hq (Nat.not_lt.mp hl)]
      exact h
  · rw [queueReport_of_off (Bool.eq_false_iff.mpr hq)]
    exact h

/-- A report entered into an empty queue is its first record. -/
theorem queueReport_head?_of_empty {kind : ReportKind} {machine : Option Nat} {body : List Byte}
    (hq : (s.link.settings[kind.index]).queued = true) (he : s.link.reports = []) :
    (queueReport kind machine body s).link.reports.head?.map Report.kind = some kind := by
  rw [queueReport_of_room hq (by rw [he]; decide)]
  simp [judgeCall, he]

theorem enterStarted_head? (hq : (s.link.settings[ReportKind.started.index]).queued = true)
    (he : s.link.reports = []) :
    (enterStarted s).link.reports.head?.map Report.kind = some .started := by
  obtain ⟨r, hr, hk⟩ := Option.map_eq_some_iff.mp
    (queueReport_head?_of_empty (machine := none) (body := startedBody s) hq he)
  have hall : (enterStarted s).link.reports.head? = some r :=
    foldl_keeps (P := fun x : State => x.link.reports.head? = some r)
      (fun _ _ hx => queueReport_head? hx) s.link.held hr
  rw [hall, Option.map_some, hk]

/-- The end of the start sequence enters STARTED as the first record, where none is queued. -/
theorem startEvent_head? (hs : s.link.start = .starting)
    (hq : (s.link.settings[ReportKind.started.index]).queued = true) (he : s.link.reports = []) :
    (startEvent s).link.reports.head?.map Report.kind = some .started := by
  rw [startEvent, if_pos hs]
  exact enterStarted_head? hq he

theorem startEvent_resetPart_head? (k : ResetKind) (br1 br0 : Bool) (held : List HeldReport)
    (s : State) :
    (startEvent (resetPart k br1 br0 held s)).link.reports.head?.map Report.kind = some .started :=
  have hq : (defaultSettings[ReportKind.started.index]).queued = true := by decide
  startEvent_head? rfl hq rfl

end Sys2Proof.Machine
end

section
/-! SUPPORT. The Line Action Unit and the checks at a SET_POSITION. -/

namespace Sys2Proof.Machine

variable {s : State}

theorem stopNotice_act (m : Fin 10) (set clear : CauseSet) (s : State) (l : LineId) :
    (stopNotice m set clear s).act l = s.act l := by
  rw [stopNotice_only]
  cases l <;> rfl

theorem packRestarts_act (l k : LineId) (v : Nat) (s : State) :
    (packRestarts l v s).act k = s.act k := by
  unfold packRestarts
  split
  · rfl
  · rw [act_setPack]

theorem setAct_act_at (s : State) (l k : LineId) (x : LineActions) :
    (s.setAct l x).act k = if k = l then x else s.act k := by
  cases l <;> cases k <;> rfl

/-- SET_POSITION empties the Line Action Unit of its line and leaves the other line's. -/
theorem setPosition_act (l k : LineId) (v : Nat) (s : State) :
    (setPosition l v s).act k = if k = l then (s.act l).cleared else s.act k := by
  cases l with
  | rope =>
    show (packRestarts .rope v (stopNotice _ _ _ _)).act k = _
    rw [packRestarts_act, stopNotice_act, setAct_act_at, act_setLen, act_setLen]
  | net =>
    show (packRestarts .net v (stopNotice _ _ _ _)).act k = _
    rw [packRestarts_act, stopNotice_act, setAct_act_at, act_setLen, act_setLen]

theorem cleared_empty (x : LineActions) :
    x.cleared.marks = [] ∧ x.cleared.actions = [] ∧ (∀ i : Fin 4, x.cleared.watches[i] = none) ∧
      x.cleared.onCount = 0 ∧ x.cleared.marker = false :=
  ⟨rfl, rfl, fun i => by simp [LineActions.cleared], rfl, rfl⟩

/-- R75: the checks of a SET_POSITION, all passed. -/
theorem setPositionAct_of_allowed {l : LineId} {v : Nat} (hv : v ≤ 4294967295)
    (hplant : s.plant.isSome = true) (hstill : s.running l = false)
    (hfeed : l = .net ∨ s.anyFeeding = false) (hway : (s.pack l).state.underWay = false)
    (hrec : (s.pack l).record = none) :
    setPositionAct (machineOf l).val v s = (setPosition l v s, .done []) := by
  have hnone : (l == .net || !s.anyFeeding) = true := by
    rcases hfeed with rfl | h
    · rfl
    · rw [h, Bool.not_false, Bool.or_true]
  unfold setPositionAct
  rw [lineField_machineOf, inField_within (Nat.zero_le v) hv, configured, hplant,
    guarded_of_passed rfl, onLine_machineOf]
  apply guarded_of_passed
  simp [firstRefusal, lineStill, noneFeeding, hstill, hnone, hway, hrec]

end Sys2Proof.Machine
end

section
/-! SUPPORT. What RELEASE does: its checks, the notice it gives, and the word to the Knot Scanner (R101, R117). -/

namespace Sys2Proof.Machine

variable {s : State}

theorem StopCause.code_injective {c d : StopCause} (h : c.code = d.code) : c = d := by
  have honly : d.only = c.only := by rw [StopCause.only, StopCause.only, h]
  have hin : c.isIn d.only = true := by simp [honly, only_isIn]
  exact of_decide_eq_true (only_isIn c d ▸ hin)

theorem releasable_val (m : Fin 10) :
    releasable m.val
      = if m = 9 then [.commanded, .watch, .hookFault, .sensor, .panelEnd]
        else if m = 8 then [.commanded, .watch]
        else [.commanded] := by
  simp [releasable, Fin.ext_iff]

theorem releaseCause_of_mem {machine : Nat} {c : StopCause} (h : c ∈ releasable machine) :
    releaseCause machine c.code = some c := by
  cases hf : releaseCause machine c.code with
  | none => exact absurd (beq_self_eq_true c.code) (List.find?_eq_none.mp hf c h)
  | some d =>
    have hd : d.code = c.code := by simpa using List.find?_some hf
    rw [StopCause.code_injective hd]

theorem releaseCause_eq_none {machine code : Nat} (h : ∀ c ∈ releasable machine, c.code ≠ code) :
    releaseCause machine code = none :=
  List.find?_eq_none.mpr fun c hc => by simpa using h c hc

theorem machineField_val (m : Fin 10) : machineField m.val = (true, .field 1) :=
  inField_within (Nat.zero_le _) (by omega)

theorem releaseAct_of_mem {m : Fin 10} {c : StopCause} (h : c ∈ releasable m.val) (s : State) :
    releaseAct m.val c.code s = (releaseStop m c s, .done []) := by
  unfold releaseAct
  rw [machineField_val, guarded_cons_true, releaseCause_of_mem h, guarded_of_passed rfl,
    fin_ofNat_val]

/-- R98: a notice leaves every output following its set. -/
theorem stopsAgree_stopNotice (m : Fin 10) (set clear : CauseSet) (h : StopsAgree s) :
    StopsAgree (stopNotice m set clear s) := by
  intro k
  rw [stopNotice_stop]
  split
  · rfl
  · exact h k

theorem noticed_zero_set (clear x : CauseSet) : noticed 0 clear x = x &&& ~~~clear := by
  simp [noticed]

theorem only_getLsbD (c : StopCause) {i : Nat} (hi : i < 16) :
    c.only.getLsbD i = decide (c.code - 1 = i) := by
  rw [StopCause.only, ← BitVec.twoPow_eq, BitVec.getLsbD_twoPow]
  by_cases h : c.code - 1 = i
  · simp [h, hi]
  · simp [h]

/-- A notice that clears a cause not set leaves the set as it is. -/
theorem noticed_only_of_absent {c : StopCause} {x : CauseSet} (h : c.isIn x = false) :
    noticed 0 c.only x = x := by
  rw [noticed_zero_set]
  refine BitVec.eq_of_getLsbD_eq fun i hi => ?_
  rw [BitVec.getLsbD_and, BitVec.getLsbD_not, only_getLsbD c hi]
  by_cases hc : c.code - 1 = i
  · rw [← hc, show x.getLsbD (c.code - 1) = false from h, Bool.false_and]
  · simp [hc, hi]

theorem stopNotice_of_same {m : Fin 10} {set clear : CauseSet}
    (h : noticed set clear (s.stop m).causes = (s.stop m).causes) : stopNotice m set clear s = s :=
  if_pos h

/-- The release of a cause gives the Stop Unit the notice that clears it, and changes no set besides. -/
theorem releaseStop_stop (m : Fin 10) (c : StopCause) (s : State) (k : Fin 10) :
    (releaseStop m c s).stop k = (stopNotice m 0 c.only s).stop k := by
  unfold releaseStop
  simp only
  split <;> rfl

/-- R117: a HOOK_FAULT that was set is made known to the Knot Scanner. -/
theorem releaseStop_hookFault {m : Fin 10} (h : s.hasCause m .hookFault = true) :
    releaseStop m .hookFault s
      = { stopNotice m 0 StopCause.hookFault.only s with
          knot := { s.knot with counters := Vector.replicate 64 0, faultHook := none } } := by
  have hk := clearCause_knot m .hookFault s
  simp only [releaseStop, h, and_self, if_true, hooksReleased, State.setKnot, hk]
  rfl

theorem releaseStop_of_notice {m : Fin 10} {c : StopCause}
    (h : c ≠ .hookFault ∨ s.hasCause m c = false) :
    releaseStop m c s = stopNotice m 0 c.only s := by
  refine if_neg ?_
  rintro ⟨rfl, hset⟩
  simp [hset] at h

theorem releaseStop_of_unset {m : Fin 10} {c : StopCause} (h : s.hasCause m c = false) :
    releaseStop m c s = s := by
  rw [releaseStop_of_notice (.inr h), stopNotice_of_same (noticed_only_of_absent h)]

theorem releaseStop_causes (m : Fin 10) (c : StopCause) (s : State) :
    ((releaseStop m c s).stop m).causes = (s.stop m).causes &&& ~~~c.only := by
  rw [releaseStop_stop, stopNotice_causes, noticed_zero_set]

theorem releaseStop_hasCause (m : Fin 10) (c : StopCause) (s : State) :
    (releaseStop m c s).hasCause m c = false := by
  have hnotice : (stopNotice m 0 c.only s).hasCause m c = false := by
    simp [hasCause_stopNotice, only_isIn]
  rwa [State.hasCause, ← releaseStop_stop] at hnotice

theorem releaseStop_asserted (m : Fin 10) (c : StopCause) (h : StopsAgree s) :
    ((releaseStop m c s).stop m).asserted = ((s.stop m).causes &&& ~~~c.only != 0) := by
  rw [releaseStop_stop, stopsAgree_stopNotice m 0 c.only h m, stopNotice_causes, noticed_zero_set]

theorem causes_ne_zero_of_hasCause {m : Fin 10} {c : StopCause} (h : s.hasCause m c = true) :
    (s.stop m).causes ≠ 0 := by
  intro h0
  rw [State.hasCause, h0, isIn_zero] at h
  cases h

/-- A cause that a block sets is in the machine's set, and stops the machine. -/
theorem setCause_asserts (m : Fin 10) (c : StopCause) (h : StopsAgree s) :
    (setCause m c s).hasCause m c = true ∧ ((setCause m c s).stop m).asserted = true := by
  have hset : (setCause m c s).hasCause m c = true := by simp [hasCause_setCause]
  have hagree : StopsAgree (setCause m c s) := stopsAgree_stopNotice m c.only 0 h
  refine ⟨hset, ?_⟩
  rw [hagree m, bne_iff_ne]
  exact causes_ne_zero_of_hasCause hset

end Sys2Proof.Machine
end

section
/-! The obligations on resets, stop outputs and RELEASE (R79, R98, R101). -/

namespace Sys2Proof.Machine

/-- Settles O22: a reset and SET_POSITION leave the Line Action Unit's reset values. -/
theorem resetsEmptyLineActions : Obligations.ResetsEmptyLineActions := by
  refine ⟨?_, ?_, ?_⟩
  · intro br1 br0 steps faults s
    refine ⟨_, exec_powerOnReset br1 br0 steps faults s, fun l => ?_⟩
    rw [resetPart_act]
    exact ⟨cleared_empty Line.reset.act, resetPart_hasCause ..⟩
  · intro br1 br0 s hdue
    refine ⟨_, exec_restartReset_of_due br1 br0 hdue, fun l => ?_⟩
    rw [resetPart_act]
    exact ⟨cleared_empty Line.reset.act, resetPart_hasCause ..⟩
  · intro tag l other v s hready hother hv hplant hstill hfeed hway hrec
    refine ⟨setPosition l v s, ?_, ?_, ?_⟩
    · rw [exec_setPosition _ _ _ hready,
        setPositionAct_of_allowed hv hplant hstill hfeed hway hrec]
    · rw [setPosition_act, if_pos rfl]
      exact cleared_empty _
    · rw [setPosition_act, if_neg hother]

/-- Settles O46: every command keeps the invariant, of which R98 is a part, and a reset leaves no cause set. -/
theorem stopOutputsFollowCauses : Obligations.StopOutputsFollowCauses := by
  refine ⟨?_, ?_, ?_⟩
  · intro c s t h he m
    rw [(exec_keeps_inv h he).stops m, bne_iff_ne]
  · intro br1 br0 steps faults s
    refine ⟨_, _, exec_powerOnReset br1 br0 steps faults s, rfl, rfl, fun m => ?_, rfl,
      startEvent_resetPart_head? ..⟩
    rw [resetPart_stop]
    exact ⟨rfl, rfl⟩
  · intro br1 br0 s hdue
    refine ⟨_, _, exec_restartReset_of_due br1 br0 hdue, rfl, rfl, fun m => ?_, rfl,
      startEvent_resetPart_head? ..⟩
    rw [resetPart_stop]
    exact ⟨rfl, rfl⟩

/-- Settles O48: a RELEASE whose checks pass is one notice that clears the cause, with the Knot Scanner told of a
HOOK_FAULT that was set. -/
theorem releaseClearsCause : Obligations.ReleaseClearsCause := by
  refine ⟨?_, ?_, ?_, fun m c s h => setCause_asserts m c h⟩
  · intro tag m c s hready hm
    rw [exec_release _ _ _ hready, releaseAct, machineField, inField_above hm, guarded_cons_false]
  · intro tag m code s hready hcode
    rw [exec_release _ _ _ hready, releaseAct, machineField_val, guarded_cons_true,
      releaseCause_eq_none (by rw [releasable_val]; exact hcode)]
    rfl
  · intro tag m c s hready hmem
    have hact := releaseAct_of_mem (by rw [releasable_val]; exact hmem) s
    refine ⟨releaseStop m c s, ?_, releaseStop_hasCause m c s, releaseStop_of_unset,
      releaseStop_asserted m c, ?_, releaseStop_causes m c s, ?_, releaseStop_of_notice⟩
    · rw [exec_release _ _ _ hready, hact]
    · intro k hk
      rw [releaseStop_stop, stopNotice_other _ _ _ _ _ hk]
    · rintro rfl hset
      exact releaseStop_hookFault hset

end Sys2Proof.Machine
end

section
/-! The obligation on READ_ROWS (R125). -/

namespace Sys2Proof.Machine

/-- R125: the answer of READ_ROWS, judged by its two field checks; reading changes nothing. -/
theorem readRowsAct_replied (c : Instr) (a n : Nat) (s : State) :
    (readRowsAct a n s).1.replied c (readRowsAct a n s).2
      = s.judged c [inField 1 0 31 a, inField 2 1 7 n] s
          (be 1 s.knot.ring.length ++ be 1 ((s.knot.ring.reverse.drop a).take n).length
            ++ ((s.knot.ring.reverse.drop a).take n).flatMap RowEntry.bytes) :=
  replied_guarded rfl

/-- Settles O50: the part answers at once, and the reading is refused by the first field out of range or carries the
rows found. -/
theorem readRowsNewestFirst : Obligations.ReadRowsNewestFirst := by
  intro tag a n s hready
  rw [exec_readRows tag a n hready, readRowsAct_replied]

end Sys2Proof.Machine
end

section
/-! The obligation on READ_ORDERS (R134). -/

namespace Sys2Proof.Machine

/-- R134: the answer of READ_ORDERS, judged by its two field checks; reading changes nothing. -/
theorem readOrdersAct_replied (c : Instr) (k n : Nat) (s : State) :
    (readOrdersAct k n s).1.replied c (readOrdersAct k n s).2
      = s.judged c [inField 1 0 15 k, inField 2 1 8 n] s
          (be 1 s.orders.length ++ be 1 ((s.orders.drop k).take n).length
            ++ ((s.orders.drop k).take n).flatMap (orderBytes s)) :=
  replied_guarded rfl

/-- Settles O52: the part answers at once, and the reading is refused by the first field out of range or carries the
next orders of the queue. -/
theorem readOrdersInQueueOrder : Obligations.ReadOrdersInQueueOrder := by
  intro tag k n s hready
  rw [exec_readOrders tag k n hready, readOrdersAct_replied]

end Sys2Proof.Machine
end

section
/-! SUPPORT. CALL and the queued records, the defaults of the report settings, and requests while the part is STARTING
(R183, R187, R188, R193). -/

namespace Sys2Proof.Machine

variable {s : State}

/-! ### CALL and the queued records (R188) -/

theorem callDue_iff {x : Link} :
    x.callDue = true ↔ ∃ r ∈ x.reports, r.call = true ∧ (x.mask = false ∨ r.urgent = true) := by
  simp [Link.callDue, Report.holdsCall]

/-- A record of the queue calls, and CALL is asserted. -/
def Link.calling (x : Link) : Prop :=
  x.callDue = true ∧ x.call = true

/-- CALL judged anew is CALL as it was, where it followed the records. -/
theorem judgeCall_of_agrees (h : s.link.call = s.link.callDue) : judgeCall s = s := by
  rw [judgeCall, ← h]

theorem judgeCall_calling (h : s.link.callDue = true) : (judgeCall s).link.calling :=
  ⟨h, h⟩

/-- A record that joins the queue leaves those that call in it. -/
theorem callDue_append {x : Link} (r : Report) (h : x.callDue = true) :
    ({ x with reports := x.reports ++ [r] } : Link).callDue = true := by
  obtain ⟨q, hq, hcall⟩ := callDue_iff.mp h
  exact callDue_iff.mpr ⟨q, List.mem_append_left _ hq, hcall⟩

/-- A report entered later does not release CALL. -/
theorem queueReport_calling {kind : ReportKind} {machine : Option Nat} {body : List Byte}
    (h : s.link.calling) : (queueReport kind machine body s).link.calling := by
  obtain ⟨hdue, hcall⟩ := h
  by_cases hq : (s.link.settings[kind.index]).queued = true
  · by_cases hl : s.link.reports.length < reportCapacity
    · rw [queueReport_of_room hq hl]
      exact judgeCall_calling (callDue_append _ hdue)
    · rw [queueReport_of_full hq (Nat.not_lt.mp hl)]
      exact judgeCall_calling hdue
  · rw [queueReport_of_off (Bool.eq_false_iff.mpr hq)]
    exact ⟨hdue, hcall⟩

/-- A report of a kind that calls asserts CALL, where the mask is off and the queue is empty. -/
theorem queueReport_calling_of_empty {kind : ReportKind} {machine : Option Nat} {body : List Byte}
    (hq : (s.link.settings[kind.index]).queued = true)
    (hc : (s.link.settings[kind.index]).call = true) (hm : s.link.mask = false)
    (he : s.link.reports = []) : (queueReport kind machine body s).link.calling := by
  rw [queueReport_of_room hq (by rw [he]; decide)]
  exact judgeCall_calling (callDue_iff.mpr
    ⟨_, List.mem_append_right _ (List.mem_singleton_self _), hc, .inl hm⟩)

theorem enterStarted_call (hq : (s.link.settings[ReportKind.started.index]).queued = true)
    (hc : (s.link.settings[ReportKind.started.index]).call = true) (hm : s.link.mask = false)
    (he : s.link.reports = []) : (enterStarted s).link.call = true := by
  have hfirst := queueReport_calling_of_empty (machine := none) (body := startedBody s) hq hc hm he
  exact (foldl_keeps (P := fun x : State => x.link.calling) (fun _ _ hx => queueReport_calling hx)
    s.link.held hfirst).2

/-! ### The report settings after a reset, and CALL at STARTED (R187, R188) -/

theorem defaultSettings_index (kind : ReportKind) :
    defaultSettings[kind.index]
      = { queued := true, call := true
          urgent := decide (kind = .positionFault ∨ kind = .runout ∨ kind = .cutFail ∨
            kind = .logFull ∨ kind = .hookFault ∨ kind = .stopChange) } := by
  cases kind <;> decide

theorem startEvent_call (hs : s.link.start = .starting)
    (hq : (s.link.settings[ReportKind.started.index]).queued = true)
    (hc : (s.link.settings[ReportKind.started.index]).call = true) (hm : s.link.mask = false)
    (he : s.link.reports = []) : (startEvent s).link.call = true := by
  rw [startEvent, if_pos hs]
  exact enterStarted_call hq hc hm he

/-- After either reset STARTED asserts CALL. -/
theorem startEvent_resetPart_call (k : ResetKind) (br1 br0 : Bool) (held : List HeldReport)
    (s : State) : (startEvent (resetPart k br1 br0 held s)).link.call = true :=
  have hset := defaultSettings_index .started
  startEvent_call rfl (congrArg ReportSetting.queued hset) (congrArg ReportSetting.call hset)
    rfl rfl

/-! ### Requests while the part is STARTING (R183) -/

/-- A request that is not answered in STARTING comes to a link with nothing waiting, and is refused. -/
theorem request_of_starting {c : Instr} {tag kind : Byte} {rest : List Byte}
    {act : State → State × Answer} (hb : requestBody c = some (tag :: kind :: rest))
    (hs : s.link.start = .starting) (hw : firstWaiting s.link.frames = none)
    (hroom : s.link.frames.length < frameCapacity) (hr : s.link.restarting = false) :
    request c tag kind false act s = s.replied c (.state .starting) := by
  have hrefused : answerOf false act (frameArrives c s) = (frameArrives c s, .state .starting) := by
    rw [frameArrives_of_room hroom, answerOf, hs]
    rfl
  rw [request_of_free hw hroom hr, hrefused, frameArrives_of_room hroom, attachReply,
    giveReply_append c _ hw, State.replied, hb]

/-! ### What the requests on reports answer (R186 to R188) -/

/-- R188: the answer of CALL_MASK, judged by its field check. -/
theorem callMaskAct_replied (c : Instr) (v : Nat) (s : State) :
    (callMaskAct v s).1.replied c (callMaskAct v s).2
      = s.judged c [inField 1 0 1 v] (judgeCall (s.setLink { s.link with mask := v == 1 })) [] :=
  replied_guarded rfl

/-- R186: the answer of REPORTS, judged by its field check. -/
theorem reportsAct_replied (c : Instr) (n : Nat) (s : State) :
    (reportsAct n s).1.replied c (reportsAct n s).2
      = s.judged c [inField 1 1 8 n]
          (judgeCall (s.setLink { s.link with reports := s.link.reports.drop n }))
          (be 1 (s.link.reports.take n).length ++ be 1 (s.link.reports.drop n).length
            ++ (s.link.reports.take n).flatMap Report.bytes) :=
  replied_guarded rfl

/-- R187: the answer of SET_REPORTS, judged by its field checks. -/
theorem setReportsAct_replied (c : Instr) (kind queued call urgent : Nat) (s : State) :
    (setReportsAct kind queued call urgent s).1.replied c (setReportsAct kind queued call urgent s).2
      = s.judged c
          [inField 1 1 24 kind, inField 2 0 1 queued, inField 3 0 1 call, inField 4 0 1 urgent]
          (judgeCall (s.setLink
            { s.link with
              settings := s.link.settings.set (Fin.ofNat 24 (kind - 1))
                { queued := queued == 1, call := call == 1, urgent := urgent == 1 } }))
          [] :=
  replied_guarded rfl

/-- R197: an absent machine is carried as 0xFF. -/
theorem optionCode_eq_be (c : Option Nat) : optionCode c = be 1 (c.getD 0xFF) := by
  cases c with
  | none => decide
  | some n => rfl

end Sys2Proof.Machine
end

section
/-! The obligations on CALL, REPORTS and SET_REPORTS (R186 to R188). -/

namespace Sys2Proof.Machine

/-- Settles O17: the invariant, which every command keeps, says of CALL what R188 says; after a reset STARTED is a
record that calls, and no report held for entry after it takes it away. -/
theorem callFollowsRecords : Obligations.CallFollowsRecords := by
  refine ⟨?_, ?_, ?_, ?_⟩
  · intro c s t h he
    rw [(exec_keeps_inv h he).link.call]
    exact callDue_iff
  · intro tag v s hready
    rw [exec_callMask tag v hready, callMaskAct_replied]
    rfl
  · intro br1 br0 steps faults s
    exact ⟨_, _, exec_powerOnReset br1 br0 steps faults s, rfl, rfl, rfl, rfl,
      startEvent_resetPart_call ..⟩
  · intro br1 br0 s hdue
    exact ⟨_, _, exec_restartReset_of_due br1 br0 hdue, rfl, rfl, rfl, rfl,
      startEvent_resetPart_call ..⟩

/-- Settles O19: REPORTS parts the queue into the records taken and the rest; a record's code is its kind's place in the
list of kinds. -/
theorem reportsAreTaken : Obligations.ReportsAreTaken := by
  refine ⟨?_, ?_, ?_⟩
  · intro tag n s hready
    rw [exec_reports tag n hready, reportsAct_replied, List.length_take, List.length_drop]
    rfl
  · intro tag n s hstarting hwaiting hroom hrunning
    exact congrArg _ (request_of_starting rfl hstarting hwaiting hroom hrunning)
  · intro r
    rw [Report.bytes, optionCode_eq_be, ReportKind.code]
    cases r.kind <;> rfl

/-- Settles O20: SET_REPORTS touches no record that holds CALL, and entry reads the settings of the moment. -/
theorem reportSettingsAreReplaced : Obligations.ReportSettingsAreReplaced := by
  refine ⟨?_, ?_, ?_, ?_⟩
  · intro tag kind queued call urgent s hready h
    rw [exec_setReports tag kind queued call urgent hready,
      setReportsAct_replied, judgeCall_of_agrees (by exact h.link.call)]
    rfl
  · intro kind machine body s hstarted hrunning
    rw [enterReport_of_open hstarted hrunning]
    refine ⟨fun hoff _ => queueReport_of_off hoff, fun hon hroom => ?_⟩
    rw [queueReport_of_room hon hroom]
    exact ⟨_, rfl, rfl, rfl⟩
  · intro br1 br0 steps faults s
    exact ⟨_, exec_powerOnReset br1 br0 steps faults s, defaultSettings_index⟩
  · intro br1 br0 s hdue
    exact ⟨_, exec_restartReset_of_due br1 br0 hdue, defaultSettings_index⟩

end Sys2Proof.Machine
end

section
/-! SUPPORT. What every command leaves: the commands that wait, and, beside its own kind, the store, the inputs, the
clock and the plant record in force. -/

namespace Sys2Proof.Machine

variable {s t : State}

/-! ### The frame of a command -/

/-- What a command keeps of the state before it: the queue of commands, and what only other kinds of command touch. -/
structure Framed (c : Instr) (s t : State) : Prop where
  pending : t.pending = s.pending
  flash : mayWriteStore c = false → t.flash = s.flash
  inputs : mayMoveInputs c = false → t.inputs = s.inputs
  now : mayMoveClock c = false → t.now = s.now
  plant : maySetPlant c = false → t.plant = s.plant

theorem base_eq_iff :
    t.base = s.base
      ↔ t.inputs = s.inputs ∧ t.now = s.now ∧ t.plant = s.plant ∧ t.flash = s.flash := by
  simp [State.base]

theorem framed_of_base {c : Instr} (hp : t.pending = s.pending) (hb : t.base = s.base) :
    Framed c s t := by
  obtain ⟨hinputs, hnow, hplant, hflash⟩ := base_eq_iff.mp hb
  exact ⟨hp, fun _ => hflash, fun _ => hinputs, fun _ => hnow, fun _ => hplant⟩

theorem framed_of_ground {c : Instr} (hp : t.pending = s.pending) (hg : t.ground = s.ground) :
    Framed c s t :=
  framed_of_base hp (base_of_ground hg)

theorem framed_refl (c : Instr) (s : State) : Framed c s s :=
  framed_of_base rfl rfl

/-! ### What the acts of requests keep -/

/-- A request's act keeps the inputs, the clock, the plant record in force and the store's bytes. -/
def ActKeepsBase (act : State → State × Answer) : Prop :=
  ∀ s, (act s).1.base = s.base

theorem actKeepsBase_guarded {cs : State → List Check} {act : State → State × Answer}
    (h : ActKeepsBase act) : ActKeepsBase fun s => guarded (cs s) act s := fun s =>
  guarded_keeps (P := fun x => x.base = s.base) rfl fun _ => h s

theorem actKeepsBase_onLine {machine : Nat} {act : LineId → State → State × Answer}
    (h : ∀ l, ActKeepsBase (act l)) : ActKeepsBase fun s => onLine machine act s := fun s =>
  onLine_keeps (P := fun x => x.base = s.base) rfl fun l => h l s

/-- An act that reads. -/
theorem actKeepsBase_read (f : State → Answer) : ActKeepsBase fun s => (s, f s) :=
  fun _ => rfl

theorem actKeepsBase_addMarkAct (machine position span : Nat) :
    ActKeepsBase (addMarkAct machine position span) :=
  actKeepsBase_guarded <| actKeepsBase_onLine fun _ => actKeepsBase_guarded fun _ =>
    base_of_ground (ground_handMark ..)

theorem actKeepsBase_readMarksAct (machine start skip count : Nat) :
    ActKeepsBase (readMarksAct machine start skip count) :=
  actKeepsBase_guarded <| actKeepsBase_onLine fun _ => actKeepsBase_read _

theorem actKeepsBase_setWatchAct (machine position : Nat) :
    ActKeepsBase (setWatchAct machine position) := by
  refine actKeepsBase_guarded <| actKeepsBase_onLine fun l => actKeepsBase_guarded fun s => ?_
  split
  · exact base_of_ground (ground_setWatch ..)
  · rfl

theorem actKeepsBase_clearWatchAct (machine watch : Nat) :
    ActKeepsBase (clearWatchAct machine watch) :=
  actKeepsBase_guarded <| actKeepsBase_onLine fun _ _ => base_of_ground (ground_setWatch ..)

theorem actKeepsBase_readTallyAct (tally : Nat) : ActKeepsBase (readTallyAct tally) :=
  actKeepsBase_guarded <| actKeepsBase_read _

theorem actKeepsBase_addOrderAct (e : OrderEntry) : ActKeepsBase (addOrderAct e) :=
  actKeepsBase_guarded fun _ => base_of_ground (ground_tryBinding ..)

theorem base_cancelOrder (o : Order) (s : State) : (cancelOrder o s).base = s.base := by
  unfold cancelOrder
  split
  · rw [base_of_ground (ground_tryBinding ..), base_of_ground (ground_setPack ..)]
    rfl
  · exact base_of_ground (ground_tryBinding ..)

theorem actKeepsBase_cancelOrderAct (number : Nat) : ActKeepsBase (cancelOrderAct number) := by
  refine actKeepsBase_guarded fun s => ?_
  split
  · exact base_cancelOrder ..
  · rfl

theorem actKeepsBase_readOrdersAct (skip count : Nat) : ActKeepsBase (readOrdersAct skip count) :=
  actKeepsBase_guarded <| actKeepsBase_read _

theorem actKeepsBase_endCoilAct (machine : Nat) : ActKeepsBase (endCoilAct machine) :=
  actKeepsBase_guarded <| actKeepsBase_onLine fun _ => actKeepsBase_guarded fun _ =>
    base_of_ground (ground_endCoil ..)

theorem actKeepsBase_cutManualAct (machine : Nat) : ActKeepsBase (cutManualAct machine) :=
  actKeepsBase_guarded <| actKeepsBase_onLine fun _ => actKeepsBase_guarded fun _ =>
    base_of_ground (ground_completeCut ..)

theorem actKeepsBase_packStatusAct (machine : Nat) : ActKeepsBase (packStatusAct machine) :=
  actKeepsBase_guarded <| actKeepsBase_onLine fun _ => actKeepsBase_read _

theorem actKeepsBase_logReadAct (first count : Nat) : ActKeepsBase (logReadAct first count) :=
  actKeepsBase_guarded <| actKeepsBase_read _

theorem actKeepsBase_logTakeAct (upTo : Nat) : ActKeepsBase (logTakeAct upTo) :=
  actKeepsBase_guarded fun _ => base_of_ground (ground_placeOp ..)

theorem actKeepsBase_logVoidAct (coil : Nat) : ActKeepsBase (logVoidAct coil) :=
  actKeepsBase_guarded fun _ => base_of_ground (ground_placeOp ..)

theorem actKeepsBase_addPackageAct (e : PackageEntry) : ActKeepsBase (addPackageAct e) :=
  actKeepsBase_guarded fun _ => base_of_ground (ground_createPackage ..)

theorem actKeepsBase_readPackageAct (number : Nat) : ActKeepsBase (readPackageAct number) := by
  refine actKeepsBase_guarded fun s => ?_
  split <;> rfl

theorem actKeepsBase_removePackageAct (number : Nat) : ActKeepsBase (removePackageAct number) :=
  actKeepsBase_guarded fun _ => base_of_ground (ground_deletePackage ..)

theorem actKeepsBase_placePackageAct (number place : Nat) :
    ActKeepsBase (placePackageAct number place) :=
  actKeepsBase_guarded fun _ => base_of_ground (ground_placePackage ..)

theorem actKeepsBase_unplacePackageAct (number : Nat) :
    ActKeepsBase (unplacePackageAct number) := by
  refine actKeepsBase_guarded fun s => ?_
  split
  · split
    · exact base_of_ground (ground_unplacePlaced ..)
    · split
      · rfl
      · exact base_of_ground (ground_unplaceFeeding ..)
    · rfl
  · rfl

theorem actKeepsBase_spliceFeedAct (place : Nat) : ActKeepsBase (spliceFeedAct place) := by
  refine actKeepsBase_guarded fun s => ?_
  split
  · simp only
    exact base_of_ground (ground_spliceFeed ..)
  · rfl

theorem actKeepsBase_startPackageAct (position number slot : Nat) :
    ActKeepsBase (startPackageAct position number slot) := by
  refine actKeepsBase_guarded fun s => ?_
  split
  · exact base_of_ground ((ground_setJob ..).trans (ground_createPackage ..))
  · rfl

theorem actKeepsBase_resumePositionAct (position : Nat) :
    ActKeepsBase (resumePositionAct position) := by
  refine actKeepsBase_guarded fun s => ?_
  split
  · split
    · exact base_of_ground ((ground_setJob ..).trans (ground_clearCause ..))
    · exact base_of_ground ((ground_setJob ..).trans (ground_clearCause ..))
    · rfl
  · rfl

theorem actKeepsBase_doffPackageAct (position : Nat) :
    ActKeepsBase (doffPackageAct position) := by
  refine actKeepsBase_guarded fun s => ?_
  split
  · split
    · rfl
    · exact base_of_ground (ground_doff ..)
  · rfl

theorem actKeepsBase_positionStatusAct (position : Nat) :
    ActKeepsBase (positionStatusAct position) :=
  actKeepsBase_guarded fun _ => rfl

theorem actKeepsBase_readRowsAct (back count : Nat) : ActKeepsBase (readRowsAct back count) :=
  actKeepsBase_guarded <| actKeepsBase_read _

theorem base_setPosition (l : LineId) (v : Nat) (s : State) : (setPosition l v s).base = s.base := by
  have h : ∀ x : State, (packRestarts l v (stopNotice (machineOf l) 0
      (StopCause.only .marksFull ||| StopCause.only .watch) x)).base = x.base := fun x =>
    base_of_ground ((ground_packRestarts ..).trans (ground_stopNotice ..))
  unfold setPosition
  cases l with
  | rope => exact (h _).trans ((base_of_ground (ground_setAct ..)).trans (base_setLen ..))
  | net => exact (h _).trans ((base_of_ground (ground_setAct ..)).trans (base_setLen ..))

theorem actKeepsBase_setPositionAct (machine value : Nat) :
    ActKeepsBase (setPositionAct machine value) :=
  actKeepsBase_guarded <| actKeepsBase_onLine fun _ => actKeepsBase_guarded fun _ =>
    base_setPosition ..

theorem actKeepsBase_lineStatusAct (machine : Nat) : ActKeepsBase (lineStatusAct machine) :=
  actKeepsBase_guarded <| actKeepsBase_onLine fun _ _ => rfl

theorem ground_packLoads (l : LineId) (s : State) : (packLoads l s).ground = s.ground := by
  unfold packLoads
  split
  · exact ground_openCoil ..
  · exact (ground_tryBinding ..).trans (ground_setPack ..)
  · exact (ground_tryBinding ..).trans (ground_setPack ..)
  · rfl

theorem base_loadLine (l : LineId) (slot check : Nat) (body : RecipeBody) (s : State) :
    (loadLine l slot check body s).base = s.base := by
  have hspans : (closeSpans l s).base = s.base := by
    cases l
    · exact base_of_ground (ground_closeLaySpan s)
    · exact base_of_ground (ground_closeMeshSpan s)
  have hcopy : ∀ x : State, (setCopy l slot check body x).base = x.base := fun x => by
    unfold setCopy
    split <;> rfl
  have hmachinery : ∀ x : State, (machineryLoads l x).base = x.base := fun x => by
    cases l <;> rfl
  have hcreel : ∀ x : State, (creelLoads l x).base = x.base := fun x => by
    cases l
    · exact base_of_ground (ground_checkCreel x)
    · rfl
  unfold loadLine
  rw [hcreel, base_of_ground (ground_packLoads ..), hmachinery, beginSegment, base_setLen, hcopy,
    hspans]

theorem actKeepsBase_loadLineRecipeAct (machine slot : Nat) :
    ActKeepsBase (loadLineRecipeAct machine slot) := by
  refine actKeepsBase_guarded <| actKeepsBase_onLine fun l => actKeepsBase_guarded fun s => ?_
  split
  · exact guarded_keeps (P := fun x => x.base = s.base) rfl fun _ => base_loadLine ..
  · rfl

theorem actKeepsBase_storeRecipeAct (slot : Nat) (body : RecipeBody) :
    ActKeepsBase (storeRecipeAct slot body) :=
  actKeepsBase_guarded fun _ => base_of_ground (ground_placeOp ..)

theorem actKeepsBase_eraseRecipeAct (slot : Nat) : ActKeepsBase (eraseRecipeAct slot) :=
  actKeepsBase_guarded fun _ => base_of_ground (ground_placeOp ..)

theorem actKeepsBase_readRecipeAct (slot : Nat) : ActKeepsBase (readRecipeAct slot) :=
  actKeepsBase_guarded <| actKeepsBase_read _

theorem actKeepsBase_storePlantAct (plant : PlantRecord) : ActKeepsBase (storePlantAct plant) :=
  actKeepsBase_guarded fun _ => base_of_ground (ground_placeOp ..)

theorem actKeepsBase_readPlantAct : ActKeepsBase readPlantAct :=
  actKeepsBase_guarded <| actKeepsBase_read _

theorem actKeepsBase_reportsAct (n : Nat) : ActKeepsBase (reportsAct n) :=
  actKeepsBase_guarded fun _ => rfl

theorem actKeepsBase_setReportsAct (kind queued call urgent : Nat) :
    ActKeepsBase (setReportsAct kind queued call urgent) :=
  actKeepsBase_guarded fun _ => rfl

theorem actKeepsBase_callMaskAct (setting : Nat) : ActKeepsBase (callMaskAct setting) :=
  actKeepsBase_guarded fun _ => rfl

theorem actKeepsBase_stopMachineAct (machine : Nat) : ActKeepsBase (stopMachineAct machine) :=
  actKeepsBase_guarded fun _ => base_of_ground (ground_setCause ..)

theorem actKeepsBase_releaseAct (machine code : Nat) : ActKeepsBase (releaseAct machine code) := by
  refine actKeepsBase_guarded fun s => ?_
  split
  · exact base_of_ground (ground_releaseStop ..)
  · rfl

/-! ### Requests -/

theorem frameArrives_pending (c : Instr) (s : State) : (frameArrives c s).pending = s.pending := by
  unfold frameArrives
  split <;> rfl

theorem frameArrives_base (c : Instr) (s : State) : (frameArrives c s).base = s.base := by
  unfold frameArrives
  split <;> rfl

theorem request_pending {c : Instr} {tag kind : Byte} {b : Bool} {act : State → State × Answer}
    (ho : ∀ q fs s, act (State.outer q fs s) = ((act s).1.outer q fs, (act s).2)) (s : State) :
    (request c tag kind b act s).pending = s.pending :=
  request_keeps (P := fun x => x.pending = s.pending) (frameArrives_pending c s) rfl
    (fun x hx => (congrArg (fun r : State × Answer => r.1.pending)
      (ho x.pending x.link.frames x)).trans hx) (fun _ _ hx => hx)

theorem request_base {c : Instr} {tag kind : Byte} {b : Bool} {act : State → State × Answer}
    (hb : ActKeepsBase act) (s : State) : (request c tag kind b act s).base = s.base :=
  request_keeps (P := fun x => x.base = s.base) (frameArrives_base c s) rfl
    (fun x hx => (hb x).trans hx) (fun _ _ hx => hx)

theorem framed_request {d c : Instr} {tag kind : Byte} {b : Bool} {act : State → State × Answer}
    (ho : ∀ q fs s, act (State.outer q fs s) = ((act s).1.outer q fs, (act s).2))
    (hb : ActKeepsBase act) (s : State) : Framed d s (request c tag kind b act s) :=
  framed_of_base (request_pending ho s) (request_base hb s)

/-! ### Events -/

/-- What an event that moves the clock at most leaves of the base: the clock stands at the deadline or above it. -/
def MovesClock (s t : State) : Prop :=
  ∃ d, t.base = (s.reach d).base

theorem movesClock_refl (s : State) : MovesClock s s :=
  ⟨0, by simp [State.reach]⟩

theorem movesClock_reach {d : Nat} (h : t.ground = (s.reach d).ground) : MovesClock s t :=
  ⟨d, base_of_ground h⟩

theorem framed_of_movesClock {c : Instr} (hclock : mayMoveClock c = true)
    (hp : t.pending = s.pending) (h : MovesClock s t) : Framed c s t := by
  obtain ⟨d, hb⟩ := h
  obtain ⟨hinputs, -, hplant, hflash⟩ := base_eq_iff.mp hb
  exact ⟨hp, fun _ => hflash, fun _ => hinputs, fun h => absurd h (by simp [hclock]),
    fun _ => hplant⟩

theorem movesClock_motionEvent (p : Fin 8) (s : State) : MovesClock s (motionEvent p s) := by
  unfold motionEvent
  split
  · split
    · dsimp only
      split
      · exact movesClock_reach (ground_setJob ..)
      · exact movesClock_reach (ground_enterStill ..)
      · exact movesClock_reach (ground_enterFault ..)
    · exact movesClock_refl s
  · exact movesClock_refl s

theorem movesClock_detectorEvent (p : Fin 8) (s : State) : MovesClock s (detectorEvent p s) := by
  unfold detectorEvent
  split
  · split
    · exact movesClock_reach (ground_enterFault ..)
    · exact movesClock_refl s
  · exact movesClock_refl s

theorem movesClock_settleEvent (samples : Byte) (s : State) :
    MovesClock s (settleEvent samples s) := by
  unfold settleEvent
  split
  · dsimp only
    split
    · exact movesClock_reach (ground_setKnot ..)
    · exact movesClock_reach (ground_completeScan ..)
  · exact movesClock_refl s

theorem movesClock_cutTimerEvent (l : LineId) (s : State) : MovesClock s (cutTimerEvent l s) := by
  unfold cutTimerEvent
  split
  · exact movesClock_reach (ground_strokeFails ..)
  · exact movesClock_refl s

theorem movesClock_gapEvent (s : State) : MovesClock s (gapEvent s) := by
  unfold gapEvent
  split
  · exact movesClock_reach rfl
  · exact movesClock_refl s

theorem gapEvent_pending (s : State) : (gapEvent s).pending = s.pending := by
  unfold gapEvent
  split <;> rfl

/-! ### Events of the floor -/

/-- The plant record in force and the store's bytes, which no event of the floor touches. -/
def State.stored (s : State) :=
  (s.plant, s.flash)

theorem stored_of_base (h : t.base = s.base) : t.stored = s.stored := by
  obtain ⟨-, -, hplant, hflash⟩ := base_eq_iff.mp h
  rw [State.stored, hplant, hflash, State.stored]

theorem stored_of_ground (h : t.ground = s.ground) : t.stored = s.stored :=
  stored_of_base (base_of_ground h)

theorem framed_of_stored {c : Instr} (hinputs : mayMoveInputs c = true)
    (hclock : mayMoveClock c = true) (hp : t.pending = s.pending) (h : t.stored = s.stored) :
    Framed c s t := by
  obtain ⟨hplant, hflash⟩ := Prod.mk.inj h
  exact ⟨hp, fun _ => hflash, fun h => absurd h (by simp [hinputs]),
    fun h => absurd h (by simp [hclock]), fun _ => hplant⟩

theorem stored_handRunning (i : PulseInput) (s : State) : (handRunning i s).stored = s.stored :=
  stored_of_ground (ground_handRunning ..)

theorem stored_countPulse (i : PulseInput) (order : List RiseBlock) (s : State) :
    (countPulse i order s).stored = s.stored := by
  have hmoves : ∀ x : State, (pulseMoves i x).stored = x.stored := fun x => by
    unfold pulseMoves
    dsimp only
    split
    · rfl
    · exact (stored_handRunning ..).trans rfl
  unfold countPulse
  rw [hmoves, stored_of_base (base_handPulse ..)]
  rfl

theorem stored_pulseSettled (i : PulseInput) (order : List RiseBlock) (s : State) :
    (pulseSettled i order s).stored = s.stored := by
  unfold pulseSettled
  dsimp only
  split
  · split
    · exact (stored_countPulse ..).trans rfl
    · rfl
  · rfl

theorem stored_levelSettled (i : LevelInput) (s : State) :
    (levelSettled i s).stored = s.stored := by
  unfold levelSettled
  dsimp only
  split
  · exact (stored_of_ground (ground_handLevel ..)).trans rfl
  · rfl

theorem stored_stallEvent (i : PulseInput) (s : State) : (stallEvent i s).stored = s.stored := by
  unfold stallEvent
  dsimp only
  split
  · split
    · exact (stored_handRunning ..).trans rfl
    · rfl
  · rfl

theorem stored_intervalEvent (s : State) : (intervalEvent s).stored = s.stored :=
  (stored_of_base (base_setLen ..)).trans ((stored_of_base (base_setLen ..)).trans rfl)

/-! ### Store operations -/

/-- What a store operation keeps: all that a command keeps but the store's bytes. -/
structure Writes (s t : State) : Prop where
  pending : t.pending = s.pending
  inputs : t.inputs = s.inputs
  now : t.now = s.now
  plant : t.plant = s.plant

theorem writes_refl (s : State) : Writes s s := ⟨rfl, rfl, rfl, rfl⟩

theorem writes_written (m : Memory) (lg : LogState) (s : State) :
    Writes s { s with flash := m, log := lg } := ⟨rfl, rfl, rfl, rfl⟩

/-- An operation of the blocks that neither rests on nor changes what waits, after the bytes are written. -/
theorem writes_after {u : State} {f : State → State} (h : Writes s u)
    (ho : ∀ q fs s, f (State.outer q fs s) = (f s).outer q fs)
    (hb : (f u).base = u.base) : Writes s (f u) := by
  obtain ⟨hinputs, hnow, hplant, -⟩ := base_eq_iff.mp hb
  exact ⟨(pending_of_outer ho u).1.trans h.pending, hinputs.trans h.inputs, hnow.trans h.now,
    hplant.trans h.plant⟩

theorem framed_of_writes {c : Instr} (hstore : mayWriteStore c = true) (h : Writes s t) :
    Framed c s t :=
  ⟨h.pending, fun hno => absurd hno (by simp [hstore]), fun _ => h.inputs, fun _ => h.now,
    fun _ => h.plant⟩

theorem ground_tallyStepEnds (m : Fin 10) (ok : Bool) (s : State) :
    (tallyStepEnds m ok s).ground = s.ground := by
  unfold tallyStepEnds
  cases ok <;> simp

theorem ground_attemptEnds (l : LineId) (e : WriteEnd) (s : State) :
    (attemptEnds l e s).ground = s.ground := by
  cases e <;> simp [attemptEnds]

theorem base_voidCoil (number : Nat) (notCounted : Bool) (s : State) :
    (voidCoil number notCounted s).base = s.base := by
  unfold voidCoil
  split <;> rfl

theorem writes_endOp (h : Writes s t) : Writes s (endOp t) :=
  writes_after h (fun _ _ _ => outer_endOp ..) (base_of_ground (ground_endOp t))

theorem writes_reportEnd (ok : Bool) (area : Area) (number taken : Nat) (h : Writes s t) :
    Writes s (reportEnd ok area number taken t) :=
  writes_after h (fun _ _ _ => outer_reportEnd ..) (base_of_ground (ground_reportEnd ..))

theorem writes_requeueHeld (h : Writes s t) : Writes s (requeueHeld t) :=
  ⟨h.pending, h.inputs, h.now, h.plant⟩

theorem writes_coilWriteEvent (faults : List StepFault) (s : State) :
    Writes s (coilWriteEvent faults s) := by
  unfold coilWriteEvent
  split
  · split
    · simp only
      exact writes_after (writes_written ..) (fun _ _ _ => outer_attemptEnds ..)
        (base_of_ground (ground_attemptEnds ..))
    · exact writes_refl s
  · exact writes_refl s

theorem writes_tallyStepEvent (faults : List StepFault) (s : State) :
    Writes s (tallyStepEvent faults s) := by
  unfold tallyStepEvent
  split
  · simp only
    exact writes_after (writes_written _ s.log s) (fun _ _ _ => outer_tallyStepEnds ..)
      (base_of_ground (ground_tallyStepEnds ..))
  · exact writes_refl s

theorem writes_logTakeEvent (faults : List StepFault) (s : State) :
    Writes s (logTakeEvent faults s) := by
  unfold logTakeEvent
  split
  · simp only
    exact writes_endOp (writes_requeueHeld (writes_reportEnd _ _ _ _ (writes_written ..)))
  · exact writes_refl s

theorem writes_logVoidEvent (faults : List StepFault) (s : State) :
    Writes s (logVoidEvent faults s) := by
  unfold logVoidEvent
  split
  · split
    · exact writes_endOp (writes_after (writes_refl s) (fun _ _ _ => outer_reportFailed ..)
        (base_of_ground (ground_reportFailed ..)))
    · simp only
      apply writes_endOp
      apply writes_reportEnd
      split
      · exact writes_after (writes_written ..) (fun _ _ _ => outer_voidCoil ..)
          (base_voidCoil ..)
      · exact writes_written ..
  · exact writes_refl s

theorem writes_storeRecipeEvent (faults : List StepFault) (s : State) :
    Writes s (storeRecipeEvent faults s) := by
  unfold storeRecipeEvent
  split
  · exact writes_endOp (writes_reportEnd _ _ _ _ (writes_written _ s.log s))
  · exact writes_refl s

theorem writes_eraseRecipeEvent (faults : List StepFault) (s : State) :
    Writes s (eraseRecipeEvent faults s) := by
  unfold eraseRecipeEvent
  split
  · exact writes_endOp (writes_reportEnd _ _ _ _ (writes_written _ s.log s))
  · exact writes_refl s

theorem plantInForce_floor (plant : PlantRecord) (s : State) :
    (plantInForce plant s).inputs = s.inputs ∧ (plantInForce plant s).now = s.now := by
  have htake : ∀ (l : LineId) (x : State), (takePlant l x).base = x.base := fun l x => by
    unfold takePlant
    split
    · exact base_setLen ..
    · rfl
  have hready : ∀ x : State, (becomeReady x).base = x.base := fun x => by
    unfold becomeReady
    split <;> rfl
  have hb : (plantInForce plant s).base = ({ s with plant := some plant } : State).base := by
    unfold plantInForce
    rw [hready, htake, htake]
  obtain ⟨hinputs, hnow, -, -⟩ := base_eq_iff.mp hb
  exact ⟨hinputs, hnow⟩

theorem framed_storePlantEvent (faults : List StepFault) (s : State) :
    Framed (.storePlantOperation faults) s (storePlantEvent faults s) := by
  have hend : ∀ (ok : Bool) (x : State), x.pending = s.pending → x.inputs = s.inputs →
      x.now = s.now →
      Framed (.storePlantOperation faults) s (endOp (reportEnd ok .plant 0 0 x)) := by
    intro ok x hp hi hn
    have h := writes_endOp (writes_reportEnd ok .plant 0 0 (writes_refl x))
    exact ⟨h.pending.trans hp, nofun, fun _ => h.inputs.trans hi, fun _ => h.now.trans hn, nofun⟩
  unfold storePlantEvent
  split
  · simp only
    split
    · obtain ⟨hinputs, hnow⟩ := plantInForce_floor ..
      exact hend _ _ (pending_of_outer (fun _ _ _ => outer_plantInForce ..) _).1 hinputs hnow
    · exact hend _ _ rfl rfl rfl
  · exact framed_refl ..

/-! ### The Link Port and the start -/

theorem dropFrame_outside (s : State) :
    (dropFrame s).pending = s.pending ∧ (dropFrame s).base = s.base := ⟨rfl, rfl⟩

theorem byteEvent_outside (b : Byte) (stopBit : Bool) (s : State) :
    (byteEvent b stopBit s).pending = s.pending ∧ (byteEvent b stopBit s).base = s.base := by
  have hcomplete : ∀ (len : Nat) (body : List Byte) (check : Nat),
      (completeFrame len body check s).pending = s.pending ∧
        (completeFrame len body check s).base = s.base := fun len body check => by
    unfold completeFrame
    split
    · exact ⟨frameArrives_pending .., frameArrives_base ..⟩
    · exact ⟨rfl, rfl⟩
  unfold byteEvent takeByte
  split
  · split
    · split <;> exact ⟨rfl, rfl⟩
    · split <;> exact ⟨rfl, rfl⟩
    · split <;> exact ⟨rfl, rfl⟩
    · exact ⟨rfl, rfl⟩
    · exact hcomplete ..
  · split <;> exact ⟨rfl, rfl⟩

theorem sentEvent_outside (s : State) :
    (sentEvent s).pending = s.pending ∧ (sentEvent s).base = s.base := by
  unfold sentEvent
  split <;> exact ⟨rfl, rfl⟩

theorem framed_unknownEvent (tag kind : Byte) (rest : List Byte) (s : State) {c : Instr} :
    Framed c s (unknownEvent tag kind rest s) := by
  unfold unknownEvent
  dsimp only
  split
  · exact framed_request (fun _ _ _ => rfl) (actKeepsBase_read _) s
  · exact framed_of_base (frameArrives_pending ..) (frameArrives_base ..)

theorem queueReport_outside (kind : ReportKind) (machine : Option Nat) (body : List Byte)
    (s : State) :
    (queueReport kind machine body s).pending = s.pending ∧
      (queueReport kind machine body s).base = s.base := by
  rw [queueReport_only]
  exact ⟨rfl, rfl⟩

theorem enterStarted_outside (s : State) :
    (enterStarted s).pending = s.pending ∧ (enterStarted s).base = s.base :=
  foldl_keeps (P := fun x : State => x.pending = s.pending ∧ x.base = s.base)
    (fun x h hx => ⟨(queueReport_outside h.kind h.machine h.body x).1.trans hx.1,
      (queueReport_outside h.kind h.machine h.body x).2.trans hx.2⟩)
    s.link.held (queueReport_outside ..)

theorem framed_startEvent (s : State) : Framed .startSequenceEnd s (startEvent s) := by
  unfold startEvent
  split
  · obtain ⟨hp, hb⟩ := enterStarted_outside ((countTallies
      { s with plant := storedPlant s.flash, log := scanLog s.flash }).setLink
      { s.link with start := if (storedPlant s.flash).isSome then .ready else .unconfigured })
    obtain ⟨hinputs, hnow, -, hflash⟩ := base_eq_iff.mp hb
    exact ⟨hp, fun _ => hflash, fun _ => hinputs, fun _ => hnow, nofun⟩
  · exact framed_refl ..

theorem framed_restartEvent (br1 br0 : Bool) (s : State) :
    Framed (.restartReset br1 br0) s (restartEvent br1 br0 s) := by
  unfold restartEvent
  split
  · exact ⟨rfl, fun _ => rfl, nofun, nofun, nofun⟩
  · exact framed_refl ..

/-! ### Every command -/

/-- Every command answers a next state, which keeps what the command's kind may not touch. -/
theorem exec_framed (c : Instr) (s : State) : ∃ t, exec c s = .next t ∧ Framed c s t := by
  cases c with
  | powerOnReset br1 br0 steps faults => exact ⟨_, rfl, rfl, nofun, nofun, nofun, nofun⟩
  | startSequenceEnd => exact ⟨_, rfl, framed_startEvent s⟩
  | pulsePinChange i => exact ⟨_, rfl, rfl, fun _ => rfl, nofun, fun _ => rfl, fun _ => rfl⟩
  | pulseFilterSettled i order =>
    exact ⟨_, rfl, framed_of_stored rfl rfl (pending_of_outer (fun _ _ _ => outer_pulseSettled ..) s).1
      (stored_pulseSettled ..)⟩
  | levelPinChange i => exact ⟨_, rfl, rfl, fun _ => rfl, nofun, fun _ => rfl, fun _ => rfl⟩
  | levelFilterSettled i =>
    exact ⟨_, rfl, framed_of_stored rfl rfl
      (pending_of_outer (fun _ _ _ => outer_levelSettled ..) s).1 (stored_levelSettled ..)⟩
  | stallDeadline i =>
    exact ⟨_, rfl, framed_of_stored rfl rfl
      (pending_of_outer (fun _ _ _ => outer_stallEvent ..) s).1 (stored_stallEvent ..)⟩
  | intervalEnd =>
    exact ⟨_, rfl, framed_of_stored rfl rfl
      (pending_of_outer (fun _ _ _ => outer_intervalEvent ..) s).1 (stored_intervalEvent ..)⟩
  | motionTimerDeadline p =>
    exact ⟨_, rfl, framed_of_movesClock rfl
      (pending_of_outer (fun _ _ _ => outer_motionEvent ..) s).1 (movesClock_motionEvent ..)⟩
  | detectorTimerDeadline p =>
    exact ⟨_, rfl, framed_of_movesClock rfl
      (pending_of_outer (fun _ _ _ => outer_detectorEvent ..) s).1 (movesClock_detectorEvent ..)⟩
  | scanSettleElapsed samples =>
    exact ⟨_, rfl, framed_of_movesClock rfl
      (pending_of_outer (fun _ _ _ => outer_settleEvent ..) s).1 (movesClock_settleEvent ..)⟩
  | cutTimerDeadline l =>
    exact ⟨_, rfl, framed_of_movesClock rfl
      (pending_of_outer (fun _ _ _ => outer_cutTimerEvent ..) s).1 (movesClock_cutTimerEvent ..)⟩
  | coilWriteAttempt faults => exact ⟨_, rfl, framed_of_writes rfl (writes_coilWriteEvent ..)⟩
  | logTakeOperation faults => exact ⟨_, rfl, framed_of_writes rfl (writes_logTakeEvent ..)⟩
  | logVoidOperation faults => exact ⟨_, rfl, framed_of_writes rfl (writes_logVoidEvent ..)⟩
  | storeRecipeOperation faults => exact ⟨_, rfl, framed_of_writes rfl (writes_storeRecipeEvent ..)⟩
  | eraseRecipeOperation faults => exact ⟨_, rfl, framed_of_writes rfl (writes_eraseRecipeEvent ..)⟩
  | storePlantOperation faults => exact ⟨_, rfl, framed_storePlantEvent ..⟩
  | tallyStep faults => exact ⟨_, rfl, framed_of_writes rfl (writes_tallyStepEvent ..)⟩
  | byteReceived b stopBit =>
    have h := byteEvent_outside b stopBit s
    exact ⟨_, rfl, framed_of_base h.1 h.2⟩
  | gapTimeout => exact ⟨_, rfl, framed_of_movesClock rfl (gapEvent_pending s) (movesClock_gapEvent s)⟩
  | replySent =>
    have h := sentEvent_outside s
    exact ⟨_, rfl, framed_of_base h.1 h.2⟩
  | unknownRequest tag kind rest => exact ⟨_, rfl, framed_unknownEvent ..⟩
  | restartReset br1 br0 => exact ⟨_, rfl, framed_restartEvent ..⟩
  | status tag =>
    exact ⟨_, rfl, framed_request (fun q fs s => outer_statusAct q fs s) (actKeepsBase_read _) s⟩
  | restart tag =>
    exact ⟨_, rfl, framed_request (fun _ _ _ => rfl) (fun _ => rfl) s⟩
  | reports tag n =>
    exact ⟨_, rfl, framed_request (fun q fs s => outer_guarded q fs s rfl)
      (actKeepsBase_reportsAct n) s⟩
  | setReports tag kind queued call urgent =>
    exact ⟨_, rfl, framed_request (fun q fs s => outer_guarded q fs s rfl)
      (actKeepsBase_setReportsAct kind queued call urgent) s⟩
  | callMask tag setting =>
    exact ⟨_, rfl, framed_request (fun q fs s => outer_guarded q fs s rfl)
      (actKeepsBase_callMaskAct setting) s⟩
  | readPlant tag =>
    exact ⟨_, rfl, framed_request (fun q fs s => outer_readPlantAct q fs s)
      actKeepsBase_readPlantAct s⟩
  | storePlant tag plant =>
    exact ⟨_, rfl, framed_request (fun q fs s => outer_storePlantAct q fs s plant)
      (actKeepsBase_storePlantAct plant) s⟩
  | readRecipe tag slot =>
    exact ⟨_, rfl, framed_request (fun q fs s => outer_readRecipeAct q fs s slot)
      (actKeepsBase_readRecipeAct slot) s⟩
  | storeRecipe tag slot body =>
    exact ⟨_, rfl, framed_request (fun q fs s => outer_storeRecipeAct q fs s slot body)
      (actKeepsBase_storeRecipeAct slot body) s⟩
  | eraseRecipe tag slot =>
    exact ⟨_, rfl, framed_request (fun q fs s => outer_eraseRecipeAct q fs s slot)
      (actKeepsBase_eraseRecipeAct slot) s⟩
  | readTally tag tally =>
    exact ⟨_, rfl, framed_request (fun q fs s => outer_readTallyAct q fs s tally)
      (actKeepsBase_readTallyAct tally) s⟩
  | startPackage tag position package slot =>
    exact ⟨_, rfl, framed_request (fun q fs s => outer_startPackageAct q fs s position package slot)
      (actKeepsBase_startPackageAct position package slot) s⟩
  | resumePosition tag position =>
    exact ⟨_, rfl, framed_request (fun q fs s => outer_resumePositionAct q fs s position)
      (actKeepsBase_resumePositionAct position) s⟩
  | doffPackage tag position =>
    exact ⟨_, rfl, framed_request (fun q fs s => outer_doffPackageAct q fs s position)
      (actKeepsBase_doffPackageAct position) s⟩
  | positionStatus tag position =>
    exact ⟨_, rfl, framed_request (fun q fs s => outer_positionStatusAct q fs s position)
      (actKeepsBase_positionStatusAct position) s⟩
  | addPackage tag entry =>
    exact ⟨_, rfl, framed_request (fun q fs s => outer_addPackageAct q fs s entry)
      (actKeepsBase_addPackageAct entry) s⟩
  | readPackage tag package =>
    exact ⟨_, rfl, framed_request (fun q fs s => outer_readPackageAct q fs s package)
      (actKeepsBase_readPackageAct package) s⟩
  | removePackage tag package =>
    exact ⟨_, rfl, framed_request (fun q fs s => outer_removePackageAct q fs s package)
      (actKeepsBase_removePackageAct package) s⟩
  | placePackage tag package place =>
    exact ⟨_, rfl, framed_request (fun q fs s => outer_placePackageAct q fs s package place)
      (actKeepsBase_placePackageAct package place) s⟩
  | unplacePackage tag package =>
    exact ⟨_, rfl, framed_request (fun q fs s => outer_unplacePackageAct q fs s package)
      (actKeepsBase_unplacePackageAct package) s⟩
  | spliceFeed tag place =>
    exact ⟨_, rfl, framed_request (fun q fs s => outer_spliceFeedAct q fs s place)
      (actKeepsBase_spliceFeedAct place) s⟩
  | creelStatus tag =>
    exact ⟨_, rfl, framed_request (fun q fs s => outer_creelStatusAct q fs s)
      (actKeepsBase_read _) s⟩
  | loadLineRecipe tag machine slot =>
    exact ⟨_, rfl, framed_request (fun q fs s => outer_loadLineRecipeAct q fs s machine slot)
      (actKeepsBase_loadLineRecipeAct machine slot) s⟩
  | setPosition tag machine value =>
    exact ⟨_, rfl, framed_request (fun q fs s => outer_setPositionAct q fs s machine value)
      (actKeepsBase_setPositionAct machine value) s⟩
  | lineStatus tag machine =>
    exact ⟨_, rfl, framed_request (fun q fs s => outer_lineStatusAct q fs s machine)
      (actKeepsBase_lineStatusAct machine) s⟩
  | stopMachine tag machine =>
    exact ⟨_, rfl, framed_request (fun q fs s => outer_stopMachineAct q fs s machine)
      (actKeepsBase_stopMachineAct machine) s⟩
  | release tag machine cause =>
    exact ⟨_, rfl, framed_request (fun q fs s => outer_releaseAct q fs s machine cause)
      (actKeepsBase_releaseAct machine cause) s⟩
  | setWatch tag machine position =>
    exact ⟨_, rfl, framed_request (fun q fs s => outer_setWatchAct q fs s machine position)
      (actKeepsBase_setWatchAct machine position) s⟩
  | clearWatch tag machine watch =>
    exact ⟨_, rfl, framed_request (fun q fs s => outer_clearWatchAct q fs s machine watch)
      (actKeepsBase_clearWatchAct machine watch) s⟩
  | readMarks tag machine start skip count =>
    exact ⟨_, rfl, framed_request (fun q fs s => outer_readMarksAct q fs s machine start skip count)
      (actKeepsBase_readMarksAct machine start skip count) s⟩
  | addMark tag machine position span =>
    exact ⟨_, rfl, framed_request (fun q fs s => outer_addMarkAct q fs s machine position span)
      (actKeepsBase_addMarkAct machine position span) s⟩
  | knotStatus tag =>
    exact ⟨_, rfl, framed_request (fun q fs s => outer_knotStatusAct q fs s)
      (actKeepsBase_read _) s⟩
  | readRows tag back count =>
    exact ⟨_, rfl, framed_request (fun q fs s => outer_readRowsAct q fs s back count)
      (actKeepsBase_readRowsAct back count) s⟩
  | addOrder tag order =>
    exact ⟨_, rfl, framed_request (fun q fs s => outer_addOrderAct q fs s order)
      (actKeepsBase_addOrderAct order) s⟩
  | cancelOrder tag order =>
    exact ⟨_, rfl, framed_request (fun q fs s => outer_cancelOrderAct q fs s order)
      (actKeepsBase_cancelOrderAct order) s⟩
  | readOrders tag skip count =>
    exact ⟨_, rfl, framed_request (fun q fs s => outer_readOrdersAct q fs s skip count)
      (actKeepsBase_readOrdersAct skip count) s⟩
  | endCoil tag machine =>
    exact ⟨_, rfl, framed_request (fun q fs s => outer_endCoilAct q fs s machine)
      (actKeepsBase_endCoilAct machine) s⟩
  | cutManual tag machine =>
    exact ⟨_, rfl, framed_request (fun q fs s => outer_cutManualAct q fs s machine)
      (actKeepsBase_cutManualAct machine) s⟩
  | packStatus tag machine =>
    exact ⟨_, rfl, framed_request (fun q fs s => outer_packStatusAct q fs s machine)
      (actKeepsBase_packStatusAct machine) s⟩
  | logRead tag first count =>
    exact ⟨_, rfl, framed_request (fun q fs s => outer_logReadAct q fs s first count)
      (actKeepsBase_logReadAct first count) s⟩
  | logTake tag upTo =>
    exact ⟨_, rfl, framed_request (fun q fs s => outer_logTakeAct q fs s upTo)
      (actKeepsBase_logTakeAct upTo) s⟩
  | logVoid tag coil =>
    exact ⟨_, rfl, framed_request (fun q fs s => outer_logVoidAct q fs s coil)
      (actKeepsBase_logVoidAct coil) s⟩

end Sys2Proof.Machine
end

section
/-! SUPPORT. Events without occasion: each changes nothing where its timer is stopped or its part is not under way. -/

namespace Sys2Proof.Machine

variable {s : State}

theorem motionEvent_of_idle {p : Fin 8}
    (h : ∀ j, s.job p = some j → j.phase ≠ .run ∨ j.motion = none) : motionEvent p s = s := by
  unfold motionEvent
  split
  · next j hj =>
    split
    · next hrun hmotion => exact absurd (h j hj) (by simp [hrun, hmotion])
    · rfl
  · rfl

theorem detectorEvent_of_idle {p : Fin 8}
    (h : ∀ j, s.job p = some j → j.phase ≠ .run ∨ j.detector = none) :
    detectorEvent p s = s := by
  unfold detectorEvent
  split
  · next j hj =>
    split
    · next hrun hdetector => exact absurd (h j hj) (by simp [hrun, hdetector])
    · rfl
  · rfl

theorem cutTimerEvent_of_idle {l : LineId}
    (h : (s.pack l).state ≠ .cutting ∨ (s.pack l).timer = none) : cutTimerEvent l s = s := by
  unfold cutTimerEvent
  split
  · next hcutting htimer => exact absurd h (by simp [hcutting, htimer])
  · rfl

theorem coilWriteEvent_of_other {faults : List StepFault}
    (h : ∀ l, s.runningOp = some (.coilWrite l) → (s.pack l).record = none) :
    coilWriteEvent faults s = s := by
  unfold coilWriteEvent
  split
  · next l hop =>
    rw [h l hop]
  · rfl

theorem logTakeEvent_of_other {faults : List StepFault}
    (h : ∀ n, s.runningOp ≠ some (.logTake n)) : logTakeEvent faults s = s := by
  unfold logTakeEvent
  split
  · next n hop => exact absurd hop (h n)
  · rfl

theorem logVoidEvent_of_other {faults : List StepFault}
    (h : ∀ n, s.runningOp ≠ some (.logVoid n)) : logVoidEvent faults s = s := by
  unfold logVoidEvent
  split
  · next n hop => exact absurd hop (h n)
  · rfl

theorem storeRecipeEvent_of_other {faults : List StepFault}
    (h : ∀ slot body, s.runningOp ≠ some (.storeRecipe slot body)) :
    storeRecipeEvent faults s = s := by
  unfold storeRecipeEvent
  split
  · next slot body hop => exact absurd hop (h slot body)
  · rfl

theorem eraseRecipeEvent_of_other {faults : List StepFault}
    (h : ∀ slot, s.runningOp ≠ some (.eraseRecipe slot)) : eraseRecipeEvent faults s = s := by
  unfold eraseRecipeEvent
  split
  · next slot hop => exact absurd hop (h slot)
  · rfl

theorem storePlantEvent_of_other {faults : List StepFault}
    (h : ∀ plant, s.runningOp ≠ some (.storePlant plant)) : storePlantEvent faults s = s := by
  unfold storePlantEvent
  split
  · next plant hop => exact absurd hop (h plant)
  · rfl

theorem tallyStepEvent_of_other {faults : List StepFault}
    (h : ∀ m, s.runningOp ≠ some (.tallyStep m)) : tallyStepEvent faults s = s := by
  unfold tallyStepEvent
  split
  · next m hop => exact absurd hop (h m)
  · rfl

theorem sentEvent_of_unanswered (h : ∀ f, s.link.frames.head? = some f → f.reply = none) :
    sentEvent s = s := by
  unfold sentEvent
  split
  · next hf => 
    rw [hf] at h
    exact absurd (h _ rfl) nofun
  · rfl

end Sys2Proof.Machine
end

section
/-! The obligations on the queue of commands, on the invariant and on the frame of every command. -/

namespace Sys2Proof.Machine

/-- Settles O1: the first clause of a step is the queue's. -/
theorem stepRunsFrontCommand : Obligations.StepRunsFrontCommand :=
  fun _ _ _ => rfl

/-- Settles O5: time that passes touches nothing that the invariant speaks of, and a command keeps it. -/
theorem stepKeepsInvariant : Obligations.StepKeepsInvariant := by
  intro s t hinv hstep
  unfold step at hstep
  split at hstep
  · cases hstep
    exact inv_tick hinv
  · exact exec_keeps_inv (inv_pending _ hinv) hstep

/-- Settles O6: the state after reset is a part reset, its store erased. -/
theorem invariantAtReset : Obligations.InvariantAtReset :=
  inv_inputs Inputs.reset (inv_resetPart .powerOn false false [] (s := State.reset) rfl rfl)

/-- Settles O3: every command answers a next state, framed. -/
theorem everyCommandCompletes : Obligations.EveryCommandCompletes := by
  intro c s
  obtain ⟨t, ht, hframe⟩ := exec_framed c s
  exact ⟨t, ht, hframe.pending⟩

/-- Settles O4: the frame of every command, by its kind. -/
theorem commandsKeepTheirFrame : Obligations.CommandsKeepTheirFrame := by
  intro c s t he
  obtain ⟨u, hu, hframe⟩ := exec_framed c s
  cases he.symm.trans hu
  exact ⟨hframe.flash, hframe.inputs, hframe.now, hframe.plant⟩

/-- Settles O2: each event finds its timer stopped or its part not under way, and leaves the state. -/
theorem nothingHappensWithoutOccasion : Obligations.NothingHappensWithoutOccasion := by
  refine ⟨?_, ?_, ?_, ?_, ?_, ?_, ?_, ?_, ?_, ?_, ?_, ?_, ?_, ?_, ?_⟩
  · intro s h
    unfold step
    split
    · rfl
    · next hp => cases h.symm.trans hp
  · intro i order s h
    simp [exec, execPulseFilterSettled, pulseSettled, h]
  · intro i s h
    simp [exec, execLevelFilterSettled, levelSettled, h]
  · intro i s h
    simp [exec, execStallDeadline, stallEvent, h]
  · intro p s h
    exact ⟨congrArg _ (motionEvent_of_idle (by simp [h])),
      congrArg _ (detectorEvent_of_idle (by simp [h]))⟩
  · intro l s h
    exact congrArg _ (cutTimerEvent_of_idle (.inr h))
  · intro p s j h
    exact ⟨fun hno => congrArg _ (motionEvent_of_idle (by simpa [h] using hno)),
      fun hno => congrArg _ (detectorEvent_of_idle (by simpa [h] using hno))⟩
  · intro l s h
    exact congrArg _ (cutTimerEvent_of_idle (.inl h))
  · intro faults s op hop
    refine ⟨fun h => congrArg _ (coilWriteEvent_of_other ?_),
      fun h => congrArg _ (logTakeEvent_of_other ?_),
      fun h => congrArg _ (logVoidEvent_of_other ?_),
      fun h => congrArg _ (storeRecipeEvent_of_other ?_),
      fun h => congrArg _ (eraseRecipeEvent_of_other ?_),
      fun h => congrArg _ (storePlantEvent_of_other ?_),
      fun h => congrArg _ (tallyStepEvent_of_other ?_)⟩ <;> simpa [hop] using h
  · intro samples s h
    simp [exec, execScanSettleElapsed, settleEvent, h]
  · intro s h
    simp [exec, execGapTimeout, gapEvent, h]
  · intro s h
    exact congrArg _ (sentEvent_of_unanswered h)
  · intro s h
    simp [exec, execStartSequenceEnd, startEvent, h]
  · intro br1 br0 s h
    simp [exec, execRestartReset, restartEvent, h]
  · intro faults s h
    exact ⟨congrArg _ (coilWriteEvent_of_other (by simp [h])),
      congrArg _ (logTakeEvent_of_other (by simp [h])),
      congrArg _ (logVoidEvent_of_other (by simp [h])),
      congrArg _ (storeRecipeEvent_of_other (by simp [h])),
      congrArg _ (eraseRecipeEvent_of_other (by simp [h])),
      congrArg _ (storePlantEvent_of_other (by simp [h])),
      congrArg _ (tallyStepEvent_of_other (by simp [h]))⟩

end Sys2Proof.Machine
end

section
/-! SUPPORT. The body of a request spells the request. -/

namespace Sys2Proof

theorem commandOfBody_of_read {tag kind : Byte} {rest : List Byte} {c : Instr}
    (h : readRequest tag kind rest = some c) : commandOfBody (tag :: kind :: rest) = c := by
  show (readRequest tag kind rest).getD _ = c
  rw [h, Option.getD_some]

theorem readRequest_storePlant {tag : Byte} {plant : PlantRecord}
    (h : fieldsFit plant.fields = true) :
    readRequest tag 0x11 plant.bytes = some (.storePlant tag plant) := by
  obtain ⟨v, hv, hplant⟩ := Option.map_eq_some_iff.mp (readFields_plant plant h)
  show withFields _ plant.bytes (fun v => some (.storePlant tag (PlantRecord.ofValues v))) = _
  rw [withFields, hv, Option.bind_some, hplant]

theorem readRequest_storeRecipe {tag : Byte} {slot : Nat} {body : RecipeBody}
    (hslot : fits 1 slot = true) (h : body.fits = true) :
    readRequest tag 0x13 (be 1 slot ++ body.bytes) = some (.storeRecipe tag slot body) := by
  have hcode := fits_code body h
  rw [RecipeBody.bytes, be_one hslot, be_one hcode]
  show (readRecipeBody (BitVec.ofNat 8 body.code).toNat body.fieldBytes).map
    (Instr.storeRecipe tag (BitVec.ofNat 8 slot).toNat) = _
  rw [toNat_byte hcode, toNat_byte hslot, readRecipeBody_fieldBytes body h, Option.map_some]

theorem readRequest_addPackage {tag : Byte} {e : PackageEntry} (h : e.fits = true) :
    readRequest tag 0x30 e.bytes = some (.addPackage tag e) := by
  show (readPackageEntry e.bytes).map (Instr.addPackage tag) = _
  rw [readPackageEntry_bytes e h, Option.map_some]

theorem readRequest_addOrder {tag : Byte} {e : OrderEntry} (h : e.fits = true) :
    readRequest tag 0x60 e.bytes = some (.addOrder tag e) := by
  simp only [OrderEntry.fits, Bool.and_eq_true] at h
  simp [readRequest, withFields, OrderEntry.bytes, readFields_append, readFields_last, h]

/-- What `requestBody` writes, `commandOfBody` reads back: the fields have the sizes that the kind code calls for. -/
theorem commandOfBody_requestBody (c : Instr) {body : List Byte} (hfit : operandsFit c = true)
    (hb : requestBody c = some body) : commandOfBody body = c := by
  cases c
  case unknownRequest tag kind rest =>
    cases hb
    have hnone : readRequest tag kind rest = none := Option.isNone_iff_eq_none.mp hfit
    show (readRequest tag kind rest).getD _ = _
    rw [hnone, Option.getD_none]
    rfl
  case storePlant => cases hb; exact commandOfBody_of_read (readRequest_storePlant hfit)
  case storeRecipe =>
    cases hb
    obtain ⟨hslot, hbody⟩ := Bool.and_eq_true_iff.mp hfit
    exact commandOfBody_of_read (readRequest_storeRecipe hslot hbody)
  case addPackage => cases hb; exact commandOfBody_of_read (readRequest_addPackage hfit)
  case addOrder => cases hb; exact commandOfBody_of_read (readRequest_addOrder hfit)
  case status | restart | readPlant | creelStatus | knotStatus => cases hb; rfl
  all_goals
    -- a command that no frame carries has no body; the others have fields of fixed sizes
    cases hb
  all_goals
    simp only [operandsFit, Bool.and_eq_true] at hfit
    apply commandOfBody_of_read
    simp [readRequest, withFields, readFields_append, readFields_last, hfit]

end Sys2Proof
end

section
/-! SUPPORT. The receiver: what the bytes of a frame do from HUNT (R181, R182). -/

namespace Sys2Proof.Machine

variable {s : State}

/-! ### The check word -/

theorem crcShift_lt (c : Nat) : crcShift c < 65536 := by
  unfold crcShift
  split <;> exact Nat.lt_of_le_of_lt Nat.and_le_right (by decide)

theorem crcByte_lt (c : Nat) (b : Byte) : crcByte c b < 65536 :=
  crcShift_lt _

theorem crc16_lt (bytes : List Byte) : crc16 bytes < 65536 :=
  foldl_keeps (P := fun c : Nat => c < 65536) (fun _ _ _ => crcByte_lt ..) bytes (by decide)

theorem crc16_bytes (bytes : List Byte) :
    ∃ first second : Byte, be 2 (crc16 bytes) = [first, second] ∧
      unbe [first, second] = crc16 bytes := by
  obtain ⟨first, second, h⟩ := List.length_eq_two.mp (be_length 2 (crc16 bytes))
  have hfits : fits 2 (crc16 bytes) = true := decide_eq_true (crc16_lt bytes)
  exact ⟨first, second, h, by rw [← h, unbe_be hfits]⟩

/-! ### One byte (R181) -/

/-- The state with its partial frame dropped and counted. -/
theorem dropFrame_eq (s : State) :
    dropFrame s = { s with
      link := { s.link with
        receive := .hunt, gap := none, badFrames := min (s.link.badFrames + 1) 65535 } } := rfl

theorem takeByte_hunt (b : Byte) (h : s.link.receive = .hunt) :
    takeByte b s = if b = 0x5A then receiving .length s else s := by
  unfold takeByte
  rw [h]

theorem takeByte_length (b : Byte) (h : s.link.receive = .length) :
    takeByte b s = if 3 ≤ b.toNat ∧ b.toNat ≤ 250 then receiving (.body b.toNat b.toNat []) s
      else dropFrame s := by
  unfold takeByte
  rw [h]

theorem takeByte_body (b : Byte) {len due : Nat} {kept : List Byte}
    (h : s.link.receive = .body len due kept) :
    takeByte b s = if due ≤ 1 then receiving (.check len (kept ++ [b]) none) s
      else receiving (.body len (due - 1) (kept ++ [b])) s := by
  unfold takeByte
  rw [h]

theorem takeByte_check (b : Byte) {len : Nat} {body : List Byte}
    (h : s.link.receive = .check len body none) :
    takeByte b s = receiving (.check len body (some b)) s := by
  unfold takeByte
  rw [h]

theorem takeByte_last (b : Byte) {len : Nat} {body : List Byte} {first : Byte}
    (h : s.link.receive = .check len body (some first)) :
    takeByte b s = if crc16 (be 1 len ++ body) = unbe [first, b]
      then frameArrives (commandOfBody body) (hunting s) else dropFrame s := by
  unfold takeByte
  rw [h]
  rfl

theorem frameArrives_of_full {c : Instr} (h : frameCapacity ≤ s.link.frames.length) :
    frameArrives c s
      = { s with link := { s.link with overruns := min (s.link.overruns + 1) 65535 } } :=
  if_neg (Nat.not_lt.mpr h)

/-- Receiving is told by the receive state and the time of the byte alone. -/
theorem receiving_receiving (r r' : Receive) (s : State) :
    receiving r (receiving r' s) = receiving r s := rfl

/-! ### The bytes of a frame -/

/-- Bytes received one after another. -/
def takeBytes (bytes : List Byte) (s : State) : State :=
  bytes.foldl (fun x b => takeByte b x) s

theorem takeBytes_nil (s : State) : takeBytes [] s = s := rfl

theorem takeBytes_cons (b : Byte) (rest : List Byte) (s : State) :
    takeBytes (b :: rest) s = takeBytes rest (takeByte b s) := rfl

theorem afterAll_received (bytes : List Byte) (s : State) :
    afterAll (bytes.map fun b => .byteReceived b true) s = some (takeBytes bytes s) := by
  induction bytes generalizing s with
  | nil => rfl
  | cons b rest ih => exact ih (takeByte b s)

theorem takeBytes_append (a b : List Byte) (s : State) :
    takeBytes (a ++ b) s = takeBytes b (takeBytes a s) :=
  List.foldl_append

/-- The body bytes that are due leave the receiver at the check word. -/
theorem takeBytes_body (bytes kept : List Byte) (len : Nat) (s : State) (h : bytes ≠ []) :
    takeBytes bytes (receiving (.body len bytes.length kept) s)
      = receiving (.check len (kept ++ bytes) none) s := by
  induction bytes generalizing kept with
  | nil => exact absurd rfl h
  | cons b rest ih =>
    have hfirst := takeByte_body (s := receiving (.body len (b :: rest).length kept) s) b rfl
    rw [takeBytes_cons, hfirst]
    cases rest with
    | nil => rfl
    | cons c rest =>
      rw [if_neg (by simp), receiving_receiving]
      have hrest := ih (kept ++ [b]) (by simp)
      simpa using hrest

theorem takeBytes_frame {body : List Byte} (hlow : 3 ≤ body.length) (hhigh : body.length ≤ 250)
    (hhunt : s.link.receive = .hunt) :
    takeBytes (frameBytes body) s = frameArrives (commandOfBody body) (hunting s) := by
  have hfits : fits 1 body.length = true := decide_eq_true (by omega)
  obtain ⟨first, second, hbytes, hcheck⟩ := crc16_bytes (be 1 body.length ++ body)
  have hstart : takeBytes [0x5A] s = receiving .length s := by
    rw [takeBytes_cons, takeBytes_nil, takeByte_hunt _ hhunt, if_pos rfl]
  have hlength : takeBytes (be 1 body.length) (receiving .length s)
      = receiving (.body body.length body.length []) s := by
    rw [be_one hfits, takeBytes_cons, takeBytes_nil, takeByte_length _ rfl, toNat_byte hfits, if_pos ⟨hlow, hhigh⟩, receiving_receiving]
  have hbody := takeBytes_body body [] body.length s (by rintro rfl; cases hlow)
  have hword : takeBytes [first, second] (receiving (.check body.length body none) s)
      = frameArrives (commandOfBody body) (hunting s) := by
    rw [takeBytes_cons, takeBytes_cons, takeBytes_nil, takeByte_check first rfl,
      receiving_receiving, takeByte_last second rfl, if_pos hcheck.symm]
    rfl
  unfold frameBytes
  rw [takeBytes_append, takeBytes_append, takeBytes_append, hstart, hlength, hbody, hbytes]
  exact hword

end Sys2Proof.Machine
end

section
/-! The obligations on request bodies and frames (R181, R182, R194 to R196). -/

namespace Sys2Proof.Machine

/-- Settles O7: the body of each request spells it. -/
theorem requestBodiesReadBack : Obligations.RequestBodiesReadBack := by
  intro c body hwf hb
  exact commandOfBody_requestBody c (Bool.and_eq_true_iff.mp hwf).1 hb

/-- Settles O8: the bytes of the frame, phase by phase, and the body read back. -/
theorem frameBringsRequest : Obligations.FrameBringsRequest := by
  intro c body s hwf hb hhunt hroom
  obtain ⟨hfit, hlen⟩ := Bool.and_eq_true_iff.mp hwf
  simp only [bodyFits, hb, Bool.and_eq_true, decide_eq_true_eq] at hlen
  rw [afterAll_received, takeBytes_frame hlen.1 hlen.2 hhunt, commandOfBody_requestBody c hfit hb,
    frameArrives_of_room (s := hunting s) hroom]
  rfl

/-- Settles O9: each state of the receiver has its own answer to a byte. -/
theorem receiverTakesBytes : Obligations.ReceiverTakesBytes := by
  intro s b within dropped
  refine ⟨fun h hb => ?_, fun h hb => ?_, fun h hlow hhigh => ?_, fun h hout => ?_,
    fun len due kept h hdue => ?_, fun len due kept h hdue => ?_, fun len body h => ?_,
    fun len body first h hbad => ?_, fun len body first h hgood hroom => ?_,
    fun len body first h hgood hfull => ?_⟩ <;> refine congrArg Host.Outcome.next ?_
  · exact (takeByte_hunt b h).trans (if_neg hb)
  · exact (takeByte_hunt b h).trans (if_pos hb)
  · exact (takeByte_length b h).trans (if_pos ⟨hlow, hhigh⟩)
  · exact (takeByte_length b h).trans (if_neg hout)
  · exact (takeByte_body b h).trans (if_neg (Nat.not_le.mpr hdue))
  · exact (takeByte_body b h).trans (if_pos hdue)
  · exact takeByte_check b h
  · exact (takeByte_last b h).trans (if_neg hbad)
  · exact (takeByte_last b h).trans
      ((if_pos hgood).trans (frameArrives_of_room (s := hunting s) hroom))
  · exact (takeByte_last b h).trans
      ((if_pos hgood).trans (frameArrives_of_full (s := hunting s) hfull))

/-- Settles O10: a stop bit low and the gap timer drop the partial frame, a reply sent takes its frame from the head. -/
theorem framesAreDroppedOrAnswered : Obligations.FramesAreDroppedOrAnswered := by
  refine ⟨fun s b h => ?_, fun s b h => ?_, fun s d h => ?_, fun s c r rest h => ?_⟩ <;>
    refine congrArg Host.Outcome.next ?_
  · simp [byteEvent, h]
  · simp [byteEvent, h, dropFrame_eq]
  · simp [gapEvent, h, dropFrame_eq, State.reach]
  · simp [sentEvent, h, State.setLink]

end Sys2Proof.Machine
end

section
/-! SUPPORT. What every request of the serial line is: one operation, `request`, with an act that rests on neither queue
and changes nothing where it refuses (R182, R183). -/

namespace Sys2Proof.Machine

variable {s : State}

/-! ### A refusal changes nothing -/

/-- An act that answers anything but DONE leaves the state as it was. -/
def ActRefuses (act : State → State × Answer) : Prop :=
  ∀ s, (∀ fields, (act s).2 ≠ .done fields) → (act s).1 = s

theorem actRefuses_done (f : State → State) (fields : State → List Byte) :
    ActRefuses fun s => (f s, .done (fields s)) :=
  fun _ h => absurd rfl (h _)

theorem actRefuses_guarded {cs : State → List Check} {act : State → State × Answer}
    (h : ActRefuses act) : ActRefuses fun s => guarded (cs s) act s := by
  intro s
  dsimp only
  cases hc : firstRefusal (cs s) with
  | some a => rw [guarded_of_failed hc]; exact fun _ => rfl
  | none => rw [guarded_of_passed hc]; exact h s

theorem actRefuses_onLine {machine : Nat} {act : LineId → State → State × Answer}
    (h : ∀ l, ActRefuses (act l)) : ActRefuses fun s => onLine machine act s := by
  intro s
  dsimp only
  unfold onLine
  split
  · exact h _ s
  · exact fun _ => rfl

/-- An act that is one operation and its reply fields, its checks passed. -/
theorem actRefuses_checked (cs : State → List Check) (f : State → State)
    (fields : State → List Byte) :
    ActRefuses fun s => guarded (cs s) (fun s => (f s, .done (fields s))) s :=
  actRefuses_guarded (actRefuses_done f fields)

/-- The same of a line named, with checks of its own. -/
theorem actRefuses_checkedLine {machine : Nat} (cs : State → List Check)
    (ds : LineId → State → List Check) (f : LineId → State → State)
    (fields : LineId → State → List Byte) :
    ActRefuses fun s => guarded (cs s) (onLine machine fun l s =>
      guarded (ds l s) (fun s => (f l s, .done (fields l s))) s) s :=
  actRefuses_guarded <| actRefuses_onLine fun _ => actRefuses_checked _ _ _

/-- The same of a line named, with no check of its own. -/
theorem actRefuses_line {machine : Nat} (cs : State → List Check) (f : LineId → State → State)
    (fields : LineId → State → List Byte) :
    ActRefuses fun s =>
      guarded (cs s) (onLine machine fun l s => (f l s, .done (fields l s))) s :=
  actRefuses_guarded <| actRefuses_onLine fun _ => actRefuses_done _ _

theorem actRefuses_setWatchAct (machine position : Nat) :
    ActRefuses (setWatchAct machine position) := by
  refine actRefuses_guarded <| actRefuses_onLine fun l => actRefuses_guarded fun s => ?_
  split
  · exact fun h => absurd rfl (h _)
  · exact fun _ => rfl

theorem actRefuses_cancelOrderAct (number : Nat) : ActRefuses (cancelOrderAct number) := by
  refine actRefuses_guarded fun s => ?_
  split
  · exact fun h => absurd rfl (h _)
  · exact fun _ => rfl

theorem actRefuses_readPackageAct (number : Nat) : ActRefuses (readPackageAct number) := by
  refine actRefuses_guarded fun s => ?_
  split <;> exact fun _ => rfl

theorem actRefuses_unplacePackageAct (number : Nat) :
    ActRefuses (unplacePackageAct number) := by
  refine actRefuses_guarded fun s => ?_
  split
  · split
    · exact fun h => absurd rfl (h _)
    · split
      · exact fun _ => rfl
      · exact fun h => absurd rfl (h _)
    · exact fun _ => rfl
  · exact fun _ => rfl

theorem actRefuses_spliceFeedAct (place : Nat) : ActRefuses (spliceFeedAct place) := by
  refine actRefuses_guarded fun s => ?_
  split
  · exact fun h => absurd rfl (h _)
  · exact fun _ => rfl

theorem actRefuses_startPackageAct (position number slot : Nat) :
    ActRefuses (startPackageAct position number slot) := by
  refine actRefuses_guarded fun s => ?_
  split
  · exact fun h => absurd rfl (h _)
  · exact fun _ => rfl

theorem actRefuses_resumePositionAct (position : Nat) :
    ActRefuses (resumePositionAct position) := by
  refine actRefuses_guarded fun s => ?_
  split
  · split
    · exact fun h => absurd rfl (h _)
    · exact fun h => absurd rfl (h _)
    · exact fun _ => rfl
  · exact fun _ => rfl

theorem actRefuses_doffPackageAct (position : Nat) : ActRefuses (doffPackageAct position) := by
  refine actRefuses_guarded fun s => ?_
  split
  · split
    · exact fun _ => rfl
    · exact fun h => absurd rfl (h _)
  · exact fun _ => rfl

theorem actRefuses_loadLineRecipeAct (machine slot : Nat) :
    ActRefuses (loadLineRecipeAct machine slot) := by
  refine actRefuses_guarded <| actRefuses_onLine fun l => actRefuses_guarded fun s => ?_
  split
  · exact actRefuses_checked (fun s => [(fitsGrid _ s, .state .plantMismatch)]) _ _ s
  · exact fun _ => rfl

theorem actRefuses_releaseAct (machine code : Nat) : ActRefuses (releaseAct machine code) := by
  refine actRefuses_guarded fun s => ?_
  split
  · exact fun h => absurd rfl (h _)
  · exact fun _ => rfl

/-! ### Every request -/

/-- What makes a command a request: its body, its act, and that only STATUS and UNKNOWN_REQUEST are served while the
part is STARTING. -/
structure Serves (c : Instr) (tag kind : Byte) (rest : List Byte) (inStarting : Bool)
    (act : State → State × Answer) : Prop where
  body : requestBody c = some (tag :: kind :: rest)
  exec : ∀ s, exec c s = .next (request c tag kind inStarting act s)
  outer : ∀ q fs s, act (State.outer q fs s) = ((act s).1.outer q fs, (act s).2)
  refuses : ActRefuses act
  starting : inStarting = true → kind = 0x01 ∨ ∃ t k r, c = .unknownRequest t k r

/-- A request that is answered STATE (STARTING) until the start has ended. -/
theorem serves_after_start {c : Instr} {tag kind : Byte} {rest : List Byte}
    {act : State → State × Answer} (hbody : requestBody c = some (tag :: kind :: rest))
    (hexec : ∀ s, exec c s = .next (request c tag kind false act s))
    (ho : ∀ q fs s, act (State.outer q fs s) = ((act s).1.outer q fs, (act s).2))
    (hr : ActRefuses act) :
    ∃ tag kind rest inStarting act, Serves c tag kind rest inStarting act :=
  ⟨_, _, _, _, _, hbody, hexec, ho, hr, nofun⟩

theorem unknownEvent_of_none {tag kind : Byte} {rest : List Byte}
    (h : readRequest tag kind rest = none) :
    unknownEvent tag kind rest s
      = request (.unknownRequest tag kind rest) tag kind true (fun s => (s, .unknown)) s := by
  have hc : requestOf tag kind rest = .unknownRequest tag kind rest := by
    rw [requestOf, h, Option.getD_none]
  unfold unknownEvent
  simp only [hc, if_true]

theorem serves_unknownRequest {tag kind : Byte} {rest : List Byte}
    (h : readRequest tag kind rest = none) :
    Serves (.unknownRequest tag kind rest) tag kind rest true (fun s => (s, .unknown)) where
  body := rfl
  exec _ := congrArg _ (unknownEvent_of_none h)
  outer _ _ _ := rfl
  refuses _ _ := rfl
  starting _ := .inr ⟨_, _, _, rfl⟩

theorem serves_status (tag : Byte) : Serves (.status tag) tag 0x01 [0] true statusAct where
  body := rfl
  exec _ := rfl
  outer _ _ _ := outer_statusAct ..
  refuses := actRefuses_done _ _
  starting _ := .inl rfl

theorem request_served (c : Instr) (hwf : c.wf = true) (hreq : c.isRequest = true) :
    ∃ tag kind rest inStarting act, Serves c tag kind rest inStarting act := by
  cases c with
  | unknownRequest tag kind rest =>
    have hfit := (Bool.and_eq_true_iff.mp hwf).1
    exact ⟨_, _, _, _, _, serves_unknownRequest (Option.isNone_iff_eq_none.mp hfit)⟩
  | status tag => exact ⟨_, _, _, _, _, serves_status tag⟩
  | restart tag =>
    exact serves_after_start rfl (fun _ => rfl) (fun _ _ _ => rfl)
      (actRefuses_done _ _)
  | reports tag n =>
    exact serves_after_start rfl (fun _ => rfl) (fun q fs s => outer_guarded q fs s rfl)
      (actRefuses_checked _ _ _)
  | setReports tag kind queued call urgent =>
    exact serves_after_start rfl (fun _ => rfl) (fun q fs s => outer_guarded q fs s rfl)
      (actRefuses_checked _ _ _)
  | callMask tag setting =>
    exact serves_after_start rfl (fun _ => rfl) (fun q fs s => outer_guarded q fs s rfl)
      (actRefuses_checked _ _ _)
  | readPlant tag =>
    exact serves_after_start rfl (fun _ => rfl) (fun q fs s => outer_readPlantAct q fs s)
      (actRefuses_checked _ _ _)
  | storePlant tag plant =>
    exact serves_after_start rfl (fun _ => rfl) (fun q fs s => outer_storePlantAct q fs s plant)
      (actRefuses_checked _ _ _)
  | readRecipe tag slot =>
    exact serves_after_start rfl (fun _ => rfl) (fun q fs s => outer_readRecipeAct q fs s slot)
      (actRefuses_checked _ _ _)
  | storeRecipe tag slot body =>
    exact serves_after_start rfl (fun _ => rfl) (fun q fs s => outer_storeRecipeAct q fs s slot body)
      (actRefuses_checked _ _ _)
  | eraseRecipe tag slot =>
    exact serves_after_start rfl (fun _ => rfl) (fun q fs s => outer_eraseRecipeAct q fs s slot)
      (actRefuses_checked _ _ _)
  | readTally tag tally =>
    exact serves_after_start rfl (fun _ => rfl) (fun q fs s => outer_readTallyAct q fs s tally)
      (actRefuses_checked _ _ _)
  | startPackage tag position package slot =>
    exact serves_after_start rfl (fun _ => rfl) (fun q fs s => outer_startPackageAct q fs s position package slot)
      (actRefuses_startPackageAct position package slot)
  | resumePosition tag position =>
    exact serves_after_start rfl (fun _ => rfl) (fun q fs s => outer_resumePositionAct q fs s position)
      (actRefuses_resumePositionAct position)
  | doffPackage tag position =>
    exact serves_after_start rfl (fun _ => rfl) (fun q fs s => outer_doffPackageAct q fs s position)
      (actRefuses_doffPackageAct position)
  | positionStatus tag position =>
    exact serves_after_start rfl (fun _ => rfl) (fun q fs s => outer_positionStatusAct q fs s position)
      (actRefuses_checked _ _ _)
  | addPackage tag entry =>
    exact serves_after_start rfl (fun _ => rfl) (fun q fs s => outer_addPackageAct q fs s entry)
      (actRefuses_checked _ _ _)
  | readPackage tag package =>
    exact serves_after_start rfl (fun _ => rfl) (fun q fs s => outer_readPackageAct q fs s package)
      (actRefuses_readPackageAct package)
  | removePackage tag package =>
    exact serves_after_start rfl (fun _ => rfl) (fun q fs s => outer_removePackageAct q fs s package)
      (actRefuses_checked _ _ _)
  | placePackage tag package place =>
    exact serves_after_start rfl (fun _ => rfl) (fun q fs s => outer_placePackageAct q fs s package place)
      (actRefuses_checked _ _ _)
  | unplacePackage tag package =>
    exact serves_after_start rfl (fun _ => rfl) (fun q fs s => outer_unplacePackageAct q fs s package)
      (actRefuses_unplacePackageAct package)
  | spliceFeed tag place =>
    exact serves_after_start rfl (fun _ => rfl) (fun q fs s => outer_spliceFeedAct q fs s place)
      (actRefuses_spliceFeedAct place)
  | creelStatus tag =>
    exact serves_after_start rfl (fun _ => rfl) (fun q fs s => outer_creelStatusAct q fs s)
      (actRefuses_done _ _)
  | loadLineRecipe tag machine slot =>
    exact serves_after_start rfl (fun _ => rfl) (fun q fs s => outer_loadLineRecipeAct q fs s machine slot)
      (actRefuses_loadLineRecipeAct machine slot)
  | setPosition tag machine value =>
    exact serves_after_start rfl (fun _ => rfl) (fun q fs s => outer_setPositionAct q fs s machine value)
      (actRefuses_checkedLine _ _ _ _)
  | lineStatus tag machine =>
    exact serves_after_start rfl (fun _ => rfl) (fun q fs s => outer_lineStatusAct q fs s machine)
      (actRefuses_line _ _ _)
  | stopMachine tag machine =>
    exact serves_after_start rfl (fun _ => rfl) (fun q fs s => outer_stopMachineAct q fs s machine)
      (actRefuses_checked _ _ _)
  | release tag machine cause =>
    exact serves_after_start rfl (fun _ => rfl) (fun q fs s => outer_releaseAct q fs s machine cause)
      (actRefuses_releaseAct machine cause)
  | setWatch tag machine position =>
    exact serves_after_start rfl (fun _ => rfl) (fun q fs s => outer_setWatchAct q fs s machine position)
      (actRefuses_setWatchAct machine position)
  | clearWatch tag machine watch =>
    exact serves_after_start rfl (fun _ => rfl) (fun q fs s => outer_clearWatchAct q fs s machine watch)
      (actRefuses_line _ _ _)
  | readMarks tag machine start skip count =>
    exact serves_after_start rfl (fun _ => rfl) (fun q fs s => outer_readMarksAct q fs s machine start skip count)
      (actRefuses_line _ _ _)
  | addMark tag machine position span =>
    exact serves_after_start rfl (fun _ => rfl) (fun q fs s => outer_addMarkAct q fs s machine position span)
      (actRefuses_checkedLine _ _ _ _)
  | knotStatus tag =>
    exact serves_after_start rfl (fun _ => rfl) (fun q fs s => outer_knotStatusAct q fs s)
      (actRefuses_done _ _)
  | readRows tag back count =>
    exact serves_after_start rfl (fun _ => rfl) (fun q fs s => outer_readRowsAct q fs s back count)
      (actRefuses_checked _ _ _)
  | addOrder tag order =>
    exact serves_after_start rfl (fun _ => rfl) (fun q fs s => outer_addOrderAct q fs s order)
      (actRefuses_checked _ _ _)
  | cancelOrder tag order =>
    exact serves_after_start rfl (fun _ => rfl) (fun q fs s => outer_cancelOrderAct q fs s order)
      (actRefuses_cancelOrderAct order)
  | readOrders tag skip count =>
    exact serves_after_start rfl (fun _ => rfl) (fun q fs s => outer_readOrdersAct q fs s skip count)
      (actRefuses_checked _ _ _)
  | endCoil tag machine =>
    exact serves_after_start rfl (fun _ => rfl) (fun q fs s => outer_endCoilAct q fs s machine)
      (actRefuses_checkedLine _ _ _ _)
  | cutManual tag machine =>
    exact serves_after_start rfl (fun _ => rfl) (fun q fs s => outer_cutManualAct q fs s machine)
      (actRefuses_checkedLine _ _ _ _)
  | packStatus tag machine =>
    exact serves_after_start rfl (fun _ => rfl) (fun q fs s => outer_packStatusAct q fs s machine)
      (actRefuses_line _ _ _)
  | logRead tag first count =>
    exact serves_after_start rfl (fun _ => rfl) (fun q fs s => outer_logReadAct q fs s first count)
      (actRefuses_checked _ _ _)
  | logTake tag upTo =>
    exact serves_after_start rfl (fun _ => rfl) (fun q fs s => outer_logTakeAct q fs s upTo)
      (actRefuses_checked _ _ _)
  | logVoid tag coil =>
    exact serves_after_start rfl (fun _ => rfl) (fun q fs s => outer_logVoidAct q fs s coil)
      (actRefuses_checked _ _ _)
  | powerOnReset | startSequenceEnd | pulsePinChange | pulseFilterSettled | levelPinChange
  | levelFilterSettled | stallDeadline | intervalEnd | motionTimerDeadline
  | detectorTimerDeadline | scanSettleElapsed | cutTimerDeadline | coilWriteAttempt
  | logTakeOperation | logVoidOperation | storeRecipeOperation | eraseRecipeOperation
  | storePlantOperation | tallyStep | byteReceived | gapTimeout | replySent | restartReset =>
    cases hreq

end Sys2Proof.Machine
end

section
/-! The obligations on requests in general (R182, R183, R189, R190). -/

namespace Sys2Proof.Machine

/-- With nothing waiting the end of the queue is the first to be answered; with something waiting it is not. -/
theorem firstWaiting_append_of_waiting {fs : List Frame} {d : Instr} (gs : List Frame)
    (h : firstWaiting fs = some d) : firstWaiting (fs ++ gs) = some d := by
  induction fs with
  | nil => cases h
  | cons f rest ih =>
    obtain ⟨e, rep⟩ := f
    cases rep with
    | none => exact h
    | some r => exact ih h

theorem machineRuns_position (p : Fin 8) (s : State) :
    machineRuns (positionMachine p) s = (s.job p).any fun j => j.phase == .run := by
  unfold machineRuns positionMachine
  rw [dif_pos p.isLt]

theorem machineRuns_line (l : LineId) (s : State) : machineRuns (machineOf l) s = s.running l := by
  cases l <;> rfl

/-- Settles O11: every request of the three refusing kinds is judged by one table of answers. -/
theorem unservedRequestsAreRefused : Obligations.UnservedRequestsAreRefused := by
  refine ⟨?_, ?_, ?_⟩
  · intro tag kind rest s hnone hwaiting hroom hrunning
    rw [(serves_unknownRequest hnone).exec, request_of_free hwaiting hroom hrunning,
      frameArrives_of_room hroom]
    simp only [answerOf, Bool.not_true, Bool.and_false, Bool.false_eq_true, if_false]
    rw [attachReply, giveReply_append _ _ hwaiting]
    rfl
  · intro c tag kind rest s hwf hbody hstatus hknown hstarting hwaiting hroom hrunning
    obtain ⟨tag', kind', rest', b, act, hserves⟩ :=
      request_served c hwf (by rw [Instr.isRequest, hbody]; rfl)
    cases hserves.body.symm.trans hbody
    have hb : b = false := by
      cases b with
      | false => rfl
      | true =>
        rcases hserves.starting rfl with hkind | ⟨t, k, r, hc⟩
        · exact absurd hkind hstatus
        · exact absurd hc (hknown t k r)
    subst hb
    rw [hserves.exec, request_of_starting hbody hstarting hwaiting hroom hrunning, State.replied,
      hbody]
    rfl
  · intro tag s hstarting hwaiting hroom hrunning
    rw [(serves_status tag).exec, request_of_free hwaiting hroom hrunning,
      frameArrives_of_room hroom]
    simp only [answerOf, Bool.not_true, Bool.and_false, Bool.false_eq_true, if_false]
    rw [attachReply, statusAct, giveReply_append _ _ hwaiting]
    rfl

theorem request_of_other {c : Instr} {tag kind : Byte} {b : Bool} {act : State → State × Answer}
    {s : State} (hother : firstWaiting s.link.frames ≠ some c)
    (hwaits : firstWaiting (frameArrives c s).link.frames = some c →
      (frameArrives c s).link.restarting = true) :
    request c tag kind b act s = frameArrives c s := by
  unfold request
  simp only [if_neg hother]
  refine if_neg ?_
  rintro ⟨hfirst, hrunning⟩
  simp [hwaits hfirst] at hrunning

/-- Settles O12: what a request does to the queue of waiting bodies is its line of the link alone. -/
theorem requestsWaitOrAreDropped : Obligations.RequestsWaitOrAreDropped := by
  refine ⟨?_, ?_⟩
  · intro c s hwf hreq hother
    obtain ⟨tag, kind, rest, b, act, hserves⟩ := request_served c hwf hreq
    rw [hserves.exec]
    refine ⟨fun hroom hwaits => ?_, fun hfull => ?_⟩
    · rw [request_of_other hother, frameArrives_of_room hroom]
      · rfl
      · rw [frameArrives_of_room hroom]
        intro hfirst
        refine hwaits.resolve_left fun hsome => ?_
        obtain ⟨d, hd⟩ := Option.ne_none_iff_exists'.mp hsome
        exact hother (hd.trans ((firstWaiting_append_of_waiting _ hd).symm.trans hfirst))
    · rw [request_of_other hother, frameArrives_of_full hfull]
      rw [frameArrives_of_full hfull]
      exact fun hfirst => absurd hfirst hother
  · intro c before behind s hwf hreq hframes hanswered
    obtain ⟨tag, kind, rest, b, act, hserves⟩ := request_served c hwf hreq
    have hbefore : firstWaiting before = none := firstWaiting_eq_none.mpr hanswered
    rw [hserves.exec, hserves.exec]
    refine ⟨fun hrestarting => ?_, fun hrunning hroom => ?_⟩
    · simp [request, hframes, firstWaiting_behind c behind hbefore, hrestarting]
    · obtain ⟨r, ht, hs⟩ := request_of_waiting (tag := tag) (kind := kind) (b := b) hframes hbefore
        hroom hrunning hserves.outer
      exact ⟨_, r, rfl, ht, congrArg _ hs⟩

/-- Settles O13: a refusal in the reply is a refusal in the checks, so the served state is the state before. -/
theorem refusedRequestsChangeNothing : Obligations.RefusedRequestsChangeNothing := by
  intro c s hwf hreq hready
  obtain ⟨tag, kind, rest, b, act, hserves⟩ := request_served c hwf hreq
  refine ⟨(act s).2, (act s).1, ?_, ?_, hserves.refuses s⟩
  · rw [hserves.exec, request_of_ready hserves.body hready hserves.outer]
  · exact congrArg (fun x : State × Answer => x.1.link.frames)
      (hserves.outer s.pending s.link.frames s)

/-- Settles O14: the line field of a request names the two machines and no other. -/
theorem lineRequestsNameALine : Obligations.LineRequestsNameALine := by
  intro tag m x v n k s hready h8 h9
  have hline := lineField_of_other h8 h9
  refine ⟨?_, ?_, ?_, ?_, ?_, ?_, ?_, ?_, ?_, ?_⟩
  · rw [exec_loadLineRecipe _ _ _ hready, loadLineRecipeAct, hline, guarded_cons_false]
  · rw [exec_setPosition _ _ _ hready, setPositionAct, hline, guarded_cons_false]
  · rw [exec_lineStatus _ _ hready, lineStatusAct, hline, guarded_cons_false]
  · rw [exec_setWatch _ _ _ hready, setWatchAct, hline, guarded_cons_false]
  · rw [exec_clearWatch _ _ _ hready, clearWatchAct, hline, guarded_cons_false]
  · rw [exec_readMarks _ _ _ _ _ hready, readMarksAct, hline, guarded_cons_false]
  · rw [exec_addMark _ _ _ _ hready, addMarkAct, hline, guarded_cons_false]
  · rw [exec_endCoil _ _ hready, endCoilAct, hline, guarded_cons_false]
  · rw [exec_cutManual _ _ hready, cutManualAct, hline, guarded_cons_false]
  · rw [exec_packStatus _ _ hready, packStatusAct, hline, guarded_cons_false]

/-- Settles O15: each read answers with the state it found. -/
theorem readsChangeNothing : Obligations.ReadsChangeNothing := by
  refine ⟨?_, ?_, ?_⟩
  · intro tag s hready
    refine ⟨?_, ?_, ?_, ?_, ?_, ?_, ?_, ?_, ?_, ?_⟩
    · rw [exec_status tag hready, statusAct]
    · rw [exec_creelStatus tag hready, creelStatusAct]
    · rw [exec_knotStatus tag hready, knotStatusAct]
    · rw [exec_readPlant tag hready, readPlantAct, replied_guarded rfl]
    · intro slot
      rw [exec_readRecipe tag slot hready, readRecipeAct, replied_guarded rfl]
      rfl
    · intro m
      rw [exec_readTally tag m.val hready, readTallyAct, inField_within (Nat.zero_le _) (by omega),
        guarded_of_passed rfl, fin_ofNat_val]
    · intro m hm
      rw [exec_readTally tag m hready, readTallyAct, inField_above hm, guarded_cons_false]
    · intro first count
      rw [exec_logRead tag first count hready, logReadAct, replied_guarded rfl]
    · intro l
      rw [exec_packStatus tag _ hready, packStatusAct, lineField_machineOf,
        guarded_of_passed rfl, onLine_machineOf]
    · intro l start skip count
      rw [exec_readMarks tag _ start skip count hready, readMarksAct, lineField_machineOf,
        guarded_cons_true, replied_guarded_of fun _ => by rw [onLine_machineOf]]
  · intro m
    refine ⟨?_, ?_⟩
    · rw [Mark.bytes]
      cases m.kind <;> cases m.spray <;> cases m.made <;> rfl
    · simp [Mark.bytes, be_length]
  · intro m p
    refine ⟨?_, by simp [recordReply, slotBytes, Memory.bytes]⟩
    have hstate : stateByte m p = m.read (512 * p.page + 128 * p.slot) := by
      simp only [stateByte, addressOf_eq, slotOffset, slotSize]
      congr 1
      omega
    simp only [recordReply, hstate, slotBytes_eq, Nat.add_assoc]

/-- Settles O16: the status reads differ from the state before in their own latches. -/
theorem statusReadsSettleLatches : Obligations.StatusReadsSettleLatches := by
  intro tag s hready
  refine ⟨?_, ?_, ?_⟩
  · intro p
    rw [exec_positionStatus tag _ hready, positionStatusAct, positionField, inField_within (Nat.zero_le _) (by omega), guarded_of_passed rfl, fin_ofNat_val, settleLatches,
      machineRuns_position]
  · intro p hp
    rw [exec_positionStatus tag p hready, positionStatusAct, positionField, inField_above hp, guarded_cons_false]
  · intro l
    rw [exec_lineStatus tag _ hready, lineStatusAct, lineField_machineOf, guarded_of_passed rfl,
      onLine_machineOf, settleLatches, machineRuns_line]

end Sys2Proof.Machine
end

section
/-! SUPPORT. The pages an operation of the store writes, and what one that is cut off leaves (R152, R164, R170). -/

namespace Sys2Proof.Machine

variable {s : State}

/-! ### The page under operation -/

/-- An address outside the bytes of a page. -/
def OutsidePage (page a : Nat) : Prop :=
  a < 512 * page ∨ 512 * (page + 1) ≤ a

theorem read_clearFlag_outside {keep : Byte} {p : SlotPlace} {x : Progress} {a : Nat}
    (hslot : p.slot ≤ 3) (h : OutsidePage p.page a) :
    (clearFlag keep p x).1.mem.read a = x.mem.read a := by
  refine (clearFlag_spec keep p x).2 a ?_
  rintro rfl
  simp only [OutsidePage, stateAt, addressOf_eq, slotOffset, slotSize] at h
  omega

theorem read_takeRecords_outside {ps : List SlotPlace} {x : Progress} {a : Nat}
    (h : ∀ p ∈ ps, p.slot ≤ 3 ∧ OutsidePage p.page a) :
    (takeRecords ps x).1.mem.read a = x.mem.read a := by
  induction ps generalizing x with
  | nil => rfl
  | cons p rest ih =>
    obtain ⟨hslot, hpage⟩ := h p List.mem_cons_self
    have hrest : (takeRecords rest (clearFlag 0xBF p x).1).1.mem.read a
        = (clearFlag 0xBF p x).1.mem.read a := ih fun q hq => h q (List.mem_cons_of_mem _ hq)
    exact hrest.trans (read_clearFlag_outside hslot hpage)

/-- Outside the pages of the log the taking of records changes nothing. -/
theorem read_takeMemory_outside {upTo : Nat} {x : Progress} {a : Nat}
    (h : ∀ page, 43 ≤ page ∧ page ≤ 138 → OutsidePage page a) :
    (takeMemory upTo x).1.mem.read a = x.mem.read a :=
  read_takeRecords_outside fun _ hp =>
    have hrange := recordsInLog_range (List.mem_of_mem_filter hp)
    ⟨hrange.2, h _ hrange.1⟩

theorem read_voidMemory_outside {coil : Nat} {x : Progress} {a : Nat}
    (h : ∀ page, 43 ≤ page ∧ page ≤ 138 → OutsidePage page a) :
    (voidMemory coil x).1.mem.read a = x.mem.read a := by
  unfold voidMemory
  split
  · next p hp =>
    have hrange := recordsInLog_range (List.mem_of_find?_eq_some hp)
    split
    · rfl
    · exact read_clearFlag_outside hrange.2 (h _ hrange.1)
  · rfl

theorem read_stepMemory_outside {m : Fin 10} {x : Progress} {a : Nat}
    (h : OutsidePage (tallyPage m) a) : (stepMemory m x).1.mem.read a = x.mem.read a := by
  unfold stepMemory
  dsimp only
  split
  · next i hi =>
    have hmem := List.mem_range.mp (List.mem_of_find?_eq_some hi)
    refine progress_program_outside ?_
    simp only [OutsidePage, pageSize, List.length_cons, List.length_nil] at *
    omega
  · rfl

theorem read_recipeMemory_outside {slot : Nat} {body : RecipeBody} {x : Progress} {a : Nat}
    (hb : body.firstBad = none) (h : OutsidePage slot a) :
    (recipeMemory slot body x).1.mem.read a = x.mem.read a := by
  have hlen := checkedBytes_length hb
  exact storePage_outside (by omega) h

theorem read_plantMemory_outside {plant : PlantRecord} {x : Progress} {a : Nat}
    (h : OutsidePage plantPage a) : (plantMemory plant x).1.mem.read a = x.mem.read a :=
  storePage_outside (by rw [plantBytes_length]; decide) h

/-! ### A coil write -/

theorem read_unhead_outside {page : Nat} {x : Progress} {a : Nat} (h : OutsidePage page a) :
    (x.unhead page).mem.read a = x.mem.read a := by
  obtain ⟨-, -, hread⟩ := unhead_spec page x
  refine hread a ?_
  simp only [OutsidePage] at h
  omega

theorem beginPage_confined {t : Attempt} {a : Nat} (h : OutsidePage t.log.page a) :
    (beginPage t).1.x.mem.read a = t.x.mem.read a ∧ (beginPage t).1.log.page = t.log.page ∧
      (beginPage t).1.log.slot = t.log.slot := by
  have herase : (t.x.erase t.log.page).1.mem.read a = t.x.mem.read a := progress_erase_outside h
  have hprogram : ∀ bytes : List Byte, bytes.length = 10 → 
      ((t.x.erase t.log.page).1.program t.log.page headerOffset bytes).1.mem.read a
        = t.x.mem.read a := fun bytes hlen => by
    rw [progress_program_outside, herase]
    simp only [OutsidePage, headerOffset, hlen] at *
    omega
  have hheader := hprogram (headerBytes (nextSequence t.x.mem t.log) t.log.next)
    (headerBytes_length ..)
  unfold beginPage
  dsimp only
  split
  · split
    · exact ⟨hheader, rfl, rfl⟩
    · exact ⟨(read_unhead_outside h).trans hheader, rfl, rfl⟩
  · split
    · exact ⟨herase, rfl, rfl⟩
    · exact ⟨(read_unhead_outside h).trans herase, rfl, rfl⟩

theorem prepare_confined {t : Attempt} {a : Nat} (h : OutsidePage t.log.page a) :
    (prepare t).1.x.mem.read a = t.x.mem.read a ∧ (prepare t).1.log.page = t.log.page ∧
      (prepare t).1.log.slot = t.log.slot := by
  unfold prepare
  split
  · exact ⟨rfl, rfl, rfl⟩
  · split
    · exact ⟨rfl, rfl, rfl⟩
    · exact beginPage_confined h

theorem read_writeSlot_outside {r : CoilRecord} {t : Attempt} {a : Nat} (hslot : t.log.slot ≤ 3)
    (h : OutsidePage t.log.page a) : (writeSlot r t).1.mem.read a = t.x.mem.read a := by
  have hbody : (t.x.program t.log.page (slotOffset t.log.slot 1)
      (recordBody t.log.next r)).1.mem.read a = t.x.mem.read a := by
    refine progress_program_outside ?_
    simp only [OutsidePage, slotOffset, slotSize, recordBody_length] at *
    omega
  unfold writeSlot
  dsimp only
  split
  · rw [progress_program_outside, hbody]
    simp only [OutsidePage, slotOffset, slotSize, List.length_cons, List.length_nil] at *
    omega
  · exact hbody

theorem advance_page (x : LogState) :
    x.advance.page = x.page ∨ x.advance.page = nextPage x.page := by
  unfold LogState.advance
  split
  · exact .inl rfl
  · exact .inr rfl

theorem spent_advance_page (c : Prop) [Decidable c] (x : LogState) :
    (if c then x.spend else x).advance.page = x.page ∨
      (if c then x.spend else x).advance.page = nextPage x.page := by
  have hspent : (if c then x.spend else x).page = x.page := by
    split
    · exact spend_page x
    · rfl
  rw [← hspent]
  exact advance_page _

theorem spoil_confined {t : Attempt} {a : Nat} (hslot : t.log.slot ≤ 3)
    (h : OutsidePage t.log.page a) :
    (spoil t).x.mem.read a = t.x.mem.read a ∧
      ((spoil t).log.page = t.log.page ∨ (spoil t).log.page = nextPage t.log.page) := by
  have hclear : ∀ x : Progress, (x.program t.log.page (slotOffset t.log.slot 0) [0]).1.mem.read a
      = x.mem.read a := fun x => by
    refine progress_program_outside ?_
    simp only [OutsidePage, slotOffset, slotSize, List.length_cons, List.length_nil] at *
    omega
  unfold spoil
  dsimp only
  refine ⟨?_, ?_⟩
  · split
    · exact hclear _
    · exact (hclear _).trans (hclear _)
  · exact spent_advance_page ..

/-- A try writes the page of the write point alone, and the write point is on it or on the next one afterwards. -/
theorem tryWrite_confined {r : CoilRecord} {t : Attempt} {a : Nat} (hslot : t.log.slot ≤ 3)
    (h : OutsidePage t.log.page a) :
    (tryWrite r t).1.x.mem.read a = t.x.mem.read a ∧
      ((tryWrite r t).1.log.page = t.log.page ∨
        (tryWrite r t).1.log.page = nextPage t.log.page) := by
  have hprepared := prepare_confined h
  unfold tryWrite
  generalize prepare t = q at *
  obtain ⟨b, e⟩ := q
  obtain ⟨hread, hpage, hkept⟩ : b.x.mem.read a = t.x.mem.read a ∧ b.log.page = t.log.page ∧
    b.log.slot = t.log.slot := hprepared
  have hslot' : b.log.slot ≤ 3 := (Eq.le hkept).trans hslot
  have hout : OutsidePage b.log.page a := by rw [hpage]; exact h
  split
  · exact ⟨rfl, .inl rfl⟩
  · cases e with
    | passed =>
      have hwrite := read_writeSlot_outside (r := r) hslot' hout
      simp only
      generalize writeSlot r b = w at *
      obtain ⟨x, ok⟩ := w
      replace hwrite : x.mem.read a = t.x.mem.read a := hwrite.trans hread
      cases ok with
      | true =>
        have hmoves := advance_page b.log.spend
        rw [spend_page, hpage] at hmoves
        exact ⟨hwrite, hmoves⟩
      | false =>
        obtain ⟨hspoil, hmoves⟩ := spoil_confined (t := ⟨x, b.log⟩) hslot' hout
        simp only [hpage] at hmoves
        exact ⟨hspoil.trans hwrite, hmoves⟩
    | full => exact ⟨hread, .inl hpage⟩
    | failed => exact ⟨hread, .inl hpage⟩

/-- An attempt writes the page of the write point and the next one alone. -/
theorem attemptWrite_confined {r : CoilRecord} {t : Attempt} {a : Nat} (hok : t.Ok)
    (h : OutsidePage t.log.page a) (hnext : OutsidePage (nextPage t.log.page) a) :
    (attemptWrite r t).1.x.mem.read a = t.x.mem.read a := by
  obtain ⟨hfirst, hpage⟩ := tryWrite_confined (r := r) hok.slot h
  have hok' := tryWrite_ok r hok
  unfold attemptWrite
  split
  · next b hb => rw [hb] at hfirst; exact hfirst
  · next b hb => rw [hb] at hfirst; exact hfirst
  · next b hb =>
    rw [hb] at hfirst hpage hok'
    have hout : OutsidePage b.log.page a := by
      rcases hpage with hsame | hmoved
      · exact hsame.symm ▸ h
      · exact hmoved.symm ▸ hnext
    have hsecond := (tryWrite_confined (r := r) hok'.slot hout).1
    split
    · next c hc => rw [hc] at hsecond; exact hsecond.trans hfirst
    · next c hc => rw [hc] at hsecond; exact hsecond.trans hfirst
    · next c hc => rw [hc] at hsecond; exact hsecond.trans hfirst

/-! ### Operations cut off (R164, R168, R170) -/

theorem cutOffMemory_of_running {op : StoreOp} {steps : Nat} {faults : List StepFault}
    (h : s.runningOp = some op) :
    cutOffMemory steps faults s
      = operationMemory op { mem := s.flash, faults := faults, budget := some steps } s := by
  rw [cutOffMemory, h]

theorem judgeSlot_of_erased {m : Memory} {slot : Nat} (h : m.read (addressOf slot 0) = erasedByte) :
    judgeSlot m slot = .empty :=
  if_pos h

theorem storedPlant_of_erased {m : Memory} (h : m.read (addressOf plantPage 0) = erasedByte) :
    storedPlant m = none :=
  if_pos h

/-- A plant record whose page holds its bytes under a check word that does not agree is not valid. -/
theorem storedPlant_of_mismatch {m : Memory} {bytes : List Byte} (hlen : bytes.length = plantLength)
    (hbytes : m.bytes plantPage 3 bytes.length = bytes)
    (hcheck : m.number plantPage 1 2 ≠ crc16 bytes) : storedPlant m = none := by
  unfold storedPlant
  split
  · rfl
  · dsimp only
    rw [← hlen, hbytes, if_neg (Ne.symm hcheck)]

/-- A STORE_PLANT that is not carried to its end leaves no valid record. -/
theorem storedPlant_plantMemory {plant : PlantRecord} {x : Progress} (hx : x.mem.wf = true)
    (hfail : (plantMemory plant x).2 = false) : storedPlant (plantMemory plant x).1.mem = none := by
  rcases storePage_not_verified hx (.inr rfl) hfail with herased | ⟨hbytes, hcheck⟩
  · exact storedPlant_of_erased herased
  · exact storedPlant_of_mismatch (by rw [plantBytes_length]; decide) hbytes hcheck

end Sys2Proof.Machine
end

section
/-! The obligations on the entry of reports and on resets (R185, R191 to R193). -/

namespace Sys2Proof.Machine

theorem isHeld_eq_false {kind : ReportKind} {s : State} (hstart : s.link.start ≠ .starting)
    (hrunning : s.link.restarting = false ∨ (kind ≠ .storeDone ∧ kind ≠ .storeFailed)) :
    isHeld kind s = false := by
  rcases hrunning with h | ⟨hdone, hfailed⟩
  · simp [isHeld, hstart, h]
  · simp [isHeld, hstart, hdone, hfailed]

theorem isHeld_eq_true {kind : ReportKind} {s : State}
    (h : s.link.start = .starting ∨
      (s.link.restarting = true ∧ (kind = .storeDone ∨ kind = .storeFailed))) :
    isHeld kind s = true := by
  rcases h with hstart | ⟨hrunning, rfl | rfl⟩
  · simp [isHeld, hstart]
  · simp [isHeld, hrunning]
  · simp [isHeld, hrunning]

/-- Settles O18: a report enters at the end of the queue while it has room, and counts as lost otherwise. -/
theorem reportsAreEntered : Obligations.ReportsAreEntered := by
  refine ⟨?_, ?_, ?_, ?_⟩
  · intro kind machine body s hstart hrunning setting entered
    have hopen : enterReport kind machine body s = queueReport kind machine body s := by
      rw [enterReport, isHeld_eq_false hstart hrunning]
      rfl
    rw [hopen]
    exact ⟨queueReport_of_off, queueReport_of_room, queueReport_of_full⟩
  · intro kind machine body s h
    rw [enterReport, isHeld_eq_true h, if_pos rfl]
  · intro l d s h
    obtain ⟨hreports, hlost, hstart, hheld⟩ := recordHeld_restart l d s h
    refine ⟨hreports, hlost, hstart, hheld.trans ?_⟩
    have honly : StopCause.logFull.only = 1024#16 := rfl
    have hset : ((s.stop (machineOf l)).causes ||| 1024#16) ≠ 0 := fun h0 => by
      have hbit := congrArg (fun x : CauseSet => x.getLsbD 10) h0
      simp at hbit
    rw [honly, stopChangeBody, bne_iff_ne.mpr hset]
    cases d <;> rfl
  · intro l s h
    exact recordWritten_restart l s h

/-- Settles O21: a part reset is the reset state but for its floor and its store, read page by page. -/
theorem resetsLeaveResetValues : Obligations.ResetsLeaveResetValues := by
  refine ⟨?_, ?_, ?_, ?_, ?_, ?_, ?_, ?_⟩
  · intro br1 br0 steps faults s
    refine ⟨_, exec_powerOnReset br1 br0 steps faults s, rfl, fun h => ?_⟩
    show cutOffMemory steps faults s = s.flash
    rw [cutOffMemory, h]
  · intro br1 br0 s hdue
    exact exec_restartReset_of_due br1 br0 hdue
  · intro br1 br0 steps faults op s hinv hop mayChange
    refine ⟨_, exec_powerOnReset br1 br0 steps faults s, fun a hout => ?_⟩
    show (cutOffMemory steps faults s).read a = s.flash.read a
    rw [cutOffMemory_of_running hop]
    have hrange := runningOp_inRange hinv hop
    cases op with
    | coilWrite l =>
      simp only [operationMemory]
      split
      · exact attemptWrite_confined (hinv.attempt faults _) (hout _ (.inl rfl)) (hout _ (.inr rfl))
      · rfl
    | logTake upTo => exact read_takeMemory_outside hout
    | logVoid coil => exact read_voidMemory_outside hout
    | storeRecipe slot body =>
      simp only [StoreOp.inRange, Bool.and_eq_true, Option.isNone_iff_eq_none] at hrange
      exact read_recipeMemory_outside hrange.2 (hout _ rfl)
    | eraseRecipe slot => exact progress_erase_outside (hout _ rfl)
    | storePlant plant => exact read_plantMemory_outside (hout _ rfl)
    | tallyStep m => exact read_stepMemory_outside (hout _ rfl)
  · intro br1 br0 steps faults slot body s hop hbad hfits hwf
    refine ⟨_, exec_powerOnReset br1 br0 steps faults s, ?_⟩
    show (∀ b c, judgeSlot (cutOffMemory steps faults s) slot ≠ .valid b c) ∧
      (steps ≤ 2 → judgeSlot (cutOffMemory steps faults s) slot = .empty)
    rw [cutOffMemory_of_running hop]
    refine ⟨judgeSlot_not_valid hbad hfits ?_, fun hearly => judgeSlot_of_erased ?_⟩
    · exact storePage_not_verified hwf (.inr rfl) (storePage_cut_off rfl)
    · exact storePage_cut_early hwf rfl hearly
  · intro br1 br0 steps faults plant s hop hbad hfits hwf
    refine ⟨_, exec_powerOnReset br1 br0 steps faults s, ?_⟩
    show storedPlant (cutOffMemory steps faults s) = none
    rw [cutOffMemory_of_running hop]
    exact storedPlant_plantMemory hwf (storePage_cut_off rfl)
  · intro br1 br0 steps faults l r s hop hrecord hclosed hbegin hfull page sequence header erased
      headed hseq hsteps
    exact ⟨_, exec_powerOnReset br1 br0 steps faults s,
      cutOff_header faults steps l r s hop hrecord hclosed hbegin hfull hseq hsteps⟩
  · intro i
    refine ⟨fun k => ?_, fun k => ?_, rfl⟩
    · cases k <;> simp [Inputs.atReset, Inputs.pulse, PulseIn.atReset]
    · cases k <;> simp [Inputs.atReset, Inputs.level, LevelIn.atReset]
  · refine ⟨rfl, rfl, rfl, fun i => ?_, rfl, rfl, fun l => ?_, fun l => ?_, fun l => ?_, fun m => ?_,
      rfl, rfl, rfl, rfl, rfl, rfl, rfl, rfl, rfl, rfl, rfl, rfl, rfl, rfl, rfl, rfl, rfl, rfl, rfl,
      rfl, rfl, rfl, fun m => ?_, fun br1 br0 k held => ?_, fun tag s hready => ?_, fun s => ?_⟩
    · fin_cases i <;> rfl
    · cases l <;> exact ⟨rfl, rfl, rfl, rfl, rfl⟩
    · obtain ⟨hmarks, hactions, hwatches, hon, hmarker⟩ := cleared_empty Line.reset.act
      cases l <;> exact ⟨hmarks, hactions, hon, hmarker, hwatches⟩
    · cases l <;> exact ⟨rfl, rfl, rfl⟩
    · simp [State.stop, State.reset]
    · simp [State.tally, State.reset, Tally.reset]
    · refine ⟨rfl, rfl, rfl, rfl, rfl, rfl, rfl, rfl, rfl, rfl, rfl, rfl, rfl, rfl, rfl, fun m => ?_⟩
      simp [Link.atReset]
    · rw [exec_restart tag hready]
      rfl
    · simp [State.restartDue, and_assoc]

end Sys2Proof.Machine
end

section
/-! SUPPORT. The first records of a start, and the inputs after a counted pulse, a level and a deadline (R1 to R8, R191). -/

namespace Sys2Proof.Machine

variable {s : State}

/-! ### STARTED and the records held (R191) -/

/-- A report that enters the queue stands at its end, and leaves the rest of the Link Port that entry goes by. -/
theorem queueReport_enters {kind : ReportKind} {machine : Option Nat} {body : List Byte}
    (hq : ∀ k : Fin 24, (s.link.settings[k]).queued = true)
    (hroom : s.link.reports.length < reportCapacity) :
    (queueReport kind machine body s).link.settings = s.link.settings ∧
      ∃ r : Report, (queueReport kind machine body s).link.reports = s.link.reports ++ [r] ∧
        (r.kind, r.machine, r.body) = (kind, machine, body) := by
  rw [queueReport_of_room (hq kind.index) hroom]
  exact ⟨rfl, _, rfl, rfl⟩

theorem queueHeld_reports (held : List HeldReport)
    (hq : ∀ k : Fin 24, (s.link.settings[k]).queued = true)
    (hroom : s.link.reports.length + held.length ≤ reportCapacity) :
    (held.foldl (fun acc h => queueReport h.kind h.machine h.body acc) s).link.reports.map
        (fun r => (r.kind, r.machine, r.body))
      = s.link.reports.map (fun r => (r.kind, r.machine, r.body))
        ++ held.map fun h => (h.kind, h.machine, h.body) := by
  induction held generalizing s with
  | nil => simp
  | cons h rest ih =>
    rw [List.length_cons] at hroom
    obtain ⟨hsettings, r, hreports, hr⟩ := queueReport_enters (kind := h.kind)
      (machine := h.machine) (body := h.body) hq (by omega)
    rw [List.foldl_cons, ih (by rw [hsettings]; exact hq) (by rw [hreports]; simp; omega), hreports]
    simp [hr]

/-- Nothing but the Link Port is changed by the records of the start. -/
theorem enterStarted_only (s : State) :
    enterStarted s = { s with link := (enterStarted s).link } := by
  have hfirst := queueReport_only .started none (startedBody s) s
  have hall : ∀ (held : List HeldReport) (x : State),
      held.foldl (fun acc h => queueReport h.kind h.machine h.body acc) x
        = { x with
            link := (held.foldl (fun acc h => queueReport h.kind h.machine h.body acc) x).link } := by
    intro held
    induction held with
    | nil => intro x; rfl
    | cons h rest ih =>
      intro x
      rw [List.foldl_cons, ih, queueReport_only]
  unfold enterStarted
  simp only
  rw [hall, hfirst]
  rfl

theorem queueReport_start (kind : ReportKind) (machine : Option Nat) (body : List Byte)
    (s : State) : (queueReport kind machine body s).link.start = s.link.start := by
  unfold queueReport
  dsimp only
  split
  · rfl
  · split <;> rfl

theorem enterStarted_start (s : State) : (enterStarted s).link.start = s.link.start :=
  foldl_keeps (P := fun x : State => x.link.start = s.link.start)
    (fun x h hx => (queueReport_start h.kind h.machine h.body x).trans hx) s.link.held
    (queueReport_start ..)

/-- STARTED is the first record, before those held, where the queue has room for them all. -/
theorem enterStarted_reports (hq : ∀ k : Fin 24, (s.link.settings[k]).queued = true)
    (he : s.link.reports = []) (hheld : s.link.held.length ≤ 63) :
    (enterStarted s).link.reports.map (fun r => (r.kind, r.machine, r.body))
      = (.started, none, startedBody s) :: s.link.held.map fun h => (h.kind, h.machine, h.body) := by
  obtain ⟨hsettings, r, hreports, hr⟩ := queueReport_enters (kind := .started) (machine := none)
    (body := startedBody s) hq (by rw [he]; decide)
  have hall := queueHeld_reports (s := queueReport .started none (startedBody s) s) s.link.held
    (by rw [hsettings]; exact hq) (by rw [hreports, he]; simp [reportCapacity]; omega)
  refine hall.trans ?_
  rw [hreports, he]
  simp [hr]

/-- The part as the start-up reads leave it, before STARTED is entered (R164, R167, R180). -/
def State.scanned (s : State) : State :=
  (countTallies { s with plant := storedPlant s.flash, log := scanLog s.flash }).setLink
    { s.link with start := if (storedPlant s.flash).isSome then .ready else .unconfigured }

theorem startEvent_of_starting (h : s.link.start = .starting) :
    startEvent s = enterStarted s.scanned :=
  if_pos h

theorem scanned_start :
    s.scanned.link.start = if (storedPlant s.flash).isSome then .ready else .unconfigured := by
  unfold State.scanned
  rfl

theorem scanned_startedBody :
    startedBody s.scanned
      = be 1 s.link.resetKind.code ++ be 1 (if (storedPlant s.flash).isSome then 2 else 1)
        ++ be 2 (recordsInLog s.flash).length ++ be 2 (untakenCount s.flash)
        ++ be 4 (scanLog s.flash).next := by
  unfold startedBody State.scanned
  rfl

theorem scanned_keeps (s : State) :
    s.scanned.inputs = s.inputs ∧ s.scanned.jobs = s.jobs ∧ s.scanned.table = s.table ∧
      s.scanned.rope = s.rope ∧ s.scanned.net = s.net ∧ s.scanned.stops = s.stops ∧
      s.scanned.orders = s.orders ∧ s.scanned.queue = s.queue ∧ s.scanned.knot = s.knot ∧
      s.scanned.flash = s.flash ∧ s.scanned.plant = storedPlant s.flash ∧
      s.scanned.log = scanLog s.flash :=
  ⟨rfl, rfl, rfl, rfl, rfl, rfl, rfl, rfl, rfl, rfl, rfl, rfl⟩

theorem scanned_tally (s : State) (m : Fin 10) :
    s.scanned.tally m = { s.tally m with stored := countSteps (tallyPage m) s.flash } := by
  simp [State.scanned, countTallies, State.tally]

end Sys2Proof.Machine
end

section
/-! The obligations on the end of the start, on pins, and on the inputs. -/

namespace Sys2Proof.Machine

/-- Settles O23: the scan and the start are one step each, and the start enters its reports. -/
theorem startSequenceEnds : Obligations.StartSequenceEnds := by
  refine ⟨?_, fun m => scanLog_spec m, ?_, ?_⟩
  · intro s hstart hempty hq hheld
    refine ⟨enterStarted s.scanned, congrArg _ (startEvent_of_starting hstart), ?_⟩
    have hreports := enterStarted_reports (s := s.scanned) hq hempty hheld
    have hstarted := (enterStarted_start s.scanned).trans scanned_start
    rw [scanned_startedBody] at hreports
    have hheldAfter : (enterStarted s.scanned).link.held = [] := rfl
    have honly := enterStarted_only s.scanned
    generalize enterStarted s.scanned = t at *
    obtain ⟨hinputs, hjobs, htable, hrope, hnet, hstops, horders, hqueue, hknot, hflash, hplant, hlog⟩ :=
      scanned_keeps s
    exact ⟨(congrArg State.plant honly).trans hplant, hstarted, (congrArg State.log honly).trans hlog,
      fun m => (congrArg (State.tally · m) honly).trans (scanned_tally s m), hheldAfter, hreports,
      (congrArg State.flash honly).trans hflash, (congrArg State.inputs honly).trans hinputs,
      (congrArg State.jobs honly).trans hjobs, (congrArg State.table honly).trans htable,
      (congrArg State.rope honly).trans hrope, (congrArg State.net honly).trans hnet,
      (congrArg State.stops honly).trans hstops, (congrArg State.orders honly).trans horders,
      (congrArg State.queue honly).trans hqueue, (congrArg State.knot honly).trans hknot⟩
  · intro m p
    refine ⟨mem_records, isFree_iff m p, isRecord_iff m p, ?_⟩
    simp only [coilNumber, slotNumber, slotBytes_eq]
  · intro m page
    simp only [sequenceOf, firstCoilOf, headerValid, headerOffset, Memory.number, pageBytes_eq,
      beq_iff_eq, true_and]

/-- Settles O24: both clauses are the definition of the event. -/
theorem pinChangesAreMeasured : Obligations.PinChangesAreMeasured :=
  ⟨fun _ _ => rfl, fun _ _ => rfl⟩

end Sys2Proof.Machine
end

section
/-! SUPPORT. The inputs after a counted pulse, a level that has held, a stall deadline and an interval (R3 to R8). -/

namespace Sys2Proof.Machine

variable {s t : State}

theorem inputs_of_ground (h : t.ground = s.ground) : t.inputs = s.inputs :=
  congrArg Prod.fst h

theorem now_of_ground (h : t.ground = s.ground) : t.now = s.now :=
  congrArg (fun g => g.2.1) h

/-- What an input reads as rests on the inputs alone. -/
theorem pulse_congr (h : t.inputs = s.inputs) (k : PulseInput) : t.pulse k = s.pulse k := by
  rw [State.pulse, h, State.pulse]

theorem stallTime_congr (h : t.plant = s.plant) (k : PulseInput) :
    t.stallTime k = s.stallTime k := by
  rw [State.stallTime, h, State.stallTime]

/-- The step of R5: the input takes it, and a change of its running state is handed on. -/
theorem pulseMoves_eq (i : PulseInput) (s : State) :
    pulseMoves i s
      = if ((s.pulse i).moves (s.now + s.stallTime i)).running = (s.pulse i).running
        then s.setPulse i ((s.pulse i).moves (s.now + s.stallTime i))
        else handRunning i (s.setPulse i ((s.pulse i).moves (s.now + s.stallTime i))) := rfl

theorem pulseMoves_ground (i : PulseInput) (s : State) :
    (pulseMoves i s).ground
      = (s.setPulse i ((s.pulse i).moves (s.now + s.stallTime i))).ground := by
  rw [pulseMoves_eq]
  split
  · rfl
  · exact ground_handRunning ..

theorem inputs_setPulse_setPulse (x : Inputs) (i : PulseInput) (a b : PulseIn) :
    (x.setPulse i a).setPulse i b = x.setPulse i b := by
  cases i <;> simp [Inputs.setPulse]

theorem setPulse_setPulse (s : State) (i : PulseInput) (a b : PulseIn) :
    (s.setPulse i a).setPulse i b = s.setPulse i b :=
  congrArg (fun x => { s with inputs := x }) (inputs_setPulse_setPulse s.inputs i a b)

theorem setPulse_pulse_self (s : State) (i : PulseInput) (x : PulseIn) :
    (s.setPulse i x).pulse i = x := by
  rw [setPulse_pulse_at, if_pos rfl]

/-- The input that has counted a pulse and moved. -/
def countedPulse (i : PulseInput) (s : State) : PulseIn :=
  ((s.pulse i).counted (isForward i s)).moves (s.now + s.stallTime i)

/-- Whatever the pulse makes the blocks do, the clock and the inputs are as before but for the one counted. -/
theorem countPulse_floor (i : PulseInput) (order : List RiseBlock) (s : State) :
    (countPulse i order s).now = s.now ∧
      (countPulse i order s).inputs = (s.setPulse i (countedPulse i s)).inputs := by
  have hhanded := base_handPulse (s.setPulse i ((s.pulse i).counted (isForward i s))) i
    (isForward i s) order
  obtain ⟨hinputs, hnow, hplant, -⟩ := base_eq_iff.mp hhanded
  have hmoved := pulseMoves_ground i (handPulse i (isForward i s) order
    (s.setPulse i ((s.pulse i).counted (isForward i s))))
  refine ⟨(now_of_ground hmoved).trans hnow, (inputs_of_ground hmoved).trans ?_⟩
  rw [pulse_congr hinputs, setPulse_pulse_self, stallTime_congr hplant, hnow]
  show (State.inputs _).setPulse i (countedPulse i s) = _
  rw [hinputs]
  exact inputs_setPulse_setPulse ..

/-! ### What each event answers -/

/-- The state at the end of a hold: the clock at it, the filtered level taken. -/
def pulseHeld (i : PulseInput) (began : Nat) (s : State) : State :=
  ({ s with now := max s.now (began + s.filterWidth i) } : State).setPulse i
    { s.pulse i with level := (s.pulse i).pin, hold := none }

theorem pulseSettled_of_hold {i : PulseInput} {order : List RiseBlock} {began : Nat}
    (h : (s.pulse i).hold = some began) :
    pulseSettled i order s
      = if (s.pulse i).pin then countPulse i order (pulseHeld i began s)
        else pulseHeld i began s := by
  unfold pulseSettled
  simp only [h]
  rfl

theorem pulseHeld_pulse (i : PulseInput) (began : Nat) (s : State) :
    (pulseHeld i began s).pulse i = { s.pulse i with level := (s.pulse i).pin, hold := none } :=
  setPulse_pulse_self ..

/-- R2: an input that has held takes its pin for its level. -/
theorem taken_of_high {x : PulseIn} (h : x.pin = true) :
    { x with level := x.pin, hold := none } = { x with level := true, hold := none } :=
  congrArg (fun level => { x with level := level, hold := none }) h

theorem isForward_of_held (i : PulseInput) (began : Nat) (s : State) :
    isForward i (pulseHeld i began s) = isForward i s := by
  rw [isForward, pulseHeld, setPulse_level_at, isForward]

/-- R3, R4: down only on MW under REV high. -/
theorem counted_isForward (i : PulseInput) (x : PulseIn) (s : State) :
    x.counted (isForward i s)
      = { x with
          total := if i = .mw ∧ (s.inputs.level .rev).level = true then x.total - 1
            else x.total + 1
          current := min (x.current + 1) 65535 } := by
  by_cases h : i = .mw ∧ (s.inputs.level .rev).level = true
  · simp [PulseIn.counted, isForward, h, satAdd, intervalTop]
  · have hforward : isForward i s = true := by
      rw [isForward]
      rcases not_and_or.mp h with hi | hlevel
      · simp [hi]
      · simp [hlevel]
    simp only [PulseIn.counted, hforward, if_neg h]
    rfl

theorem levelSettled_of_hold {i : LevelInput} {began : Nat}
    (h : (s.inputs.level i).hold = some began) :
    levelSettled i s
      = handLevel i (s.inputs.level i).pin
          (({ s with now := max s.now (began + 100) } : State).setLevel i
            { s.inputs.level i with level := (s.inputs.level i).pin, hold := none }) := by
  unfold levelSettled
  simp only [h]
  rfl

theorem stallEvent_of_stall {i : PulseInput} {d : Nat} (h : (s.pulse i).stall = some d) :
    stallEvent i s
      = if (s.pulse i).running then
          handRunning i (({ s with now := max s.now d } : State).setPulse i
            { s.pulse i with running := false, firstPulse := false, stall := none })
        else ({ s with now := max s.now d } : State).setPulse i
          { s.pulse i with running := false, firstPulse := false, stall := none } := by
  unfold stallEvent
  simp only [h]
  rfl

end Sys2Proof.Machine
end

section
/-! The obligations on the inputs (R1 to R8, R72). -/

namespace Sys2Proof.Machine

/-- Settles O25: a filtered level that rises is counted, and what the count hands on keeps the ground. -/
theorem filteredLevelsAreCounted : Obligations.FilteredLevelsAreCounted := by
  refine ⟨?_, ?_, ?_, ?_, ?_, ?_⟩
  · intro i order s began hhold hpin
    obtain ⟨hnow, hinputs⟩ := countPulse_floor i order (pulseHeld i began s)
    refine ⟨countPulse i order (pulseHeld i began s), ?_, hnow, ?_, fun k hk => ?_, fun k => ?_⟩
    · show Host.Outcome.next (pulseSettled i order s) = _
      rw [pulseSettled_of_hold hhold, if_pos hpin]
    · rw [pulse_congr hinputs, setPulse_pulse_self, hnow, countedPulse, isForward_of_held,
        pulseHeld_pulse, taken_of_high hpin, counted_isForward]
      rfl
    · rw [pulse_congr hinputs, setPulse_pulse_at, if_neg hk, pulseHeld, setPulse_pulse_at, if_neg hk]
      rfl
    · rw [hinputs, setPulse_level_at, pulseHeld, setPulse_level_at]
  · intro i order s began hhold hpin
    show Host.Outcome.next (pulseSettled i order s) = _
    rw [pulseSettled_of_hold hhold, hpin, pulseHeld, hpin]
    rfl
  · intro i order s began hhold hpin backward counted
    show Host.Outcome.next (pulseSettled i order s) = _
    rw [pulseSettled_of_hold hhold, if_pos hpin]
    have hcounted : (pulseHeld i began s).setPulse i
        (((pulseHeld i began s).pulse i).counted (isForward i s)) = counted := by
      rw [counted_isForward, pulseHeld_pulse, taken_of_high hpin, pulseHeld, setPulse_setPulse]
    show Host.Outcome.next (pulseMoves i (handPulse i (isForward i (pulseHeld i began s)) order
      ((pulseHeld i began s).setPulse i
        (((pulseHeld i began s).pulse i).counted (isForward i (pulseHeld i began s)))))) = _
    rw [isForward_of_held, hcounted]
    cases i <;> rfl
  · intro i s x moved
    rw [pulseMoves_eq]
    exact ⟨fun h => if_pos h, fun h => if_neg h⟩
  · intro i s
    cases i <;> rfl
  · intro i s signal
    refine ⟨fun r hr => ?_, fun hnone => ?_⟩
    · rw [State.filterWidth, State.stallTime, hr]
      cases i <;> exact ⟨rfl, rfl⟩
    · rw [State.filterWidth, State.stallTime, hnone]
      exact ⟨rfl, rfl⟩

/-- Settles O26: a level that has held is handed on, and a stalled input stops; both keep the ground. -/
theorem levelsSettleAndInputsStall : Obligations.LevelsSettleAndInputsStall := by
  refine ⟨?_, ?_, ?_, ?_⟩
  · intro i s began hhold
    have hground := ground_handLevel (({ s with now := max s.now (began + 100) } : State).setLevel i
      { s.inputs.level i with level := (s.inputs.level i).pin, hold := none }) i (s.inputs.level i).pin
    have hinputs := inputs_of_ground hground
    refine ⟨_, congrArg Host.Outcome.next (levelSettled_of_hold hhold), now_of_ground hground, ?_, fun k hk => ?_, fun k => ?_, ?_⟩
    · rw [hinputs, setLevel_level_at, if_pos rfl]
    · rw [hinputs, setLevel_level_at, if_neg hk]
    · rw [pulse_congr hinputs, setLevel_pulse_at]
      rfl
    · rintro rfl
      rfl
  · intro i s d hstall
    have hinputs : (stallEvent i s).now = max s.now d ∧ (stallEvent i s).inputs
        = (({ s with now := max s.now d } : State).setPulse i
          { s.pulse i with running := false, firstPulse := false, stall := none }).inputs := by
      rw [stallEvent_of_stall hstall]
      split
      · exact ⟨now_of_ground (ground_handRunning ..), inputs_of_ground (ground_handRunning ..)⟩
      · exact ⟨rfl, rfl⟩
    obtain ⟨hnow, hinputs⟩ := hinputs
    refine ⟨stallEvent i s, rfl, hnow, ?_, fun k hk => ?_, fun k => ?_, fun hstill => ?_⟩
    · rw [pulse_congr hinputs, setPulse_pulse_self]
    · rw [pulse_congr hinputs, setPulse_pulse_at, if_neg hk]
      rfl
    · rw [hinputs, setPulse_level_at]
    · rw [hnow, stallEvent_of_stall hstall, hstill]
      rfl
  · intro i s began hhold settled
    show Host.Outcome.next (levelSettled i s) = _
    rw [levelSettled_of_hold hhold]
    cases i <;> rfl
  · intro i s d hstall hrun
    show Host.Outcome.next (stallEvent i s) = _
    rw [stallEvent_of_stall hstall, if_pos hrun]

/-- Settles O27: the end of an interval is a rewrite of the inputs, one at a time. -/
theorem intervalsEnd : Obligations.IntervalsEnd := by
  intro s
  refine ⟨intervalEvent s, rfl, rfl, rfl, rfl, fun k => ?_, fun k => ?_, fun l => ?_⟩
  · cases k <;> simp [intervalEvent, takeSpeed, State.pulse, Inputs.pulse, Inputs.intervalEnds, State.reach, PulseIn.intervalEnds]
  · cases k <;> simp [intervalEvent, takeSpeed, Inputs.level, Inputs.intervalEnds, State.reach]
  · cases l <;> exact ⟨rfl, rfl, rfl⟩

end Sys2Proof.Machine
end

section
/-! SUPPORT. A package that starts, a position resumed, the record and the position at a doff (R17 to R23). -/

namespace Sys2Proof.Machine

variable {s t : State}

theorem guarded_positionField (p : Fin 8) (act : State → State × Answer) (s : State) :
    guarded [positionField p.val] act s = act s := by
  rw [positionField, inField_within (Nat.zero_le _) (Nat.le_of_lt_succ p.isLt), guarded_cons_true,
    guarded_nil]

theorem guarded_positionField_above {n : Nat} (h : 7 < n) (cs : List Check)
    (act : State → State × Answer) (s : State) :
    guarded (positionField n :: cs) act s = (s, .field 1) := by
  rw [positionField, inField_above h, guarded_cons_false]

/-- The checks of a slot, once passed, leave a recipe that suits. -/
theorem judgeSlot_of_slotChecks {suits : RecipeBody → Bool} {slot : Nat}
    (h : firstRefusal (slotChecks suits slot s) = none) :
    ∃ body check, judgeSlot s.flash slot = .valid body check ∧ suits body = true := by
  have hpassed := firstRefusal_eq_none.mp h
  simp only [slotChecks, List.forall_mem_cons] at hpassed
  obtain ⟨-, hsuits, hsound, -⟩ := hpassed
  cases hjudged : judgeSlot s.flash slot with
  | empty => simp [hjudged] at hsuits
  | valid body check =>
    rw [hjudged] at hsuits
    exact ⟨body, check, rfl, hsuits⟩
  | corrupt _ => simp [hjudged] at hsound

theorem firstRefusal_of_append_left {a b : List Check} (h : firstRefusal (a ++ b) = none) :
    firstRefusal a = none :=
  firstRefusal_eq_none.mpr fun c hc => firstRefusal_eq_none.mp h c (List.mem_append_left b hc)

theorem firstRefusal_of_append_right {a b : List Check} (h : firstRefusal (a ++ b) = none) :
    firstRefusal b = none :=
  firstRefusal_eq_none.mpr fun c hc => firstRefusal_eq_none.mp h c (List.mem_append_right a hc)

/-! ### The records -/

theorem jobs_congr (h : t.jobs = s.jobs) (p : Fin 8) : t.job p = s.job p := by
  rw [State.job, h, State.job]

theorem stop_congr (h : t.stops = s.stops) (m : Fin 10) : t.stop m = s.stop m := by
  rw [State.stop, h, State.stop]

theorem deletePackage_package_self (n : Nat) (s : State) : (deletePackage n s).package n = none := by
  rw [State.package, deletePackage, packages_setPackages, List.find?_eq_none]
  intro k hk
  simpa using (List.mem_filter.mp hk).2

/-- The spans of a record that is handed a span, or none (R30). -/
def handedSpans (c : Option ClosedSpan) (spans : List Span) : List Span :=
  match c with
  | some x => insertSpan ⟨x.start, x.stop, x.side.spanKind⟩ spans
  | none => spans

/-- A span handed over goes to the table and to its report. -/
theorem handSpanQ_only (p : Fin 8) (n : Nat) (c : Option ClosedSpan) (s : State) :
    handSpan? p n c s
      = { s with table := (handSpan? p n c s).table, link := (handSpan? p n c s).link } := by
  cases c with
  | none => rfl
  | some x =>
    rw [handSpan?, handSpan, enterReport_only]
    rfl

theorem handSpanQ_package (p : Fin 8) (n m : Nat) (c : Option ClosedSpan) (s : State) :
    (handSpan? p n c s).package m
      = (s.package m).map fun k =>
          if m = n then { k with spans := handedSpans c k.spans } else k := by
  cases c with
  | none => simp [handSpan?, handedSpans]
  | some x =>
    calc (handSpan? p n (some x) s).package m
        = (s.updatePackage n fun k => { k with spans := handedSpans (some x) k.spans }).package m :=
          package_of_table (enterReport_table ..) m
      _ = _ := updatePackage_package s n m
          (fun k => { k with spans := handedSpans (some x) k.spans }) fun _ => rfl

theorem newJob_wound (p : Fin 8) (number slot check : Nat) (r : TwistRecipe) (plant : PlantRecord) :
    (newJob p number slot check r plant).wound = 0 := by
  simp [Job.wound, newJob, woundOf]

/-! ### A doff -/

/-- The record of a doff goes to the table and to its report. -/
theorem doffRecord_only (p : Fin 8) (j : Job) (s : State) :
    doffRecord p j s
      = { s with table := (doffRecord p j s).table, link := (doffRecord p j s).link } := by
  unfold doffRecord
  simp only
  rw [enterReport_only]
  split <;> rfl

theorem doffRecord_table (p : Fin 8) (j : Job) (s : State) :
    (doffRecord p j s).table
      = (if j.wound = 0 then deletePackage j.package s
        else s.updatePackage j.package fun k =>
          { k with state := .doffed, grade := (s.package j.package).map (doffGrade j.recipe) }).table := by
  unfold doffRecord
  simp only [enterReport_table]
  split <;> rfl

/-- The record after a doff: removed with nothing wound, else doffed with its grade. -/
theorem doffRecord_package (p : Fin 8) (j : Job) (s : State) :
    (doffRecord p j s).package j.package
      = if j.wound = 0 then none
        else (s.package j.package).map fun k =>
          { k with state := .doffed, grade := some (doffGrade j.recipe k) } := by
  rw [package_of_table (doffRecord_table p j s)]
  split
  · exact deletePackage_package_self ..
  · rw [updatePackage_package]
    · cases s.package j.package <;> simp
    · exact fun _ => rfl

theorem doff_job (p q : Fin 8) (j : Job) (s : State) :
    (doff p j s).job q = if q = p then none else s.job q := by
  rw [doff, setJob_job_at]
  split
  · rfl
  · next hq =>
    rw [jobs_congr (stopNotice_jobs ..), doffRecord_only, handSpanQ_only]
    exact (setJob_job_at ..).trans (if_neg hq)

theorem doff_stops (p : Fin 8) (j : Job) (s : State) :
    (doff p j s).stops = (stopNotice (positionMachine p) 0 doffCauses
      (doffRecord p j (handSpan? p j.package (closeAt j.outRun j.span)
        (s.setJob p (some j.discard))))).stops := rfl

theorem doff_stop_other (p : Fin 8) (j : Job) (s : State) {m : Fin 10} (h : m ≠ positionMachine p) :
    (doff p j s).stop m = s.stop m := by
  rw [stop_congr (doff_stops p j s), stopNotice_other _ _ _ _ _ h, doffRecord_only, handSpanQ_only]
  rfl

theorem doff_hasCause (p : Fin 8) (j : Job) (s : State) {c : StopCause}
    (h : c.isIn doffCauses = true) : (doff p j s).hasCause (positionMachine p) c = false := by
  rw [hasCause_congr (doff_stops p j s), hasCause_stopNotice, if_pos rfl, h, Bool.not_true,
    Bool.and_false]

theorem doff_package (p : Fin 8) (j : Job) (s : State) :
    (doff p j s).package j.package
      = if j.wound = 0 then none
        else (s.package j.package).map fun k =>
          let closed : Package :=
            { k with spans := handedSpans (closeAt j.outRun j.span) k.spans }
          { closed with state := .doffed, grade := some (doffGrade j.recipe closed) } := by
  rw [doff, package_of_table (setJob_table ..), package_of_table (stopNotice_table ..), doffRecord_package,
    handSpanQ_package, package_of_table (setJob_table ..)]
  simp [Function.comp_def]

theorem gradeCode_eq (g : Option Grade) :
    gradeCode g = match g with
      | some .a => 1
      | some .b => 2
      | some .c => 3
      | none => 0 := by
  rcases g with _ | _ | _ | _ <;> rfl

theorem yesNo_eq (w : Nat) : yesNo (w == 0) = be 1 (if w = 0 then 1 else 0) := by
  by_cases h : w = 0
  · rw [if_pos h, h]
    rfl
  · rw [if_neg h, beq_eq_false_iff_ne.mpr h]
    rfl

theorem spanKind_eq (side : Side) :
    side.spanKind = if side = .low then .low else .high := by
  cases side <;> rfl

/-- A doff in one expression, the span named by its kind and the causes by their bits. -/
theorem doff_eq (p : Fin 8) (j : Job) (s : State) :
    doff p j s
      = (stopNotice (positionMachine p) 0 31#16 (doffRecord p j
          (match j.span with
          | some x => handSpan p j.package ⟨x.side, x.start, j.outRun.lastEnd⟩
              (s.setJob p (some j.discard))
          | none => s.setJob p (some j.discard)))).setJob p none := by
  rw [doff]
  cases j.span <;> rfl

end Sys2Proof.Machine
end

section
/-! The obligations on starting, resuming and doffing (R17 to R23, R44, R45). -/

namespace Sys2Proof.Machine

/-- Settles O28: the checks, once passed, leave a valid twisting recipe in the slot. -/
theorem startPackageMakesReady : Obligations.StartPackageMakesReady := by
  refine ⟨?_, ?_, ?_⟩
  · intro tag p number slot s hready
    rw [exec_startPackage _ _ _ _ hready, startPackageAct, fin_ofNat_val, positionField,
      inField_within (Nat.zero_le _) (Nat.le_of_lt_succ p.isLt), List.cons_append, List.cons_append,
      guarded_cons_true]
    refine congrArg Host.Outcome.next (replied_guarded_of fun hpassed => ?_)
    obtain ⟨body, check, hslot, hsuits⟩ :=
      judgeSlot_of_slotChecks (firstRefusal_of_append_right (firstRefusal_of_append_left hpassed))
    cases body with
    | twist r => simp only [hslot]
    | rope r => cases hsuits
    | net r => cases hsuits
    | other kind => cases hsuits
  · intro tag p number slot s hready hp
    rw [exec_startPackage _ _ _ _ hready, startPackageAct, List.cons_append, List.cons_append,
      guarded_positionField_above hp]
  · intros
    exact ⟨rfl, rfl, rfl, rfl, rfl, rfl, rfl, rfl, rfl, rfl, newJob_wound .., rfl, rfl, rfl, rfl, rfl, rfl, rfl,
      rfl, rfl, rfl⟩

/-- Settles O29: the request by the state of its position, the splice list by its law. -/
theorem resumePositionClearsFault : Obligations.ResumePositionClearsFault := by
  refine ⟨fun tag p s hready => ⟨?_, ?_, ?_, ?_, ?_⟩, fun w splices =>
    ⟨insertSplice_eq w splices, insertSplice_rising w splices⟩⟩
  · intro j hjob hphase
    rw [exec_resumePosition _ _ hready, resumePositionAct, fin_ofNat_val, guarded_positionField]
    simp only [hjob, hphase]
  · intro j hjob hphase
    rw [exec_resumePosition _ _ hready, resumePositionAct, fin_ofNat_val, guarded_positionField]
    simp only [hjob, hphase]
  · intro hjob
    rw [exec_resumePosition _ _ hready, resumePositionAct, fin_ofNat_val, guarded_positionField]
    simp only [hjob]
  · intro j hjob hbreak hjam
    rw [exec_resumePosition _ _ hready, resumePositionAct, fin_ofNat_val, guarded_positionField]
    simp only [hjob]
  · intro n hn
    rw [exec_resumePosition _ _ hready, resumePositionAct, guarded_positionField_above hn]

/-- Settles O30: a doff is its record, its notice and a free position. -/
theorem doffPackageFreesPosition : Obligations.DoffPackageFreesPosition := by
  have hact : ∀ (tag : Byte) (p : Fin 8) (j : Job) (s : State), Ready s → s.job p = some j →
      j.phase ≠ .run → exec (.doffPackage tag p.val) s
        = .next ((doff p j s).replied (.doffPackage tag p.val) (.done [])) := by
    intro tag p j s hready hjob hphase
    rw [exec_doffPackage _ _ hready, doffPackageAct, fin_ofNat_val, guarded_positionField]
    simp only [hjob, if_neg hphase]
  refine ⟨fun tag p s hready => ⟨?_, ?_, ?_, ?_⟩, ?_, ?_, ?_⟩
  · intro hjob
    rw [exec_doffPackage _ _ hready, doffPackageAct, fin_ofNat_val, guarded_positionField]
    simp only [hjob]
  · intro j hjob hphase
    rw [exec_doffPackage _ _ hready, doffPackageAct, fin_ofNat_val, guarded_positionField]
    simp only [hjob, if_pos hphase]
  · intro j hjob hphase
    refine ⟨doff p j s, hact tag p j s hready hjob hphase, ?_, fun q hq => ?_, ?_,
      fun m hm => doff_stop_other p j s hm, fun hwound => ?_, fun k hwound hk => ?_⟩
    · rw [doff_job, if_pos rfl]
    · rw [doff_job, if_neg hq]
    · simp only [List.forall_mem_cons]
      exact ⟨doff_hasCause p j s rfl, doff_hasCause p j s rfl, doff_hasCause p j s rfl,
        doff_hasCause p j s rfl, doff_hasCause p j s rfl, fun _ h => absurd h List.not_mem_nil⟩
    · rw [doff_package, if_pos hwound]
    · rw [doff_package, if_neg hwound.ne', hk]
      cases j.span <;> rfl
  · intro n hn
    rw [exec_doffPackage _ _ hready, doffPackageAct, guarded_positionField_above hn]
  · intro tag p j s hready hjob hphase
    rw [hact tag p j s hready hjob hphase, doff_eq, doffRecord, gradeByte, gradeCode_eq, yesNo_eq]
    cases j.span with
    | none => rfl
    | some x =>
      simp only [handSpan, spanKind_eq]
      rfl
  · intro r k faulty
    refine ⟨fun hspans hsplices => ?_, fun hany hlength hcount => ?_, fun hany hover => ?_⟩
    · simp [doffGrade, hspans, hsplices]
    · rw [doffGrade, if_neg (by simp; tauto), if_pos (by simp [hcount]; exact hlength)]
    · rw [doffGrade, if_neg (by simp; tauto), if_neg]
      simp only [Bool.and_eq_true, decide_eq_true_eq, not_and_or, not_le]
      exact hover
  · intro x spans placed
    obtain ⟨hsmall, hlarge⟩ := insertSpan_eq x spans
    exact ⟨hsmall, hlarge, insertSpan_rising x spans⟩

end Sys2Proof.Machine
end

section
/-! SUPPORT. A pulse wound, a window measured, a target reached and a position's timers (R17 to R24). -/

namespace Sys2Proof.Machine

variable {s t : State}

theorem setJob_setJob (p : Fin 8) (a b : Option Job) (s : State) :
    (s.setJob p a).setJob p b = s.setJob p b := by
  simp [State.setJob]

/-! ### The tally of a position -/

/-- The second state is the first one after tallying: the tallies, the store queue and the Link Port alone may differ. -/
def TalliesOnly (s t : State) : Prop :=
  t = { s with tallies := t.tallies, queue := t.queue, link := t.link }

theorem talliesOnly_trans {u : State} (h : TalliesOnly s t) (g : TalliesOnly t u) :
    TalliesOnly s u := by
  rw [TalliesOnly] at *
  rw [g, h]

theorem talliesOnly_of_setTally {m : Fin 10} {x : Tally} (h : TalliesOnly (s.setTally m x) t) :
    TalliesOnly s t :=
  talliesOnly_trans (t := s.setTally m x) rfl h

theorem talliesOnly_enterReport (kind : ReportKind) (machine : Option Nat) (body : List Byte)
    (s : State) : TalliesOnly s (enterReport kind machine body s) := by
  rw [TalliesOnly, enterReport_only]

theorem talliesOnly_placeOp (op : StoreOp) (s : State) : TalliesOnly s (placeOp op s) := by
  rw [TalliesOnly, placeOp, startNext]
  split <;> rfl

theorem talliesOnly_placeStep (m : Fin 10) (s : State) : TalliesOnly s (placeStep m s) := by
  rw [placeStep]
  split
  · exact talliesOnly_of_setTally (talliesOnly_placeOp ..)
  · rfl

theorem talliesOnly_reportFull (m : Fin 10) (s : State) : TalliesOnly s (reportFull m s) := by
  rw [reportFull]
  split
  · rfl
  · exact talliesOnly_of_setTally (talliesOnly_enterReport ..)

theorem talliesOnly_addFine (m : Fin 10) (mm : Nat) (s : State) : TalliesOnly s (addFine m mm s) := by
  unfold addFine
  simp only
  split <;> split
  · exact talliesOnly_of_setTally (talliesOnly_reportFull ..)
  · rfl
  · exact talliesOnly_of_setTally (talliesOnly_placeStep ..)
  · rfl

theorem talliesOnly_judgeService (m : Fin 10) (before : Nat) (s : State) :
    TalliesOnly s (judgeService m before s) := by
  unfold judgeService
  simp only
  split
  · exact talliesOnly_enterReport ..
  · rfl

theorem talliesOnly_tallyAdd (m : Fin 10) (mm : Nat) (s : State) :
    TalliesOnly s (tallyAdd m mm s) := by
  rw [tallyAdd]
  split
  · rfl
  · exact talliesOnly_trans (talliesOnly_addFine ..) (talliesOnly_judgeService ..)

/-! ### A pulse wound -/

/-- The job after one more delivery pulse. -/
def Job.delivering (j : Job) : Job :=
  { j with delivered := min (j.delivered + 1) 4294967295 }

/-- The same, the pulse in its window too. -/
def Job.measuring (j : Job) : Job :=
  { j.delivering with delivery := min (j.delivery + 1) 4294967295 }

/-- The job after its window, and the span that closes with it. -/
def Job.measured (j : Job) : Job × Option ClosedSpan :=
  if j.measuring.delivery = j.windowSize then j.measuring.windowClosed else (j.measuring, none)

/-- The job of a position that has left RUN with its window discarded. -/
def Job.left (phase : Phase) (j : Job) : Job :=
  { j with
    phase := phase, motion := none, detector := none, spindle := 0, delivery := 0
    windowStart := j.wound, filter := none, outRun := { j.outRun with count := 0 }, span := none }

/-- The state with the pulse wound: the job, its record, its tally. -/
def woundState (p : Fin 8) (j : Job) (s : State) : State :=
  tallyAdd (positionMachine p) (j.delivering.wound - j.wound)
    ((s.setJob p (some j.delivering)).updatePackage j.package fun k =>
      { k with wound := j.delivering.wound })

/-- The state with the pulse wound and its window measured. -/
def measuredState (p : Fin 8) (j : Job) (s : State) : State :=
  handSpan? p j.package j.measured.2 ((woundState p j s).setJob p (some j.measured.1))

theorem windPulse_eq (p : Fin 8) (j : Job) (s : State) :
    windPulse p j s = (j.delivering, woundState p j s) := rfl

/-- What the position holds before the pulse is of no account. -/
theorem woundState_setJob (p : Fin 8) (j : Job) (k : Option Job) (s : State) :
    woundState p j (s.setJob p k) = woundState p j s := by
  rw [woundState, setJob_setJob, woundState]

theorem windowPulse_eq (p : Fin 8) (j : Job) (s : State) :
    windowPulse p j.delivering (woundState p j s) = measuredState p j s := by
  rw [measuredState, Job.measured]
  by_cases h : j.measuring.delivery = j.windowSize
  · rw [if_pos h]
    exact if_pos h
  · rw [if_neg h]
    exact if_neg h

theorem runPulse_eq (p : Fin 8) (j : Job) (s : State) :
    runPulse p j s = checkTarget p (measuredState p j s) := by
  rw [← windowPulse_eq]
  rfl

/-- A window measured leaves the recipe, the package and the wound length. -/
theorem measured_keeps (j : Job) :
    j.measured.1.recipe = j.recipe ∧ j.measured.1.package = j.package ∧
      j.measured.1.wound = j.delivering.wound := by
  rw [Job.measured]
  split <;> exact ⟨rfl, rfl, rfl⟩

theorem measured_left (phase : Phase) (j : Job) :
    j.measured.1.left phase
      = { j.measured.1 with
          phase := phase, motion := none, detector := none, spindle := 0, delivery := 0
          windowStart := j.delivering.wound, filter := none
          outRun := { j.measured.1.outRun with count := 0 }, span := none } := by
  obtain ⟨-, -, hwound⟩ := measured_keeps j
  rw [Job.left, hwound]

theorem woundState_job (p q : Fin 8) (j : Job) (s : State) :
    (woundState p j s).job q = if q = p then some j.delivering else s.job q := by
  rw [woundState, talliesOnly_tallyAdd]
  exact setJob_job_at ..

theorem woundState_package (p : Fin 8) (j : Job) (s : State) :
    (woundState p j s).package j.package
      = (s.package j.package).map fun k => { k with wound := j.delivering.wound } := by
  have htable := congrArg State.table (talliesOnly_tallyAdd (positionMachine p)
    (j.delivering.wound - j.wound) ((s.setJob p (some j.delivering)).updatePackage j.package fun k =>
      { k with wound := j.delivering.wound }))
  rw [woundState, package_of_table htable]
  refine (updatePackage_package _ _ _ (fun k => { k with wound := j.delivering.wound }) fun _ => rfl).trans ?_
  rw [package_of_table (setJob_table ..)]
  simp

theorem handSpanQ_job (p q : Fin 8) (n : Nat) (c : Option ClosedSpan) (s : State) :
    (handSpan? p n c s).job q = s.job q := by
  rw [handSpanQ_only]
  rfl

theorem measuredState_job (p q : Fin 8) (j : Job) (s : State) :
    (measuredState p j s).job q = if q = p then some j.measured.1 else s.job q := by
  rw [measuredState, handSpanQ_job, setJob_job_at, woundState_job]
  split <;> rfl

theorem measuredState_package (p : Fin 8) (j : Job) (s : State) :
    (measuredState p j s).package j.package
      = (s.package j.package).map fun k =>
          { k with wound := j.delivering.wound, spans := handedSpans j.measured.2 k.spans } := by
  rw [measuredState, handSpanQ_package, package_of_table (setJob_table ..), woundState_package]
  simp [Function.comp_def]

/-! ### A target reached -/

theorem enterTarget_eq (p : Fin 8) (j : Job) (s : State) :
    enterTarget p j s
      = enterReport .packageTarget (some p.val) (be 2 j.package ++ be 4 j.wound)
          (setCause (positionMachine p) .target
            (handSpan? p j.package (closeAt j.outRun j.span) (s.setJob p (some (j.left .target))))) :=
  rfl

theorem enterTarget_measured (p : Fin 8) (j : Job) (s : State) :
    enterTarget p j.measured.1 s
      = enterReport .packageTarget (some p.val) (be 2 j.package ++ be 4 j.delivering.wound)
          (setCause (positionMachine p) .target
            (handSpan? p j.package (closeAt j.measured.1.outRun j.measured.1.span)
              (s.setJob p (some (j.measured.1.left .target))))) := by
  obtain ⟨-, hpackage, hwound⟩ := measured_keeps j
  rw [enterTarget_eq, hpackage, hwound]

theorem enterTarget_job (p q : Fin 8) (j : Job) (s : State) :
    (enterTarget p j s).job q = if q = p then some (j.left .target) else s.job q := by
  rw [enterTarget_eq, jobs_congr (enterReport_jobs ..), jobs_congr (setCause_jobs ..), handSpanQ_job,
    setJob_job_at]

theorem enterTarget_package (p : Fin 8) (j : Job) (s : State) :
    (enterTarget p j s).package j.package
      = (s.package j.package).map fun k =>
          { k with spans := handedSpans (closeAt j.outRun j.span) k.spans } := by
  rw [enterTarget_eq, package_of_table (enterReport_table ..), package_of_table (setCause_table ..),
    handSpanQ_package, package_of_table (setJob_table ..)]
  simp

theorem enterTarget_hasCause (p : Fin 8) (j : Job) (s : State) :
    (enterTarget p j s).hasCause (positionMachine p) .target = true := by
  rw [enterTarget_eq, hasCause_congr (enterReport_stops ..), hasCause_setCause]
  simp

theorem runPulse_below {p : Fin 8} {j : Job} (h : j.delivering.wound < j.recipe.target) (s : State) :
    runPulse p j s = measuredState p j s := by
  obtain ⟨hrecipe, -, hwound⟩ := measured_keeps j
  rw [runPulse_eq, checkTarget, measuredState_job, if_pos rfl]
  exact if_neg (by rw [hrecipe, hwound]; exact Nat.not_le.mpr h)

theorem runPulse_reached {p : Fin 8} {j : Job} (h : j.recipe.target ≤ j.delivering.wound) (s : State) :
    runPulse p j s = enterTarget p j.measured.1 (measuredState p j s) := by
  obtain ⟨hrecipe, -, hwound⟩ := measured_keeps j
  rw [runPulse_eq, checkTarget, measuredState_job, if_pos rfl]
  exact if_pos (by rw [hrecipe, hwound]; exact h)

theorem runPulse_job_other {p q : Fin 8} (h : q ≠ p) (j : Job) (s : State) :
    (runPulse p j s).job q = s.job q := by
  rcases Nat.lt_or_ge j.delivering.wound j.recipe.target with hbelow | hreached
  · rw [runPulse_below hbelow, measuredState_job, if_neg h]
  · rw [runPulse_reached hreached, enterTarget_job, if_neg h, measuredState_job, if_neg h]

theorem runPulse_setJob (p : Fin 8) (j : Job) (k : Option Job) (s : State) :
    runPulse p j (s.setJob p k) = runPulse p j s := by
  rw [runPulse_eq, measuredState, woundState_setJob, runPulse_eq, measuredState]

/-! ### A delivery pulse by the phase of its position -/

theorem deliveryPulse_of_run {p : Fin 8} {j : Job} (hjob : s.job p = some j) (h : j.phase = .run) :
    deliveryPulse p s = runPulse p j s := by
  simp only [deliveryPulse, hjob, h]

theorem deliveryPulse_of_target {p : Fin 8} {j : Job} (hjob : s.job p = some j)
    (h : j.phase = .target) : deliveryPulse p s = woundState p j s := by
  simp only [deliveryPulse, hjob, h, windPulse_eq]

theorem deliveryPulse_of_fault {p : Fin 8} {j : Job} {c : FaultCause} (hjob : s.job p = some j)
    (h : j.phase = .fault c) : deliveryPulse p s = s := by
  simp only [deliveryPulse, hjob, h]

theorem deliveryPulse_of_idle {p : Fin 8} (hjob : s.job p = none) : deliveryPulse p s = s := by
  simp only [deliveryPulse, hjob]

theorem deliveryPulse_of_still {p : Fin 8} {j : Job} (hjob : s.job p = some j)
    (h : j.phase = .ready ∨ j.phase = .still) :
    deliveryPulse p s = runPulse p (enterRun p s j) s := by
  rcases h with h | h <;> simp only [deliveryPulse, hjob, h]

theorem enterRun_eq (p : Fin 8) (s : State) (j : Job) :
    enterRun p s j
      = { j with
          phase := .run
          motion := if (s.pulse (.sp p)).running ∧ (s.pulse (.dl p)).running then none
            else some (s.now + s.plantD.jamTime * 100000)
          detector := if (s.inputs.level (.sd p)).level then
              some (s.now + s.plantD.detectorTime * 10000)
            else none } := by
  rw [enterRun, spRuns, dlRuns]
  simp only [Bool.and_eq_true]
  rfl

theorem deliveryPulse_job_other {p q : Fin 8} (h : q ≠ p) (s : State) :
    (deliveryPulse p s).job q = s.job q := by
  cases hjob : s.job p with
  | none => rw [deliveryPulse_of_idle hjob]
  | some j =>
    cases hphase : j.phase with
    | ready => rw [deliveryPulse_of_still hjob (.inl hphase), runPulse_job_other h]
    | still => rw [deliveryPulse_of_still hjob (.inr hphase), runPulse_job_other h]
    | run => rw [deliveryPulse_of_run hjob hphase, runPulse_job_other h]
    | target => rw [deliveryPulse_of_target hjob hphase, woundState_job, if_neg h]
    | fault c => rw [deliveryPulse_of_fault hjob hphase]

/-! ### The timers of a position -/

theorem enterFault_eq (p : Fin 8) (c : FaultCause) (j : Job) (s : State) :
    enterFault p c j s
      = enterReport .positionFault (some p.val) (be 2 j.package ++ be 1 c.stop.code ++ be 4 j.wound)
          (setCause (positionMachine p) c.stop
            (handSpan? p j.package (closeAt j.outRun j.span)
              (s.setJob p (some (j.left (.fault c)))))) := rfl

theorem enterFault_now (p : Fin 8) (c : FaultCause) (j : Job) (s : State) :
    (enterFault p c j s).now = s.now :=
  now_of_ground (ground_enterFault s p c j)

theorem enterFault_job (p q : Fin 8) (c : FaultCause) (j : Job) (s : State) :
    (enterFault p c j s).job q = if q = p then some (j.left (.fault c)) else s.job q := by
  rw [enterFault_eq, jobs_congr (enterReport_jobs ..), jobs_congr (setCause_jobs ..), handSpanQ_job,
    setJob_job_at]

/-- The cause of a fault is set, and its position stops. -/
theorem enterFault_asserts (p : Fin 8) (c : FaultCause) (j : Job) (s : State) :
    (enterFault p c j s).hasCause (positionMachine p) c.stop = true ∧
      (StopsAgree s → ((enterFault p c j s).stop (positionMachine p)).asserted = true) := by
  rw [enterFault_eq, hasCause_congr (enterReport_stops ..), stop_congr (enterReport_stops ..)]
  refine ⟨by simp [hasCause_setCause], fun h => (setCause_asserts _ _ ?_).2⟩
  rw [handSpanQ_only]
  exact h

theorem motionEvent_of_run {p : Fin 8} {j : Job} {d : Nat} (hjob : s.job p = some j)
    (hphase : j.phase = .run) (hmotion : j.motion = some d) :
    motionEvent p s
      = if spRuns p s ≠ dlRuns p s then enterFault p .jam j (s.reach d)
        else if spRuns p s then (s.reach d).setJob p (some { j with motion := none })
        else enterStill p j (s.reach d) := by
  unfold motionEvent
  simp only [hjob, hphase, hmotion]
  cases spRuns p s <;> cases dlRuns p s <;> rfl

theorem detectorEvent_of_run {p : Fin 8} {j : Job} {d : Nat} (hjob : s.job p = some j)
    (hphase : j.phase = .run) (hdetector : j.detector = some d) :
    detectorEvent p s = enterFault p (breakCause j s) j (s.reach d) := by
  unfold detectorEvent
  simp only [hjob, hphase, hdetector]

theorem breakCause_of_record {j : Job} {k : Package} (h : s.package j.package = some k) :
    breakCause j s = if k.splices.length = 8 then .spliceLimit else .breakage := by
  rw [breakCause, h]
  simp only [Option.map_some, Option.some.injEq, spliceCapacity]

theorem breakCause_eq (j : Job) (s : State) :
    breakCause j s
      = if (s.package j.package).any fun k => k.splices.length == 8 then .spliceLimit
        else .breakage := by
  cases h : s.package j.package with
  | none => rw [breakCause, h]; rfl
  | some k => rw [breakCause_of_record h]; simp

/-- A fault in one expression, its span named by its kind. -/
theorem enterFault_spanned (p : Fin 8) (c : FaultCause) (j : Job) (s : State) :
    enterFault p c j s
      = enterReport .positionFault (some p.val) (be 2 j.package ++ be 1 c.stop.code ++ be 4 j.wound)
          (setCause (positionMachine p) c.stop
            (match j.span with
            | some x =>
              enterReport .twistSpan (some p.val)
                (be 2 j.package ++ be 1 (if x.side = .low then SpanKind.low else .high).code
                  ++ be 4 x.start ++ be 4 j.outRun.lastEnd)
                ((s.setJob p (some (j.left (.fault c)))).updatePackage j.package fun k =>
                  { k with spans := insertSpan ⟨x.start, j.outRun.lastEnd,
                      if x.side = .low then .low else .high⟩ k.spans })
            | none => s.setJob p (some (j.left (.fault c))))) := by
  rw [enterFault_eq]
  cases j.span with
  | none => rfl
  | some x =>
    simp only [← spanKind_eq]
    rfl

end Sys2Proof.Machine
end

section
/-! The obligations on the timers, the pulses and the windows of a position (R17 to R35). -/

namespace Sys2Proof.Machine

/-- Settles O31: each deadline is a fault, a standstill or a timer stopped. -/
theorem positionTimersEndRun : Obligations.PositionTimersEndRun := by
  refine ⟨?_, ?_, ?_⟩
  · intro p s j d hjob hphase hmotion
    have hevent := motionEvent_of_run hjob hphase hmotion
    refine ⟨motionEvent p s, rfl, ?_, fun q hq => ?_, fun hapart => ?_, fun hsp hdl => ?_⟩
    · rw [hevent]
      split
      · exact enterFault_now ..
      · split <;> rfl
    · rw [hevent]
      split
      · exact (enterFault_job ..).trans (if_neg hq)
      · split <;> exact (setJob_job_at (s.reach d) ..).trans (if_neg hq)
    · rw [hevent, if_pos hapart]
      obtain ⟨hcause, hassert⟩ := enterFault_asserts p .jam j (s.reach d)
      exact ⟨(enterFault_job ..).trans (if_pos rfl), hcause, hassert⟩
    · rw [hevent, if_neg (by rw [hsp, hdl]; simp), if_neg (by rw [hsp]; simp)]
      exact ⟨(setJob_job_at (s.reach d) ..).trans (if_pos rfl), rfl, rfl⟩
  · intro p s j d hjob hphase hdetector
    have hevent := detectorEvent_of_run hjob hphase hdetector
    refine ⟨detectorEvent p s, rfl, ?_, fun q hq => ?_, fun k hk => ?_⟩
    · rw [hevent]
      exact enterFault_now ..
    · rw [hevent]
      exact (enterFault_job ..).trans (if_neg hq)
    · rw [hevent, breakCause_of_record hk]
      obtain ⟨hcause, hassert⟩ := enterFault_asserts p
        (if k.splices.length = 8 then .spliceLimit else .breakage) j (s.reach d)
      exact ⟨(enterFault_job ..).trans (if_pos rfl), hcause, hassert⟩
  · intro p s j d hjob hphase entered
    have hentered : ∀ c, enterFault p c j (s.reach d) = entered c c.stop c.stop.code := fun c =>
      enterFault_spanned p c j (s.reach d)
    refine ⟨fun hmotion hapart => ?_, fun hdetector => ?_⟩
    · rw [motion_fault p s j d hjob hphase hmotion hapart]
      exact congrArg Host.Outcome.next (hentered .jam)
    · intro full
      show Host.Outcome.next (detectorEvent p s) = _
      rw [detectorEvent_of_run hjob hphase hdetector, hentered, breakCause_eq]
      show Host.Outcome.next (entered (if full then _ else _) _ _) = _
      split <;> rfl

/-- Settles O32: a pulse wound is its job, its record, its tally, its window and its target in turn. -/
theorem pulsesAreCountedAndWound : Obligations.PulsesAreCountedAndWound := by
  refine ⟨wound_eq, ?_, fun _ => rfl, ?_, ?_, ?_, ?_, fun p number s => ⟨rfl, fun _ => rfl⟩, ?_⟩
  · intro p s
    rw [spindlePulse]
    cases s.job p <;> rfl
  · intro p s
    refine ⟨deliveryPulse_of_idle, fun j c => deliveryPulse_of_fault, fun j hjob hphase => ?_,
      fun j hjob hphase => ?_, fun q hq => deliveryPulse_job_other hq s⟩
    · rw [deliveryPulse_of_target hjob hphase, woundState_job, if_pos rfl]
      rfl
    · intro wound hopen hbelow
      have hmeasured : j.measured = (j.measuring, none) := if_neg hopen
      rw [deliveryPulse_of_run hjob hphase, runPulse_below hbelow, measuredState_job, if_pos rfl,
        measuredState_package, hmeasured, Option.map_map]
      exact ⟨rfl, rfl⟩
  · intro p s j hjob hphase
    rw [deliveryPulse_of_still hjob hphase, ← enterRun_eq,
      deliveryPulse_of_run (job_setJob ..) (show (enterRun p s j).phase = .run from rfl),
      runPulse_setJob]
  · intro p s j hjob hphase wound closed handed t
    have ht : t = runPulse p j s := deliveryPulse_of_run hjob hphase
    refine ⟨fun hbelow => ?_, fun hreached => ?_⟩
    · rw [ht, runPulse_below hbelow, measuredState_job, if_pos rfl, measuredState_package]
      exact ⟨rfl, rfl⟩
    · obtain ⟨-, hpackage, -⟩ := measured_keeps j
      have hrecord := enterTarget_package p j.measured.1 (measuredState p j s)
      rw [hpackage, measuredState_package, Option.map_map] at hrecord
      rw [ht, runPulse_reached hreached, enterTarget_hasCause, enterTarget_job, if_pos rfl,
        measured_left, hrecord]
      exact ⟨rfl, rfl, rfl⟩
  · intro p s j hjob wound counted full closed measured
    refine ⟨deliveryPulse_of_target hjob, fun hphase hbelow => ?_, fun hphase hreached => ?_⟩
    · rw [deliveryPulse_of_run hjob hphase, runPulse_below hbelow]
      rfl
    · rw [deliveryPulse_of_run hjob hphase, runPulse_reached hreached, enterTarget_measured,
        measured_left]
      rfl
  · intro p s
    refine ⟨fun hjob => ?_, fun j hjob hphase => ?_, fun j hjob hphase => ⟨?_, ?_, ?_, ?_⟩⟩
    · simp only [drivesChanged, detectorChanged, hjob, and_self]
    · simp only [drivesChanged, detectorChanged, hjob, if_neg hphase, and_self]
    · intro hsp hdl
      simp only [drivesChanged, hjob, if_pos hphase, hsp, hdl]
    · intro hapart
      simp only [drivesChanged, hjob, if_pos hphase]
      cases hsp : spRuns p s <;> cases hdl : dlRuns p s
      · exact absurd (hsp.trans hdl.symm) hapart
      · rfl
      · rfl
      · exact absurd (hsp.trans hdl.symm) hapart
    · intro hsp hdl
      simp only [drivesChanged, hjob, if_pos hphase, hsp, hdl]
      rfl
    · simp only [detectorChanged, hjob, if_pos hphase]
      rfl

/-- Settles O33: the figures of a window by their definitions, the steps by their laws. -/
theorem windowsGiveTwist : Obligations.WindowsGiveTwist := by
  refine ⟨?_, windowClosed_outRun, outRunStep_spec, layRise_spec⟩
  intro j exact_ raw value twist k
  have hvalue : filterStep j.recipe.shift raw j.filter = value := by
    simp only [value]
    cases j.filter <;> rfl
  refine ⟨rfl, rfl, rfl, congrArg some hvalue, ?_, rfl, rfl, rfl, rfl⟩
  show some (LastWindow.mk raw (filteredOf (filterStep j.recipe.shift raw j.filter)) _
    (verdictOf j.recipe.nominal j.recipe.tolLow j.recipe.tolHigh
      (filteredOf (filterStep j.recipe.shift raw j.filter)))) = _
  rw [hvalue]
  rfl

end Sys2Proof.Machine
end

section
/-! SUPPORT. The records entered, their bytes, the slots of the creel and the checks of its requests (R40 to R58). -/

namespace Sys2Proof.Machine

variable {s t : State}

/-- A check that passes may be left out behind the one before it. -/
theorem guarded_second_true {c : Check} {a : Answer} {cs : List Check}
    {act : State → State × Answer} : guarded (c :: (true, a) :: cs) act s = guarded (c :: cs) act s := by
  obtain ⟨ok, b⟩ := c
  cases ok <;> simp [guarded, firstRefusal]

theorem packageField_within {index n : Nat} (h : 1 ≤ n ∧ n ≤ 65535) :
    packageField index n = (true, .field index) :=
  inField_within h.1 h.2

theorem packageField_outside {index n : Nat} (h : ¬(1 ≤ n ∧ n ≤ 65535)) :
    packageField index n = (false, .field index) := by
  rcases not_and_or.mp h with h | h
  · exact inField_below (Nat.not_le.mp h)
  · exact inField_above (Nat.not_le.mp h)

/-! ### The package SPENT first -/

/-- A SPENT package of a list that no other was before. -/
def FirstSpent (packages : List Package) (b : Package) : Prop :=
  b ∈ packages ∧ b.state = .spent ∧
    ∀ x ∈ packages, x.state = .spent → b.spentOrder.getD 0 ≤ x.spentOrder.getD 0

theorem firstSpent_snoc (packages : List Package) (k : Package) :
    firstSpent (packages ++ [k])
      = if k.state = .spent then
          match firstSpent packages with
          | none => some k
          | some b => if k.spentOrder.getD 0 < b.spentOrder.getD 0 then some k else some b
        else firstSpent packages := by
  rw [firstSpent, List.foldl_append]
  rfl

/-- The search finds it wherever there is one. -/
theorem firstSpent_found (packages : List Package) :
    (∀ x ∈ packages, firstSpent packages = none → x.state ≠ .spent) ∧
      ∀ b, firstSpent packages = some b → FirstSpent packages b := by
  induction packages using List.reverseRecOn with
  | nil => simp [firstSpent]
  | append_singleton packages k ih =>
    obtain ⟨hnone, hsome⟩ := ih
    rw [firstSpent_snoc]
    by_cases hk : k.state = .spent
    · rw [if_pos hk]
      cases hfirst : firstSpent packages with
      | none =>
        refine ⟨by simp, fun b hb => ?_⟩
        obtain rfl : k = b := by simpa using hb
        refine ⟨by simp, hk, fun x hx hspent => ?_⟩
        rcases List.mem_append.mp hx with hx | hx
        · exact absurd hspent (hnone x hx hfirst)
        · rw [List.mem_singleton.mp hx]
      | some c =>
        obtain ⟨hmem, hspent, hleast⟩ := hsome c hfirst
        simp only
        split
        · next hlt =>
          refine ⟨by simp, fun b hb => ?_⟩
          obtain rfl : k = b := by simpa using hb
          refine ⟨by simp, hk, fun x hx hx' => ?_⟩
          rcases List.mem_append.mp hx with hx | hx
          · exact hlt.le.trans (hleast x hx hx')
          · rw [List.mem_singleton.mp hx]
        · next hge =>
          refine ⟨by simp, fun b hb => ?_⟩
          obtain rfl : c = b := by simpa using hb
          refine ⟨List.mem_append_left _ hmem, hspent, fun x hx hx' => ?_⟩
          rcases List.mem_append.mp hx with hx | hx
          · exact hleast x hx hx'
          · rw [List.mem_singleton.mp hx]
            exact Nat.not_lt.mp hge
    · rw [if_neg hk]
      refine ⟨fun x hx hfirst => ?_, fun b hb => ?_⟩
      · rcases List.mem_append.mp hx with hx | hx
        · exact hnone x hx hfirst
        · rwa [List.mem_singleton.mp hx]
      · obtain ⟨hmem, hspent, hleast⟩ := hsome b hb
        refine ⟨List.mem_append_left _ hmem, hspent, fun x hx hx' => ?_⟩
        rcases List.mem_append.mp hx with hx | hx
        · exact hleast x hx hx'
        · exact absurd (List.mem_singleton.mp hx ▸ hx') hk

/-- A full table gives up the entry SPENT before every other. -/
theorem createPackage_of_full {k old : Package} (hfull : 96 ≤ s.table.packages.length)
    (hmem : old ∈ s.table.packages) (hspent : old.state = .spent)
    (hfirst : ∀ x ∈ s.table.packages, x.state = .spent → x.number ≠ old.number →
      old.spentOrder.getD 0 < x.spentOrder.getD 0) :
    createPackage k s
      = s.setPackages ((s.table.packages.filter fun x => x.number != old.number) ++ [k]) := by
  obtain ⟨hnone, hsome⟩ := firstSpent_found s.table.packages
  rw [createPackage, if_neg (show ¬s.table.packages.length < tableCapacity from Nat.not_lt.mpr hfull)]
  cases hfound : firstSpent s.table.packages with
  | none => exact absurd hspent (hnone old hmem hfound)
  | some b =>
    obtain ⟨hb, hbspent, hleast⟩ := hsome b hfound
    have hnumber : b.number = old.number := by
      by_contra hne
      exact Nat.not_lt.mpr (hleast old hmem hspent) (hfirst b hb hbspent hne)
    simp only [hnumber]

theorem grade_ofCode {n : Nat} (h : 1 ≤ n) :
    Grade.ofCode n = if n = 1 then .a else if n = 2 then .b else .c := by
  simp only [Grade.ofCode, show (n ≤ 1) = (n = 1) from propext (by omega)]

theorem spanKind_ofCode {n : Nat} (h : 1 ≤ n) :
    SpanKind.ofCode n = if n = 1 then .low else if n = 2 then .high else .mixed := by
  simp only [SpanKind.ofCode, show (n ≤ 1) = (n = 1) from propext (by omega)]

/-! ### The bytes of a record -/

theorem presentBit_one (n : Option Nat) :
    presentBit 1 n = be 1 (match n with
      | some v => 128 + v
      | none => 0) := by
  cases n <;> rfl

theorem seatField_eq (k : Package) :
    k.seatField
      = (match k.seat with
        | some (place, reserve) => 128 + place + if reserve then 16 else 0
        | none => 0)
        + (if k.feedStart.isSome then 64 else 0) + if k.leftover.isSome then 32 else 0 := by
  rw [Package.seatField]
  rcases k.seat with _ | ⟨place, reserve⟩
  · rfl
  · simp only [seatCode, Option.map_some, Option.getD_some, Option.isSome_some, if_true]
    omega

theorem packageBytes_length (k : Package) : k.bytes.length = 112 := by
  simp [Package.bytes, be_length, presentBit, gradeByte, optionNumber, yesNo]

/-! ### The slots of a place -/

theorem place_of_creel (h : t.table.creel = s.table.creel) (q : Fin 4) : t.place q = s.place q := by
  rw [State.place, h, State.place]

theorem checkCreel_place (q : Fin 4) (s : State) : (checkCreel s).place q = s.place q :=
  place_of_table (congrArg State.table (noticesOnly_checkCreel s)) q

theorem checkCreel_package (n : Nat) (s : State) : (checkCreel s).package n = s.package n :=
  package_of_table (congrArg State.table (noticesOnly_checkCreel s)) n

theorem judgeRunout_place (q : Fin 4) (s : State) : (judgeRunout s).place q = s.place q :=
  place_of_table (congrArg State.table (noticesOnly_judgeRunout s)) q

theorem placePackage_place (n : Nat) (i q : Fin 4) (s : State) :
    (placePackage n i s).place q
      = if q = i then
          if (s.place i).current.isSome then { s.place i with reserve := some n }
          else { s.place i with current := some n }
        else s.place q := by
  rw [placePackage]
  cases (s.place i).current with
  | none =>
    exact (checkCreel_place ..).trans (setPlace_place_at ..)
  | some m => exact setPlace_place_at ..

theorem placePackage_package (n : Nat) (i : Fin 4) (s : State) :
    (placePackage n i s).package n
      = (s.package n).map fun k =>
          { k with
            state := .placed, seat := some (i.val, (s.place i).current.isSome), consumed := 0
            warned := false } := by
  have hseated : ∀ reserve : Bool, (s.updatePackage n fun r =>
      { r with state := .placed, seat := some (i.val, reserve), consumed := 0, warned := false }).package n
      = (s.package n).map fun k =>
          { k with state := .placed, seat := some (i.val, reserve), consumed := 0, warned := false } := by
    intro reserve
    refine (updatePackage_package s n n (fun r =>
      { r with state := .placed, seat := some (i.val, reserve), consumed := 0, warned := false })
      fun _ => rfl).trans ?_
    simp only [if_true]
  rw [placePackage]
  cases (s.place i).current with
  | none =>
    exact (checkCreel_package ..).trans (hseated false)
  | some m => exact hseated true

theorem moveReserve_package (i : Fin 4) (r : Nat) (s : State) :
    (moveReserve i s).package r
      = if (s.place i).reserve = some r then
          (s.package r).map fun x => { x with seat := some (i.val, false) }
        else s.package r := by
  rw [moveReserve]
  cases (s.place i).reserve with
  | none => rfl
  | some m =>
    refine (updatePackage_package _ m r (fun x => { x with seat := some (i.val, false) })
      fun _ => rfl).trans ?_
    by_cases h : m = r
    · simp only [h, if_true]
      rfl
    · simp only [Ne.symm h, if_false, Option.map_id', Option.some.injEq, h]
      rfl

/-- The record of a package taken from a slot that no other takes over from. -/
theorem unplacePlaced_package {i : Fin 4} {reserve : Bool} {n : Nat} {k : Package}
    (hk : s.package n = some k) (h : (s.place i).reserve ≠ some n ∨ reserve = true) :
    (unplacePlaced i reserve n s).package n = some { k with state := .doffed, seat := none } := by
  have hunplaced : (s.updatePackage n Package.unplaced).package n = some k.unplaced := by
    rw [updatePackage_package s n n Package.unplaced fun _ => rfl, hk]
    simp only [Option.map_some, if_true]
  rw [unplacePlaced, checkCreel_package]
  cases reserve with
  | true => exact hunplaced
  | false =>
    show (moveReserve i _).package n = _
    rw [moveReserve_package, if_neg]
    · exact hunplaced
    · exact h.resolve_right Bool.false_ne_true

/-! ### The reserve spliced in -/

theorem compareWarning_creel (i : Fin 4) (p n : Nat) (s : State) :
    (compareWarning i p n s).table.creel = s.table.creel := by
  unfold compareWarning
  split
  · split
    · rw [enterReport_table]
      rfl
    · rfl
  · rfl

/-- A package taken over feeds from its slot; no other slot changes. -/
theorem spliceFeed_place (i q : Fin 4) (old next : Package) (s : State) :
    (spliceFeed i old next s).place q
      = if q = i then { current := some next.number, reserve := none, runout := false }
        else s.place q := by
  rw [spliceFeed, judgeRunout_place, setPlace_place_at]
  have hwarned : ∀ (u v : State) (p n : Nat), u.table.creel = v.table.creel → ∀ r,
      (compareWarning i p n u).place r = v.place r := fun u v p n h =>
    place_of_creel ((compareWarning_creel i p n u).trans h)
  have hmarked : ∀ (v : State) (p : Nat) (m : NewMark),
      (insertMark .rope p m (beginFeeding i p p next v)).table.creel = v.table.creel := by
    intro v p m
    have htable := (insertMarks_table p [m] _).trans (beginFeeding_table i p p next v)
    have hcreel := congrArg Table.creel htable
    exact hcreel
  have hremoved : ∀ r, (removePackageMarks old.number
      (spend old.number (old.wound - old.consumed) s)).place r = s.place r := fun r =>
    place_of_table (congrArg State.table (removePackageMarks_eq ..)) r
  split
  · rw [hwarned _ _ _ _ (hmarked ..), setPlace_place_at, if_pos rfl]
  · next h => rw [hwarned _ _ _ _ (hmarked ..), setPlace_place_at, if_neg h, hremoved]

end Sys2Proof.Machine
end

section
/-! The obligations on the records and the creel (R40 to R58). -/

namespace Sys2Proof.Machine

/-- Settles O34: the entry checks are the statement's; a full table gives up the entry SPENT first. -/
theorem addPackageCreatesRecord : Obligations.AddPackageCreatesRecord := by
  refine ⟨fun tag e s hready => ?_, fun k s hroom => if_pos hroom,
    fun k old s => createPackage_of_full, fun e hgrade hkinds => ?_⟩
  · rw [exec_addPackage _ _ hready]
    exact congrArg Host.Outcome.next (replied_guarded rfl)
  · have hspans : e.spans.map (fun x => (⟨x.start, x.stop, SpanKind.ofCode x.kind⟩ : Span))
        = e.spans.map fun x =>
          ⟨x.start, x.stop, if x.kind = 1 then .low else if x.kind = 2 then .high else .mixed⟩ :=
      List.map_congr_left fun x hx => by rw [spanKind_ofCode (hkinds x hx)]
    rw [enteredPackage, hspans, grade_ofCode hgrade]

/-- Settles O35: the record read, and its bytes part by part. -/
theorem readPackageCarriesRecord : Obligations.ReadPackageCarriesRecord := by
  refine ⟨fun tag n s hready => ?_, fun k => ⟨?_, packageBytes_length k⟩⟩
  · rw [exec_readPackage _ _ hready, readPackageAct]
    by_cases hn : 1 ≤ n ∧ n ≤ 65535
    · rw [packageField_within hn, guarded_cons_true, guarded_nil, if_pos hn]
      cases s.package n <;> rfl
    · rw [packageField_outside hn, guarded_cons_false, if_neg hn]
  · rw [Package.bytes, presentBit_one, presentBit_one, seatField_eq, gradeByte, gradeCode_eq]
    have hwarned : yesNo k.warned = be 1 (if k.warned then 1 else 0) := by
      cases k.warned <;> rfl
    rw [hwarned]
    rfl

/-- Settles O36: the checks in turn. -/
theorem removePackageDeletesRecord : Obligations.RemovePackageDeletesRecord := by
  intro tag n s hready
  rw [exec_removePackage _ _ hready, removePackageAct]
  by_cases hn : 1 ≤ n ∧ n ≤ 65535
  · rw [packageField_within hn, guarded_cons_true, if_pos hn]
    cases hk : s.package n with
    | none => rfl
    | some k =>
      rw [Option.isSome_some, guarded_cons_true]
      cases hstate : k.state <;> simp [hstate, PackageState.removable, guarded_cons_true, guarded_nil,
        guarded_cons_false, deletePackage]
  · rw [packageField_outside hn, guarded_cons_false, if_neg hn]

/-- Settles O37: the placement by its parts, the rise and the consumption by their laws. -/
theorem placePackageFillsSlot : Obligations.PlacePackageFillsSlot := by
  refine ⟨?_, ?_, ?_, fun _ _ _ _ => ⟨rfl, rfl⟩, feedAtRise_spec, ?_, consume_spec⟩
  · intro tag n i s hready
    rw [exec_placePackage _ _ _ hready, placePackageAct, fin_ofNat_val,
      inField_within (Nat.zero_le _) (Nat.le_of_lt_succ i.isLt), guarded_second_true]
    exact congrArg Host.Outcome.next (replied_guarded rfl)
  · intro tag n i s hready h1 h2 hi
    rw [exec_placePackage _ _ _ hready, placePackageAct, packageField_within ⟨h1, h2⟩,
      guarded_cons_true, inField_above hi, guarded_cons_false]
  · intro n i k s hk t reserve
    obtain ⟨hcurrent, hreserve, hothers⟩ := placePackage_causes n i s
    refine ⟨?_, fun q hq => ?_, ?_, hcurrent, hreserve, hothers⟩
    · exact (placePackage_place n i i s).trans (if_pos rfl)
    · exact (placePackage_place n i q s).trans (if_neg hq)
    · exact (placePackage_package n i s).trans (by rw [hk]; rfl)
  · intro start feed lay k x
    exact ⟨mem_projection start feed lay k, projection_length start feed lay k,
      projection_sorted start feed lay k⟩

/-- Settles O38: the request by the state of its record, the two removals by their laws. -/
theorem unplacePackageReturnsRecord : Obligations.UnplacePackageReturnsRecord := by
  refine ⟨?_, ?_, ?_, ?_, creelLacks_iff⟩
  · intro tag n s hready hn
    rw [exec_unplacePackage _ _ hready, unplacePackageAct, packageField_outside (by omega),
      guarded_cons_false]
  · intro tag n s hready h1 h2
    rw [exec_unplacePackage _ _ hready, unplacePackageAct, packageField_within ⟨h1, h2⟩,
      guarded_cons_true]
    refine ⟨fun hk => ?_, fun k hk hplaced hfeeding => ?_, fun k i reserve hk hstate hseat =>
      ⟨?_, unplacePlaced_package hk⟩, fun k i reserve hk hstate hseat hrun => ?_,
      fun k i reserve hk hstate hseat hrest => ?_⟩
    · rw [hk, Option.isSome_none, guarded_cons_false]
    all_goals simp only [hk, Option.isSome_some, guarded_cons_true, guarded_nil]
    · cases hstate : k.state with
      | placed => exact absurd hstate hplaced
      | feeding => exact absurd hstate hfeeding
      | winding | doffed | spent => rfl
    · simp only [hstate, hseat, fin_ofNat_val]
    · simp only [hstate, hseat, fin_ofNat_val, if_pos hrun]
    · simp only [hstate, hseat, fin_ofNat_val, hrest, Bool.false_eq_true, if_false]
  · intro n i reserve k s hk
    exact unplacePlaced_spec n i reserve s
  · intro n i k s hk hreserve left t
    obtain ⟨hleft, hspent, hothers, hplace, hplaces, hmarks, hrunout, hcreel, hrest⟩ :=
      unplaceFeeding_spec n i k s hk hreserve
    have hfull := unplaceFeeding_marksFull i k s
    rw [number_of_package hk] at hfull
    exact ⟨hleft, hspent, hothers, hplace, hplaces, hmarks, hfull, hrunout, hcreel, hrest⟩

/-- Settles O39: the checks in turn, the splice by its laws. -/
theorem spliceFeedTakesOver : Obligations.SpliceFeedTakesOver := by
  refine ⟨?_, ?_, ?_, ?_, ?_, ?_⟩
  · intro tag i old next s hready hplant hcopy hused hcurrent hfeeding hreserve hplaced
    refine ⟨?_, ?_, fun q hq => ?_, ?_⟩
    · rw [exec_spliceFeed _ _ hready, spliceFeedAct, fin_ofNat_val, guarded_of_passed]
      · simp only [hcurrent, hreserve]
      · rw [inField_within (Nat.zero_le _) (Nat.le_of_lt_succ i.isLt)]
        simp [firstRefusal, configured, hplant, hcopy, hused, inState, hcurrent, hreserve, hfeeding,
          hplaced]
    · exact (spliceFeed_place i i old next s).trans (if_pos rfl)
    · exact (spliceFeed_place i q old next s).trans (if_neg hq)
    · exact len_of_ground (ground_spliceFeed s i old next) .rope
  · intro tag i s hready hplant hfails
    rw [exec_spliceFeed _ _ hready, spliceFeedAct, fin_ofNat_val,
      inField_within (Nat.zero_le _) (Nat.le_of_lt_succ i.isLt), guarded_cons_true, configured, hplant,
      guarded_cons_true, guarded_of_failed (a := .state .wrongState)]
    simp only [inState]
    revert hfails
    cases s.ropeCopy.isSome && s.used i <;>
      cases (s.currentPackage i).map Package.state == some .feeding <;>
      cases (s.reservePackage i).map Package.state == some .placed <;> simp [firstRefusal]
  · intro tag i s hready hi
    rw [exec_spliceFeed _ _ hready, spliceFeedAct, inField_above hi, guarded_cons_false]
  · intro tag i s hready hplant
    rw [exec_spliceFeed _ _ hready, spliceFeedAct, fin_ofNat_val,
      inField_within (Nat.zero_le _) (Nat.le_of_lt_succ i.isLt), guarded_cons_true, configured, hplant,
      Option.isSome_none, guarded_cons_false]
  · exact spliceFeed_spec
  · exact fun i old next s _ => spliceFeed_eq i old next s

end Sys2Proof.Machine
end

section
/-! SUPPORT. What the marks and the plan of a line leave of the part beside it; a pulse, a load and a position set
(R70 to R76, R80 to R87, R128 to R133, R175). -/

namespace Sys2Proof.Machine

variable {s t : State}

/-! ### Operations of one line -/

/-- The second state is the first one but for one line, the Stop Unit and the Link Port. -/
def LineOnly (l : LineId) (s t : State) : Prop :=
  t = ({ s with stops := t.stops, link := t.link } : State).setLine l (t.line l)

theorem lineOnly_refl (l : LineId) (s : State) : LineOnly l s s := by
  cases l <;> rfl

theorem lineOnly_trans {l : LineId} {u : State} (h : LineOnly l s t) (g : LineOnly l t u) :
    LineOnly l s u := by
  rw [LineOnly] at *
  rw [g, h]
  cases l <;> rfl

theorem lineOnly_setAct (l : LineId) (x : LineActions) (s : State) : LineOnly l s (s.setAct l x) := by
  cases l <;> rfl

theorem lineOnly_setPack (l : LineId) (x : PackPoint) (s : State) :
    LineOnly l s (s.setPack l x) := by
  cases l <;> rfl

theorem lineOnly_setLen (l : LineId) (x : LengthMeter) (s : State) :
    LineOnly l s (s.setLen l x) := by
  cases l <;> rfl

theorem lineOnly_of_notices (l : LineId) (h : NoticesOnly s t) : LineOnly l s t := by
  rw [NoticesOnly] at h
  rw [LineOnly, h]
  cases l <;> rfl

theorem line_setLine_other {l k : LineId} (h : k ≠ l) (x : Line) (s : State) :
    (s.setLine l x).line k = s.line k :=
  match l, k, h with
  | .rope, .net, _ => rfl
  | .net, .rope, _ => rfl

/-- Such an operation leaves the other line, the recipes in force, the lay and the Knot Scanner. -/
theorem lineOnly_keeps {l : LineId} (h : LineOnly l s t) :
    (∀ k, k ≠ l → t.line k = s.line k) ∧ t.ropeCopy = s.ropeCopy ∧ t.netCopy = s.netCopy ∧
      t.lay = s.lay ∧ t.knot = s.knot := by
  rw [LineOnly] at h
  refine ⟨fun k hk => ?_, ?_⟩ <;> rw [h]
  · exact line_setLine_other hk _ _
  · cases l <;> exact ⟨rfl, rfl, rfl, rfl⟩

theorem lineOnly_setMarks (l : LineId) (marks : List Mark) (s : State) :
    LineOnly l s (s.setMarks l marks) :=
  lineOnly_setAct ..

theorem lineOnly_setActions (l : LineId) (actions : List Action) (s : State) :
    LineOnly l s (s.setActions l actions) :=
  lineOnly_setAct ..

theorem lineOnly_cutFires (l : LineId) (s : State) : LineOnly l s (cutFires l s) := by
  have hwaits := lineOnly_trans (lineOnly_setPack l { s.pack l with state := .cutting, phase := some .wait } s)
    (lineOnly_of_notices l (noticesOnly_setCause (machineOf l) .cut _))
  unfold cutFires
  simp only
  split
  · exact hwaits
  · exact lineOnly_trans hwaits (lineOnly_setPack ..)

theorem lineOnly_fireAct (l : LineId) (a : Act) (s : State) : LineOnly l s (fireAct l a s) := by
  cases a with
  | sprayOn ref => exact lineOnly_setAct ..
  | sprayOff ref => exact lineOnly_trans (lineOnly_setAct l _ s) (lineOnly_setMarks ..)
  | cut => exact lineOnly_cutFires l s

theorem lineOnly_queueAction (l : LineId) (p : Nat) (a : Action) (s : State) :
    LineOnly l s (queueAction l p a s) := by
  rw [queueAction]
  split
  · exact lineOnly_fireAct ..
  · exact lineOnly_setActions ..

theorem lineOnly_queuePair (l : LineId) (how : Making) (on off : Action) (s : State) :
    LineOnly l s (queuePair l how on off s) := by
  cases how with
  | atRise => exact lineOnly_setActions ..
  | atOnce p => exact lineOnly_trans (lineOnly_queueAction l p on s) (lineOnly_queueAction ..)

theorem lineOnly_judgeSpray (l : LineId) (how : Making) (m : Mark) (s : State) :
    LineOnly l s (judgeSpray l how m s) := by
  unfold judgeSpray
  simp only
  split
  · split
    · exact lineOnly_setMarks ..
    · split
      · exact lineOnly_trans (lineOnly_setMarks l _ s) (lineOnly_queuePair ..)
      · exact lineOnly_setMarks ..
  · exact lineOnly_refl ..

theorem lineOnly_makeAtOnce (l : LineId) (p ref : Nat) (s : State) :
    LineOnly l s (makeAtOnce l p ref s) := by
  unfold makeAtOnce
  split
  · split
    · exact lineOnly_trans (lineOnly_setMarks l _ s) (lineOnly_judgeSpray ..)
    · exact lineOnly_refl ..
  · exact lineOnly_refl ..

theorem lineOnly_handMark (l : LineId) (p : Nat) (n : NewMark) (s : State) :
    LineOnly l s (handMark l p n s).1 := by
  unfold handMark
  simp only
  refine lineOnly_trans ?_ (lineOnly_makeAtOnce ..)
  split
  · exact lineOnly_trans (lineOnly_setAct l _ s) (lineOnly_of_notices l (noticesOnly_judgeHighWater ..))
  · split
    · exact lineOnly_trans (lineOnly_setAct l _ s) (lineOnly_of_notices l (noticesOnly_judgeLowWater ..))
    · exact lineOnly_setAct ..
  · exact lineOnly_setAct ..

theorem lineOnly_handLaySpan (seen : Nat) (x : ClosedSpan) (s : State) :
    LineOnly .rope s (handLaySpan seen x s) :=
  lineOnly_trans (lineOnly_handMark ..) (lineOnly_of_notices .rope (noticesOnly_enterReport ..))

theorem lineOnly_handMeshSpan (x : ClosedSpan) (s : State) :
    LineOnly .net s (handMeshSpan x s) :=
  lineOnly_trans (lineOnly_handMark ..) (lineOnly_of_notices .net (noticesOnly_enterReport ..))

theorem lineOnly_placeCut (l : LineId) (trigger : Nat) (s : State) :
    LineOnly l s (placeCut l trigger s) := by
  unfold placeCut
  simp only
  split
  · exact lineOnly_trans (lineOnly_setActions l _ s) (lineOnly_cutFires ..)
  · exact lineOnly_trans (lineOnly_setActions l _ s) (lineOnly_setActions ..)

theorem lineOnly_planningEvent (l : LineId) (p : Nat) (s : State) :
    LineOnly l s (planningEvent l p s) := by
  unfold planningEvent
  split
  · split
    · exact lineOnly_trans (lineOnly_setPack l _ s) (lineOnly_placeCut ..)
    · exact lineOnly_refl ..
  · exact lineOnly_refl ..

theorem lineOnly_tryBinding (l : LineId) (s : State) : LineOnly l s (tryBinding l s) := by
  unfold tryBinding
  split
  · split
    · exact lineOnly_of_notices l (noticesOnly_enterReport ..)
    · split
      · exact lineOnly_of_notices l (noticesOnly_enterReport ..)
      · exact lineOnly_trans (lineOnly_setPack l _ s) (lineOnly_planningEvent ..)
  · exact lineOnly_refl ..

theorem lineOnly_packLoads (l : LineId) (s : State) : LineOnly l s (packLoads l s) := by
  unfold packLoads
  split
  · exact lineOnly_trans (lineOnly_setPack l _ s) (lineOnly_tryBinding ..)
  · exact lineOnly_trans (lineOnly_setPack l _ s) (lineOnly_tryBinding ..)
  · exact lineOnly_trans (lineOnly_setPack l _ s) (lineOnly_tryBinding ..)
  · exact lineOnly_refl ..

theorem lineOnly_packRestarts (l : LineId) (v : Nat) (s : State) :
    LineOnly l s (packRestarts l v s) := by
  rw [packRestarts]
  split
  · exact lineOnly_refl ..
  · exact lineOnly_setPack ..

/-! ### A pulse of a wheel -/

theorem nodup_eraseDups {α : Type} [BEq α] [LawfulBEq α] :
    (l : List α) → l.eraseDups.Nodup
  | [] => List.nodup_nil
  | a :: rest => by
    rw [List.eraseDups_cons, List.nodup_cons, List.mem_eraseDups]
    exact ⟨by simp, nodup_eraseDups _⟩
termination_by l => l.length
decreasing_by exact Nat.lt_succ_of_le (List.length_filter_le ..)

theorem mem_riseBlocks (b : RiseBlock) : b ∈ riseBlocks := by
  cases b <;> decide

theorem blockOrder_spec (order : List RiseBlock) :
    (blockOrder order).Nodup ∧ (∀ b, b ∈ blockOrder order) ∧
      ∃ rest, blockOrder order = order.eraseDups ++ rest :=
  ⟨nodup_eraseDups _, fun b => List.mem_eraseDups.mpr (List.mem_append_right _ (mem_riseBlocks b)),
    _, List.eraseDups_append⟩

theorem clampNat_top (v : Int) : clampNat v 0 top32 = (max 0 (min v 4294967295)).toNat := by
  rw [clampNat, top32]
  omega

/-- R74: the total, the position and the saturation of a line after a pulse. -/
theorem moved_eq (c : Constants) (forward : Bool) (x : LengthMeter) :
    x.moved c forward
      = let q := if forward then min (x.q + 1) 140737488355327 else max (x.q - 1) (-140737488355328)
        let value : Int := x.base + q * c.k / ((c.n * 10 ^ 9 : Nat) : Int)
        { x with
          q := q, p := (max 0 (min value 4294967295)).toNat
          saturated := x.saturated || decide (4294967295 ≤ value) } := by
  simp only [LengthMeter.moved, clampNat_top]
  rfl

theorem linePulse_of_loaded {l : LineId} {c : Constants} {y : LengthMeter} {forward : Bool}
    (hc : (s.len l).constants = some c) (hy : (s.len l).moved c forward = y)
    (order : List RiseBlock) :
    linePulse l forward order s
      = if (s.len l).p < y.p then handRise l order (s.len l).p y.p (s.setLen l y)
        else if y.p < (s.len l).p ∧ l = .rope then handFall y.p (s.setLen l y)
        else s.setLen l y := by
  subst hy
  simp only [linePulse, hc]

theorem eq_but_highMark {x y : LengthMeter} (h : { x with highMark := 0 } = { y with highMark := 0 }) :
    x = { y with highMark := x.highMark } := by
  cases x
  cases y
  simpa using h

/-- What the blocks of a line do leaves its length but for the highest position. -/
theorem linePulse_len {l : LineId} {c : Constants} (h : (s.len l).constants = some c)
    (forward : Bool) (order : List RiseBlock) :
    ∃ top, (linePulse l forward order s).len l
      = { (s.len l).moved c forward with highMark := top } := by
  rw [linePulse_of_loaded h rfl]
  generalize (s.len l).moved c forward = y
  have hset : (s.setLen l y).len l = y := by
    rw [setLen_len_at, if_pos rfl]
  split
  · exact ⟨_, eq_but_highMark ((len_of_ground0 (ground0_handRise ..) l).trans (by rw [hset]))⟩
  · refine ⟨y.highMark, ?_⟩
    split
    · rw [len_of_ground (ground_handFall ..), hset]
    · rw [hset]

/-! ### A load of a line -/

theorem judged_congr {c : Instr} {a b : List Check} {effect : State} {fields : List Byte}
    (h : firstRefusal a = firstRefusal b) :
    s.judged c a effect fields = s.judged c b effect fields := by
  rw [State.judged, h, State.judged]

/-- Checks that fail for certain answer as the first of them does, whatever the act. -/
theorem replied_guarded_refused {c : Instr} {checks all : List Check} {refusal : Check}
    {act : State → State × Answer} (hfalse : refusal.1 = false)
    (hsame : firstRefusal all = firstRefusal (checks ++ [refusal])) :
    (guarded all act s).1.replied c (guarded all act s).2 = s.judged c (checks ++ [refusal]) s [] := by
  rw [← judged_congr hsame]
  refine replied_guarded_of fun hpassed => ?_
  have htrue := firstRefusal_eq_none.mp (hsame ▸ hpassed) refusal (by simp)
  exact absurd (hfalse.symm.trans htrue) Bool.false_ne_true

theorem firstRefusal_passed (a b : List Check) (x : Answer) :
    firstRefusal (a ++ (true, x) :: b) = firstRefusal (a ++ b) := by
  rw [firstRefusal_append, firstRefusal_append]
  rfl

theorem firstRefusal_refused (a b : List Check) (x : Answer) :
    firstRefusal (a ++ (false, x) :: b) = firstRefusal (a ++ [(false, x)]) := by
  rw [firstRefusal_append, firstRefusal_append]
  rfl

theorem slotChecks_of_valid {slot check : Nat} {body : RecipeBody} (suits : RecipeBody → Bool)
    (h : judgeSlot s.flash slot = .valid body check) :
    slotChecks suits slot s
      = [(!s.slotWritten slot, .state .slotBeingWritten), (suits body, .state .slotEmpty),
        (true, .state .slotCorrupt)] := by
  simp only [slotChecks, h]

theorem slotChecks_of_empty {slot : Nat} (suits : RecipeBody → Bool)
    (h : judgeSlot s.flash slot = .empty) :
    slotChecks suits slot s
      = [(!s.slotWritten slot, .state .slotBeingWritten), (false, .state .slotEmpty),
        (true, .state .slotCorrupt)] := by
  simp only [slotChecks, h]

theorem slotChecks_of_corrupt {slot check : Nat} (suits : RecipeBody → Bool)
    (h : judgeSlot s.flash slot = .corrupt check) :
    slotChecks suits slot s
      = [(!s.slotWritten slot, .state .slotBeingWritten), (true, .state .slotEmpty),
        (false, .state .slotCorrupt)] := by
  simp only [slotChecks, h]

/-- What a load does with its checks passed. -/
def loadChecked (l : LineId) (slot : Nat) (s : State) : State × Answer :=
  match judgeSlot s.flash slot with
  | .valid body check =>
    guarded [(fitsGrid body s, .state .plantMismatch)]
      (fun s => (loadLine l slot check body s, .done [])) s
  | _ => (s, .state .slotEmpty)

/-- The checks of a load in one list. -/
theorem loadLineRecipeAct_eq (l : LineId) (slot : Nat) (s : State) :
    loadLineRecipeAct (machineOf l).val slot s
      = guarded ([inField 2 0 31 slot, configured s]
          ++ ([lineStill l s, noneFeeding l s, (packTakesLoad l s, .state .wrongState)]
            ++ slotChecks (suitsLine l) slot s)) (loadChecked l slot) s := by
  rw [loadLineRecipeAct, lineField_machineOf, guarded_cons_true, slotField]
  exact guarded_append (onLine_machineOf ..)

/-- The state of a line's load before its machinery, its pack point and its creel: the recipe in force, the segment begun. -/
def segmentBegun (l : LineId) (slot check : Nat) (body : RecipeBody) (s : State) : State :=
  beginSegment l (constantsOf l (setCopy l slot check body (closeSpans l s)))
    (setCopy l slot check body (closeSpans l s))

theorem loadLine_eq (l : LineId) (slot check : Nat) (body : RecipeBody) (s : State) :
    loadLine l slot check body s
      = creelLoads l (packLoads l (machineryLoads l (segmentBegun l slot check body s))) := rfl

theorem packLoads_ground (l : LineId) (s : State) : (packLoads l s).ground = s.ground := by
  unfold packLoads openCoil
  split <;> simp

theorem loadLine_ground (l : LineId) (slot check : Nat) (body : RecipeBody) (s : State) :
    (loadLine l slot check body s).ground = (segmentBegun l slot check body s).ground := by
  rw [loadLine_eq]
  cases l with
  | rope => exact (ground_checkCreel ..).trans ((packLoads_ground ..).trans (ground_layRestart ..))
  | net => exact packLoads_ground ..

theorem closeSpans_ground (l : LineId) (s : State) : (closeSpans l s).ground = s.ground := by
  cases l with
  | rope => exact ground_closeLaySpan s
  | net => exact ground_closeMeshSpan s

theorem creelLoads_lineOnly (l : LineId) (s : State) : LineOnly l s (creelLoads l s) := by
  cases l with
  | rope => exact lineOnly_of_notices .rope (noticesOnly_checkCreel s)
  | net => exact lineOnly_refl ..

theorem closeSpans_line {l k : LineId} (h : k ≠ l) (s : State) :
    (closeSpans l s).line k = s.line k := by
  cases l with
  | rope =>
    show (handLaySpan? _ (closeAt s.lay.outRun s.lay.span) _).line k = _
    cases closeAt s.lay.outRun s.lay.span with
    | none => cases k <;> rfl
    | some x =>
      refine ((lineOnly_keeps (lineOnly_handLaySpan ..)).1 k h).trans ?_
      cases k <;> rfl
  | net =>
    show (handMeshSpan? (closeAt s.knot.outRun s.knot.span) _).line k = _
    cases closeAt s.knot.outRun s.knot.span with
    | none => cases k <;> rfl
    | some x =>
      refine ((lineOnly_keeps (lineOnly_handMeshSpan ..)).1 k h).trans ?_
      cases k <;> rfl

/-- A load of a line leaves the other. -/
theorem loadLine_line {l k : LineId} (h : k ≠ l) (slot check : Nat) (body : RecipeBody) (s : State) :
    (loadLine l slot check body s).line k = s.line k := by
  have hloaded := lineOnly_trans
    (lineOnly_packLoads l (machineryLoads l (segmentBegun l slot check body s)))
    (creelLoads_lineOnly l _)
  rw [loadLine_eq, (lineOnly_keeps hloaded).1 k h, ← closeSpans_line h s]
  match l, k, h with
  | .rope, .net, _ => cases body <;> rfl
  | .net, .rope, _ => cases body <;> rfl

/-- The segment begun: the constants of the recipe in force, the position as the base. -/
theorem segmentBegun_len (l : LineId) (slot check : Nat) (body : RecipeBody) (s : State) :
    (segmentBegun l slot check body s).len l
      = { s.len l with
          constants := some (constantsOf l (setCopy l slot check body (closeSpans l s)))
          base := (s.len l).p, q := 0, saturated := decide ((s.len l).p = 4294967295) } := by
  have hlen : (setCopy l slot check body (closeSpans l s)).len l = s.len l := by
    rw [← len_of_ground (closeSpans_ground l s) l]
    cases l <;> cases body <;> rfl
  rw [segmentBegun, beginSegment, hlen, len_setLen]

theorem plantD_congr (h : t.plant = s.plant) : t.plantD = s.plantD := by
  rw [State.plantD, h, State.plantD]

theorem closeSpans_plantD (l : LineId) (s : State) : (closeSpans l s).plantD = s.plantD :=
  plantD_congr (congrArg (fun g => g.2.2.1) (closeSpans_ground l s))

theorem ropeCopy_of_ground (h : t.ground = s.ground) : t.ropeCopy = s.ropeCopy :=
  congrArg (fun g => g.2.2.2.1) h

theorem netCopy_of_ground (h : t.ground = s.ground) : t.netCopy = s.netCopy :=
  congrArg (fun g => g.2.2.2.2.1) h

theorem packTakesLoad_iff (l : LineId) (s : State) :
    packTakesLoad l s = true ↔
      (s.pack l).state = .noCoil ∨
        (((s.pack l).state = .opened ∨ (s.pack l).state = .bound) ∧
          ∀ x0, (s.pack l).coilStart = some x0 → (s.len l).p ≤ s.cutterOffset l + x0) := by
  have hlength : (s.lengthSoFar l == 0) = true ↔
      ∀ x0, (s.pack l).coilStart = some x0 → (s.len l).p ≤ s.cutterOffset l + x0 := by
    rw [State.lengthSoFar]
    cases (s.pack l).coilStart with
    | none => simp
    | some x0 => simp [State.lengthFrom, Nat.sub_eq_zero_iff_le]
  rw [packTakesLoad]
  cases (s.pack l).state <;> simp [hlength]

theorem fitsGrid_iff (body : RecipeBody) (s : State) :
    fitsGrid body s = true ↔
      ∀ r, body = .net r → ∀ x ∈ r.pattern, x.last < 8 * s.plantD.driveLines := by
  cases body with
  | net r => simp [fitsGrid]
  | twist r => simp [fitsGrid]
  | rope r => simp [fitsGrid]
  | other code => simp [fitsGrid]

/-! ### A position set -/

/-- The notice of a position set, given to the line with its length and its actions begun afresh. -/
def positionNoticed (l : LineId) (v : Nat) (s : State) : State :=
  stopNotice (machineOf l) 0 (StopCause.only .marksFull ||| StopCause.only .watch)
    ((s.setLen l ((s.len l).setTo v)).setAct l
      ((s.setLen l ((s.len l).setTo v)).act l).cleared)

theorem positionNoticed_lineOnly (l : LineId) (v : Nat) (s : State) :
    LineOnly l s (positionNoticed l v s) :=
  lineOnly_trans (lineOnly_setLen l _ s) (lineOnly_trans (lineOnly_setAct l _ _)
    (lineOnly_of_notices l (noticesOnly_stopNotice ..)))

theorem setPosition_line_eq (l k : LineId) (v : Nat) (s : State) :
    (setPosition l v s).line k = (packRestarts l v (positionNoticed l v s)).line k := by
  cases l <;> cases k <;> rfl

theorem setPosition_stops (l : LineId) (v : Nat) (s : State) :
    (setPosition l v s).stops = (positionNoticed l v s).stops := by
  have hrestarts : (packRestarts l v (positionNoticed l v s)).stops = (positionNoticed l v s).stops := by
    rw [packRestarts]
    split
    · rfl
    · cases l <;> rfl
  rw [← hrestarts]
  cases l <;> rfl

theorem setPosition_hasCause (l : LineId) (v : Nat) (s : State) {c : StopCause}
    (h : c.isIn (StopCause.only .marksFull ||| StopCause.only .watch) = true) :
    (setPosition l v s).hasCause (machineOf l) c = false := by
  rw [hasCause_congr (setPosition_stops l v s), positionNoticed, hasCause_stopNotice, if_pos rfl, h,
    Bool.not_true, Bool.and_false]

/-- The lines after a position set: the length at the value, the coil begun there, the other line as it was. -/
theorem setPosition_line {l other : LineId} (v : Nat) (s : State) (h : other ≠ l) :
    (setPosition l v s).len l
        = { s.len l with
            base := v, q := 0, p := v, highMark := v, saturated := decide (v = 4294967295) } ∧
      ((s.pack l).state ≠ .noCoil →
        ((setPosition l v s).pack l).coilStart = some v ∧ ((setPosition l v s).pack l).packages = []) ∧
      (setPosition l v s).line other = s.line other := by
  have hlen : (positionNoticed l v s).len l = (s.len l).setTo v := by
    rw [positionNoticed, stopNotice_only]
    cases l <;> rfl
  have hpack : (positionNoticed l v s).pack l = s.pack l := by
    rw [positionNoticed, stopNotice_only]
    cases l <;> rfl
  refine ⟨?_, fun hcoil => ?_, ?_⟩
  · rw [State.len, setPosition_line_eq]
    show (packRestarts l v (positionNoticed l v s)).len l = _
    rw [← show (s.len l).setTo v = { s.len l with
      base := v, q := 0, p := v, highMark := v, saturated := decide (v = 4294967295) } from rfl, ← hlen,
      packRestarts]
    split
    · rfl
    · cases l <;> rfl
  · rw [State.pack, setPosition_line_eq]
    show ((packRestarts l v (positionNoticed l v s)).pack l).coilStart = _ ∧ _
    rw [packRestarts, if_neg (by rwa [hpack])]
    cases l <;> exact ⟨rfl, rfl⟩
  · rw [setPosition_line_eq]
    exact (lineOnly_keeps (lineOnly_trans (positionNoticed_lineOnly l v s)
      (lineOnly_packRestarts l v _))).1 other h

theorem layKind_eq (side : Side) : layKind side = if side = .low then .layLow else .layHigh := by
  cases side <;> rfl

theorem meshKind_eq (side : Side) :
    meshKind side = if side = .low then .meshShort else .meshLong := by
  cases side <;> rfl

end Sys2Proof.Machine
end

section
/-! The obligations on line length (R70 to R76, R175). -/

namespace Sys2Proof.Machine

/-- Settles O40: the meter moves by its formula, and the blocks leave it. -/
theorem positionFollowsPulses : Obligations.PositionFollowsPulses := by
  refine ⟨?_, ?_, ?_, blockOrder_spec, ?_, fun _ _ => rfl⟩
  · intro l forward order s c hc q value t
    obtain ⟨top, hlen⟩ := linePulse_len hc forward order
    rw [moved_eq] at hlen
    rw [show t.len l = _ from hlen]
    exact ⟨rfl, rfl, rfl, rfl, hc, rfl⟩
  · intro l forward order s hc
    simp only [linePulse, hc]
  · intro l forward order s c hc q value old new moved
    have hpulse := linePulse_of_loaded hc (moved_eq c forward (s.len l)) order
    change linePulse l forward order s
      = if old < new then handRise l order old new moved
        else if new < old ∧ l = .rope then handFall new moved else moved at hpulse
    refine ⟨fun hrise => ?_, fun hfall hrope => ?_, fun hrest => ?_⟩
    · rw [hpulse, if_pos hrise]
      rfl
    · rw [hpulse, if_neg (Nat.not_lt.mpr hfall.le), if_pos ⟨hfall, hrope⟩]
      rfl
    · rw [hpulse]
      rcases hrest with hsame | ⟨hfall, rfl⟩
      · rw [if_neg (by omega), if_neg (by omega)]
      · rw [if_neg (by omega), if_neg (by simp)]
  · intro old new seen s
    exact ⟨rfl, rfl, rfl, rfl, fun l => ⟨rfl, rfl, rfl⟩⟩

/-- Settles O41: the checks in one list, the load by the laws of its two lines. -/
theorem loadLineRecipeBeginsSegment : Obligations.LoadLineRecipeBeginsSegment := by
  refine ⟨?_, ?_, ?_, ?_, loadLine_rope, loadLine_net, ?_, ?_, fun _ => rfl, packLoads_cases, openCoil_eq,
    packTakesLoad_iff, fitsGrid_iff⟩
  · intro tag l slot check body s hready hslot hsuits
    have hact : loadChecked l slot s = guarded [(fitsGrid body s, .state .plantMismatch)]
        (fun s => (loadLine l slot check body s, .done [])) s := by
      simp only [loadChecked, hslot]
    rw [exec_loadLineRecipe _ _ _ hready, loadLineRecipeAct_eq, guarded_append hact,
      replied_guarded rfl, slotChecks_of_valid _ hslot, hsuits]
    refine congrArg Host.Outcome.next (judged_congr ?_)
    let checks : List Check :=
      [inField 2 0 31 slot, configured s, lineStill l s, noneFeeding l s,
        (packTakesLoad l s, .state .wrongState), (!s.slotWritten slot, .state .slotBeingWritten)]
    exact (firstRefusal_passed checks _ _).trans (firstRefusal_passed checks _ _)
  · intro tag l slot s hready checks
    rw [exec_loadLineRecipe _ _ _ hready, loadLineRecipeAct_eq]
    refine ⟨fun hunsuited => congrArg Host.Outcome.next (replied_guarded_refused rfl ?_),
      fun check hslot => congrArg Host.Outcome.next (replied_guarded_refused rfl ?_)⟩
    · rcases hunsuited with hslot | ⟨body, check, hslot, hsuits⟩
      · rw [slotChecks_of_empty _ hslot]
        exact firstRefusal_refused checks _ _
      · rw [slotChecks_of_valid _ hslot, hsuits]
        exact firstRefusal_refused checks _ _
    · rw [slotChecks_of_corrupt _ hslot]
      exact firstRefusal_passed checks _ _
  · intro slot check r s t
    have hground := loadLine_ground .rope slot check (.rope r) s
    refine ⟨ropeCopy_of_ground hground, ?_, ?_, loadLine_line (k := .net) (by decide) ..⟩
    · have hclosed := netCopy_of_ground (closeSpans_ground .rope s)
      exact (netCopy_of_ground hground).trans hclosed
    · rw [show t.len .rope = _ from len_of_ground hground .rope, segmentBegun_len, constantsOf,
        ← closeSpans_plantD .rope s]
      rfl
  · intro slot check r s t
    have hground := loadLine_ground .net slot check (.net r) s
    have hknot : t.knot = (machineryLoads .net (segmentBegun .net slot check (.net r) s)).knot :=
      (lineOnly_keeps (lineOnly_packLoads .net _)).2.2.2.2
    refine ⟨netCopy_of_ground hground, ?_, ?_, ?_, ?_, ?_, ?_, loadLine_line (k := .rope) (by decide) ..⟩
    · have hclosed := ropeCopy_of_ground (closeSpans_ground .net s)
      exact (ropeCopy_of_ground hground).trans hclosed
    · rw [show t.len .net = _ from len_of_ground hground .net, segmentBegun_len, constantsOf,
        ← closeSpans_plantD .net s]
      rfl
    all_goals
      rw [hknot]
      rfl
  · intro seen x s hle place span kind
    rw [handLaySpan, laySpanLength, if_pos hle, layKind_eq]
    rfl
  · intro x s span kind
    rw [handMeshSpan, meshKind_eq]
    rfl

/-- Settles O42: what the request sets, and what its notice and the pack point leave. -/
theorem setPositionRestartsLine : Obligations.SetPositionRestartsLine := by
  refine ⟨?_, ?_, setPosition_measures⟩
  · intro tag l v s hready
    rw [exec_setPosition _ _ _ hready, setPositionAct, lineField_machineOf, guarded_cons_true,
      guarded_append (onLine_machineOf ..)]
    exact congrArg Host.Outcome.next (replied_guarded rfl)
  · intro l other v s hother t
    obtain ⟨hmarks, hactions, hwatches, hcount, hmarker⟩ := cleared_empty (s.act l)
    have hact : t.act l = (s.act l).cleared := (setPosition_act l l v s).trans (if_pos rfl)
    rw [hact, hcount, hmarker]
    obtain ⟨hlen, hpack, hother⟩ := setPosition_line v s hother
    refine ⟨hlen, hmarks, hactions, rfl, rfl, hwatches, ?_, ?_, hpack, hother⟩
    · exact setPosition_hasCause l v s rfl
    · exact setPosition_hasCause l v s rfl

end Sys2Proof.Machine
end

section
/-! SUPPORT. A mark inserted, the watch that is set and a stop notice in its three outcomes (R80, R96, R98, R100). -/

namespace Sys2Proof.Machine

variable {s t : State}

/-- A mark that none takes goes behind every mark at or below its position, where there is room. -/
theorem addMark_inserted (sprayed : Bool) (ref : Nat) (n : NewMark) (marks : List Mark)
    (hfree : ∀ m ∈ marks, m.takes n.kind n.source n.x (n.x + n.span) = false)
    (hroom : marks.length < 128) :
    addMark sprayed ref n marks
      = (marks.takeWhile (fun m => decide (m.x ≤ n.x))
          ++ { ref := ref, x := n.x, span := n.span, kind := n.kind, source := n.source
               count := n.count, made := false, spray := .none }
          :: marks.dropWhile (fun m => decide (m.x ≤ n.x)), ref, .inserted) := by
  have hnone : marks.find? (fun m => m.takes n.kind n.source n.x (n.x + n.span)) = none :=
    List.find?_eq_none.mpr fun m hm => by rw [hfree m hm]; exact Bool.false_ne_true
  simp only [addMark, hnone]
  rw [if_pos (show marks.length < markCapacity from hroom), placeMark_eq]

theorem clearWatchOf_of_set {watches : Vector (Option Nat) 4}
    (h : ∀ i : Fin 4, (watches[i]).isSome = true) : clearWatchOf watches = none :=
  List.find?_eq_none.mpr fun i _ => by
    rw [Option.isNone_eq_false_iff.mpr (h i)]
    exact Bool.false_ne_true

theorem clearWatchOf_of_first {watches : Vector (Option Nat) 4} {i : Fin 4}
    (hclear : watches[i] = none) (hset : ∀ k : Fin 4, k < i → (watches[k]).isSome = true) :
    clearWatchOf watches = some i := by
  have hsplit : ∀ i : Fin 4,
      ([0, 1, 2, 3] : List (Fin 4)) = (List.finRange 4).take i ++ i :: (List.finRange 4).drop (i + 1) := by
    decide
  have hbefore : ∀ i k : Fin 4, k ∈ (List.finRange 4).take i → k < i := by
    decide
  refine List.find?_eq_some_iff_append.mpr ⟨by rw [hclear]; rfl, _, _, hsplit i, fun k hk => ?_⟩
  rw [Option.isNone_eq_false_iff.mpr (hset k (hbefore i k hk))]
  rfl

theorem setWatchAct_at (l : LineId) (x : Nat) (h : s.plant.isSome = true) :
    setWatchAct (machineOf l).val x s
      = guarded [(decide ((s.len l).p < x), .state .passed)]
          (fun s =>
            match clearWatchOf (s.act l).watches with
            | some i => (s.setWatch l i (some x), .done (be 1 i.val))
            | none => (s, .state .queueFull)) s := by
  rw [setWatchAct, lineField_machineOf, guarded_cons_true, configured, h, guarded_cons_true,
    guarded_nil]
  exact onLine_machineOf ..

/-- A notice that changes the set of its machine, and sets no cause. -/
theorem stopNotice_of_cleared {m : Fin 10} {set clear before after : CauseSet}
    (hbefore : (s.stop m).causes = before) (hafter : (before ||| set) &&& ~~~clear = after)
    (hchange : after ≠ before) (hnone : after &&& ~~~before = 0) :
    stopNotice m set clear s
      = enterReport .stopChange (some m.val) (stopChangeBody before after) (s.setCauses m after) := by
  unfold stopNotice
  simp only [hbefore, hafter, if_neg hchange, if_pos hnone]

theorem stopNotice_of_set {m : Fin 10} {set clear before after : CauseSet}
    (hbefore : (s.stop m).causes = before) (hafter : (before ||| set) &&& ~~~clear = after)
    (hchange : after ≠ before) (hnew : after &&& ~~~before ≠ 0) :
    stopNotice m set clear s
      = enterReport .stopChange (some m.val) (stopChangeBody before after)
          (latchStop m (s.setCauses m after)) := by
  unfold stopNotice
  simp only [hbefore, hafter, if_neg hchange, if_neg hnew]

theorem stopMachineAct_at (m : Fin 10) (s : State) :
    stopMachineAct m.val s = (setCause m .commanded s, .done []) := by
  rw [stopMachineAct, machineField_val, guarded_cons_true, guarded_nil, fin_ofNat_val]

end Sys2Proof.Machine
end

section
/-! The obligations on marks, watches and stops (R80 to R100). -/

namespace Sys2Proof.Machine

/-- Settles O43: the request is a mark handed over, each step of which has its law. -/
theorem addMarkPlacesMark : Obligations.AddMarkPlacesMark := by
  refine ⟨?_, addMark_inserted, takes_iff, addMark_merged, absorb_step, addMark_folded, handMark_eq,
    makeMark_cases, fun _ _ _ _ => rfl, placeAction_eq⟩
  intro tag l x span s hready mark
  rw [exec_addMark _ _ _ _ hready, addMarkAct, lineField_machineOf, guarded_cons_true,
    guarded_append (onLine_machineOf ..)]
  exact congrArg Host.Outcome.next (replied_guarded_of fun _ => rfl)

/-- Settles O44: the request by the first watch clear, the rise by its laws. -/
theorem setWatchSetsLowest : Obligations.SetWatchSetsLowest := by
  refine ⟨fun tag l x s hready hplant => ?_, actionsRise_eq, fun l s => ?_, watchesReached_spec⟩
  · rw [exec_setWatch _ _ _ hready, setWatchAct_at l x hplant]
    refine ⟨fun hpassed => ?_, fun hahead hset => ?_, fun i hahead hclear hset => ?_⟩
    · rw [decide_eq_false (Nat.not_lt.mpr hpassed), guarded_cons_false]
    · rw [decide_eq_true hahead, guarded_cons_true, guarded_nil]
      simp only [clearWatchOf_of_set hset]
    · rw [decide_eq_true hahead, guarded_cons_true, guarded_nil]
      simp only [clearWatchOf_of_first hclear hset]
      rfl
  · exact ⟨fun ref => fireAct_sprayOn l ref s, fun ref => fireAct_sprayOff l ref s, rfl,
      fun _ _ _ => rfl⟩

/-- Settles O45: the two fields checked, the watch named clear. -/
theorem clearWatchClears : Obligations.ClearWatchClears := by
  refine ⟨?_, ?_, ?_⟩
  · intro tag m w s hready h8 h9
    rw [exec_clearWatch _ _ _ hready, clearWatchAct, lineField_of_other h8 h9, guarded_cons_false]
  · intro tag l w s hready hw
    rw [exec_clearWatch _ _ _ hready, clearWatchAct, lineField_machineOf, guarded_cons_true,
      inField_above hw, guarded_cons_false]
  · intro tag l w s hready
    rw [exec_clearWatch _ _ _ hready, clearWatchAct, lineField_machineOf, guarded_cons_true,
      inField_within (Nat.zero_le _) (Nat.le_of_lt_succ w.isLt), guarded_cons_true, guarded_nil,
      onLine_machineOf, fin_ofNat_val]
    rfl

/-- Settles O47: a notice by what it changes; the request is one notice. -/
theorem stopNoticesChangeOneSet : Obligations.StopNoticesChangeOneSet := by
  refine ⟨?_, ?_, ?_⟩
  · intro m set clear s before after
    refine ⟨fun hsame => stopNotice_of_same hsame, stopNotice_causes m set clear s, fun hchange => ?_,
      fun k hk => stopNotice_other m k set clear s hk, fun hchange hnone => ?_,
      fun hchange hnew => ?_⟩
    · rw [stopNotice_stop, if_pos ⟨rfl, hchange⟩]
      rfl
    · rw [stopNotice_of_cleared rfl rfl hchange hnone, stopChangeBody, hnone]
      rfl
    · rw [stopNotice_of_set rfl rfl hchange hnew]
      rfl
  · intro tag m s hready
    refine ⟨stopNotice m (StopCause.only .commanded) 0 s, ?_, rfl, ?_,
      fun k hk => stopNotice_other m k _ _ s hk, ?_⟩
    · rw [exec_stopMachine _ _ hready, stopMachineAct_at]
      rfl
    · exact (hasCause_setCause m m .commanded .commanded s).trans (by simp)
    · rw [stopNotice_only]
      exact ⟨rfl, rfl, rfl, rfl, rfl, rfl, rfl, rfl⟩
  · intro tag m s hready hm
    rw [exec_stopMachine _ _ hready, stopMachineAct, machineField, inField_above hm,
      guarded_cons_false]

end Sys2Proof.Machine
end

section
/-! SUPPORT. The Knot Scanner by its operations: a row counted, its mesh, its pattern step, its scan and its hooks
(R110 to R121). -/

namespace Sys2Proof.Machine

variable {s t : State}

/-! ### The hooks of a set -/

theorem hooks_eq : hooks = List.finRange 64 := List.ofFn_id 64

theorem mem_hooks (h : Fin 64) : h ∈ hooks := by
  rw [hooks_eq]
  exact List.mem_finRange h

theorem map_val_hooks : hooks.map Fin.val = List.range 64 := by
  rw [hooks_eq]
  exact List.map_coe_finRange_eq_range

theorem hookCount_eq (set : HookSet) :
    hookCount set = ((List.range 64).filter fun i => set.getLsbD i).length := by
  rw [← map_val_hooks, List.filter_map, List.length_map]
  rfl

theorem lowestHook_eq (set : HookSet) :
    lowestHook set = (List.range 64).find? fun i => set.getLsbD i := by
  rw [← map_val_hooks, List.find?_map]
  rfl

theorem getLsbD_hook (k h : Fin 64) : (1#64 <<< k.val).getLsbD h.val = decide (k = h) := by
  rw [← BitVec.twoPow_eq, BitVec.getLsbD_twoPow]
  simp [Fin.ext_iff]

/-- Hooks added to a set one by one, each where a condition holds of it. -/
theorem getLsbD_addHooks (p : Fin 64 → Bool) (h : Fin 64) (l : List (Fin 64)) (acc : HookSet) :
    (l.foldl (fun acc k => if p k then acc ||| (1#64 <<< k.val) else acc) acc).getLsbD h.val
      = (acc.getLsbD h.val || decide (h ∈ l) && p h) := by
  induction l generalizing acc with
  | nil => simp
  | cons k rest ih =>
    rw [List.foldl_cons, ih]
    by_cases hp : p k = true
    · rw [if_pos hp, BitVec.getLsbD_or, getLsbD_hook]
      by_cases hk : k = h
      · subst hk
        simp [hp]
      · simp [hk, Ne.symm hk]
    · rw [if_neg hp]
      by_cases hk : k = h
      · subst hk
        simp [hp]
      · simp [Ne.symm hk]

theorem expectedSet_getLsbD (step : PatternStep) (h : Fin 64) :
    (expectedSet step).getLsbD h.val = (decide (step.first ≤ h.val) && decide (h.val ≤ step.last)) := by
  have hadded := getLsbD_addHooks
    (fun h => decide (step.first ≤ h.val) && decide (h.val ≤ step.last)) h hooks 0
  simp only [Bool.and_eq_true, decide_eq_true_eq, mem_hooks, decide_true, Bool.true_and] at hadded
  rw [expectedSet, hadded]
  simp

theorem countMisses_getElem (expected : HookSet) (sets : RowSets) (counters : Vector Nat 64)
    (h : Fin 64) :
    (countMisses expected sets counters)[h]
      = if sets.missing.getLsbD h.val then min (counters[h] + 1) 15
        else if expected.getLsbD h.val then 0
        else counters[h] := by
  rw [countMisses, Fin.getElem_fin, Vector.getElem_ofFn]
  rfl

theorem hooksAtLimit_spec (limit : Nat) (missing : HookSet) (before after : Vector Nat 64) :
    (∀ h : Fin 64, h ∈ hooksAtLimit limit missing before after ↔
      missing.getLsbD h.val = true ∧ before[h] ≠ limit ∧ after[h] = limit) ∧
    (hooksAtLimit limit missing before after).Pairwise (fun a b => a < b) := by
  refine ⟨fun h => ?_, List.Pairwise.filter _ (List.pairwise_ofFn.mpr fun _ _ hlt => hlt)⟩
  simp [hooksAtLimit, List.mem_filter, mem_hooks, hookIn, and_assoc]

/-! ### What the blocks of a row leave -/

theorem handMeshSpanQ_lineOnly (c : Option ClosedSpan) (s : State) :
    LineOnly .net s (handMeshSpan? c s) := by
  cases c with
  | none => exact lineOnly_refl ..
  | some x => exact lineOnly_handMeshSpan x s

theorem lineOnly_knot {l : LineId} (h : LineOnly l s t) : t.knot = s.knot :=
  (lineOnly_keeps h).2.2.2.2

theorem handMeshSpanQ_knot (c : Option ClosedSpan) (s : State) : (handMeshSpan? c s).knot = s.knot :=
  lineOnly_knot (handMeshSpanQ_lineOnly c s)

theorem checkMesh_cases (r : NetRecipe) (position : Nat) (s : State) :
    checkMesh r position s = s ∨ ∃ back, checkMesh r position s = meshCheck r position back s := by
  unfold checkMesh
  simp only
  split
  · exact .inl rfl
  · split
    · next back _ => exact .inr ⟨back, rfl⟩
    · exact .inl rfl

/-- The mesh, its verdict and the step of its out-run and span (R119, R120). -/
theorem meshCheck_eq (r : NetRecipe) (position : Nat) (back : RowEntry) (s : State) :
    meshCheck r position back s
      = let exact := (40 * (position - back.position) + r.rowsPerCheck) / (2 * r.rowsPerCheck)
        let mesh := min exact 65535
        let verdict : Verdict :=
          if mesh < r.nominal - r.tolLow then .low
          else if r.nominal + r.tolHigh < mesh then .high
          else .inBand
        let step := outRunStep r.outRun verdict back.position position s.knot.outRun s.knot.span
        handMeshSpan? step.closed
          (s.setKnot { s.knot with
            last := some { mesh := mesh, isOver := decide (65535 < exact), verdict := verdict }
            outRun := step.outRun, span := step.span }) := rfl

/-- A mesh check leaves the Knot Scanner but for its mesh. -/
theorem checkMesh_knot (r : NetRecipe) (position : Nat) (s : State) :
    ∃ last outRun span, (checkMesh r position s).knot
      = { s.knot with last := last, outRun := outRun, span := span } := by
  rcases checkMesh_cases r position s with h | ⟨back, h⟩
  · exact ⟨s.knot.last, s.knot.outRun, s.knot.span, congrArg State.knot h⟩
  · rw [h, meshCheck_eq]
    exact ⟨_, _, _, handMeshSpanQ_knot ..⟩

theorem unscannedRow_knot (e : RowEntry) (step : PatternStep) (s : State) :
    (unscannedRow e step s).knot = s.knot :=
  lineOnly_knot (lineOnly_trans (lineOnly_handMark ..)
    (lineOnly_of_notices .net (noticesOnly_enterReport ..)))

theorem lineOnly_panelEnds (e : Nat) (s : State) : LineOnly .net s (panelEnds e s) := by
  unfold panelEnds
  split
  · split
    · exact lineOnly_trans (lineOnly_setPack .net _ s) (lineOnly_placeCut ..)
    · exact lineOnly_refl ..
  · exact lineOnly_refl ..

/-! ### The pattern -/

/-- The Knot Scanner after a panel's end. -/
theorem endPanel_knot (e : RowEntry) (s : State) :
    (endPanel e s).knot = { s.knot with panels := min (s.knot.panels + 1) 65535 } := by
  refine (lineOnly_knot (lineOnly_panelEnds ..)).trans ?_
  rw [enterReport_knot, setCause_knot]
  rfl

theorem hasCause_beginStroke (l : LineId) (m : Fin 10) (c : StopCause) (s : State) :
    (beginStroke l s).hasCause m c = s.hasCause m c :=
  hasCause_congr (by cases l <;> rfl) m c

theorem hasCause_cutFires (l : LineId) {m : Fin 10} {c : StopCause} (h : c ≠ .cut) (s : State) :
    (cutFires l s).hasCause m c = s.hasCause m c := by
  have hset : ∀ x, (setCause (machineOf l) .cut (s.setPack l x)).hasCause m c = s.hasCause m c := by
    intro x
    rw [hasCause_setCause, hasCause_congr (show (s.setPack l x).stops = s.stops by cases l <;> rfl)]
    simp [h]
  unfold cutFires
  simp only
  split
  · exact hset _
  · exact (hasCause_beginStroke ..).trans (hset _)

theorem hasCause_placePlan (l : LineId) (cut : Nat) (grade : Option Grade) (origin : CutOrigin)
    (near : Bool) {m : Fin 10} {c : StopCause} (h : c ≠ .cut) (s : State) :
    (placePlan l cut grade origin near s).hasCause m c = s.hasCause m c := by
  unfold placePlan placeCut
  simp only
  split
  · rw [hasCause_cutFires l h]
    exact hasCause_congr (by cases l <;> rfl) m c
  · exact hasCause_congr (by cases l <;> rfl) m c

theorem hasCause_panelEnds (e : Nat) {m : Fin 10} {c : StopCause} (h : c ≠ .cut) (s : State) :
    (panelEnds e s).hasCause m c = s.hasCause m c := by
  unfold panelEnds
  split
  · split
    · exact hasCause_placePlan _ _ _ _ _ h _
    · rfl
  · rfl

theorem endPanel_hasCause (e : RowEntry) (s : State) :
    (endPanel e s).hasCause 9 .panelEnd = true := by
  rw [endPanel, hasCause_panelEnds _ (by decide), hasCause_congr (enterReport_stops ..),
    hasCause_setCause]
  simp [netMachine]

/-- The Knot Scanner after a row of the pattern, by whether the row ends its step and the step its panel. -/
theorem advancePattern_knot (r : NetRecipe) (e : RowEntry) (s : State) :
    (s.knot.rowsDone + 1 = (stepOf r.pattern s.knot.step).rows →
      s.knot.step + 1 < r.pattern.length →
      (advancePattern r e s).knot = { s.knot with rowsDone := 0, step := s.knot.step + 1 }) ∧
    (s.knot.rowsDone + 1 = (stepOf r.pattern s.knot.step).rows →
      r.pattern.length ≤ s.knot.step + 1 →
      (advancePattern r e s).knot
          = { s.knot with
              panels := min (s.knot.panels + 1) 65535, rowsDone := 0, step := 0 } ∧
        (advancePattern r e s).hasCause 9 .panelEnd = true) ∧
    (s.knot.rowsDone + 1 ≠ (stepOf r.pattern s.knot.step).rows →
      (advancePattern r e s).knot = { s.knot with rowsDone := s.knot.rowsDone + 1 }) := by
  unfold advancePattern
  simp only
  refine ⟨fun hdone hmore => ?_, fun hdone hlast => ?_, fun hopen => ?_⟩
  · rw [if_pos hdone, if_pos hmore]
    rfl
  · rw [if_pos hdone, if_neg (Nat.not_lt.mpr hlast)]
    refine ⟨?_, endPanel_hasCause e s⟩
    rw [setKnot_knot, endPanel_knot]
  · rw [if_neg hopen]
    rfl

/-- A row of the pattern moves the step, its rows and the panels alone. -/
theorem advancePattern_keeps (r : NetRecipe) (e : RowEntry) (s : State) :
    (advancePattern r e s).knot
      = { s.knot with
          step := (advancePattern r e s).knot.step
          rowsDone := (advancePattern r e s).knot.rowsDone
          panels := (advancePattern r e s).knot.panels } := by
  obtain ⟨hmore, hlast, hopen⟩ := advancePattern_knot r e s
  by_cases hdone : s.knot.rowsDone + 1 = (stepOf r.pattern s.knot.step).rows
  · rcases Nat.lt_or_ge (s.knot.step + 1) r.pattern.length with hlt | hle
    · rw [hmore hdone hlt]
    · rw [(hlast hdone hle).1]
  · rw [hopen hdone]

/-! ### A row counted -/

theorem enterRow_eq (e : RowEntry) (ring : List RowEntry) :
    enterRow e ring = (if ring.length < 32 then ring else ring.tail) ++ [e] := by
  rw [enterRow]
  by_cases h : ring.length < 32
  · rw [if_pos h]
    exact if_pos h
  · rw [if_neg h]
    exact if_neg h

/-- The row counted, before the pattern advances: its mesh checked, entered in the ring, its scan begun or missed. -/
def rowEntered (r : NetRecipe) (s : State) : RowEntry × State :=
  let checked := checkMesh r (s.len .net).p (s.setKnot { s.knot with row := s.knot.row + 1 })
  let e : RowEntry :=
    { number := s.knot.row + 1, step := s.knot.step, position := (s.len .net).p
      scan := if checked.knot.scan.isNone then .scanning else .unscanned }
  let entered := checked.setKnot { checked.knot with ring := enterRow e checked.knot.ring }
  (e, if checked.knot.scan.isNone then beginScan (s.knot.row + 1) entered
      else unscannedRow e (stepOf r.pattern e.step) entered)

theorem rowEvent_of_loaded {c : Copy NetRecipe} (h : s.netCopy = some c) :
    rowEvent s = advancePattern c.recipe (rowEntered c.recipe s).1 (rowEntered c.recipe s).2 := by
  simp only [rowEvent, h]
  rfl

/-- The Knot Scanner after a row entered: a scan begun where it was idle. -/
theorem rowEntered_knot (r : NetRecipe) (s : State) :
    ∃ last outRun span, (rowEntered r s).2.knot
      = { s.knot with
          row := s.knot.row + 1, last := last, outRun := outRun, span := span
          ring := enterRow
            { number := s.knot.row + 1, step := s.knot.step, position := (s.len .net).p
              scan := if s.knot.scan.isNone then .scanning else .unscanned } s.knot.ring
          scan :=
            if s.knot.scan.isNone then
              some { row := s.knot.row + 1, kept := true, line := 0, samples := 0
                     deadline := s.now + (s.knot.grid.map Grid.settle).getD 0 }
            else s.knot.scan
          driven := if s.knot.scan.isNone then some 0 else s.knot.driven } := by
  obtain ⟨last, outRun, span, hchecked⟩ := checkMesh_knot r (s.len .net).p
    (s.setKnot { s.knot with row := s.knot.row + 1 })
  have hnow : (checkMesh r (s.len .net).p (s.setKnot { s.knot with row := s.knot.row + 1 })).now
      = s.now := now_of_ground (ground_checkMesh ..)
  refine ⟨last, outRun, span, ?_⟩
  rw [rowEntered]
  generalize checkMesh r (s.len .net).p (s.setKnot { s.knot with row := s.knot.row + 1 }) = checked at *
  simp only [hchecked, setKnot_knot]
  cases hscan : s.knot.scan with
  | none =>
    simp only [Option.isNone_none, if_true, beginScan, setKnot_knot, setKnot_now, hnow]
  | some x =>
    simp only [Option.isNone_some, Bool.false_eq_true, if_false, unscannedRow_knot, setKnot_knot]

/-! ### A scan settled -/

theorem settleEvent_of_scan {x : ScanInProgress} (hscan : s.knot.scan = some x) (samples : Byte) :
    settleEvent samples s
      = let now := max s.now x.deadline
        let known := x.samples ||| (samples.zeroExtend 64 <<< (8 * x.line))
        let g := s.knot.grid.getD ⟨0, 0⟩
        if x.line + 1 < g.lines then
          { s with
            now := now
            knot := { s.knot with
              scan := some { x with line := x.line + 1, samples := known, deadline := now + g.settle }
              driven := some (x.line + 1) } }
        else completeScan x known { s with now := now } := by
  unfold settleEvent
  simp only [hscan]
  rfl

theorem settleEvent_of_more {x : ScanInProgress} {g : Grid} (hscan : s.knot.scan = some x)
    (hgrid : s.knot.grid = some g) (hmore : x.line + 1 < g.lines) (samples : Byte) :
    settleEvent samples s
      = { s with
          now := max s.now x.deadline
          knot := { s.knot with
            scan := some
              { x with
                line := x.line + 1, samples := x.samples ||| (samples.zeroExtend 64 <<< (8 * x.line))
                deadline := max s.now x.deadline + g.settle }
            driven := some (x.line + 1) } } := by
  have hg : s.knot.grid.getD ⟨0, 0⟩ = g := by rw [hgrid]; rfl
  rw [settleEvent_of_scan hscan, hg]
  exact if_pos hmore

theorem settleEvent_of_end {x : ScanInProgress} {g : Grid} (hscan : s.knot.scan = some x)
    (hgrid : s.knot.grid = some g) (hend : g.lines ≤ x.line + 1) (samples : Byte) :
    settleEvent samples s
      = completeScan x (x.samples ||| (samples.zeroExtend 64 <<< (8 * x.line)))
          { s with now := max s.now x.deadline } := by
  have hg : s.knot.grid.getD ⟨0, 0⟩ = g := by rw [hgrid]; rfl
  rw [settleEvent_of_scan hscan, hg]
  exact if_neg (Nat.not_lt.mpr hend)

theorem completeScan_of_judged {x : ScanInProgress} {c : Copy NetRecipe} {e : RowEntry}
    (hkept : x.kept = true) (hcopy : s.netCopy = some c) (hrow : scanRow x s.knot.ring = some e)
    (present : HookSet) :
    completeScan x present s
      = { judgeRow c.recipe e present s with
          knot := { (judgeRow c.recipe e present s).knot with scan := none, driven := none } } := by
  unfold completeScan
  simp only [hkept, hcopy, hrow]
  rfl

theorem completeScan_of_dropped {x : ScanInProgress}
    (h : x.kept = false ∨ scanRow x s.knot.ring = none ∨ s.netCopy = none) (present : HookSet) :
    completeScan x present s = { s with knot := { s.knot with scan := none, driven := none } } := by
  unfold completeScan
  split
  · next c e hkept hcopy hrow =>
    simp [hkept, hcopy, hrow] at h
  · rfl

theorem completeScan_cases (x : ScanInProgress) (s : State) :
    (∃ c e, x.kept = true ∧ s.netCopy = some c ∧ scanRow x s.knot.ring = some e) ∨
      x.kept = false ∨ scanRow x s.knot.ring = none ∨ s.netCopy = none := by
  cases x.kept <;> cases s.netCopy <;> cases scanRow x s.knot.ring <;> simp

/-! ### A row judged -/

theorem markMissing_eq (e : RowEntry) (missing : HookSet) (s : State) :
    markMissing e missing s
      = if hookCount missing = 0 then s
        else (handMark .net (s.len .net).p
          { x := e.position, span := 0, kind := .knotMissing
            source := if hookCount missing = 1 then lowestHook missing else none
            count := hookCount missing } s).1 := by
  unfold markMissing
  split
  · next h => rw [h, if_pos rfl]
  · next h =>
    rw [h, if_neg Nat.one_ne_zero, if_pos rfl]
    rfl
  · next n h0 h1 =>
    rw [if_neg h0, if_neg h1]
    rfl

theorem markMissing_knot (e : RowEntry) (missing : HookSet) (s : State) :
    (markMissing e missing s).knot = s.knot := by
  rw [markMissing_eq]
  split
  · rfl
  · exact lineOnly_knot (lineOnly_handMark ..)

theorem judgeHooks_knot (r : NetRecipe) (e : RowEntry) (expected : HookSet) (sets : RowSets)
    (s : State) : ∃ faultHook, (judgeHooks r e expected sets s).knot
      = { s.knot with
          counters := countMisses expected sets s.knot.counters, faultHook := faultHook } := by
  unfold judgeHooks
  simp only
  generalize countMisses expected sets s.knot.counters = after
  split
  · exact ⟨s.knot.faultHook, setKnot_knot ..⟩
  · next h rest _ =>
    split
    · exact ⟨s.knot.faultHook, setKnot_knot ..⟩
    · refine ⟨some h.val, ?_⟩
      rw [enterReport_knot, setCause_knot, setKnot_knot, setKnot_knot]

theorem judgeExtras_knot (extra : HookSet) (s : State) :
    (judgeExtras extra s).1.knot = { s.knot with extrasLast := extra != 0 } := by
  unfold judgeExtras
  simp only [setKnot_knot]
  split
  · rw [setCause_knot]
  · rfl

/-- The Knot Scanner after a row judged: the row of the ring, the counters, the fault hook and the extras alone. -/
theorem judgeRow_knot (r : NetRecipe) (e : RowEntry) (present : HookSet) (s : State) :
    ∃ counters faultHook extrasLast, (judgeRow r e present s).knot
      = { s.knot with
          ring := setScanned e.number (rowSets (expectedSet (stepOf r.pattern e.step)) present) s.knot.ring
          counters := counters, faultHook := faultHook, extrasLast := extrasLast } := by
  unfold judgeRow
  simp only
  generalize hmarked : markMissing e _ (s.setKnot _) = marked
  have hknot := (congrArg State.knot hmarked).symm.trans (markMissing_knot ..)
  obtain ⟨faultHook, hhooks⟩ := judgeHooks_knot r e (expectedSet (stepOf r.pattern e.step))
    (rowSets (expectedSet (stepOf r.pattern e.step)) present) marked
  refine ⟨countMisses (expectedSet (stepOf r.pattern e.step))
    (rowSets (expectedSet (stepOf r.pattern e.step)) present) s.knot.counters, faultHook, (rowSets (expectedSet (stepOf r.pattern e.step)) present).extra != 0, ?_⟩
  have hextras := judgeExtras_knot
    (rowSets (expectedSet (stepOf r.pattern e.step)) present).extra
    (judgeHooks r e (expectedSet (stepOf r.pattern e.step))
      (rowSets (expectedSet (stepOf r.pattern e.step)) present) marked)
  rw [hhooks, hknot] at hextras
  split
  · exact hextras
  · exact (enterReport_knot ..).trans hextras

end Sys2Proof.Machine
end

section
/-! The obligation on the knotting machine (R110 to R121). -/

namespace Sys2Proof.Machine

/-- Settles O49: a row by its entry and its pattern step, a scan by its lines and its row judged. -/
theorem rowsAreCountedAndScanned : Obligations.RowsAreCountedAndScanned := by
  refine ⟨?_, ?_, ?_, ?_, ?_, ?_, ?_, ?_, ?_, expectedSet_getLsbD, countMisses_getElem,
    hooksAtLimit_spec, fun missing => ⟨hookCount_eq missing, lowestHook_eq missing⟩⟩
  · intro s hcopy
    simp only [rowEvent, hcopy]
  · intro s c hcopy k t stepDone
    obtain ⟨last, outRun, span, hentered⟩ := rowEntered_knot c.recipe s
    have ht : t = advancePattern c.recipe (rowEntered c.recipe s).1 (rowEntered c.recipe s).2 :=
      rowEvent_of_loaded hcopy
    obtain ⟨hmore, hlast, hopen⟩ := advancePattern_knot c.recipe (rowEntered c.recipe s).1
      (rowEntered c.recipe s).2
    have hkept := advancePattern_keeps c.recipe (rowEntered c.recipe s).1 (rowEntered c.recipe s).2
    rw [← ht] at hmore hlast hopen hkept
    have hstep : (rowEntered c.recipe s).2.knot.step = k.step := by rw [hentered]
    have hrows : (rowEntered c.recipe s).2.knot.rowsDone = k.rowsDone := by rw [hentered]
    have hpanels : (rowEntered c.recipe s).2.knot.panels = k.panels := by rw [hentered]
    rw [hstep, hrows] at hmore hlast hopen
    rw [hpanels] at hlast
    rw [hentered] at hkept
    refine ⟨by rw [hkept], fun hdone hlt => ?_, fun hdone hle => ?_, fun hrest => ?_, ?_,
      fun hidle => ⟨?_, ?_⟩, fun hbusy => ⟨?_, ?_⟩, by rw [hkept]⟩
    · rw [hmore hdone hlt]
      exact ⟨rfl, rfl, hpanels⟩
    · obtain ⟨hknot, hcause⟩ := hlast hdone hle
      rw [hknot]
      exact ⟨rfl, rfl, rfl, hcause⟩
    · rw [hopen hrest]
      exact ⟨hstep, rfl, hpanels⟩
    · rw [← enterRow_eq, hkept]
    · rw [hkept]
      exact if_pos (Option.isNone_iff_eq_none.mpr hidle)
    · rw [hkept]
      exact if_pos (Option.isNone_iff_eq_none.mpr hidle)
    · rw [hkept]
      exact if_neg (by rw [Option.isNone_iff_eq_none]; exact Option.isSome_iff_ne_none.mp hbusy)
    · rw [hkept]
      exact if_neg (by rw [Option.isNone_iff_eq_none]; exact Option.isSome_iff_ne_none.mp hbusy)
  · intro samples s x g hscan hgrid now known
    have hevent : exec (.scanSettleElapsed samples) s = .next (settleEvent samples s) := rfl
    rw [hevent]
    refine ⟨fun hmore => ?_, fun hend hkept => ?_, fun hend => ⟨settleEvent samples s, rfl, ?_⟩⟩
    · rw [settleEvent_of_more hscan hgrid hmore]
    · rw [settleEvent_of_end hscan hgrid hend, completeScan_of_dropped (.inl hkept)]
    · rw [show settleEvent samples s = completeScan x known { s with now := now } from
        settleEvent_of_end hscan hgrid hend samples]
      rcases completeScan_cases x { s with now := now } with ⟨c, e, hkept, hcopy, hrow⟩ | hdropped
      · rw [completeScan_of_judged hkept hcopy hrow]
        obtain ⟨counters, faultHook, extrasLast, hjudged⟩ :=
          judgeRow_knot c.recipe e known { s with now := now }
        rw [hjudged]
        refine ⟨now_of_ground (ground_judgeRow ..), rfl, rfl, rfl, rfl, rfl,
          fun c' e' _ hcopy' hrow' => ?_⟩
        obtain rfl : c = c' := Option.some.inj (hcopy.symm.trans hcopy')
        obtain rfl : e = e' := Option.some.inj (hrow.symm.trans hrow')
        rfl
      · rw [completeScan_of_dropped hdropped]
        refine ⟨rfl, rfl, rfl, rfl, rfl, rfl, fun c e hkept hcopy hrow => ?_⟩
        have hfound : scanRow x s.knot.ring = some e := hrow
        simp [hkept, hcopy, hfound] at hdropped
  · intro s c hcopy k checked e entered expected
    have hentered : (rowEntered c.recipe s).2
        = if checked.knot.scan.isNone then beginScan (k.row + 1) entered
          else unscannedRow e expected entered := by
      show (if checked.knot.scan.isNone then beginScan (k.row + 1)
          (checked.setKnot { checked.knot with ring := enterRow e checked.knot.ring })
        else unscannedRow e expected
          (checked.setKnot { checked.knot with ring := enterRow e checked.knot.ring })) = _
      rw [enterRow_eq]
      rfl
    have hevent : rowEvent s = advancePattern c.recipe e (rowEntered c.recipe s).2 :=
      rowEvent_of_loaded hcopy
    refine ⟨fun hidle => ?_, fun hbusy => ?_⟩
    · rw [hevent, hentered, if_pos (Option.isNone_iff_eq_none.mpr hidle)]
      rfl
    · rw [hevent, hentered, if_neg]
      · rfl
      · rw [Option.isNone_iff_eq_none]
        exact Option.isSome_iff_ne_none.mp hbusy
  · intro r e s k panels ended hdone hlast
    unfold advancePattern
    simp only
    rw [if_pos hdone, if_neg (Nat.not_lt.mpr hlast)]
    rfl
  · intro r position s k
    refine ⟨fun hfew => if_pos hfew, fun back hmany hback => ?_⟩
    intro exact_ mesh verdict step checked
    have hcheck : checkMesh r position s = handMeshSpan? step.closed checked := by
      unfold checkMesh
      simp only
      rw [if_neg (Nat.not_lt.mpr hmany), hback]
      rfl
    rw [hcheck]
    refine ⟨fun hnone => by rw [hnone]; rfl, fun x hx => ?_⟩
    intro span kind
    rw [hx, handMeshSpan?, handMeshSpan, meshKind_eq]
    rfl
  · intro samples s x g c e hscan hgrid hend hkept hcopy hrow known judged
    show Host.Outcome.next (settleEvent samples s) = _
    rw [settleEvent_of_end hscan hgrid hend,
      completeScan_of_judged (s := { s with now := max s.now x.deadline }) hkept hcopy hrow]
  · intro samples s x g hscan hgrid hend hrow
    show Host.Outcome.next (settleEvent samples s) = _
    rw [settleEvent_of_end hscan hgrid hend,
      completeScan_of_dropped (s := { s with now := max s.now x.deadline }) (.inr (.inl hrow))]
  · intro r e present s step missing extra sets ringed marked before after counted hooked sensor sensed
      known
    have hjudged : judgeRow r e present s
        = let judged := judgeExtras extra (judgeHooks r e (expectedSet step) sets
            (markMissing e missing ringed))
          if missing ||| extra = 0 then judged.1
          else reportRow e step true judged.2 (missing ||| extra) judged.1 := rfl
    have hmarked : markMissing e missing ringed = marked := markMissing_eq ..
    have hhooked : judgeHooks r e (expectedSet step) sets marked = hooked := rfl
    have hextras : judgeExtras extra hooked = (known, sensor) := rfl
    rw [hjudged, hmarked, hhooked, hextras]
    rfl

end Sys2Proof.Machine
end

section
/-! SUPPORT. Orders queued, bound and withdrawn; a plan, and a cut that fires (R128 to R140). -/

namespace Sys2Proof.Machine

variable {s t : State}

theorem lineOnly_orders {l : LineId} (h : LineOnly l s t) : t.orders = s.orders := by
  rw [LineOnly] at h
  rw [h]
  cases l <;> rfl

theorem lineOnly_running {l : LineId} (h : LineOnly l s t) (k : LineId) :
    t.running k = s.running k := by
  rw [LineOnly] at h
  rw [h]
  cases l <;> rfl

/-! ### Bindings -/

theorem tryBinding_of_idle {l : LineId} (h : (s.pack l).state ≠ .opened ∨ s.oldestOrder l = none) :
    tryBinding l s = s := by
  unfold tryBinding
  split
  · next o hstate ho => simp [hstate, ho] at h
  · rfl

theorem tryBinding_of_order {l : LineId} {o : Order} (hstate : (s.pack l).state = .opened)
    (ho : s.oldestOrder l = some o) :
    tryBinding l s
      = if s.copyOf l ≠ some (o.slot, o.check) then reportBlocked l o .recipe s
        else if o.target - o.low < s.lengthSoFar l then reportBlocked l o .late s
        else planningEvent l (s.len l).p
          (s.setPack l { s.pack l with state := .bound, bound := some o.number }) := by
  unfold tryBinding
  simp only [hstate, ho]

/-! ### The order requests -/

theorem addOrderAct_replied (c : Instr) (e : OrderEntry) (s : State) :
    (addOrderAct e s).1.replied c (addOrderAct e s).2
      = s.judged c
          (orderFields e
            ++ [configured s, ((s.order e.number).isNone, .state .duplicate),
              (decide (s.orders.length < orderCapacity), .state .queueFull)]
            ++ slotChecks (suitsLine (entryLine e)) e.slot s)
          (tryBinding (entryLine e)
            { s with orders := s.orders ++ [newOrder e (slotCheck e.slot s)] }) [] :=
  replied_guarded rfl

/-- The checks of an order before those of its slot's contents. -/
def orderChecks (e : OrderEntry) (s : State) : List Check :=
  orderFields e
    ++ [configured s, ((s.order e.number).isNone, .state .duplicate),
      (decide (s.orders.length < orderCapacity), .state .queueFull),
      (!s.slotWritten e.slot, .state .slotBeingWritten)]

theorem order_number {n : Nat} {o : Order} (h : s.order n = some o) : o.number = n := by
  simpa using List.find?_some h

theorem boundLine_of_bound {l : LineId} {n : Nat} (h : (s.pack l).bound = some n)
    (hfirst : l = .net → (s.pack .rope).bound ≠ some n) : boundLine n s = some l := by
  cases l with
  | rope => exact if_pos h
  | net => rw [boundLine, if_neg (hfirst rfl), if_pos h]

theorem boundLine_of_free {n : Nat} (hrope : (s.pack .rope).bound ≠ some n)
    (hnet : (s.pack .net).bound ≠ some n) : boundLine n s = none := by
  rw [boundLine, if_neg hrope, if_neg hnet]

theorem cancelOrderAct_of_none {n : Nat} (hn : 1 ≤ n ∧ n ≤ 65535) (h : s.order n = none) :
    cancelOrderAct n s = (s, .state .notFound) := by
  rw [cancelOrderAct, inField_within hn.1 hn.2, guarded_cons_true, h, Option.isSome_none,
    guarded_cons_false]

/-- A request to withdraw an order that stands, by whether its coil's cut is under way. -/
theorem cancelOrderAct_of_order {n : Nat} {o : Order} (hn : 1 ≤ n ∧ n ≤ 65535)
    (h : s.order n = some o) :
    cancelOrderAct n s
      = if (boundLine n s).any fun l => (s.pack l).state.underWay then (s, .state .wrongState)
        else (cancelOrder o s, .done []) := by
  rw [cancelOrderAct, inField_within hn.1 hn.2, guarded_cons_true]
  simp only [h, Option.isSome_some, guarded_cons_true]
  cases (boundLine n s).any fun l => (s.pack l).state.underWay with
  | true => rfl
  | false =>
    rw [Bool.not_false, guarded_cons_true, guarded_nil]
    simp only [h]
    rfl

theorem tryBinding_orders (l : LineId) (s : State) : (tryBinding l s).orders = s.orders :=
  lineOnly_orders (lineOnly_tryBinding l s)

theorem underWay_iff (x : PackState) :
    x.underWay = true ↔ x = .planned ∨ x = .cutting ∨ x = .cutFail := by
  cases x <;> simp [PackState.underWay]

theorem endable_eq (x : PackState) :
    x.endable = (x == .opened || x == .bound || x == .planned) := by
  cases x <;> rfl

theorem cuttable_eq (x : PackState) : x.cuttable = (x == .cutting || x == .cutFail) := by
  cases x <;> rfl

/-! ### Cuts -/

/-- R139: a cut that fires stops the line, and begins its stroke where the line stands. -/
theorem cutFires_eq (l : LineId) (s : State) :
    cutFires l s
      = if s.running l then
          setCause (machineOf l) .cut (s.setPack l { s.pack l with state := .cutting, phase := some .wait })
        else beginStroke l
          (setCause (machineOf l) .cut
            (s.setPack l { s.pack l with state := .cutting, phase := some .wait })) := by
  have hrunning : (setCause (machineOf l) .cut
      (s.setPack l { s.pack l with state := .cutting, phase := some .wait })).running l = s.running l :=
    lineOnly_running (lineOnly_trans (lineOnly_setPack l _ s)
      (lineOnly_of_notices l (noticesOnly_setCause ..))) l
  unfold cutFires
  simp only [hrunning]

theorem pack_setCause (m : Fin 10) (c : StopCause) (l : LineId) (s : State) :
    (setCause m c s).pack l = s.pack l := by
  rw [noticesOnly_setCause m c s]
  cases l <;> rfl

theorem setPack_pack (l : LineId) (x : PackPoint) (s : State) : (s.setPack l x).pack l = x := by
  cases l <;> rfl

theorem cutFires_hasCause (l : LineId) (s : State) :
    (cutFires l s).hasCause (machineOf l) .cut = true := by
  rw [cutFires_eq]
  split
  · simp [hasCause_setCause]
  · rw [hasCause_beginStroke]
    simp [hasCause_setCause]

theorem cutFires_pack (l : LineId) (s : State) :
    (cutFires l s).pack l
      = if s.running l then { s.pack l with state := .cutting, phase := some .wait }
        else { s.pack l with
          state := .cutting, phase := some .stroke, cutter := true
          timer := some (s.now + s.plantD.cutTimeout * 100000) } := by
  rw [cutFires_eq]
  split
  · rw [pack_setCause, setPack_pack]
  · rw [beginStroke, setPack_pack, pack_setCause, setPack_pack, noticesOnly_setCause]
    cases l <;> rfl

theorem cutFires_act (l : LineId) (s : State) : (cutFires l s).act l = s.act l := by
  rw [cutFires_eq]
  split
  · rw [noticesOnly_setCause]
    cases l <;> rfl
  · rw [noticesOnly_setCause]
    cases l <;> rfl

/-- A cut planned at a point the line has reached fires at once where no record is pending (R138). -/
theorem placeCut_reached {l : LineId} {trigger : Nat} (hreached : trigger ≤ (s.len l).p)
    (hfree : (s.pack l).record = none) :
    placeCut l trigger s
      = cutFires l (s.setActions l ((s.act l).actions.filter fun a => a.act.isSpray)) := by
  unfold placeCut
  simp only
  refine if_pos ⟨?_, ?_⟩
  · cases l <;> exact hreached
  · rw [cutWaits]
    have hrecord : ((s.setActions l ((s.act l).actions.filter fun a => a.act.isSpray)).pack l).record
        = (s.pack l).record := by cases l <;> rfl
    rw [hrecord, hfree]
    rfl

theorem placeCut_waiting {l : LineId} {trigger : Nat}
    (h : (s.len l).p < trigger ∨ (s.pack l).record.isSome = true) :
    placeCut l trigger s
      = (s.setActions l ((s.act l).actions.filter fun a => a.act.isSpray)).setActions l
          (placeAction ⟨trigger, .cut⟩ ((s.act l).actions.filter fun a => a.act.isSpray)) := by
  have hlen : ((s.setActions l ((s.act l).actions.filter fun a => a.act.isSpray)).len l).p
      = (s.len l).p := by cases l <;> rfl
  have hwaits : cutWaits l (s.setActions l ((s.act l).actions.filter fun a => a.act.isSpray))
      = (s.pack l).record.isSome := by cases l <;> rfl
  unfold placeCut
  simp only
  rw [hlen, hwaits, if_neg]
  · cases l <;> rfl
  · rcases h with h | h
    · omega
    · simp [h]

theorem planningDue_iff (l : LineId) (p x0 : Nat) (o : Order) (s : State) :
    planningDue l p x0 o s = true ↔
      o.rule = .length ∧ x0 + o.target - o.low + s.cutterOffset l ≤ p := by
  simp [planningDue]

theorem planningEvent_of_bound {l : LineId} {x0 : Nat} {o : Order} (p : Nat)
    (hstate : (s.pack l).state = .bound) (hstart : (s.pack l).coilStart = some x0)
    (ho : s.boundOrder l = some o) :
    planningEvent l p s
      = if planningDue l p x0 o s then
          let choice := cutChoice (s.bKinds l) (s.bLimit l) (s.guardOf l) x0 o (s.act l).marks
          placePlan l choice.1 (some choice.2.1) .planned choice.2.2 s
        else s := by
  unfold planningEvent
  simp only [hstate, hstart, ho]

/-- The line with the end of its coil planned at the present position, its queued cut withdrawn. -/
def endingCoil (l : LineId) (s : State) : State :=
  (s.setPack l
    { s.pack l with
      state := .planned
      plan := some ⟨(s.len l).p - s.cutterOffset l, (s.len l).p, none, .endCoil⟩
      nearSplice := false }).setActions l ((s.act l).actions.filter fun a => a.act.isSpray)

/-- The end of a coil is a cut at the present position. -/
theorem endCoil_eq {l : LineId} (hfree : (s.pack l).record = none) :
    endCoil l s = cutFires l (endingCoil l s) := by
  rw [endCoil, placeCut_reached]
  · cases l <;> rfl
  · cases l <;> exact Nat.le_refl _
  · rw [setPack_pack]
    exact hfree

end Sys2Proof.Machine
end

section
/-! The obligations on orders and on the planning of cuts (R128 to R140). -/

namespace Sys2Proof.Machine

/-- Settles O51: the requests by their checks, a binding by the line's oldest order. -/
theorem ordersAreAddedAndCancelled : Obligations.OrdersAreAddedAndCancelled := by
  refine ⟨?_, ?_, ?_, ?_⟩
  · intro tag e body check s hready hslot line order
    refine ⟨?_, tryBinding_orders line { s with orders := s.orders ++ [order] }⟩
    have hcheck : slotCheck e.slot s = check := by
      simp only [slotCheck, hslot]
    rw [exec_addOrder _ _ hready, addOrderAct_replied, slotChecks_of_valid _ hslot, hcheck]
    exact congrArg Host.Outcome.next (judged_congr
      (firstRefusal_passed (orderChecks e s ++ [(suitsLine line body, .state .slotEmpty)]) [] _))
  · intro tag e s hready line checks
    rw [exec_addOrder _ _ hready, addOrderAct]
    refine ⟨fun hunsuited => congrArg Host.Outcome.next (replied_guarded_refused rfl ?_),
      fun check hslot => congrArg Host.Outcome.next (replied_guarded_refused rfl ?_)⟩
    · rcases hunsuited with hslot | ⟨body, check, hslot, hsuits⟩
      · rw [slotChecks_of_empty _ hslot]
        exact firstRefusal_refused (orderChecks e s) _ _
      · rw [slotChecks_of_valid _ hslot, show suitsLine (entryLine e) body = false from hsuits]
        exact firstRefusal_refused (orderChecks e s) _ _
    · rw [slotChecks_of_corrupt _ hslot]
      exact firstRefusal_passed (orderChecks e s) _ _
  · intro l s
    refine ⟨tryBinding_of_idle, fun o hstate ho => ⟨fun hother => ?_, fun hcopy hlate => ?_,
      fun hcopy hroom => ?_⟩⟩
    · rw [tryBinding_of_order hstate ho, if_pos hother]
      rfl
    · rw [tryBinding_of_order hstate ho, if_neg (not_not.mpr hcopy), if_pos hlate]
      rfl
    · rw [tryBinding_of_order hstate ho, if_neg (not_not.mpr hcopy), if_neg (Nat.not_lt.mpr hroom)]
  · intro tag n s hready h1 h2
    rw [exec_cancelOrder _ _ hready]
    refine ⟨fun hnone => ?_, fun o ho hrope hnet => ?_, fun l hsome hbound hfirst hway => ?_,
      fun l hsome hbound hfirst hstate => ?_⟩
    · rw [cancelOrderAct_of_none ⟨h1, h2⟩ hnone]
    · have hfree := boundLine_of_free hrope hnet
      refine ⟨tryBinding o.line (removeOrder n s), ?_, tryBinding_orders .., rfl, fun hclosed => ?_⟩
      · rw [cancelOrderAct_of_order ⟨h1, h2⟩ ho, hfree, cancelOrder, order_number ho, hfree]
        rfl
      · refine tryBinding_of_idle (.inl ?_)
        rw [show (removeOrder n s).pack o.line = s.pack o.line by cases o.line <;> rfl]
        exact hclosed
    · obtain ⟨o, ho⟩ := Option.isSome_iff_exists.mp hsome
      rw [cancelOrderAct_of_order ⟨h1, h2⟩ ho, boundLine_of_bound hbound hfirst, Option.any_some,
        if_pos ((underWay_iff _).mpr hway)]
    · obtain ⟨o, ho⟩ := Option.isSome_iff_exists.mp hsome
      have hline := boundLine_of_bound hbound hfirst
      refine ⟨_, ?_, ?_, rfl⟩
      · rw [cancelOrderAct_of_order ⟨h1, h2⟩ ho, hline, Option.any_some, hstate, cancelOrder,
          order_number ho, hline]
        rfl
      · rw [tryBinding_orders]
        cases l <;> rfl

/-- Settles O53: the request, the plan and the cut that fires, each by its own equation. -/
theorem endCoilPlansCut : Obligations.EndCoilPlansCut := by
  refine ⟨?_, ?_, ?_, cutChoice_spec, ?_, ?_, ?_⟩
  · intro tag l s hready
    rw [exec_endCoil _ _ hready, endCoilAct, lineField_machineOf, guarded_cons_true,
      guarded_append (onLine_machineOf ..), endable_eq]
    exact congrArg Host.Outcome.next (replied_guarded rfl)
  · intro l s hfree t
    have ht : t = cutFires l (endingCoil l s) := endCoil_eq hfree
    have hpack : (endingCoil l s).pack l = { s.pack l with
        state := .planned
        plan := some ⟨(s.len l).p - s.cutterOffset l, (s.len l).p, none, .endCoil⟩
        nearSplice := false } := by cases l <;> rfl
    have hrunning : (endingCoil l s).running l = s.running l :=
      lineOnly_running (lineOnly_trans (lineOnly_setPack l _ s) (lineOnly_setActions ..)) l
    rw [ht, cutFires_hasCause, cutFires_pack, hrunning, cutFires_act, hpack]
    refine ⟨?_, ?_, rfl, fun hrest => ?_, fun hrun => ?_, fun a ha => ?_⟩
    · split <;> rfl
    · split <;> rfl
    · rw [hrest]
      exact ⟨rfl, rfl⟩
    · rw [if_pos hrun]
      exact ⟨rfl, rfl⟩
    · have hactions : ((endingCoil l s).act l).actions
          = (s.act l).actions.filter fun a => a.act.isSpray := by cases l <;> rfl
      rw [hactions] at ha
      have hspray := (List.mem_filter.mp ha).2
      rintro hcut
      rw [hcut] at hspray
      cases hspray
  · intro l p s due
    refine ⟨fun hnever => ?_, fun x0 o hstate hstart ho hdue => ?_⟩
    · unfold planningEvent
      split
      · next x0 o hstate hstart ho =>
        rw [if_neg]
        rw [planningDue_iff]
        exact hnever x0 o hstate hstart ho
      · rfl
    · rw [planningEvent_of_bound p hstate hstart ho, if_pos ((planningDue_iff ..).mpr hdue)]
  · intro l cut grade origin near s trigger sprays planned
    refine ⟨fun hreached hfree => ?_, fun hwaits => ?_⟩
    · rw [placePlan, placeCut_reached]
      · cases l <;> rfl
      · cases l <;> exact hreached
      · rw [setPack_pack]
        exact hfree
    · rw [placePlan, placeCut_waiting]
      · cases l <;> rfl
      · rw [setPack_pack]
        cases l <;> exact hwaits
  · intro e s
    refine ⟨fun hnever => ?_, fun o c hstate ho hrule hcopy => ?_⟩
    · unfold panelEnds
      split
      · next o hstate ho => exact if_neg (hnever o hstate ho)
      · rfl
    · unfold panelEnds
      simp only [hstate, show s.boundOrder .net = some o from ho, hrule, if_true, hcopy]
      rfl
  · intro l s firing stroke
    refine ⟨cutFires_eq l s, rfl⟩

end Sys2Proof.Machine
end

section
/-! SUPPORT. The completion of a cut: the coil closed, its record, its order and its marks
(R88, R141 to R148). -/

namespace Sys2Proof.Machine

variable {s t : State}

/-! ### The coil that a binding leaves as it is -/

/-- Between the states a line keeps its coil start, its pending record and its marks. -/
def CoilKept (l : LineId) (s t : State) : Prop :=
  (t.pack l).coilStart = (s.pack l).coilStart ∧ (t.pack l).record = (s.pack l).record ∧
    (t.act l).marks = (s.act l).marks

theorem coilKept_refl (l : LineId) (s : State) : CoilKept l s s := ⟨rfl, rfl, rfl⟩

theorem coilKept_trans {l : LineId} {u : State} (h : CoilKept l s t) (g : CoilKept l t u) :
    CoilKept l s u := by
  obtain ⟨hstart, hrecord, hmarks⟩ := h
  obtain ⟨gstart, grecord, gmarks⟩ := g
  exact ⟨gstart.trans hstart, grecord.trans hrecord, gmarks.trans hmarks⟩

theorem coilKept_of_notices (l : LineId) (h : NoticesOnly s t) : CoilKept l s t := by
  rw [NoticesOnly] at h
  rw [h]
  cases l <;> exact ⟨rfl, rfl, rfl⟩

theorem coilKept_setPack {l : LineId} {x : PackPoint} (hstart : x.coilStart = (s.pack l).coilStart)
    (hrecord : x.record = (s.pack l).record) : CoilKept l s (s.setPack l x) := by
  refine ⟨?_, ?_, by cases l <;> rfl⟩
  · rw [setPack_pack, hstart]
  · rw [setPack_pack, hrecord]

theorem coilKept_setActions (l : LineId) (actions : List Action) (s : State) :
    CoilKept l s (s.setActions l actions) := by
  cases l <;> exact ⟨rfl, rfl, rfl⟩

theorem coilKept_cutFires (l : LineId) (s : State) : CoilKept l s (cutFires l s) := by
  rw [CoilKept, cutFires_pack, cutFires_act]
  split <;> exact ⟨rfl, rfl, rfl⟩

theorem coilKept_placeCut (l : LineId) (trigger : Nat) (s : State) :
    CoilKept l s (placeCut l trigger s) := by
  unfold placeCut
  simp only
  split
  · exact coilKept_trans (coilKept_setActions ..) (coilKept_cutFires ..)
  · exact coilKept_trans (coilKept_setActions ..) (coilKept_setActions ..)

theorem coilKept_planningEvent (l : LineId) (p : Nat) (s : State) :
    CoilKept l s (planningEvent l p s) := by
  unfold planningEvent
  split
  · split
    · refine coilKept_trans ?_ (coilKept_placeCut ..)
      exact coilKept_setPack rfl rfl
    · exact coilKept_refl l s
  · exact coilKept_refl l s

theorem coilKept_tryBinding (l : LineId) (s : State) : CoilKept l s (tryBinding l s) := by
  unfold tryBinding
  split
  · split
    · exact coilKept_of_notices l (noticesOnly_enterReport ..)
    · split
      · exact coilKept_of_notices l (noticesOnly_enterReport ..)
      · refine coilKept_trans ?_ (coilKept_planningEvent ..)
        exact coilKept_setPack rfl rfl
  · exact coilKept_refl l s

/-- R128: a coil opened starts at the cut; the pending record and the marks stay. -/
theorem openCoil_coil (l : LineId) (x0 : Nat) (s : State) :
    ((openCoil l x0 s).pack l).coilStart = some x0 ∧
      ((openCoil l x0 s).pack l).record = (s.pack l).record ∧
      ((openCoil l x0 s).act l).marks = (s.act l).marks := by
  obtain ⟨hstart, hrecord, hmarks⟩ := coilKept_tryBinding l (s.setPack l
    { s.pack l with
      state := .opened, coilStart := some x0, bound := none, plan := none, nearSplice := false
      phase := none, packages := openingPackages l s, more := false })
  rw [setPack_pack] at hstart hrecord
  exact ⟨hstart, hrecord, hmarks.trans (by cases l <;> rfl)⟩

/-! ### Marks taken out (R88) -/

theorem takeCoilMarks_notices (l : LineId) (cut : Nat) (s : State) :
    NoticesOnly (s.setMarks l (divideMarks cut (s.act l).marks).2) (takeCoilMarks l cut s).1 := by
  unfold takeCoilMarks
  simp only
  split
  · exact noticesOnly_judgeLowWater ..
  · exact noticesOnly_refl _

theorem lineOnly_takeCoilMarks (l : LineId) (cut : Nat) (s : State) :
    LineOnly l s (takeCoilMarks l cut s).1 :=
  lineOnly_trans (lineOnly_setMarks l _ s) (lineOnly_of_notices l (takeCoilMarks_notices l cut s))

theorem takeCoilMarks_marks (l : LineId) (cut : Nat) (s : State) :
    ((takeCoilMarks l cut s).1.act l).marks = (divideMarks cut (s.act l).marks).2 := by
  rw [takeCoilMarks_notices l cut s]
  cases l <;> rfl

theorem takeCoilMarks_pack (l : LineId) (cut : Nat) (s : State) :
    (takeCoilMarks l cut s).1.pack l = s.pack l := by
  rw [takeCoilMarks_notices l cut s]
  cases l <;> rfl

theorem takeCoilMarks_act (l : LineId) (cut : Nat) (s : State)
    (kept : List Mark) (hkept : (divideMarks cut (s.act l).marks).2 = kept) :
    (takeCoilMarks l cut s).1
      = if kept.length < (s.act l).marks.length ∧ kept.length ≤ 112 then
          clearCause (machineOf l) .marksFull (s.setMarks l kept)
        else s.setMarks l kept := by
  have hmarks : ((s.setMarks l kept).act l).marks = kept := by cases l <;> rfl
  unfold takeCoilMarks judgeLowWater lowWater
  simp only [hkept, hmarks]
  by_cases hfewer : kept.length < (s.act l).marks.length <;> simp [hfewer]

theorem gradeOfMarks_nil (kinds : KindSet) (limit : Nat) : gradeOfMarks kinds limit [] = .a := rfl

theorem gradeOfMarks_of_marks (kinds : KindSet) (limit : Nat) {marks : List Mark}
    (h : marks ≠ []) :
    gradeOfMarks kinds limit marks
      = if (∀ m ∈ marks, m.kind.isIn kinds = true) ∧ marks.length ≤ limit then .b else .c := by
  unfold gradeOfMarks
  simp [h]

/-- R148: when a coil counts. -/
theorem coilCounts_iff (order : Option Order) (grade : Grade) (length : Nat) :
    coilCounts order grade length = true ↔
      ∃ o, order = some o ∧ grade.code ≤ o.minGrade.code ∧
        (o.rule = .panel ∨ (o.target - o.low ≤ length ∧ length ≤ o.target + o.high)) := by
  cases order with
  | none => simp [coilCounts]
  | some o => simp [coilCounts, Grade.atLeast]

/-! ### The record of a cut (R147) -/

theorem flagBit_getLsbD (i j : Nat) (hj : j < 8) (holds : Bool) :
    (flagBit i holds).getLsbD j = (holds && decide (i = j)) := by
  unfold flagBit
  cases holds with
  | false => simp
  | true =>
    simp only [if_true, BitVec.getLsbD_shiftLeft, BitVec.getLsbD_one, Bool.true_and]
    by_cases h : i = j
    · simp [h, hj]
    · simp only [h, decide_false]
      simp
      omega

/-- Each flag of a record at its bit. -/
theorem coilFlags_getLsbD (k : PackPoint) (order : Option Order) (length : Nat)
    (counted manual : Bool) (marks : List Mark) :
    let flags := coilFlags k order length counted manual marks
    flags.getLsbD 0 = order.any (fun o => decide (length < o.target - o.low)) ∧
    flags.getLsbD 1 = order.any (fun o => decide (o.target + o.high < length)) ∧
    flags.getLsbD 2 = (!counted) ∧ flags.getLsbD 3 = k.nearSplice ∧
    flags.getLsbD 4 = (k.plan.map CutPlan.origin == some .endCoil) ∧
    flags.getLsbD 5 = manual ∧ flags.getLsbD 6 = marks.any (fun m => m.kind == .mixed) ∧
    flags.getLsbD 7 = k.more := by
  simp only [coilFlags, notCountedBit, BitVec.getLsbD_or]
  simp [flagBit_getLsbD, -BitVec.getLsbD_eq_getElem]

theorem recordNotCounted_iff (r : CoilRecord) : r.notCounted = r.flags.getLsbD 2 := rfl

/-! ### The count of a coil (R146, R148) -/

theorem orders_reportCoil (r : CoilRecord) (done : Nat) (s : State) :
    (reportCoil r done s).orders = s.orders := by
  rw [reportCoil, enterReport_only]

theorem orders_enterReport (kind : ReportKind) (machine : Option Nat) (body : List Byte)
    (s : State) : (enterReport kind machine body s).orders = s.orders := by
  rw [enterReport_only]

theorem order_congr (h : t.orders = s.orders) (n : Nat) : t.order n = s.order n := by
  rw [State.order, h, State.order]

theorem order_countCoil (n : Nat) (s : State) :
    (countCoil n s).order n = (s.order n).map fun o => { o with done := o.done + 1 } := by
  have hsame : (fun o : Order => o.number == n)
      ∘ (fun o => if o.number = n then { o with done := o.done + 1 } else o)
        = fun o => o.number == n := by
    funext o
    simp only [Function.comp]
    split <;> rfl
  unfold State.order countCoil
  rw [List.find?_map, hsame]
  cases h : s.orders.find? fun o => o.number == n with
  | none => rfl
  | some o =>
    have hn : o.number = n := by simpa using List.find?_some h
    simp [hn]

/-- A coil counted on an order that then leaves is no change to the other orders. -/
theorem orders_countCoil_removed (n : Nat) (s : State) :
    (countCoil n s).orders.filter (fun o => o.number != n) = s.orders.filter fun o => o.number != n := by
  unfold countCoil
  simp only
  induction s.orders with
  | nil => rfl
  | cons o rest ih =>
    by_cases h : o.number = n <;> simp_all

theorem fillOrder_of_notCounted {l : LineId} {r : CoilRecord} (h : r.notCounted = true) (s : State) :
    fillOrder l r s = s := by
  unfold fillOrder
  split
  · simp [h]
  · rfl

theorem fillOrder_of_missing {l : LineId} {r : CoilRecord} (h : s.order r.order = none) :
    fillOrder l r s = s := by
  unfold fillOrder
  rw [h]

theorem fillOrder_of_order {l : LineId} {r : CoilRecord} {o : Order} (hcounts : r.notCounted = false)
    (h : s.order r.order = some o) :
    fillOrder l r s
      = if o.done = o.count then
          removeOrder r.order
            (enterReport .orderDone (some (machineOf l).val) (be 2 r.order ++ be 1 o.count) s)
        else s := by
  unfold fillOrder
  simp only [h, hcounts, true_and, order_number h]
  rfl

theorem countAndReport_of_notCounted {r : CoilRecord} (h : r.notCounted = true) (l : LineId)
    (s : State) : countAndReport l r s = reportCoil r 0 s := by
  unfold countAndReport
  simp only [h, if_true]
  exact fillOrder_of_notCounted h _

theorem countAndReport_of_missing {r : CoilRecord} (hcounts : r.notCounted = false)
    (h : s.order r.order = none) (l : LineId) :
    countAndReport l r s = reportCoil r 0 (countCoil r.order s) := by
  have hcount : (countCoil r.order s).order r.order = none := by rw [order_countCoil, h]; rfl
  unfold countAndReport
  simp only [hcounts, Bool.false_eq_true, if_false, hcount, Option.map_none, Option.getD_none]
  exact fillOrder_of_missing ((order_congr (orders_reportCoil ..) _).trans hcount)

theorem countAndReport_of_order {r : CoilRecord} {o : Order} (hcounts : r.notCounted = false)
    (h : s.order r.order = some o) (l : LineId) :
    countAndReport l r s
      = let reported := reportCoil r (o.done + 1) (countCoil r.order s)
        if o.done + 1 = o.count then
          removeOrder r.order
            (enterReport .orderDone (some (machineOf l).val) (be 2 r.order ++ be 1 o.count) reported)
        else reported := by
  have hcount : (countCoil r.order s).order r.order = some { o with done := o.done + 1 } := by
    rw [order_countCoil, h]; rfl
  unfold countAndReport
  simp only [hcounts, Bool.false_eq_true, if_false, hcount, Option.map_some, Option.getD_some]
  exact fillOrder_of_order hcounts ((order_congr (orders_reportCoil ..) _).trans hcount)

/-- What counting leaves of the orders rests on the orders before it alone. -/
theorem orders_countAndReport_congr (h : t.orders = s.orders) (l : LineId) (r : CoilRecord) :
    (countAndReport l r t).orders = (countAndReport l r s).orders := by
  have hcounted : (countCoil r.order t).orders = (countCoil r.order s).orders := by
    rw [countCoil, h, countCoil]
  cases hcounts : r.notCounted with
  | true =>
    rw [countAndReport_of_notCounted hcounts, countAndReport_of_notCounted hcounts,
      orders_reportCoil, orders_reportCoil, h]
  | false =>
    cases ho : s.order r.order with
    | none =>
      rw [countAndReport_of_missing hcounts ho, orders_reportCoil,
        countAndReport_of_missing hcounts ((order_congr h _).trans ho), orders_reportCoil, hcounted]
    | some o =>
      rw [countAndReport_of_order hcounts ho,
        countAndReport_of_order hcounts ((order_congr h _).trans ho)]
      simp only
      split
      · simp only [removeOrder, orders_enterReport, orders_reportCoil, hcounted]
      · rw [orders_reportCoil, orders_reportCoil, hcounted]

/-! ### The completion -/

/-- The marks of a cut taken out, the timer and the cutter of the line off. -/
def takenAt (l : LineId) (cut : Nat) (s : State) : State × List Mark :=
  takeCoilMarks l cut (s.setPack l { s.pack l with timer := none, cutter := false })

/-- The record of the coil between its start and the cut. -/
def closedRecord (l : LineId) (manual : Bool) (x0 cut : Nat) (s : State) : CoilRecord :=
  buildRecord l x0 (cut - x0) manual (takenAt l cut s).2 (takenAt l cut s).1

/-- The coil counted, reported and recorded. -/
def recordedCoil (l : LineId) (r : CoilRecord) (cut : Nat) (s : State) : State :=
  queueRecord l r (countAndReport l r (takenAt l cut s).1)

/-- R146: the coil is recorded, the next one opened, and the causes of the cut cleared. -/
theorem completeCut_of_open {l : LineId} {x0 cut : Nat} (manual : Bool)
    (hstart : (s.pack l).coilStart = some x0)
    (hcut : max x0 ((s.len l).p - s.cutterOffset l) = cut) :
    completeCut l manual s
      = stopNotice (machineOf l) 0 (StopCause.only .cut ||| StopCause.only .cutFail)
          (openCoil l cut (recordedCoil l (closedRecord l manual x0 cut s) cut s)) := by
  have hposition : cutPosition l x0 (s.setPack l { s.pack l with timer := none, cutter := false })
      = cut := by rw [← hcut]; cases l <;> rfl
  have hgetD : ((s.pack l).coilStart).getD 0 = x0 := by rw [hstart, Option.getD_some]
  unfold completeCut
  simp only [hgetD, hposition]
  rfl

theorem recordedCoil_pack (l : LineId) (r : CoilRecord) (cut : Nat) (s : State) :
    ((recordedCoil l r cut s).pack l).record = some ⟨r, .queued⟩ := by
  rw [recordedCoil, queueRecord, talliesOnly_placeOp]
  exact congrArg PackPoint.record (setPack_pack ..)

theorem countAndReport_act (l : LineId) (r : CoilRecord) (s : State) :
    (countAndReport l r s).act l = s.act l := by
  rw [(countAndReport_only l r s).1]
  cases l <;> rfl

theorem takenAt_marks (l : LineId) (cut : Nat) (s : State) :
    ((takenAt l cut s).1.act l).marks = ((takeCoilMarks l cut s).1.act l).marks := by
  rw [takenAt, takeCoilMarks_marks, takeCoilMarks_marks]
  cases l <;> rfl

theorem takenAt_handed (l : LineId) (cut : Nat) (s : State) :
    (takenAt l cut s).2 = (takeCoilMarks l cut s).2 := by
  cases l <;> rfl

theorem lineOnly_takenAt (l : LineId) (cut : Nat) (s : State) : LineOnly l s (takenAt l cut s).1 :=
  lineOnly_trans (lineOnly_setPack l _ s) (lineOnly_takeCoilMarks ..)

theorem recordedCoil_marks (l : LineId) (r : CoilRecord) (cut : Nat) (s : State) :
    ((recordedCoil l r cut s).act l).marks = ((takeCoilMarks l cut s).1.act l).marks := by
  have hqueued : (recordedCoil l r cut s).act l = (countAndReport l r (takenAt l cut s).1).act l := by
    rw [recordedCoil, queueRecord, talliesOnly_placeOp]
    cases l <;> rfl
  rw [hqueued, countAndReport_act, takenAt_marks]

theorem recordedCoil_orders (l : LineId) (r : CoilRecord) (cut : Nat) (s : State) :
    (recordedCoil l r cut s).orders = (countAndReport l r s).orders := by
  have hqueued : (recordedCoil l r cut s).orders
      = (countAndReport l r (takenAt l cut s).1).orders := by
    rw [recordedCoil, queueRecord, talliesOnly_placeOp]
    cases l <;> rfl
  rw [hqueued, orders_countAndReport_congr (lineOnly_orders (lineOnly_takenAt l cut s))]

/-- A record is built from the state at the cut: taking the marks out leaves what it reads. -/
theorem closedRecord_eq (l : LineId) (manual : Bool) (x0 cut : Nat) (s : State) :
    closedRecord l manual x0 cut s
      = buildRecord l x0 (cut - x0) manual (takeCoilMarks l cut s).2 s := by
  have hpack : (takenAt l cut s).1.pack l = { s.pack l with timer := none, cutter := false } := by
    rw [takenAt, takeCoilMarks_pack, setPack_pack]
  have horder : (takenAt l cut s).1.boundOrder l = s.boundOrder l := by
    rw [State.boundOrder, hpack, State.boundOrder]
    exact congrArg _ (funext fun n => order_congr (lineOnly_orders (lineOnly_takenAt l cut s)) n)
  obtain ⟨-, hrope, hnet, -, -⟩ := lineOnly_keeps (lineOnly_takenAt l cut s)
  have hcopies : (takenAt l cut s).1.copyOf l = s.copyOf l ∧
      (takenAt l cut s).1.bKinds l = s.bKinds l ∧ (takenAt l cut s).1.bLimit l = s.bLimit l := by
    cases l <;> simp only [State.copyOf, State.bKinds, State.bLimit, hrope, hnet, and_self]
  obtain ⟨hcopy, hkinds, hlimit⟩ := hcopies
  rw [closedRecord, takenAt_handed]
  unfold buildRecord
  simp only [hpack, horder, hcopy, hkinds, hlimit]
  rfl

/-- What a completed cut leaves: the coil start, the pending record, the orders and the marks. -/
theorem completeCut_leaves {l : LineId} {x0 cut : Nat} (manual : Bool)
    (hstart : (s.pack l).coilStart = some x0)
    (hcut : max x0 ((s.len l).p - s.cutterOffset l) = cut) :
    let r := buildRecord l x0 (cut - x0) manual (takeCoilMarks l cut s).2 s
    ((completeCut l manual s).pack l).coilStart = some cut ∧
    ((completeCut l manual s).pack l).record = some ⟨r, .queued⟩ ∧
    (completeCut l manual s).orders = (countAndReport l r s).orders ∧
    ((completeCut l manual s).act l).marks = ((takeCoilMarks l cut s).1.act l).marks := by
  intro r
  have heq := completeCut_of_open manual hstart hcut
  rw [closedRecord_eq] at heq
  obtain ⟨hopen, hrecord, hmarks⟩ := openCoil_coil l cut (recordedCoil l r cut s)
  obtain ⟨kopen, krecord, kmarks⟩ := coilKept_of_notices l (noticesOnly_stopNotice (machineOf l) 0
    (StopCause.only .cut ||| StopCause.only .cutFail) (openCoil l cut (recordedCoil l r cut s)))
  rw [heq]
  refine ⟨kopen.trans hopen, krecord.trans (hrecord.trans (recordedCoil_pack ..)), ?_,
    kmarks.trans (hmarks.trans (recordedCoil_marks ..))⟩
  rw [noticesOnly_stopNotice, ← recordedCoil_orders l r cut s]
  exact orders_openCoil ..

theorem completeCut_causes {l : LineId} {x0 : Nat} (manual : Bool)
    (hstart : (s.pack l).coilStart = some x0) :
    (completeCut l manual s).hasCause (machineOf l) .cut = false ∧
      (completeCut l manual s).hasCause (machineOf l) .cutFail = false := by
  have hcut : StopCause.isIn .cut (StopCause.only .cut ||| StopCause.only .cutFail) = true ∧
      StopCause.isIn .cutFail (StopCause.only .cut ||| StopCause.only .cutFail) = true := by decide
  rw [completeCut_of_open manual hstart rfl, hasCause_stopNotice, hasCause_stopNotice, hcut.1, hcut.2]
  simp

/-! ### The stroke fails (R143) -/

theorem cutterDone_completes {l : LineId}
    (h : ((s.pack l).state = .cutting ∧ (s.pack l).phase = some .stroke) ∨
      (s.pack l).state = .cutFail) : cutterDone l s = completeCut l false s := by
  unfold cutterDone
  rcases h with ⟨hstate, hphase⟩ | hstate
  · simp only [hstate, hphase, if_true]
  · simp only [hstate]

theorem strokeFails_keeps (l : LineId) (s : State) :
    (strokeFails l s).pack l
        = { s.pack l with state := .cutFail, phase := none, timer := none, cutter := false } ∧
      (strokeFails l s).len l = s.len l ∧ (strokeFails l s).act l = s.act l ∧
      (strokeFails l s).orders = s.orders ∧ (strokeFails l s).jobs = s.jobs := by
  have hnotices : NoticesOnly (s.setPack l
      { s.pack l with state := .cutFail, phase := none, timer := none, cutter := false })
      (strokeFails l s) := by
    unfold strokeFails
    exact noticesOnly_trans (noticesOnly_stopNotice ..) (noticesOnly_enterReport ..)
  rw [hnotices]
  cases l <;> exact ⟨rfl, rfl, rfl, rfl, rfl⟩

theorem strokeFails_causes (l : LineId) (s : State) :
    (strokeFails l s).hasCause (machineOf l) .cutFail = true ∧
      (strokeFails l s).hasCause (machineOf l) .cut = false := by
  have hfail : StopCause.isIn .cutFail (StopCause.only .cutFail) = true ∧
      StopCause.isIn .cutFail (StopCause.only .cut) = false ∧
      StopCause.isIn .cut (StopCause.only .cut) = true := by decide
  obtain ⟨hset, hkept, hcleared⟩ := hfail
  unfold strokeFails
  simp [hasCause_congr (enterReport_stops ..), hasCause_stopNotice, hset, hkept, hcleared]

/-- The edge of an input that has held at 1 is handed on at the instant it had held long enough. -/
def levelHeld (i : LevelInput) (began : Nat) (s : State) : State :=
  ({ s with now := max s.now (began + 100) } : State).setLevel i
    { s.inputs.level i with level := true, hold := none }

theorem levelHeld_pack (i : LevelInput) (began : Nat) (l : LineId) (s : State) :
    (levelHeld i began s).pack l = s.pack l := by
  cases i <;> cases l <;> rfl

/-- The input of a line's cutter. -/
def doneInput : LineId → LevelInput
  | .rope => .cdr
  | .net => .cdn

theorem levelSettled_done {l : LineId} {began : Nat}
    (hhold : (s.inputs.level (doneInput l)).hold = some began)
    (hpin : (s.inputs.level (doneInput l)).pin = true) :
    levelSettled (doneInput l) s = cutterDone l (levelHeld (doneInput l) began s) := by
  rw [levelSettled_of_hold hhold, hpin]
  cases l <;> rfl

end Sys2Proof.Machine
end

section
/-! The obligation on the completion of cuts (R88, R141 to R148). -/

namespace Sys2Proof.Machine

/-- Settles O54: the completion by the state it leaves, the record by the state at the cut. -/
theorem cutsCompleteOrFail : Obligations.CutsCompleteOrFail := by
  refine ⟨?_, ?_, ?_, ?_, ?_, completeCut_queue, ?_, ?_, ?_, coilCounts_iff, ?_, ?_⟩
  · intro tag l s hready
    rw [exec_cutManual _ _ hready, cutManualAct, lineField_machineOf, guarded_cons_true,
      guarded_append (onLine_machineOf ..), cuttable_eq]
    exact congrArg Host.Outcome.next (replied_guarded rfl)
  · intro l manual x0 s hstart cut t
    obtain ⟨hopen, hrecord, -, -⟩ := completeCut_leaves manual hstart (cut := cut) rfl
    obtain ⟨hnocut, hnofail⟩ := completeCut_causes manual hstart
    obtain ⟨-, -, -, -, -, hmanual, -, -⟩ := coilFlags_getLsbD (s.pack l) (s.boundOrder l) (cut - x0)
      (coilCounts (s.boundOrder l) (gradeOfMarks (s.bKinds l) (s.bLimit l)
        (coilMarks x0 (takeCoilMarks l cut s).2)) (cut - x0)) manual
      (coilMarks x0 (takeCoilMarks l cut s).2)
    exact ⟨hopen, ⟨_, hrecord, rfl, rfl, rfl, rfl, rfl, hmanual⟩, hnocut, hnofail⟩
  · intro l s began done hhold hpin hstate
    have hpack := levelHeld_pack done began l s
    exact congrArg Host.Outcome.next ((levelSettled_done hhold hpin).trans
      (cutterDone_completes (by rw [← hpack] at hstate; exact hstate)))
  · intro l s d hstate htimer
    have hevent : cutTimerEvent l s = strokeFails l (s.reach d) := by
      unfold cutTimerEvent
      simp only [hstate, htimer]
    refine ⟨_, congrArg Host.Outcome.next hevent, now_of_ground (ground_strokeFails ..), ?_⟩
    obtain ⟨hset, hcleared⟩ := strokeFails_causes l (s.reach d)
    obtain ⟨hpack, hlen, hact, horders, hjobs⟩ := strokeFails_keeps l (s.reach d)
    refine ⟨hpack.trans ?_, hset, hcleared, hlen.trans ?_, hact.trans ?_, horders, hjobs, ?_⟩ <;>
      cases l <;> rfl
  · intro l s began done hhold hpin hfail hstroke
    have hpack := levelHeld_pack done began l s
    exact congrArg Host.Outcome.next ((levelSettled_done hhold hpin).trans
      (cutterDone_idle l _ (by rw [← hpack] at hfail; exact hfail)
        (by rw [← hpack] at hstroke; exact hstroke)))
  · intro l manual x0 s hstart cut length handed marks order grade t
    obtain ⟨-, hrecord, horders, hmarks⟩ := completeCut_leaves manual hstart (cut := cut) rfl
    obtain ⟨hshort, hlong, hcounted, hnear, hend, -, hmixed, hmore⟩ := coilFlags_getLsbD (s.pack l)
      order length (coilCounts order grade length) manual marks
    exact ⟨_, hrecord, rfl, rfl, rfl, rfl, rfl, rfl, hshort, hlong, hcounted, hnear, hend, hmixed,
      hmore, horders, hmarks⟩
  · intro l cut s marks kept
    have hkept : (divideMarks cut marks).2 = kept := by
      simp only [divideMarks, kept, List.filter_filter]
      refine congrArg (· ++ _) (congrArg (List.map _) (List.filter_congr fun m _ => ?_))
      exact Bool.and_comm ..
    refine ⟨rfl, fun hfewer hlow => ?_, fun h => ?_⟩
    · rw [takeCoilMarks_act l cut s kept hkept, if_pos ⟨hfewer, hlow⟩]
    · rw [takeCoilMarks_act l cut s kept hkept, if_neg]
      rintro ⟨hfewer, hlow⟩
      have hlen : marks.length = (s.act l).marks.length := rfl
      omega
  · intro kinds limit marks
    refine ⟨fun h => by rw [h, gradeOfMarks_nil], fun h hall hfew => ?_, fun h hsome => ?_⟩
    · rw [gradeOfMarks_of_marks _ _ h, if_pos ⟨hall, hfew⟩]
    · rw [gradeOfMarks_of_marks _ _ h, if_neg]
      rintro ⟨hall, hfew⟩
      rcases hsome with ⟨m, hm, hout⟩ | hmany
      · exact absurd (hall m hm) (by simp [hout])
      · omega
  · intro l r s report counted
    refine ⟨fun hnot => countAndReport_of_notCounted hnot l s,
      fun hcounts hnone => countAndReport_of_missing hcounts hnone l, fun o hcounts ho => ?_⟩
    rw [countAndReport_of_order hcounts ho]
    refine ⟨fun hopen => if_neg hopen, fun hfull => ?_⟩
    simp only [if_pos hfull]
    rw [removeOrder, orders_enterReport, orders_reportCoil, orders_countCoil_removed]
    rfl
  · intro l manual x0 s hstart hband t bound
    have hpack := completeCut_pack l manual x0 s hstart hband
    simp only [openingPackages_eq] at hpack
    exact hpack

end Sys2Proof.Machine
end

section
/-! SUPPORT. The requests on the store and the store operation queue (R153 to R160). -/

namespace Sys2Proof.Machine

variable {s : State}

theorem bodyCheck_of_fit {body : RecipeBody} (h : body.firstBad = none) :
    bodyCheck body = (true, .done []) := by
  rw [bodyCheck, h]

theorem bodyCheck_of_unfit {body : RecipeBody} {i : Nat} (h : body.firstBad = some i) :
    bodyCheck body = (false, .field i) := by
  rw [bodyCheck, h]

theorem plantCheck_of_fit {plant : PlantRecord} (h : firstBad 1 plant.fields = none) :
    plantCheck plant = (true, .done []) := by
  rw [plantCheck, h]

theorem plantCheck_of_unfit {plant : PlantRecord} {i : Nat} (h : firstBad 1 plant.fields = some i) :
    plantCheck plant = (false, .field i) := by
  rw [plantCheck, h]

/-- Behind an operation in flight an operation placed waits. -/
theorem placeOp_of_running (op : StoreOp) (h : s.runningOp.isSome = true) :
    placeOp op s = { s with queue := s.queue ++ [⟨op, .waiting⟩] } := by
  have hrunning : ({ s with queue := s.queue ++ [⟨op, .waiting⟩] } : State).runningOp.isSome
      = true := by
    rw [State.runningOp, Option.isSome_map] at h ⊢
    rw [List.find?_append, Option.isSome_or, h, Bool.true_or]
  rw [placeOp, startNext, hrunning, Bool.true_or, if_pos rfl]

/-- With none in flight, and only writes HELD before it, an operation placed runs. -/
theorem placeOp_of_idle (op : StoreOp) (hidle : s.runningOp = none)
    (hrestarting : s.link.restarting = false) (hheld : ∀ e ∈ s.queue, e.state = .held) :
    placeOp op s = { s with queue := s.queue ++ [⟨op, .running⟩] } := by
  have hqueue := placeOp_queue op s fun e he hwaiting => by rw [hheld e he] at hwaiting; cases hwaiting
  simp only [hidle, hrestarting, Option.isNone_none, Bool.not_false, Bool.and_self, if_true] at hqueue
  have hnone : ({ s with queue := s.queue ++ [⟨op, .waiting⟩] } : State).runningOp = none := by
    rw [State.runningOp, Option.map_eq_none_iff] at hidle ⊢
    rw [List.find?_append, hidle]
    rfl
  have hpromoted : placeOp op s
      = { s with queue := promote (s.queue ++ [⟨op, .waiting⟩]) } := by
    rw [placeOp, startNext, hnone]
    simp only [hrestarting, Option.isSome_none, Bool.or_self, Bool.false_eq_true, if_false]
  rw [hpromoted] at hqueue ⊢
  rw [show promote (s.queue ++ [⟨op, .waiting⟩]) = s.queue ++ [⟨op, .running⟩] from hqueue]

end Sys2Proof.Machine
end

section
/-! The obligation on the requests on the store (R153 to R160). -/

namespace Sys2Proof.Machine

/-- Settles O55: each request by its checks, the queue by what is in flight. -/
theorem storeRequestsAreQueued : Obligations.StoreRequestsAreQueued := by
  refine ⟨fun tag s hready => ⟨?_, ?_, ?_, ?_, ?_, ?_, ?_⟩, fun op s => placeOp_of_running op,
    fun op s => placeOp_of_idle op, ?_⟩
  · intro slot body hfit
    rw [exec_storeRecipe _ _ _ hready, storeRecipeAct, bodyCheck_of_fit hfit, List.cons_append,
      List.cons_append, guarded_second_true]
    exact congrArg Host.Outcome.next (replied_guarded rfl)
  · intro slot body i hslot hunfit
    rw [exec_storeRecipe _ _ _ hready, storeRecipeAct, bodyCheck_of_unfit hunfit, List.cons_append,
      List.cons_append, slotField, inField_within (Nat.zero_le _) hslot, guarded_cons_true,
      guarded_cons_false]
  · intro slot
    rw [exec_eraseRecipe _ _ hready, eraseRecipeAct]
    exact congrArg Host.Outcome.next (replied_guarded rfl)
  · intro plant hfit
    rw [exec_storePlant _ _ hready, storePlantAct, plantCheck_of_fit hfit, guarded_cons_true]
    exact congrArg Host.Outcome.next (replied_guarded rfl)
  · intro plant i hunfit
    rw [exec_storePlant _ _ hready, storePlantAct, plantCheck_of_unfit hunfit, guarded_cons_false]
  · intro t
    rw [exec_logTake _ _ hready, logTakeAct]
    exact congrArg Host.Outcome.next (replied_guarded rfl)
  · intro n
    rw [exec_logVoid _ _ hready, logVoidAct]
    exact congrArg Host.Outcome.next (replied_guarded rfl)
  · intro s next
    exact ⟨endOp_promotes s, holdOp_promotes s⟩

end Sys2Proof.Machine
end

section
/-! SUPPORT. A page stored and read back: what verified steps leave, and steps that nothing fails
(R168, R170, R178). -/

namespace Sys2Proof.Machine

variable {m : Memory} {page : Nat}

/-! ### Bytes of a page -/

/-- A run of bytes read inside a longer one. -/
theorem bytes_part {offset n k : Nat} {contents : List Byte}
    (h : m.bytes page offset contents.length = contents) (hnk : n + k ≤ contents.length) :
    m.bytes page (offset + n) k = (contents.drop n).take k := by
  refine List.ext_getElem (by simp [bytes_length]; omega) fun i h1 h2 => ?_
  have hi : i < k := by simpa [bytes_length] using h1
  have hread : (m.bytes page offset contents.length)[n + i]'(by simp [bytes_length]; omega)
      = contents[n + i]'(by omega) := by simp only [h]
  rw [bytes_getElem (by omega)] at hread
  rw [bytes_getElem hi, List.getElem_take, List.getElem_drop, ← hread]
  simp only [addressOf_eq]
  exact congrArg m.read (by omega)

theorem bytes_one (offset : Nat) : m.bytes page offset 1 = [m.read (addressOf page offset)] := by
  simp [Memory.bytes]

/-! ### Steps that are verified -/

theorem program_verified {x : Progress} {offset : Nat} {contents : List Byte}
    (h : (x.program page offset contents).2 = true) :
    (x.program page offset contents).1.mem.bytes page offset contents.length = contents :=
  beq_iff_eq.mp h

theorem sealPage_verified {x : Progress} {check : Nat} (hcheck : check < 65536)
    (h : (sealPage page check x).2 = true) :
    (sealPage page check x).1.mem.read (addressOf page 0) = 0 ∧
      (sealPage page check x).1.mem.number page 1 2 = check := by
  unfold sealPage at *
  simp only at *
  split at h
  · next hok =>
    rw [if_pos hok]
    obtain ⟨hverified, -⟩ := Bool.and_eq_true_iff.mp hok
    have hbytes := program_verified hverified
    refine ⟨?_, ?_⟩
    · have hflag := bytes_part (n := 0) (k := 1) hbytes (by simp)
      rw [Nat.zero_add, bytes_one] at hflag
      simpa using hflag
    · have hword := bytes_part (n := 1) (k := 2) hbytes (by simp [be_length])
      have hbe : (([0] ++ be 2 check).drop 1).take 2 = be 2 check :=
        List.take_of_length_le (by simp [be_length])
      exact (congrArg unbe (hword.trans hbe)).trans (unbe_be (decide_eq_true hcheck))
  · cases h

/-- A page whose every step is verified holds its contents under their check word, flagged. -/
theorem storePage_verified {v : Bool} {x : Progress} {contents : List Byte}
    (h : (storePage v page 3 contents x).2 = true) :
    let left := (storePage v page 3 contents x).1.mem
    left.read (addressOf page 0) = 0 ∧ left.number page 1 2 = crc16 contents ∧
      left.bytes page 3 contents.length = contents := by
  unfold storePage at *
  simp only at *
  split at h
  · next hopen =>
    rw [if_pos hopen]
    split at h
    · next hfilled =>
      rw [if_pos hfilled]
      obtain ⟨hflag, hword⟩ := sealPage_verified (crc16_lt contents) h
      refine ⟨hflag, hword, ?_⟩
      refine (bytes_congr fun i hi => ?_).trans (program_verified hfilled)
      exact sealPage_outside (.inr (by rw [addressOf_eq]; omega))
    · cases h
  · cases h

/-- A page whose contents were not verified keeps the flag of an erased page. -/
theorem storePage_not_filled {v : Bool} {x : Progress} {contents : List Byte}
    (herased : (x.erase page).2 = true)
    (hfilled : ((x.erase page).1.program page 3 contents).2 = false) :
    (storePage v page 3 contents x).1.mem.read (addressOf page 0) = erasedByte := by
  have hopen : openPage v page x = ((x.erase page).1, true) := by
    unfold openPage
    simp [herased]
  unfold storePage
  simp only [hopen, hfilled, if_true, Bool.false_eq_true, if_false]
  rw [progress_program_outside (.inl (by rw [addressOf_zero]; omega))]
  exact erase_flag herased

/-! ### Steps that nothing fails -/

theorem erase_clean (page : Nat) (m : Memory) :
    (clean m).erase page = (clean (Memory.erase [] page m), true) :=
  Prod.ext rfl (erase_pageErased page m)

/-- Bytes programmed into an erased stretch of a page are verified. -/
theorem program_clean {offset : Nat} {contents : List Byte} (hm : m.wf = true)
    (herased : ∀ i, i < contents.length → m.read (addressOf page offset + i) = erasedByte) :
    (clean m).program page offset contents
      = (clean (Memory.program [] page offset contents m), true) :=
  Prod.ext rfl (beq_iff_eq.mpr (bytes_program_erased hm herased))

theorem sealPage_clean (check : Nat) (hm : m.wf = true)
    (herased : ∀ i, i < 3 → m.read (addressOf page 0 + i) = erasedByte) :
    (sealPage page check (clean m)).2 = true := by
  unfold sealPage
  rw [program_clean hm (by simpa [be_length] using herased)]
  rfl

theorem storePage_clean (v : Bool) {contents : List Byte} (hm : m.wf = true)
    (hlen : 3 + contents.length ≤ 512) : (storePage v page 3 contents (clean m)).2 = true := by
  have hread : ∀ a, 512 * page ≤ a → a < 512 * (page + 1) →
      (Memory.erase [] page m).read a = erasedByte := fun a h1 h2 =>
    read_of_pageErased (erase_pageErased page m) (by rw [addressOf_zero]; exact h1)
      (by rw [addressOf_zero]; exact h2)
  have hopen : openPage v page (clean m) = (clean (Memory.erase [] page m), true) := by
    unfold openPage
    rw [erase_clean]
    rfl
  have hfilled := program_clean (page := page) (offset := 3) (contents := contents) (erase_wf hm)
    fun i hi => hread _ (by rw [addressOf_eq]; omega) (by rw [addressOf_eq]; omega)
  unfold storePage
  simp only [hopen, hfilled, if_true]
  refine sealPage_clean _ (program_wf (erase_wf hm)) fun i hi => ?_
  rw [read_program_outside (.inl (by rw [addressOf_eq, addressOf_eq]; omega))]
  exact hread _ (by rw [addressOf_zero]; omega) (by rw [addressOf_zero]; omega)

/-! ### A recipe read back -/

theorem readable_code {body : RecipeBody} (hfit : body.firstBad = none) :
    body.code = 1 ∨ body.code = 2 ∨
      (body.code = 3 ∧ 1 ≤ unbe (body.fieldBytes.take 1) ∧ unbe (body.fieldBytes.take 1) ≤ 16) := by
  cases body with
  | twist r => exact .inl rfl
  | rope r => exact .inr (.inl rfl)
  | net r =>
    refine .inr (.inr ⟨rfl, ?_⟩)
    have hpattern : patternInRange r.pattern = true := by
      by_contra h
      simp [RecipeBody.firstBad, h] at hfit
    simp only [patternInRange, Bool.and_eq_true, decide_eq_true_eq] at hpattern
    obtain ⟨⟨hlow, hhigh⟩, -⟩ := hpattern
    have htake : (RecipeBody.fieldBytes (.net r)).take 1 = be 1 r.pattern.length := by
      simp [RecipeBody.fieldBytes, be_length]
    rw [htake, unbe_be (decide_eq_true (by omega))]
    exact ⟨hlow, hhigh⟩
  | other k => simp [RecipeBody.firstBad] at hfit

theorem recipeLength_body {body : RecipeBody} (hfit : body.firstBad = none) (hbody : body.fits = true) :
    recipeLength body.code (unbe (body.fieldBytes.take 1)) = body.fieldBytes.length := by
  cases body with
  | twist r => simp [recipeLength, RecipeBody.code, RecipeBody.fieldBytes, fieldBytes_eq]; rfl
  | rope r => simp [recipeLength, RecipeBody.code, RecipeBody.fieldBytes, fieldBytes_eq]; rfl
  | net r =>
    simp only [RecipeBody.fits, Bool.and_eq_true] at hbody
    have htake : (RecipeBody.fieldBytes (.net r)).take 1 = be 1 r.pattern.length := by
      simp [RecipeBody.fieldBytes, be_length]
    rw [htake, unbe_be hbody.1.1]
    simp only [recipeLength, RecipeBody.code, RecipeBody.fieldBytes, List.length_append, be_length,
      flatMap_length patternStep_length, fieldBytes_eq]
    simp [sizedValues, NetRecipe.tailFields, be_length, fieldSizes]
  | other k => simp [RecipeBody.firstBad] at hfit

theorem recipe_nonempty {body : RecipeBody} (hfit : body.firstBad = none) :
    1 ≤ body.fieldBytes.length := by
  cases body with
  | twist r => simp [RecipeBody.fieldBytes, fieldBytes_eq, sizedValues, TwistRecipe.fields, be_length]
  | rope r => simp [RecipeBody.fieldBytes, fieldBytes_eq, sizedValues, RopeRecipe.fields, be_length]
  | net r => simp [RecipeBody.fieldBytes, be_length]
  | other k => simp [RecipeBody.firstBad] at hfit

/-- R168: a slot flagged, with the check word of the bytes it holds, reads as their recipe. -/
theorem judgeSlot_of_stored {slot : Nat} {body : RecipeBody} (hfit : body.firstBad = none)
    (hbody : body.fits = true) (hflag : m.read (addressOf slot 0) = 0)
    (hword : m.number slot 1 2 = crc16 (checkedBytes body))
    (hbytes : m.bytes slot 3 (checkedBytes body).length = checkedBytes body) :
    judgeSlot m slot = .valid body (crc16 (checkedBytes body)) := by
  have hlen : (checkedBytes body).length = 1 + body.fieldBytes.length := by
    simp [checkedBytes, be_length]
  have hdrop : (checkedBytes body).drop 1 = body.fieldBytes := by simp [checkedBytes, be_length]
  have hcode : m.number slot 3 1 = body.code := by
    have hpart := bytes_part (n := 0) (k := 1) hbytes (by omega)
    have htake : (checkedBytes body).take 1 = be 1 body.code := by simp [checkedBytes, be_length]
    rw [Memory.number, hpart, List.drop_zero, htake, unbe_be (fits_code body hbody)]
  have hcount : ∀ k, k ≤ body.fieldBytes.length → m.bytes slot 4 k = body.fieldBytes.take k := by
    intro k hk
    rw [show m.bytes slot 4 k = m.bytes slot (3 + 1) k from rfl,
      bytes_part hbytes (by omega), hdrop]
  have hfirst : m.number slot 4 1 = unbe (body.fieldBytes.take 1) := by
    have hnonempty : 1 ≤ body.fieldBytes.length := recipe_nonempty hfit
    rw [Memory.number, hcount 1 hnonempty]
  have hfields : m.bytes slot 4 (recipeLength body.code (m.number slot 4 1)) = body.fieldBytes := by
    rw [hfirst, recipeLength_body hfit hbody, hcount _ (Nat.le_refl _), List.take_length]
  have hset : m.read (addressOf slot 0) ≠ erasedByte := by rw [hflag]; decide
  have hkind := readable_code hfit
  rw [← hfirst] at hkind
  unfold judgeSlot
  simp only [if_neg hset, hcode, hfields, hword]
  rw [if_pos ⟨hkind, rfl⟩, readRecipeBody_fieldBytes body hbody]

end Sys2Proof.Machine
end

section
/-! SUPPORT. The store operations on recipes and on the plant record (R168 to R170, R178). -/

namespace Sys2Proof.Machine

variable {s : State}

/-- An operation that begins on a memory, whose steps fail by `faults`. -/
def began (faults : List StepFault) (m : Memory) : Progress :=
  { mem := m, faults := faults, budget := none }

theorem storeRecipeEvent_of_running {faults : List StepFault} {slot : Nat} {body : RecipeBody}
    (h : s.runningOp = some (.storeRecipe slot body)) :
    storeRecipeEvent faults s
      = endOp (reportEnd (recipeMemory slot body (began faults s.flash)).2 .recipe slot 0
          { s with flash := (recipeMemory slot body (began faults s.flash)).1.mem }) := by
  unfold storeRecipeEvent
  simp only [h]
  rfl

theorem eraseRecipeEvent_of_running {faults : List StepFault} {slot : Nat}
    (h : s.runningOp = some (.eraseRecipe slot)) :
    eraseRecipeEvent faults s
      = endOp (reportEnd ((Memory.erase (faults.headD []) slot s.flash).pageErased slot) .recipe slot 0
          { s with flash := Memory.erase (faults.headD []) slot s.flash }) := by
  unfold eraseRecipeEvent
  simp only [h]
  rfl

theorem storePlantEvent_of_running {faults : List StepFault} {plant : PlantRecord}
    (h : s.runningOp = some (.storePlant plant)) :
    storePlantEvent faults s
      = (let written : State := { s with flash := (plantMemory plant (began faults s.flash)).1.mem }
        let ok := (plantMemory plant (began faults s.flash)).2
        endOp (reportEnd ok .plant 0 0 (if ok then plantInForce plant written else written))) := by
  unfold storePlantEvent
  simp only [h]
  rfl

theorem read_erased_page {fault : StepFault} {slot i : Nat} {m : Memory}
    (h : (Memory.erase fault slot m).pageErased slot = true) (hi : i < 512) :
    (Memory.erase fault slot m).read (addressOf slot i) = erasedByte :=
  read_of_pageErased h (by simp only [addressOf_eq]; omega) (by simp only [addressOf_eq]; omega)

/-- R178: a plant record stored reads back. -/
theorem storedPlant_of_stored {m : Memory} {plant : PlantRecord}
    (hfit : firstBad 1 plant.fields = none) (hfields : fieldsFit plant.fields = true)
    (hflag : m.read (addressOf plantPage 0) = 0)
    (hword : m.number plantPage 1 2 = crc16 plant.bytes)
    (hbytes : m.bytes plantPage 3 plant.bytes.length = plant.bytes) :
    storedPlant m = some plant := by
  have hset : m.read (addressOf plantPage 0) ≠ erasedByte := by rw [hflag]; decide
  have hlen : plantLength = plant.bytes.length := by rw [plantBytes_length]; decide
  have hread := readFields_plant plant hfields
  obtain ⟨v, hv, hplant⟩ := Option.map_eq_some_iff.mp hread
  unfold storedPlant
  simp only [if_neg hset, hlen, hbytes, hword, hv, hplant, if_true, hfit]

end Sys2Proof.Machine
end

section
/-! The obligations on the store operations on recipes and on the plant record (R168 to R170, R178). -/

namespace Sys2Proof.Machine

/-- Settles O56: by what verified steps leave on the page, and by where a store that fails has stopped. -/
theorem storedRecipesReadBack : Obligations.StoredRecipesReadBack := by
  refine ⟨?_, ?_, ?_⟩
  · intro faults slot body s hrun hfit hbody hwf
    refine ⟨_, _, congrArg Host.Outcome.next (storeRecipeEvent_of_running hrun), fun hok => ?_, ?_,
      fun hfail herased => ?_, fun hfail herased hfilled => ?_, fun hdirty => ?_, fun a ha => ?_⟩
    · obtain ⟨hflag, hword, hbytes⟩ := storePage_verified hok
      exact judgeSlot_of_stored hfit hbody hflag hword hbytes
    · rintro rfl
      have hlen := checkedBytes_length hfit
      exact storePage_clean false hwf (by omega)
    · exact judgeSlot_not_valid hfit hbody (storePage_not_verified hwf (.inl herased) hfail)
    · refine judgeSlot_of_erased (storePage_not_filled herased (beq_eq_false_iff_ne.mpr fun h => ?_))
      refine hfilled (Eq.trans ?_ h)
      have hlen : 1 + body.fieldBytes.length = (checkedBytes body).length := by
        simp [checkedBytes, be_length]
      rw [hlen]
      rfl
    · exact recipe_erase faults slot body s.flash hdirty
    · exact read_recipeMemory_outside hfit ha
  · intro faults slot s hrun hwf
    refine ⟨_, _, congrArg Host.Outcome.next (eraseRecipeEvent_of_running hrun),
      pageErased_iff (erase_wf hwf), fun hok => ?_, ?_, fun a ha => ?_⟩
    · exact judgeSlot_of_erased (read_erased_page hok (by decide))
    · rintro rfl
      exact erase_pageErased slot s.flash
    · exact read_erase_outside (by rw [addressOf_zero, addressOf_zero]; exact ha)
  · intro ok area number taken s code
    refine ⟨by cases area <;> rfl, fun reason => by cases area <;> cases reason <;> rfl, rfl⟩

/-- Settles O57: the page by what verified steps leave, the state by the record put in force. -/
theorem storedPlantComesIntoForce : Obligations.StoredPlantComesIntoForce := by
  intro faults plant s hrun hfit hfields hwf
  have hevent := storePlantEvent_of_running (faults := faults) hrun
  have hinForce := plantInForce_constants plant
    { s with flash := (plantMemory plant (began faults s.flash)).1.mem }
  simp only at hinForce
  refine ⟨_, _, _, congrArg Host.Outcome.next hevent, ?_, fun hok => ⟨?_, ?_, fun hun => ?_⟩,
    fun hok => ?_, fun hfail => ⟨?_, storedPlant_plantMemory hwf hfail⟩, ?_, fun a ha => ?_⟩
  · split
    · rw [hinForce]
    · rfl
  · obtain ⟨hflag, hword, hbytes⟩ := storePage_verified hok
    exact storedPlant_of_stored hfit hfields hflag hword hbytes
  · rw [if_pos hok, hinForce]
  · rw [if_pos hok, hinForce]
    simp only [hun, if_true]
  · rw [if_pos hok]
    exact hinForce
  · simp only [hfail, Bool.false_eq_true, if_false]
  · rintro rfl
    exact storePage_clean true hwf (by rw [plantBytes_length]; decide)
  · exact read_plantMemory_outside ha

end Sys2Proof.Machine
end

section
/-! SUPPORT. The tallies: the bit of a step, the end of a step, an addition (R165 to R167). -/

namespace Sys2Proof.Machine

variable {s t : State}

/-! ### The bit a step clears -/

theorem clearFirstBit_keeps : ∀ b : Byte, b ≠ 0 →
    b &&& clearFirstBit b = clearFirstBit b ∧ clearFirstBit b ≠ erasedByte := by
  decide +kernel

theorem firstOpenByte_of_first {page i : Nat} {m : Memory} (hi : i < 512)
    (hopen : m.read (512 * page + i) ≠ 0) (hbefore : ∀ k, k < i → m.read (512 * page + k) = 0) :
    firstOpenByte page m = some i := by
  refine List.find?_range_eq_some.mpr ⟨?_, List.mem_range.mpr hi, fun k hk => ?_⟩
  · simpa [addressOf_eq] using hopen
  · simpa [addressOf_eq] using hbefore k hk

theorem firstOpenByte_of_none {page : Nat} {m : Memory}
    (h : ∀ i, i < 512 → m.read (512 * page + i) = 0) : firstOpenByte page m = none := by
  refine List.find?_eq_none.mpr fun i hi => ?_
  simpa [addressOf_eq] using h i (List.mem_range.mp hi)

/-- A page with a bit that reads 1 has a first byte with one. -/
theorem exists_first_open {page : Nat} {m : Memory}
    (h : ∃ i, i < 512 ∧ m.read (512 * page + i) ≠ 0) :
    ∃ i, i < 512 ∧ m.read (512 * page + i) ≠ 0 ∧ ∀ k, k < i → m.read (512 * page + k) = 0 := by
  have hfound := Nat.find_spec h
  refine ⟨Nat.find h, hfound.1, hfound.2, fun k hk => ?_⟩
  have hleast := Nat.find_min h hk
  by_contra hne
  exact hleast ⟨by omega, hne⟩

theorem stepMemory_of_first {m : Fin 10} {i : Nat} {x : Progress} (hi : i < 512)
    (hopen : x.mem.read (512 * (33 + m.val) + i) ≠ 0)
    (hbefore : ∀ k, k < i → x.mem.read (512 * (33 + m.val) + k) = 0) :
    stepMemory m x
      = x.program (33 + m.val) i [clearFirstBit (x.mem.read (512 * (33 + m.val) + i))] := by
  unfold stepMemory tallyPage
  simp only [firstOpenByte_of_first hi hopen hbefore, addressOf_eq]

theorem stepMemory_of_full {m : Fin 10} {x : Progress}
    (h : ∀ i, i < 512 → x.mem.read (512 * (33 + m.val) + i) = 0) : stepMemory m x = (x, false) := by
  unfold stepMemory tallyPage
  simp only [firstOpenByte_of_none h]

/-- A step that nothing fails leaves the byte without its first bit. -/
theorem program_clears {page i : Nat} {m : Memory} (hopen : m.read (512 * page + i) ≠ 0) :
    (Memory.program [] page i [clearFirstBit (m.read (512 * page + i))] m).read (512 * page + i)
      = clearFirstBit (m.read (512 * page + i)) := by
  obtain ⟨hsubset, hwritten⟩ := clearFirstBit_keeps _ hopen
  have hvalue : (faultAt [] i).getD (clearFirstBit (m.read (512 * page + i)))
      = clearFirstBit (m.read (512 * page + i)) := rfl
  simp only [Memory.program, addressOf_eq, hvalue, hsubset]
  exact read_write_of_ne hwritten

theorem stepMemory_verified_iff {m : Fin 10} {i : Nat} {x : Progress} (hi : i < 512)
    (hopen : x.mem.read (512 * (33 + m.val) + i) ≠ 0)
    (hbefore : ∀ k, k < i → x.mem.read (512 * (33 + m.val) + k) = 0) :
    (stepMemory m x).2 = true ↔
      (stepMemory m x).1.mem.read (512 * (33 + m.val) + i)
        = clearFirstBit (x.mem.read (512 * (33 + m.val) + i)) := by
  rw [stepMemory_of_first hi hopen hbefore]
  unfold Progress.program
  simp only [List.length_singleton, bytes_one, addressOf_eq, beq_iff_eq, List.cons.injEq, and_true]

/-! ### The end of a step -/

theorem tallyStepEvent_of_running {faults : List StepFault} {m : Fin 10}
    (h : s.runningOp = some (.tallyStep m)) :
    tallyStepEvent faults s
      = tallyStepEnds m (stepMemory m (began faults s.flash)).2
          { s with flash := (stepMemory m (began faults s.flash)).1.mem } := by
  unfold tallyStepEvent
  simp only [h, began]

theorem tallyStepEnds_eq (m : Fin 10) (ok : Bool) (f : Memory) (s : State) :
    tallyStepEnds m ok { s with flash := f }
      = placeStep m (endOp
          (if ok then ({ s with flash := f } : State).setTally m (s.tally m).stepVerified
          else reportFailed .tally m.val .verify 0
            (({ s with flash := f } : State).setTally m
              ((s.tally m).stepFailed (countSteps (33 + m.val) f))))) := rfl

/-- A tally that has all its steps stored holds its fine part. -/
theorem holdFull_eq (x : Tally) :
    x.holdFull = { x with fine := if x.stored = 4096 then min x.fine 9999999 else x.fine } := by
  unfold Tally.holdFull
  by_cases h : x.stored = 4096
  · rw [if_pos (show x.stored = tallySteps from h), if_pos h]
    rfl
  · rw [if_neg (show ¬x.stored = tallySteps from h), if_neg h]

/-! ### An addition -/

theorem setTally_setTally (m : Fin 10) (x y : Tally) (s : State) :
    (s.setTally m x).setTally m y = s.setTally m y := by
  simp [State.setTally]

/-- Whether a value reached is reported as due (R166). -/
theorem judgeService_congr (h : t.plant = s.plant) (m : Fin 10) (before : Nat) :
    judgeService m before t
      = if 0 < 1000 * s.plantD.serviceLimit[m] ∧ before < 1000 * s.plantD.serviceLimit[m] ∧
            1000 * s.plantD.serviceLimit[m] ≤ (t.tally m).metres then
          enterReport .serviceDue (some m.val)
            (be 4 (t.tally m).metres ++ be 2 s.plantD.serviceLimit[m]) t
        else t := by
  unfold judgeService limitMetres
  simp only [plantD_congr h]

theorem addFine_plant (m : Fin 10) (mm : Nat) (s : State) : (addFine m mm s).plant = s.plant := by
  rw [talliesOnly_addFine]

/-- An addition to a tally with all its steps stored (R165). -/
theorem addFine_of_full {m : Fin 10} (mm : Nat) (h : (s.tally m).stored = 4096) :
    addFine m mm s
      = (let held := { s.tally m with fine := min ((s.tally m).fine + mm) 9999999 }
        if 9999999 < (s.tally m).fine + mm ∧ (s.tally m).fullReported = false then
          enterReport .tallyFull none (be 1 m.val) (s.setTally m { held with fullReported := true })
        else s.setTally m held) := by
  have hover : (stepLength ≤ (s.tally m).fine + mm) = (9999999 < (s.tally m).fine + mm) := rfl
  unfold addFine reportFull
  simp only [show (s.tally m).stored = tallySteps from h, if_true, hover, tally_setTally,
    setTally_setTally]
  cases hreported : (s.tally m).fullReported <;>
    by_cases hhigh : 9999999 < (s.tally m).fine + mm <;> simp [hhigh] <;> rfl

/-- Two tests that share a condition are one. -/
theorem ite_of_shared {α : Type} {p q r : Prop} [Decidable p] [Decidable q] [Decidable r] (a b : α) :
    (if p ∧ q then if p ∧ r then a else b else b) = if p ∧ q ∧ r then a else b := by
  by_cases hp : p <;> by_cases hq : q <;> simp [hp, hq]

/-- An addition to a tally with a step left (R165). -/
theorem addFine_of_open {m : Fin 10} (mm : Nat) (h : (s.tally m).stored ≠ 4096) :
    addFine m mm s
      = (let fine := min ((s.tally m).fine + mm) 4294967295
        if 10000000 ≤ fine ∧ (s.tally m).fine / 1000 < fine / 1000 ∧ (s.tally m).queued = false ∧
            (s.tally m).stored < 4096 ∧ s.generalFree = true then
          placeOp (.tallyStep m)
            (s.setTally m { s.tally m with fine := fine - 10000000, queued := true })
        else s.setTally m { s.tally m with fine := fine }) := by
  have hfine : satAdd top32 (s.tally m).fine mm = min ((s.tally m).fine + mm) 4294967295 := rfl
  have hfree : ∀ x, (s.setTally m x).generalFree = s.generalFree := fun _ => rfl
  unfold addFine placeStep
  simp only [show ¬(s.tally m).stored = tallySteps from h, if_false, hfine, tally_setTally,
    setTally_setTally, hfree]
  exact ite_of_shared ..

end Sys2Proof.Machine
end

section
/-! The obligation on the tallies (R165 to R167). -/

namespace Sys2Proof.Machine

/-- Settles O58: a step by the byte it clears, an addition by how many steps are stored. -/
theorem tallyStepClearsOneBit : Obligations.TallyStepClearsOneBit := by
  refine ⟨?_, ?_, fun counted t => ⟨holdFull_eq _, holdFull_eq _⟩, fun m s => rfl, ?_, fun t => rfl,
    clearFirstBit_spec⟩
  · intro m i s hrun hi hopen hbefore
    have hmemory := stepMemory_of_first (x := began [] s.flash) hi hopen hbefore
    have hread : (stepMemory m (began [] s.flash)).1.mem.read (512 * (33 + m.val) + i)
        = clearFirstBit (s.flash.read (512 * (33 + m.val) + i)) := by
      rw [hmemory]
      exact program_clears hopen
    have hok := (stepMemory_verified_iff (x := began [] s.flash) hi hopen hbefore).mpr hread
    refine ⟨(stepMemory m (began [] s.flash)).1.mem, ?_, hread, fun a ha => ?_, ?_, ?_⟩
    · refine congrArg Host.Outcome.next ((tallyStepEvent_of_running hrun).trans ?_)
      rw [hok, tallyStepEnds_eq, if_pos rfl]
    · rw [hmemory]
      exact program_one_other _ _ _ _ _ (by rw [addressOf_eq]; exact ha)
    · rw [Tally.stepVerified, holdFull_eq]
    · rw [Tally.stepVerified, holdFull_eq]
  · intro faults m s hrun read
    refine ⟨(stepMemory m (began faults s.flash)).1.mem, (stepMemory m (began faults s.flash)).2,
      congrArg Host.Outcome.next ((tallyStepEvent_of_running hrun).trans
      (tallyStepEnds_eq ..)), ?_, fun hfull => ?_, fun i hi hopen hbefore =>
      ⟨stepMemory_verified_iff hi hopen hbefore, fun a ha => ?_⟩⟩
    · rintro rfl hsome
      obtain ⟨i, hi, hopen, hbefore⟩ := exists_first_open hsome
      refine (stepMemory_verified_iff (x := began [] s.flash) hi hopen hbefore).mpr ?_
      rw [stepMemory_of_first (x := began [] s.flash) hi hopen hbefore]
      exact program_clears hopen
    · rw [stepMemory_of_full (x := began faults s.flash) hfull]
      exact ⟨rfl, rfl⟩
    · rw [stepMemory_of_first (x := began faults s.flash) hi hopen hbefore]
      exact program_one_other _ _ _ _ _ (by rw [addressOf_eq]; exact ha)
  · intro m mm s t fine judged
    refine ⟨fun hzero => if_pos hzero, fun hsome hfull => ?_, fun hsome hleft => ?_⟩
    · rw [tallyAdd, if_neg (by omega), judgeService_congr (addFine_plant m mm s),
        addFine_of_full mm hfull]
    · rw [tallyAdd, if_neg (by omega), judgeService_congr (addFine_plant m mm s),
        addFine_of_open mm hleft]

end Sys2Proof.Machine
end

section
/-! SUPPORT. The operations that clear the flags of records in the log (R162, R163). -/

namespace Sys2Proof.Machine

variable {s : State}

theorem stateAt_eq (p : SlotPlace) : stateAt p = 512 * p.page + 128 * p.slot := by
  simp only [stateAt, addressOf_eq, slotOffset, slotSize]
  omega

/-- The taking of records changes their state bytes alone. -/
theorem read_takeRecords_other {ps : List SlotPlace} {x : Progress} {a : Nat}
    (h : ∀ p ∈ ps, a ≠ stateAt p) : (takeRecords ps x).1.mem.read a = x.mem.read a := by
  induction ps generalizing x with
  | nil => rfl
  | cons p rest ih =>
    have hrest : (takeRecords rest (clearFlag 0xBF p x).1).1.mem.read a
        = (clearFlag 0xBF p x).1.mem.read a := ih fun q hq => h q (List.mem_cons_of_mem _ hq)
    exact hrest.trans ((clearFlag_spec 0xBF p x).2 a (h p List.mem_cons_self))

theorem logTakeEvent_of_running {faults : List StepFault} {upTo : Nat}
    (h : s.runningOp = some (.logTake upTo)) :
    logTakeEvent faults s
      = (let taken := takeMemory upTo (began faults s.flash)
        endOp (requeueHeld (reportEnd taken.2.2 .log upTo taken.2.1
          { s with flash := taken.1.mem, log := s.log.atHeaders taken.1.mem }))) := by
  unfold logTakeEvent
  simp only [h, began]

theorem logVoidEvent_of_missing {faults : List StepFault} {n : Nat}
    (h : s.runningOp = some (.logVoid n)) (hnone : findRecord s.flash n = none) :
    logVoidEvent faults s = endOp (reportFailed .log n .gone 0 s) := by
  unfold logVoidEvent
  simp only [h, hnone]

/-- A LOG_VOID of a record that is not VOID yet. -/
theorem logVoidEvent_of_record {faults : List StepFault} {n : Nat} {p : SlotPlace}
    (h : s.runningOp = some (.logVoid n)) (hsome : findRecord s.flash n = some p)
    (hvoid : isVoid s.flash p = false) :
    logVoidEvent faults s
      = (let cleared := clearFlag 0xDF p (began faults s.flash)
        let left : State :=
          { s with flash := cleared.1.mem, log := s.log.atHeaders cleared.1.mem }
        endOp (reportEnd cleared.2 .log n 0
          (if cleared.2 then voidCoil (recordOrder s.flash p) (recordNotCounted s.flash p) left
          else left))) := by
  have hmemory : voidMemory n (began faults s.flash) = clearFlag 0xDF p (began faults s.flash) := by
    unfold voidMemory
    simp only [began, hsome, hvoid, Bool.false_eq_true, if_false]
  rw [began] at hmemory
  unfold logVoidEvent
  simp only [h, hsome, hmemory, hvoid, Bool.not_false, Bool.and_true, began]
  rfl

theorem isVoid_of_cleared {f m : Memory} {p : SlotPlace}
    (h : f.read (stateAt p) = m.read (stateAt p) &&& 0xDF) : isVoid f p = true := by
  have hbyte : stateByte f p = m.read (stateAt p) &&& 0xDF := h
  rw [isVoid, hbyte]
  simp

end Sys2Proof.Machine
end

section
/-! The obligation on the operations that clear the flags of records (R162, R163). -/

namespace Sys2Proof.Machine

/-- Settles O60: by the state bytes that each operation programs. -/
theorem logOperationsClearFlags : Obligations.LogOperationsClearFlags := by
  refine ⟨?_, ?_, logTake_clean, ?_, fun number notCounted s => rfl, fun s => rfl⟩
  · intro faults upTo s hrun
    refine ⟨_, _, _, _, congrArg Host.Outcome.next (logTakeEvent_of_running hrun), rfl,
      fun a ha => read_takeRecords_other fun p hp => ?_⟩
    obtain ⟨hmem, hdue⟩ := List.mem_filter.mp hp
    simp only [Bool.and_eq_true, decide_eq_true_eq, Bool.not_eq_true'] at hdue
    rw [stateAt_eq]
    exact ha p hmem hdue.1 hdue.2
  · intro n s hrun
    refine ⟨fun faults hnone => congrArg Host.Outcome.next (logVoidEvent_of_missing hrun hnone),
      fun p hsome hvoid => ?_⟩
    obtain ⟨f, hclear, hbyte, hother⟩ := clearFlag_clean 0xDF (by decide +kernel) p s.flash
    refine ⟨f, congrArg Host.Outcome.next ((logVoidEvent_of_record hrun hsome hvoid).trans ?_),
      isVoid_of_cleared hbyte, fun a ha => hother a (by rw [stateAt_eq]; exact ha)⟩
    rw [show clearFlag 0xDF p (began [] s.flash) = (clean f, true) from hclear]
    rfl
  · intro faults n s p hrun hsome
    refine ⟨(logVoid_spec faults n s p hrun hsome).1, fun hvoid => ?_⟩
    obtain ⟨hbyte, hother⟩ := clearFlag_spec 0xDF p (began faults s.flash)
    refine ⟨_, _, congrArg Host.Outcome.next (logVoidEvent_of_record hrun hsome hvoid),
      fun hok => isVoid_of_cleared (hbyte hok), ?_,
      fun a ha => hother a (by rw [stateAt_eq]; exact ha)⟩
    rintro rfl
    obtain ⟨f, hclear, -, -⟩ := clearFlag_clean 0xDF (by decide +kernel) p s.flash
    exact congrArg Prod.snd hclear

end Sys2Proof.Machine
end

section
/-! SUPPORT. A coil record written: the slot, the page begun for it, the slot spoiled (R155 to R159). -/

namespace Sys2Proof.Machine

variable {s : State} {m f : Memory} {p : SlotPlace}

/-! ### A slot with a record -/

theorem slotOffset_eq (slot i : Nat) : slotOffset slot i = 128 * slot + i := by
  rw [slotOffset, slotSize, Nat.mul_comm]

theorem slotAddress_eq (page slot i : Nat) :
    addressOf page (slotOffset slot i) = 512 * page + 128 * slot + i := by
  rw [addressOf_eq, slotOffset_eq, Nat.add_assoc]

/-- The slot is VALID and holds the body of the record under the number. -/
def HoldsRecord (f : Memory) (p : SlotPlace) (number : Nat) (r : CoilRecord) : Prop :=
  stateByte f p = 0x7F ∧ slotBytes f p 1 117 = recordBody number r

theorem slotBytes_part {offset n k : Nat} {contents : List Byte}
    (h : slotBytes f p offset contents.length = contents) (hnk : n + k ≤ contents.length) :
    slotBytes f p (offset + n) k = (contents.drop n).take k := by
  have hoffset : slotOffset p.slot (offset + n) = slotOffset p.slot offset + n :=
    (Nat.add_assoc ..).symm
  rw [slotBytes, hoffset]
  exact bytes_part h hnk

theorem slotBytes_of_record {number : Nat} {r : CoilRecord} (h : HoldsRecord f p number r) :
    slotBytes f p 3 115 = r.bytes number := by
  obtain ⟨-, hbody⟩ := h
  rw [← recordBody_length number r] at hbody
  have hpart := slotBytes_part (n := 2) (k := 115) hbody (by rw [recordBody_length])
  refine hpart.trans ?_
  rw [recordBody, List.drop_left' (be_length ..)]
  exact List.take_of_length_le (coilBytes_length ..).le

theorem checkWord_of_record {number : Nat} {r : CoilRecord} (h : HoldsRecord f p number r) :
    slotNumber f p 1 2 = crc16 (r.bytes number) := by
  obtain ⟨-, hbody⟩ := h
  rw [← recordBody_length number r] at hbody
  have hpart := slotBytes_part (n := 0) (k := 2) hbody (by rw [recordBody_length]; decide)
  rw [slotNumber]
  refine (congrArg unbe hpart).trans ?_
  rw [recordBody, List.drop_zero, List.take_left' (be_length ..)]
  exact unbe_be (decide_eq_true (crc16_lt _))

theorem isRecord_of_record {number : Nat} {r : CoilRecord} (h : HoldsRecord f p number r) :
    isRecord f p = true := by
  rw [isRecord, slotBytes_of_record h, checkWord_of_record h, h.1]
  simp [recordStates]

theorem isTaken_of_record {number : Nat} {r : CoilRecord} (h : HoldsRecord f p number r) :
    isTaken f p = false := by
  rw [isTaken, h.1]
  rfl

theorem coilNumber_of_record {number : Nat} {r : CoilRecord} (h : HoldsRecord f p number r)
    (hnumber : number ≤ 4294967295) : coilNumber f p = number := by
  have hcontents := slotBytes_of_record h
  rw [← coilBytes_length number r] at hcontents
  have hpart := slotBytes_part (n := 0) (k := 4) hcontents (by rw [coilBytes_length]; decide)
  rw [coilNumber, slotNumber]
  refine (congrArg unbe hpart).trans ?_
  have htake : ((r.bytes number).drop 0).take 4 = be 4 number := by
    simp only [CoilRecord.bytes, List.append_assoc, List.drop_zero]
    exact List.take_left' (be_length ..)
  rw [htake]
  exact unbe_be (decide_eq_true (by omega))

/-! ### The slot written (R157) -/

theorem writeSlot_eq (r : CoilRecord) (a : Attempt) :
    writeSlot r a
      = (let body := a.x.program a.log.page (128 * a.log.slot + 1) (recordBody a.log.next r)
        if body.2 then body.1.program a.log.page (128 * a.log.slot) [0x7F] else (body.1, false)) := by
  unfold writeSlot
  simp only [slotOffset_eq, Nat.add_zero]

/-- One byte programmed where the store reads erased is verified. -/
theorem program_clean_one {page offset : Nat} (b : Byte) (hm : m.wf = true)
    (herased : m.read (addressOf page offset) = erasedByte) :
    (clean m).program page offset [b] = (clean (Memory.program [] page offset [b] m), true) := by
  refine program_clean hm fun i hi => ?_
  have hzero : i = 0 := by simpa using hi
  simpa only [hzero, Nat.add_zero] using herased

/-- Outside its slot's first 118 bytes the writing of a record changes nothing. -/
theorem read_programSlot_outside {fault : StepFault} {page slot a i : Nat} {contents : List Byte}
    (h : a < 512 * page + 128 * slot ∨ 512 * page + 128 * slot + 118 ≤ a)
    (hlen : i + contents.length ≤ 118) :
    (Memory.program fault page (128 * slot + i) contents m).read a = m.read a :=
  read_program_outside (by rw [addressOf_eq]; omega)

/-- A record written to a FREE slot with nothing failing. -/
theorem writeSlot_clean (r : CoilRecord) (x : LogState) (hm : m.wf = true)
    (hfree : isFree m ⟨x.page, x.slot⟩ = true) :
    ∃ f, writeSlot r ⟨clean m, x⟩ = (clean f, true) ∧
      HoldsRecord f ⟨x.page, x.slot⟩ x.next r ∧
      (∀ a, a < 512 * x.page + 128 * x.slot ∨ 512 * x.page + 128 * x.slot + 118 ≤ a →
        f.read a = m.read a) := by
  have herased := (isFree_iff _ _).mp hfree
  have hlen := recordBody_length x.next r
  have hbody := program_clean (page := x.page) (offset := 128 * x.slot + 1)
    (contents := recordBody x.next r) hm fun i hi => by
      rw [addressOf_eq, ← Nat.add_assoc, Nat.add_assoc]
      exact herased (1 + i) (by omega)
  have hstate : (Memory.program [] x.page (128 * x.slot + 1) (recordBody x.next r) m).read
      (addressOf x.page (128 * x.slot)) = erasedByte := by
    rw [read_program_outside (.inl (by simp only [addressOf_eq]; omega)), addressOf_eq]
    exact herased 0 (by decide)
  have hflag := program_clean_one 0x7F (program_wf hm) hstate
  have hwritten : writeSlot r ⟨clean m, x⟩
      = (clean (Memory.program [] x.page (128 * x.slot) [0x7F]
        (Memory.program [] x.page (128 * x.slot + 1) (recordBody x.next r) m)), true) := by
    rw [writeSlot_eq]
    simp only [hbody, if_true]
    exact hflag
  have hvalid : stateByte (Memory.program [] x.page (128 * x.slot) [0x7F]
      (Memory.program [] x.page (128 * x.slot + 1) (recordBody x.next r) m)) ⟨x.page, x.slot⟩
        = 0x7F := by
    have hvalue := program_one_verified _ _ _ _ (congrArg Prod.snd hflag)
    rw [hflag] at hvalue
    rw [stateByte, slotOffset_eq]
    exact hvalue
  have hbodied : slotBytes (Memory.program [] x.page (128 * x.slot) [0x7F]
      (Memory.program [] x.page (128 * x.slot + 1) (recordBody x.next r) m)) ⟨x.page, x.slot⟩ 1 117
        = recordBody x.next r := by
    have hvalue := program_verified (congrArg Prod.snd hbody)
    rw [hbody, hlen] at hvalue
    rw [slotBytes, slotOffset_eq]
    refine (bytes_congr fun i hi => ?_).trans hvalue
    exact read_program_outside (.inr (by simp only [addressOf_eq, List.length_singleton]; omega))
  refine ⟨_, hwritten, And.intro hvalid hbodied, fun a ha => ?_⟩
  refine (read_programSlot_outside (i := 0) ha (by decide)).trans ?_
  exact read_programSlot_outside ha (by rw [hlen])

/-! ### Tries (R157, R159) -/

theorem tryWrite_of_closed (r : CoilRecord) {a : Attempt} (h : a.log.closed = true) :
    tryWrite r a = (a, .full) := by
  unfold tryWrite
  rw [if_pos h]

/-- A try in a page that needs no beginning. -/
theorem tryWrite_of_begun (r : CoilRecord) {a : Attempt} (hclosed : a.log.closed = false)
    (hbegun : a.log.toBegin = false) :
    tryWrite r a
      = if (writeSlot r a).2 then (⟨(writeSlot r a).1, a.log.spend.advance⟩, .passed)
        else (spoil ⟨(writeSlot r a).1, a.log⟩, .failed) := by
  have hprepared : prepare a = (a, .passed) := by
    unfold prepare
    rw [hbegun]
    rfl
  unfold tryWrite
  simp only [hclosed, hprepared, Bool.false_eq_true, if_false]

theorem tryWrite_clean (r : CoilRecord) {x : LogState} (hclosed : x.closed = false)
    (hbegun : x.toBegin = false) (hm : m.wf = true) (hfree : isFree m ⟨x.page, x.slot⟩ = true) :
    ∃ f, tryWrite r ⟨clean m, x⟩ = (⟨clean f, x.spend.advance⟩, .passed) ∧
      HoldsRecord f ⟨x.page, x.slot⟩ x.next r ∧
      (∀ a, a < 512 * x.page + 128 * x.slot ∨ 512 * x.page + 128 * x.slot + 118 ≤ a →
        f.read a = m.read a) := by
  obtain ⟨f, hwritten, hrecord, hother⟩ := writeSlot_clean r x hm hfree
  refine ⟨f, ?_, hrecord, hother⟩
  rw [tryWrite_of_begun r hclosed hbegun, hwritten]
  rfl

/-! ### Attempts (R157, R159) -/

theorem attemptWrite_of_passed {r : CoilRecord} {a b : Attempt} (h : tryWrite r a = (b, .passed)) :
    attemptWrite r a = (b, .written) := by
  unfold attemptWrite
  simp only [h]

theorem attemptWrite_of_full {r : CoilRecord} {a b : Attempt} (h : tryWrite r a = (b, .full)) :
    attemptWrite r a = (b, .full) := by
  unfold attemptWrite
  simp only [h]

/-- After a try that failed the outcome is that of one more. -/
theorem attemptWrite_of_failed {r : CoilRecord} {a b : Attempt} (h : tryWrite r a = (b, .failed)) :
    (∀ c, tryWrite r b = (c, .passed) → attemptWrite r a = (c, .written)) ∧
    (∀ c, tryWrite r b = (c, .full) → attemptWrite r a = (c, .full)) ∧
    (∀ c, tryWrite r b = (c, .failed) → attemptWrite r a = (c, .fault b.log.next)) := by
  unfold attemptWrite
  refine ⟨fun c hc => ?_, fun c hc => ?_, fun c hc => ?_⟩ <;> simp only [h, hc]

theorem coilWriteEvent_of_running {faults : List StepFault} {l : LineId} {r : PendingRecord}
    {a : Attempt} {e : WriteEnd} (hrun : s.runningOp = some (.coilWrite l))
    (hrecord : (s.pack l).record = some r)
    (hend : attemptWrite r.coil ⟨began faults s.flash, s.log⟩ = (a, e)) :
    coilWriteEvent faults s = attemptEnds l e { s with flash := a.x.mem, log := a.log } := by
  rw [began] at hend
  unfold coilWriteEvent
  simp only [hrun, hrecord, hend]

/-! ### A slot spoiled (R159) -/

theorem clean_mem (m : Memory) : (clean m).mem = m := rfl

theorem clearWhole_clean (page offset : Nat) (hm : m.wf = true) :
    (clean m).program page offset [0] = (clean (Memory.program [] page offset [0] m), true) ∧
      (Memory.program [] page offset [0] m).read (addressOf page offset) = 0 := by
  have hread : (Memory.program [] page offset [0] m).read (addressOf page offset) = 0 := by
    have hinside := read_program_inside (page := page) (offset := offset) (i := 0)
      (bytes := [0]) hm (by decide)
    simpa using hinside
  refine ⟨Prod.ext rfl (beq_iff_eq.mpr ?_), hread⟩
  exact (bytes_one offset).trans (congrArg (fun b => [b]) hread)

/-- A slot whose state byte reads 0 holds no record. -/
theorem isRecord_of_spoiled (h : stateByte m p = 0) : isRecord m p = false := by
  rw [isRecord, h]
  rfl

theorem spoil_eq (a : Attempt) :
    spoil a
      = (let clear := fun x : Progress => x.program a.log.page (128 * a.log.slot) [0]
        let once := clear a.x
        let x := if once.2 then once.1 else (clear once.1).1
        let log := if isRecord x.mem ⟨a.log.page, a.log.slot⟩ then a.log.spend else a.log
        ⟨x, log.advance⟩) := by
  unfold spoil
  simp only [slotOffset_eq, Nat.add_zero]

/-- A slot spoiled with nothing failing: its state byte reads 0, no other byte changes, its number is not spent. -/
theorem spoil_clean (x : LogState) (hm : m.wf = true) :
    ∃ f, spoil ⟨clean m, x⟩ = ⟨clean f, x.advance⟩ ∧ f.wf = true ∧
      f.read (512 * x.page + 128 * x.slot) = 0 ∧
      ∀ a, a ≠ 512 * x.page + 128 * x.slot → f.read a = m.read a := by
  obtain ⟨hclear, hread⟩ := clearWhole_clean x.page (128 * x.slot) hm
  have hspoiled : stateByte (Memory.program [] x.page (128 * x.slot) [0] m) ⟨x.page, x.slot⟩ = 0 := by
    rw [stateByte, slotOffset_eq]
    exact hread
  refine ⟨_, ?_, program_wf hm, by rw [addressOf_eq] at hread; exact hread, fun a ha => ?_⟩
  · rw [spoil_eq]
    simp only [hclear, if_true, clean_mem, isRecord_of_spoiled hspoiled, Bool.false_eq_true, if_false]
  · refine read_program_outside ?_
    rw [addressOf_eq, List.length_singleton]
    omega

/-! ### What the Pack Planner makes of the outcome (R149) -/

theorem onOutcome_pack {act : State → State} {l : LineId} {P : PackPoint → Prop}
    (h : ∀ u, P ((act u).pack l)) (s : State) : P ((onOutcome act s).pack l) := by
  unfold onOutcome
  split
  · cases l <;> exact h _
  · exact h s

theorem releaseCut_record (l : LineId) (s : State) :
    ((releaseCut l s).pack l).record = (s.pack l).record := by
  unfold releaseCut
  simp only
  split
  · obtain ⟨-, hrecord, -⟩ := coilKept_trans (coilKept_setActions l
      ((s.act l).actions.filter fun a => !(a.act == .cut && decide (a.trigger ≤ (s.len l).p))) s)
      (coilKept_cutFires l _)
    exact hrecord
  · rfl

theorem recordWritten_record (l : LineId) (s : State) :
    ((recordWritten l s).pack l).record = none := by
  refine onOutcome_pack (P := fun k => k.record = none) (fun u => ?_) s
  rw [releaseCut_record]
  obtain ⟨-, hrecord, -⟩ := coilKept_of_notices l (noticesOnly_clearCause (machineOf l) .logFull
    (u.setPack l { u.pack l with record := none }))
  rw [hrecord, setPack_pack]

theorem recordHeld_cause (l : LineId) (detail : LogDetail) (s : State) :
    (recordHeld l detail s).hasCause (machineOf l) .logFull = true := by
  have hset : ∀ kind machine body (u : State),
      (enterReport kind machine body (setCause (machineOf l) .logFull u)).hasCause (machineOf l) .logFull
        = true := by
    intro kind machine body u
    rw [hasCause_congr (enterReport_stops ..), hasCause_setCause]
    simp
  unfold recordHeld onOutcome
  split
  · exact hset _ _ _ _
  · exact hset _ _ _ _

end Sys2Proof.Machine
end

section
/-! SUPPORT. A page of the log begun for a record (R156, R158). -/

namespace Sys2Proof.Machine

variable {m f : Memory} {page : Nat}

/-! ### Headers -/

/-- The header of every page reads the same in both memories. -/
def HeadersKept (m f : Memory) : Prop :=
  ∀ page i, i < 10 → f.read (512 * page + (118 + i)) = m.read (512 * page + (118 + i))

theorem headerBytes_kept (h : HeadersKept m f) (page : Nat) {offset count : Nat}
    (hrange : 118 ≤ offset ∧ offset + count ≤ 128) :
    f.bytes page offset count = m.bytes page offset count := by
  refine bytes_congr fun i hi => ?_
  have hindex : addressOf page offset + i = 512 * page + (118 + (offset - 118 + i)) := by
    rw [addressOf_eq]
    omega
  rw [hindex]
  exact h page _ (by omega)

theorem headers_kept (h : HeadersKept m f) :
    headerValid f = headerValid m ∧ sequenceOf f = sequenceOf m ∧ firstCoilOf f = firstCoilOf m := by
  refine ⟨funext fun page => ?_, funext fun page => ?_, funext fun page => ?_⟩
  · rw [headerValid, Memory.number, headerBytes_kept h page (by decide),
      headerBytes_kept h page (by decide), headerValid, Memory.number]
  · rw [sequenceOf, Memory.number, headerBytes_kept h page (by decide), sequenceOf, Memory.number]
  · rw [firstCoilOf, Memory.number, headerBytes_kept h page (by decide), firstCoilOf, Memory.number]

/-- The oldest and the newest page are those of the headers. -/
theorem atHeaders_kept (h : HeadersKept m f) :
    oldestPage f = oldestPage m ∧ newestPage f = newestPage m := by
  obtain ⟨hvalid, hsequence, -⟩ := headers_kept h
  have hpages : headeredPages f = headeredPages m := by rw [headeredPages, hvalid, headeredPages]
  refine ⟨?_, ?_⟩
  · rw [oldestPage, hpages, hsequence, oldestPage]
  · rw [newestPage, hpages, hsequence, newestPage]

/-- A page that holds the bytes of a header has it, with its numbers. -/
theorem header_of_bytes {sequence coil : Nat} (hsequence : sequence ≤ 4294967295)
    (hcoil : coil ≤ 4294967295)
    (h : f.bytes page 118 (headerBytes sequence coil).length = headerBytes sequence coil) :
    headerValid f page = true ∧ sequenceOf f page = sequence ∧ firstCoilOf f page = coil := by
  have hlen := headerBytes_length sequence coil
  have hnumbers : (be 4 sequence ++ be 4 coil).length = 8 := by simp [be_length]
  have hfirst := bytes_part (n := 0) (k := 4) h (by omega)
  have hsecond := bytes_part (n := 4) (k := 4) h (by omega)
  have hboth := bytes_part (n := 0) (k := 8) h (by omega)
  have hword := bytes_part (n := 8) (k := 2) h (by omega)
  refine ⟨?_, ?_, ?_⟩
  · have htake : ((headerBytes sequence coil).drop 0).take 8 = be 4 sequence ++ be 4 coil :=
      List.take_left' hnumbers
    have hdrop : ((headerBytes sequence coil).drop 8).take 2
        = be 2 (crc16 (be 4 sequence ++ be 4 coil)) := by
      rw [headerBytes, List.drop_left' hnumbers]
      exact List.take_of_length_le (be_length ..).le
    refine beq_iff_eq.mpr ((congrArg crc16 (hboth.trans htake)).trans ?_)
    refine Eq.trans ?_ (congrArg unbe (hword.trans hdrop)).symm
    exact (unbe_be (decide_eq_true (crc16_lt _))).symm
  · have htake : ((headerBytes sequence coil).drop 0).take 4 = be 4 sequence := by
      simp only [headerBytes, List.append_assoc, List.drop_zero]
      exact List.take_left' (be_length ..)
    exact (congrArg unbe (hfirst.trans htake)).trans (unbe_be (decide_eq_true (by omega)))
  · have htake : ((headerBytes sequence coil).drop 4).take 4 = be 4 coil := by
      simp only [headerBytes, List.append_assoc]
      rw [List.drop_left' (be_length ..)]
      exact List.take_left' (be_length ..)
    exact (congrArg unbe (hsecond.trans htake)).trans (unbe_be (decide_eq_true (by omega)))

/-! ### The page begun -/

/-- The memory of a page erased and given its header, nothing failing. -/
def begunPage (page sequence coil : Nat) (m : Memory) : Memory :=
  Memory.program [] page 118 (headerBytes sequence coil) (Memory.erase [] page m)

theorem begunPage_wf (sequence coil : Nat) (hm : m.wf = true) :
    (begunPage page sequence coil m).wf = true :=
  program_wf (erase_wf hm)

theorem read_erased {a : Nat} (h1 : 512 * page ≤ a) (h2 : a < 512 * (page + 1)) :
    (Memory.erase [] page m).read a = erasedByte :=
  read_of_pageErased (erase_pageErased page m) (by rw [addressOf_zero]; exact h1)
    (by rw [addressOf_zero]; exact h2)

theorem header_clean (sequence coil : Nat) (hm : m.wf = true) :
    (clean (Memory.erase [] page m)).program page 118 (headerBytes sequence coil)
      = (clean (begunPage page sequence coil m), true) := by
  have hlen := headerBytes_length sequence coil
  exact program_clean (erase_wf hm) fun i hi =>
    read_erased (by rw [addressOf_eq]; omega) (by rw [addressOf_eq]; omega)

theorem begunPage_header {sequence coil : Nat} (hm : m.wf = true)
    (hsequence : sequence ≤ 4294967295) (hcoil : coil ≤ 4294967295) :
    headerValid (begunPage page sequence coil m) page = true ∧
      sequenceOf (begunPage page sequence coil m) page = sequence ∧
      firstCoilOf (begunPage page sequence coil m) page = coil := by
  have hbytes := program_verified (congrArg Prod.snd (header_clean (page := page) sequence coil hm))
  rw [header_clean sequence coil hm] at hbytes
  exact header_of_bytes hsequence hcoil hbytes

theorem begunPage_free (sequence coil : Nat) {slot : Nat} (hslot : slot ≤ 3) :
    isFree (begunPage page sequence coil m) ⟨page, slot⟩ = true := by
  have hlen := headerBytes_length sequence coil
  refine (isFree_iff _ _).mpr fun i hi => ?_
  refine (read_program_outside ?_).trans (read_erased (by simp only; omega) (by simp only; omega))
  rw [addressOf_eq]
  simp only
  omega

theorem begunPage_outside (sequence coil : Nat) {a : Nat} (h : OutsidePage page a) :
    (begunPage page sequence coil m).read a = m.read a := by
  have hlen := headerBytes_length sequence coil
  rw [OutsidePage] at h
  refine (read_program_outside ?_).trans (read_erase_outside ?_)
  · rw [addressOf_eq]
    omega
  · rw [addressOf_zero, addressOf_zero]
    exact h

/-- A record written to a slot leaves every header. -/
theorem headersKept_of_slot {slot : Nat}
    (h : ∀ a, a < 512 * page + 128 * slot ∨ 512 * page + 128 * slot + 118 ≤ a → f.read a = m.read a) :
    HeadersKept m f := fun k i hi => h _ (by omega)

/-- A slot stays FREE where its bytes do not change. -/
theorem isFree_congr {p : SlotPlace} (hfree : isFree m p = true)
    (h : ∀ i, i < 118 → f.read (512 * p.page + 128 * p.slot + i)
      = m.read (512 * p.page + 128 * p.slot + i)) : isFree f p = true :=
  (isFree_iff _ _).mpr fun i hi => (h i hi).trans ((isFree_iff _ _).mp hfree i hi)

/-! ### Attempts -/

section
variable {s : State} {l : LineId} {r : PendingRecord}

/-- An attempt on a FREE slot, nothing failing. -/
theorem coilWrite_of_free (hrun : s.runningOp = some (.coilWrite l))
    (hrecord : (s.pack l).record = some r) (hclosed : s.log.closed = false)
    (hbegun : s.log.toBegin = false) (hfree : isFree s.flash ⟨s.log.page, s.log.slot⟩ = true)
    (hwf : s.flash.wf = true) :
    ∃ f, coilWriteEvent [] s
        = endOp (recordWritten l { s with flash := f, log := s.log.spend.advance }) ∧
      HoldsRecord f ⟨s.log.page, s.log.slot⟩ s.log.next r.coil ∧
      (∀ a, a < 512 * s.log.page + 128 * s.log.slot ∨ 512 * s.log.page + 128 * s.log.slot + 118 ≤ a →
        f.read a = s.flash.read a) := by
  obtain ⟨f, htry, hheld, hother⟩ := tryWrite_clean r.coil hclosed hbegun hwf hfree
  exact ⟨f, coilWriteEvent_of_running hrun hrecord (attemptWrite_of_passed htry), hheld, hother⟩

/-- An attempt with the log closed, or its next page full of records not TAKEN. -/
theorem coilWrite_of_full {faults : List StepFault} (hrun : s.runningOp = some (.coilWrite l))
    (hrecord : (s.pack l).record = some r)
    (hfull : s.log.closed = true ∨ nextIsFull s.flash s.log = true) :
    coilWriteEvent faults s = holdOp (recordHeld l .full s) := by
  have htry : tryWrite r.coil ⟨began faults s.flash, s.log⟩ = (⟨began faults s.flash, s.log⟩, .full) := by
    cases hclosed : s.log.closed with
    | true => exact tryWrite_of_closed r.coil hclosed
    | false =>
      have hnext : nextIsFull s.flash s.log = true := by simpa [hclosed] using hfull
      have hbegin : s.log.toBegin = true := by
        simp only [nextIsFull, Bool.and_eq_true] at hnext
        exact hnext.1.1
      obtain ⟨hrefused, -, -⟩ := tryWrite_begins r.coil ⟨began faults s.flash, s.log⟩ hclosed hbegin
      refine hrefused ?_
      rw [Bool.or_eq_true]
      exact .inl hnext
  exact coilWriteEvent_of_running hrun hrecord (attemptWrite_of_full htry)

/-- At the first slot of a page a write moves on to the second. -/
theorem spend_advance_of_first {x : LogState} (h : x.slot = 0) :
    x.spend.advance = LogState.spend { x with slot := 1 } := by
  have hslot : ∀ y : LogState, y.slot = 0 → y.advance = { y with slot := 1 } := by
    intro y hy
    rw [LogState.advance, hy]
    rfl
  by_cases hlast : x.next = top32 <;> simp [LogState.spend, hlast, hslot, h]

/-- A try that begins its page, nothing failing. -/
theorem tryWrite_begins_clean {m : Memory} {x : LogState} {sequence : Nat} (coil : CoilRecord)
    (hclosed : x.closed = false) (hbegin : x.toBegin = true) (hfull : nextIsFull m x = false)
    (hm : m.wf = true)
    (hsequence : (x.newest.map (sequenceOf m)).elim 1 (· + 1) = sequence)
    (hlast : sequence ≤ 4294967295) :
    tryWrite coil ⟨clean m, x⟩
      = tryWrite coil ⟨clean (begunPage x.page sequence x.next m),
          { x with
            oldest := oldestPage (begunPage x.page sequence x.next m)
            newest := newestPage (begunPage x.page sequence x.next m)
            toBegin := false }⟩ := by
  obtain ⟨-, -, hbegun⟩ := tryWrite_begins coil ⟨clean m, x⟩ hclosed hbegin
  have hheader := header_clean (page := x.page) sequence x.next hm
  simp only [clean_mem, hsequence, hfull, erase_clean, hheader, Bool.false_or] at hbegun
  exact hbegun (decide_eq_false (by omega)) trivial trivial

/-- An attempt that begins its page, nothing failing. -/
theorem coilWrite_of_begin {sequence : Nat} (hrun : s.runningOp = some (.coilWrite l))
    (hrecord : (s.pack l).record = some r) (hclosed : s.log.closed = false)
    (hbegin : s.log.toBegin = true) (hslot : s.log.slot = 0)
    (hfull : nextIsFull s.flash s.log = false) (hwf : s.flash.wf = true)
    (hsequence : (s.log.newest.map (sequenceOf s.flash)).elim 1 (· + 1) = sequence)
    (hlast : sequence ≤ 4294967295) :
    ∃ f, coilWriteEvent [] s
        = endOp (recordWritten l
            { s with
              flash := f
              log := LogState.spend
                { s.log with
                  oldest := oldestPage f, newest := newestPage f, toBegin := false, slot := 1 } }) ∧
      HoldsRecord f ⟨s.log.page, 0⟩ s.log.next r.coil ∧
      (∀ a, a < 512 * s.log.page + 128 * 0 ∨ 512 * s.log.page + 128 * 0 + 118 ≤ a →
        f.read a = (begunPage s.log.page sequence s.log.next s.flash).read a) := by
  have hfree := begunPage_free (page := s.log.page) (m := s.flash) sequence s.log.next (slot := s.log.slot)
    (by omega)
  obtain ⟨f, htry, hheld, hother⟩ := tryWrite_clean r.coil
    (x := { s.log with
      oldest := oldestPage (begunPage s.log.page sequence s.log.next s.flash)
      newest := newestPage (begunPage s.log.page sequence s.log.next s.flash)
      toBegin := false })
    hclosed rfl (begunPage_wf sequence s.log.next hwf) hfree
  rw [← tryWrite_begins_clean r.coil hclosed hbegin hfull hwf hsequence hlast] at htry
  obtain ⟨holdest, hnewest⟩ := atHeaders_kept (headersKept_of_slot hother)
  simp only [hslot] at hheld hother
  refine ⟨f, (coilWriteEvent_of_running hrun hrecord (attemptWrite_of_passed htry)).trans ?_, hheld,
    hother⟩
  rw [holdest, hnewest]
  exact congrArg (fun log => endOp (recordWritten l { s with flash := f, log := log }))
    (spend_advance_of_first hslot)

/-- An attempt whose first body does not read back, and nothing else failing: the slot is spoiled, and the next takes
the record. -/
theorem coilWrite_of_spoiled {fault : StepFault} (hrun : s.runningOp = some (.coilWrite l))
    (hrecord : (s.pack l).record = some r) (hclosed : s.log.closed = false)
    (hbegun : s.log.toBegin = false) (hslot : s.log.slot < 3)
    (hfree : isFree s.flash ⟨s.log.page, s.log.slot + 1⟩ = true) (hwf : s.flash.wf = true)
    (hbody : (Memory.program fault s.log.page (128 * s.log.slot + 1)
      (recordBody s.log.next r.coil) s.flash).bytes s.log.page (128 * s.log.slot + 1)
        (recordBody s.log.next r.coil).length ≠ recordBody s.log.next r.coil) :
    ∃ f, coilWriteEvent [fault] s
        = endOp (recordWritten l
            { s with
              flash := f
              log := ({ s.log with slot := s.log.slot + 1 } : LogState).spend.advance }) ∧
      f.read (512 * s.log.page + 128 * s.log.slot) = 0 ∧
      HoldsRecord f ⟨s.log.page, s.log.slot + 1⟩ s.log.next r.coil := by
  have hadvance : s.log.advance = { s.log with slot := s.log.slot + 1 } := if_pos hslot
  have hlen := recordBody_length s.log.next r.coil
  let spoiled := Memory.program fault s.log.page (128 * s.log.slot + 1)
    (recordBody s.log.next r.coil) s.flash
  have hfirst : writeSlot r.coil ⟨began [fault] s.flash, s.log⟩ = (clean spoiled, false) := by
    have hprogram : (began [fault] s.flash).program s.log.page (128 * s.log.slot + 1)
        (recordBody s.log.next r.coil) = (clean spoiled, false) :=
      Prod.ext rfl (beq_eq_false_iff_ne.mpr hbody)
    rw [writeSlot_eq]
    simp only [hprogram, Bool.false_eq_true, if_false]
  obtain ⟨left, hspoil, hleft, hzero, hrest⟩ := spoil_clean s.log (m := spoiled) (program_wf hwf)
  have hfailed : tryWrite r.coil ⟨began [fault] s.flash, s.log⟩
      = (⟨clean left, { s.log with slot := s.log.slot + 1 }⟩, .failed) := by
    rw [tryWrite_of_begun r.coil hclosed hbegun, hfirst]
    simp only [Bool.false_eq_true, if_false, hspoil, hadvance]
  have hnext : isFree left ⟨s.log.page, s.log.slot + 1⟩ = true := by
    refine isFree_congr hfree fun i hi => ?_
    refine (hrest _ (by simp only; omega)).trans ?_
    exact read_programSlot_outside (.inr (by simp only; omega)) (by rw [hlen])
  obtain ⟨f, htry, hheld, hother⟩ := tryWrite_clean r.coil
    (x := { s.log with slot := s.log.slot + 1 }) hclosed hbegun hleft hnext
  obtain ⟨hpassed, -, -⟩ := attemptWrite_of_failed hfailed
  refine ⟨f, coilWriteEvent_of_running hrun hrecord (hpassed _ htry), ?_, hheld⟩
  exact (hother _ (.inl (by simp only; omega))).trans hzero

end

end Sys2Proof.Machine
end

section
/-! The obligation on the write of coil records (R149, R155 to R159). -/

namespace Sys2Proof.Machine

/-- The contents of a record are those of chapter 11, field by field. -/
theorem recordContents_eq (number : Nat) (r : CoilRecord) :
    r.bytes number
      = (let padded := fun (n : Nat) (x : List Byte) => (x ++ List.replicate n (0 : Byte)).take n
        be 4 number
          ++ be 1 (16 * (match r.line with | .rope => 8 | .net => 9)
            + (match r.grade with | .a => 1 | .b => 2 | .c => 3))
          ++ be 2 r.order ++ be 1 r.slot ++ be 2 r.check ++ be 4 r.start ++ be 4 r.length ++ [r.flags]
          ++ padded 10 (r.kindCounts.flatMap (be 1)) ++ padded 16 (r.packages.flatMap (be 2))
          ++ padded 70 (r.entries.flatMap fun e =>
            be 4 e.offset ++ be 3 e.span ++ be 1 (e.kind.code + if e.source.isSome then 128 else 0)
              ++ be 2 (e.source.getD 0))) := by
  obtain ⟨line, order, slot, check, start, length, grade, flags, kindCounts, packages, entries⟩ := r
  cases line <;> cases grade <;> rfl

/-- Settles O59: the attempts by their tries, the pages and slots by the steps that nothing or one fault fails. -/
theorem coilWritesRecord : Obligations.CoilWritesRecord := by
  unfold Obligations.CoilWritesRecord
  intro contents
  have hcontents : ∀ n r, r.bytes n = contents n r := recordContents_eq
  refine ⟨?_, ?_, recordWritten_record, fun l s => recordHeld_cause l .full s, ?_, ?_, ?_, ?_,
    tryWrite_begins, recordWritten_eq, recordHeld_eq, spoil_eq, fun x => ⟨rfl, rfl⟩, ?_, ?_⟩
  · intro l r s hrun hrecord hclosed hbegun hnumber hfree hwf
    obtain ⟨f, hevent, hheld, hother⟩ := coilWrite_of_free hrun hrecord hclosed hbegun hfree hwf
    exact ⟨f, congrArg Host.Outcome.next hevent, isRecord_of_record hheld,
      coilNumber_of_record hheld hnumber, isTaken_of_record hheld,
      (slotBytes_of_record hheld).trans (hcontents ..), hother⟩
  · intro faults l r s hrun hrecord hfull
    exact congrArg Host.Outcome.next (coilWrite_of_full hrun hrecord hfull)
  · intro l r s hrun hrecord hclosed hbegin hslot hnumber hfull hwf sequence hlast
    obtain ⟨f, hevent, hheld, hother⟩ :=
      coilWrite_of_begin hrun hrecord hclosed hbegin hslot hfull hwf rfl hlast
    obtain ⟨hvalid, hsequence, hfirst⟩ := headers_kept (headersKept_of_slot hother)
    obtain ⟨bvalid, bsequence, bfirst⟩ :=
      begunPage_header (page := s.log.page) hwf hlast hnumber
    refine ⟨f, congrArg Host.Outcome.next hevent, ?_, ?_, ?_, isRecord_of_record hheld,
      coilNumber_of_record hheld hnumber, isTaken_of_record hheld,
      (slotBytes_of_record hheld).trans (hcontents ..), fun k hlow hhigh => ?_, fun a ha => ?_⟩
    · rw [hvalid, bvalid]
    · rw [hsequence, bsequence]
    · rw [hfirst, bfirst]
    · refine isFree_congr (begunPage_free sequence s.log.next hhigh) fun i hi => hother _ ?_
      simp only
      omega
    · exact (hother a (by omega)).trans (begunPage_outside sequence s.log.next ha)
  · intro fault l r s hrun hrecord hclosed hbegun hslot hnumber hfree hwf body hbody
    obtain ⟨f, hevent, hzero, hheld⟩ :=
      coilWrite_of_spoiled hrun hrecord hclosed hbegun hslot hfree hwf hbody
    exact ⟨f, congrArg Host.Outcome.next hevent, hzero, isRecord_of_record hheld,
      coilNumber_of_record hheld hnumber, isTaken_of_record hheld,
      (slotBytes_of_record hheld).trans (hcontents ..)⟩
  · intro faults l r s hrun hrecord start first second left
    have hevent : ∀ {a e}, attemptWrite r.coil start = (a, e) →
        exec (.coilWriteAttempt faults) s
          = .next (attemptEnds l e { s with flash := a.x.mem, log := a.log }) := fun hend =>
      congrArg Host.Outcome.next (coilWriteEvent_of_running hrun hrecord hend)
    rcases hfirst : first with ⟨a, _ | _ | _⟩
    · exact hevent (attemptWrite_of_passed hfirst)
    · exact hevent (attemptWrite_of_full hfirst)
    · obtain ⟨hpassed, hfull, hfailed⟩ := attemptWrite_of_failed hfirst
      have htry : second = tryWrite r.coil a := congrArg (fun b => tryWrite r.coil b.1) hfirst
      rcases hsecond : second with ⟨c, _ | _ | _⟩
      · exact hevent (hpassed c (htry.symm.trans hsecond))
      · exact hevent (hfull c (htry.symm.trans hsecond))
      · exact hevent (hfailed c (htry.symm.trans hsecond))
  · intro r a body valid
    refine ⟨tryWrite_of_closed r, fun hclosed hbegun => ?_⟩
    have hwritten : writeSlot r a
        = if body.2 then body.1.program a.log.page (128 * a.log.slot) [0x7F] else (body.1, false) :=
      writeSlot_eq r a
    rw [tryWrite_of_begun r hclosed hbegun, hwritten]
    refine ⟨fun hbody hvalid => ?_, fun hbody => ?_, fun hbody hvalid => ?_⟩
    · rw [if_pos hbody]
      exact if_pos hvalid
    · rw [hbody]
      rfl
    · rw [if_pos hbody]
      exact if_neg (by rw [hvalid]; decide)
  · intro number r
    rw [← hcontents]
    exact ⟨rfl, coilBytes_length ..⟩
  · intro m p i count
    simp only [slotBytes_eq, Nat.add_assoc]

end Sys2Proof.Machine
end
